-- ==== Sys2Proof/Word.lean ====
section
/-! DEFINITION. Widths, identifiers and the three traffic classes of the QL4 (spec 00, "Conventions"). -/

namespace Sys2Proof

/-- A word of the host window (R161). -/
abbrev Word := BitVec 32

/-- A cell: 8 bytes, byte 0 in the lowest bits (11, "Cells on the lane"). -/
abbrev Cell := BitVec 64

/-- A node ID, 0–31. -/
abbrev NodeId := BitVec 5

/-- A link, L0–L3. -/
abbrev LinkId := Fin 4

/-- The index of a request entry, 0–15. -/
abbrev ReqIx := Fin 16

/-- The index of a host slot, 0–7. -/
abbrev SlotIx := Fin 8

/-- The traffic classes (R4). -/
inductive Class where
  | req
  | rpy
  | pst
  deriving DecidableEq, Repr

/-- The class code of the header's CLASS field (11, "Codes"). -/
def Class.code : Class → BitVec 2
  | .req => 0
  | .rpy => 1
  | .pst => 2

/-- The class whose queue and reserved region a CLASS code uses: code 3 is stored as PST (R4). -/
def Class.ofCode (c : BitVec 2) : Class :=
  if c = 0 then .req else if c = 1 then .rpy else .pst

/-- One value for each class. -/
structure PerClass (α : Type) where
  req : α
  rpy : α
  pst : α
  deriving DecidableEq, Repr

/-- The value of class `c`. -/
def PerClass.get {α : Type} (p : PerClass α) : Class → α
  | .req => p.req
  | .rpy => p.rpy
  | .pst => p.pst

/-- `p` with the value of class `c` replaced. -/
def PerClass.set {α : Type} (p : PerClass α) (c : Class) (x : α) : PerClass α :=
  match c with
  | .req => { p with req := x }
  | .rpy => { p with rpy := x }
  | .pst => { p with pst := x }

/-- The same value for every class. -/
def PerClass.all {α : Type} (x : α) : PerClass α := ⟨x, x, x⟩

/-- Every value mapped. -/
def PerClass.map {α β : Type} (f : α → β) (p : PerClass α) : PerClass β := ⟨f p.req, f p.rpy, f p.pst⟩

/-- The classes in queue order: REQ, RPY, PST (R62, R93). -/
def classes : List Class := [.req, .rpy, .pst]

/-- The links in order (R93). -/
def linkIds : List LinkId := [0, 1, 2, 3]

/-- The request entries in index order (R117). -/
def reqIxs : List ReqIx := [0, 1, 2, 3, 4, 5, 6, 7, 8, 9, 10, 11, 12, 13, 14, 15]

/-- The host slots in index order (R105). -/
def slotIxs : List SlotIx := [0, 1, 2, 3, 4, 5, 6, 7]

end Sys2Proof
end

