-- ==== Sys2Proof/Syntax.lean ====
section
/-! DEFINITION. The commands and events the part takes: one constructor for each row of spec/opcode_table.json. -/

namespace Sys2Proof

/-- The rows of the table, each with the operands the cited rule reads. -/
inductive Instr where
  /-- SUBMIT (R98). -/
  | submit
  /-- RX_POP (R138). -/
  | rxPop
  /-- CQ_RELEASE (R127). -/
  | cqRelease
  /-- REQ_CANCEL n, n as written (R118, R167). -/
  | reqCancel (n : BitVec 5)
  /-- LINK_RESET n, n as written (R18, R167). -/
  | linkReset (n : BitVec 5)
  /-- SOFT_RESET (R175). -/
  | softReset
  /-- SYNC_ARM k,t (R155). -/
  | syncArm (k : BitVec 5) (t : BitVec 8)
  /-- SYNC_TAKE k (R156). -/
  | syncTake (k : BitVec 5)
  /-- SYNC_DISARM k (R157). -/
  | syncDisarm (k : BitVec 5)
  /-- SYNC_CLEAR k (R158). -/
  | syncClear (k : BitVec 5)
  /-- DROP_CLEAR (R174). -/
  | dropClear
  /-- BAD_COMMAND: a CMD write whose code is unknown (R167). -/
  | badCommand (code : BitVec 4)
  /-- NODE_WRITE (R163). -/
  | nodeWrite (w : Word)
  /-- CTRL_WRITE (R164). -/
  | ctrlWrite (w : Word)
  /-- LCTRL_WRITE on link l (R17, R178). -/
  | lctrlWrite (l : LinkId) (w : Word)
  /-- STATUS_WRITE (R165). -/
  | statusWrite (w : Word)
  /-- EVENT_WRITE (R169). -/
  | eventWrite (w : Word)
  /-- EVENT_EN_WRITE (R170). -/
  | eventEnWrite (w : Word)
  /-- ROUTE_WRITE (R57). -/
  | routeWrite (w : Word)
  /-- GROUP_WRITE (R58). -/
  | groupWrite (w : Word)
  /-- REGISTER_WRITE of the window word at address a (R162). -/
  | registerWrite (a : BitVec 7) (w : Word)
  /-- POWER_ON_RESET: one change of the RESET input's level, its assertion or its release (R176, log 2). -/
  | powerOnReset
  /-- HEADER_CELL_ARRIVAL: a good packet cell on link l (R40). -/
  | headerCellArrival (l : LinkId) (cell : Cell)
  /-- DATA_CELL_ARRIVAL: a good packet cell on link l (R41). -/
  | dataCellArrival (l : LinkId) (cell : Cell)
  /-- INIT_RECEIVED with the node ID and SEEN it carries (R23, R24, R28). -/
  | initReceived (l : LinkId) (node : NodeId) (seen : Bool)
  /-- CREDIT_RECEIVED with the shared count and the reserved-return bits it carries (R50). -/
  | creditReceived (l : LinkId) (count : BitVec 7) (res : PerClass Bool)
  /-- TEARDOWN_CELL_RECEIVED (R30). -/
  | teardownCellReceived (l : LinkId)
  /-- UNKNOWN_CONTROL_CELL (R1). -/
  | unknownControlCell (l : LinkId)
  /-- BAD_CELL (R1). -/
  | badCell (l : LinkId)
  /-- CARRIER_LOSS (R30). -/
  | carrierLoss (l : LinkId)
  /-- HOLD_TIMER_EXPIRY (R19). -/
  | holdTimerExpiry (l : LinkId)
  /-- WAIT_PEER_ENTRY (R20). -/
  | waitPeerEntry (l : LinkId)
  /-- INIT_TIMER_EXPIRY (R22). -/
  | initTimerExpiry (l : LinkId)
  /-- CREDIT_HOLDOFF_EXPIRY (R47). -/
  | creditHoldoffExpiry (l : LinkId)
  /-- REQUEST_TIMER_EXPIRY of entry n (R115). -/
  | requestTimerExpiry (n : ReqIx)
  /-- DISPATCH of the head of an ingress class queue (R60). -/
  | dispatch (l : LinkId) (c : Class)
  /-- RESPONDER_DISPATCH of the head responder job (R74). -/
  | responderDispatch
  /-- TRANSMISSION_START on link l (R85). -/
  | transmissionStart (l : LinkId)
  /-- CREDIT_CELL_SEND on link l (R49). -/
  | creditCellSend (l : LinkId)
  /-- TRANSMISSION_COMPLETION on link l (R87). -/
  | transmissionCompletion (l : LinkId)
  /-- PACKET_CELL_WHILE_NOT_UP: a good packet cell on link l (R26). -/
  | packetCellWhileNotUp (l : LinkId) (cell : Cell)
  deriving DecidableEq, Repr

end Sys2Proof
end

