-- ==== Sys2Proof/Decode.lean ====
section
/-! DEFINITION. Which row a word of the table, a host write or a received cell is. The table's rows give no bits, so
no table word spells a command; the window map (R162, R167) and the cell layouts (R1, R180) do give rows. -/

namespace Sys2Proof

/-- The command a table word spells: none, for the rows of spec/opcode_table.json carry no bits. -/
def decodeTableWord (_nbits _w : Nat) : Option Instr := none

/-- CMD.CODE, bits 3:0. -/
def cmdCode (w : Word) : BitVec 4 := w.extractLsb' 0 4

/-- CMD.N, bits 12:8. -/
def cmdN (w : Word) : BitVec 5 := w.extractLsb' 8 5

/-- CMD.T, bits 23:16. -/
def cmdT (w : Word) : BitVec 8 := w.extractLsb' 16 8

/-- The row of a CMD write: each command reads only its own operand fields (R167; codes of 11). -/
def cmdRow (w : Word) : Instr :=
  if cmdCode w = 1 then .submit
  else if cmdCode w = 2 then .rxPop
  else if cmdCode w = 3 then .cqRelease
  else if cmdCode w = 4 then .reqCancel (cmdN w)
  else if cmdCode w = 5 then .linkReset (cmdN w)
  else if cmdCode w = 6 then .softReset
  else if cmdCode w = 7 then .syncArm (cmdN w) (cmdT w)
  else if cmdCode w = 8 then .syncTake (cmdN w)
  else if cmdCode w = 9 then .syncDisarm (cmdN w)
  else if cmdCode w = 10 then .syncClear (cmdN w)
  else if cmdCode w = 11 then .dropClear
  else .badCommand (cmdCode w)

/-- The row of a host write of `w` to window word `a` (R162, 11 register map). -/
def hostWriteRow (a : BitVec 7) (w : Word) : Instr :=
  if a = 1 then .nodeWrite w
  else if a = 3 then .ctrlWrite w
  else if a = 4 then .statusWrite w
  else if a = 6 then cmdRow w
  else if a = 8 then .eventWrite w
  else if a = 9 then .eventEnWrite w
  else if a = 24 then .lctrlWrite 0 w
  else if a = 25 then .lctrlWrite 1 w
  else if a = 26 then .lctrlWrite 2 w
  else if a = 27 then .lctrlWrite 3 w
  else if a = 41 then .routeWrite w
  else if a = 43 then .groupWrite w
  else .registerWrite a w

/-- A control cell's type byte, word A bits 7:0. -/
def controlType (cell : Cell) : BitVec 8 := cell.extractLsb' 0 8

/-- The row of a good control cell: judged by its type byte, then by the fields that type has (R180). -/
def controlCellRow (l : LinkId) (cell : Cell) : Instr :=
  if controlType cell = 1 then .initReceived l (cell.extractLsb' 8 5) (cell.getLsbD 16)
  else if controlType cell = 2 then
    .creditReceived l (cell.extractLsb' 8 7) ⟨cell.getLsbD 16, cell.getLsbD 17, cell.getLsbD 18⟩
  else if controlType cell = 3 then .teardownCellReceived l
  else .unknownControlCell l

/-- The row of a received cell. `up` and `atBoundary` are the link's state and framing, which tell a header cell from
a data cell (R1); `good` and `control` are the lane layer's marks. -/
def receivedCellRow (l : LinkId) (up atBoundary good control : Bool) (cell : Cell) : Instr :=
  if !good then .badCell l
  else if control then controlCellRow l cell
  else if !up then .packetCellWhileNotUp l cell
  else if atBoundary then .headerCellArrival l cell
  else .dataCellArrival l cell

end Sys2Proof
end

