-- ==== Sys2Proof/Config.lean ====
section
/-! DEFINITION. What the part fixes (spec 00, "Numbers used throughout"), and the free values: opaque constants
of which nothing can be proved, applied to the counter `State.choices`. -/

namespace Sys2Proof.Config

/-- Cells of the shared region of a receive store, and the most shared credit (R35, R38). -/
def sharedCells : Nat := 72

/-- Entries of an egress class queue (R77). -/
def egressEntries : Nat := 16

/-- Entries of the inbound queue (R132). -/
def inboundEntries : Nat := 32

/-- Payload cells of the inbound queue (R132). -/
def inboundCells : Nat := 112

/-- Responder jobs (R141). -/
def responderJobs : Nat := 4

/-- The INIT interval in units (R22). -/
def initInterval : Nat := 128

/-- Units of one count of LINK_HOLD (R19). -/
def holdUnit : Nat := 64

/-- The ID word: part code 0x0E41, revision 1 (R162, 11 register map). -/
def idWord : Word := 0x0E410001

/-- The revision as ID.REV shows it (R147, R162). -/
def revision : BitVec 4 := 1

/-- FREE VALUE (log 4). Whether, at the dispatch numbered by the counter, link `l`'s idle lane decides before the
dispatch (true) or after it (false): R83 leaves the order of a start and of another event at one event open. -/
opaque lanesFirst : Nat → LinkId → Bool

/-- FREE VALUE (log 5). How many data cells of an abandoned packet had gone on the lane (R29, R89), before the
reduction to fewer than its LEN. -/
opaque cellsSent : Nat → Nat

/-- FREE VALUE (log 6). Which of several timers that reach zero in one unit is taken first (R122, R125). -/
opaque nextExpiry : Nat → Nat

end Sys2Proof.Config
end

