-- ==== Sys2Proof/Machine/State.lean ====
section
/-! DEFINITION. Every piece of state of the part, as plain data, and its power-on values (INVENTORY.md, '## State'). -/

namespace Sys2Proof.Machine

/-- No command stops the part: what the manual calls a link fault is a teardown, a next state (R29, R30). -/
inductive Fault where
  deriving DecidableEq, Repr

/-- The one refusal is the interface's, for a command without a meaning; no meaning answers it (safe). -/
inductive Refusal where
  /-- Raised by `exec` alone, for a command that has no meaning yet. Safe. -/
  | notModelled (mnemonic : String)
  deriving DecidableEq, Repr

/-- The header fields of a packet (R3). `cls` is the CLASS code, of which 3 is malformed (R4). -/
structure Header where
  dest : NodeId
  src  : NodeId
  cls  : BitVec 2
  kind : BitVec 3
  grp  : Bool
  tag  : BitVec 6
  len  : BitVec 3
  hops : BitVec 5
  pool : Bool
  user : BitVec 16
  deriving DecidableEq, Repr

/-- The region of a receive store a packet occupies (R35). -/
inductive Region where
  | shared
  | reserved
  deriving DecidableEq, Repr

/-- The condition of a stored packet (R35). -/
inductive Condition where
  | inReception
  | queued
  | dispatched
  deriving DecidableEq, Repr

/-- A stored-packet record (R35). `id` is the name by which egress entries refer to it (log 8). -/
structure StoredPacket where
  id     : Nat
  hdr    : Header
  data   : List Cell
  region : Region
  cond   : Condition
  copies : Nat
  deriving DecidableEq, Repr

/-- A link's receive store (R35–R37, R47). `packets` stands in header arrival order. -/
structure Store where
  packets     : List StoredPacket
  nextId      : Nat
  awaitShared : Nat
  awaitRes    : PerClass Bool
  holdoff     : Option Nat
  elapsed     : Bool
  deriving DecidableEq, Repr

/-- Where an egress entry's packet is kept (R77). -/
inductive Source where
  | store (l : LinkId) (id : Nat)
  | slot (i : SlotIx)
  | job (id : Nat)
  deriving DecidableEq, Repr

/-- An egress queue entry (R77). -/
structure EgressEntry where
  source  : Source
  cls     : Class
  length  : Nat
  hopsOut : BitVec 5
  group   : Bool
  started : Bool
  deriving DecidableEq, Repr

/-- A link's transmitter (R38, R77, R81). -/
structure Transmitter where
  queues   : PerClass (List EgressEntry)
  shared   : Nat
  reserved : PerClass Bool
  cur      : Class
  run      : Nat
  deriving DecidableEq, Repr

/-- Link states (R16; codes of 11). -/
inductive LinkState where
  | off
  | hold
  | waitPeer
  | up
  deriving DecidableEq, Repr

/-- Teardown causes; `none` is recorded by no teardown (R16, 02 table before R29). -/
inductive Cause where
  | none
  | hostDisable
  | hostReset
  | softReset
  | carrierLoss
  | cellError
  | controlError
  | creditOverrun
  | creditReturnError
  | peerTeardown
  | peerRestart
  | sameId
  deriving DecidableEq, Repr

/-- The fields of LCTRLn (11, "Link control"; R178). -/
structure LinkCtrl where
  enable    : Bool
  auto      : Bool
  tsel      : Bool
  linkHold  : BitVec 8
  crHoldoff : BitVec 8
  quantum   : BitVec 8
  crThresh  : BitVec 7
  deriving DecidableEq, Repr

/-- A link controller with its receive store and transmitter (R16). A timer is `none` when stopped, else its remaining
units. -/
structure Link where
  state     : LinkState
  seen      : Bool
  peer      : NodeId
  cause     : Cause
  initTimer : Option Nat
  holdTimer : Option Nat
  ctrl      : LinkCtrl
  store     : Store
  tx        : Transmitter
  deriving DecidableEq, Repr

/-- A held host slot (R97). -/
structure Slot where
  hdr    : Header
  data   : List Cell
  copies : Nat
  req    : Option ReqIx
  deriving DecidableEq, Repr

/-- States of a request entry (R111). -/
inductive ReqState where
  | free
  | queued
  | sent
  | done
  deriving DecidableEq, Repr

/-- Completion statuses (R14). -/
inductive Status where
  | ok
  | refused
  | unreachable
  | timeout
  | linkLost
  | cancelled
  deriving DecidableEq, Repr

/-- A request entry (07, table before R111). -/
structure ReqEntry where
  gen           : BitVec 2
  state         : ReqState
  cancelPending : Bool
  dest          : NodeId
  egress        : LinkId
  slot          : Option SlotIx
  captured      : BitVec 16
  remaining     : BitVec 16
  user          : BitVec 16
  status        : Option Status
  replyKind     : Option (BitVec 3)
  replyUser     : BitVec 16
  replySrc      : NodeId
  replyLen      : BitVec 3
  replyData     : Vector Cell 7
  deriving DecidableEq, Repr

/-- An entry of the inbound queue (R132, R134). -/
structure InboundEntry where
  link : LinkId
  dest : NodeId
  grp  : Bool
  src  : NodeId
  cls  : BitVec 2
  kind : BitVec 3
  tag  : BitVec 6
  user : BitVec 16
  len  : BitVec 3
  data : List Cell
  deriving DecidableEq, Repr

/-- Kinds of responder job (R141). -/
inductive JobKind where
  | probeReply
  | refused
  | unreachable
  deriving DecidableEq, Repr

/-- Conditions of a responder job (R141). -/
inductive JobCondition where
  | waiting
  | sent
  deriving DecidableEq, Repr

/-- A responder job (R141). `payload` is empty but for PROBE_REPLY. -/
structure Job where
  id        : Nat
  kind      : JobKind
  requester : NodeId
  addressed : NodeId
  tag       : BitVec 6
  user      : BitVec 16
  payload   : List Cell
  cond      : JobCondition
  copies    : Nat
  deriving DecidableEq, Repr

/-- A sync counter (R151). -/
structure SyncCounter where
  count    : BitVec 8
  target   : BitVec 8
  armed    : Bool
  fired    : Bool
  overflow : Bool
  deriving DecidableEq, Repr

/-- Routing actions (R56); code 3 is stored as DISCARD (R57). -/
inductive RouteAction where
  | discard
  | toLink
  | here
  deriving DecidableEq, Repr

/-- A routing table entry (R56). -/
structure RouteEntry where
  action : RouteAction
  link   : LinkId
  deriving DecidableEq, Repr

/-- A group table entry (R58). -/
structure GroupEntry where
  enable : Bool
  mask   : BitVec 4
  member : Bool
  deriving DecidableEq, Repr

/-- Result codes (11, "Codes"). -/
inductive ResultCode where
  | ok
  | badCommand
  | badField
  | badDest
  | noSlot
  | tableFull
  | noRoute
  | linkDown
  | egressFull
  | empty
  | notActive
  | notReady
  deriving DecidableEq, Repr

/-- RESULT (R168). -/
structure Result where
  cmd   : BitVec 4
  res   : ResultCode
  index : BitVec 4
  tag   : BitVec 6
  deriving DecidableEq, Repr

/-- Drop reasons (R171). -/
inductive DropReason where
  | malformed
  | noRoute
  | linkDown
  | hopLimit
  | badGroup
  | rxDisabled
  | stale
  deriving DecidableEq, Repr

/-- Drop origins (R172). -/
inductive Origin where
  | link (l : LinkId)
  | host
  | responder
  deriving DecidableEq, Repr

/-- What the capture record holds of a drop (R172). -/
structure DropRecord where
  reason : DropReason
  origin : Origin
  dest   : NodeId
  src    : NodeId
  cls    : BitVec 2
  kind   : BitVec 3
  tag    : BitVec 6
  deriving DecidableEq, Repr

/-- The words of the host port itself (R162–R168, R96). `compose` is TX_HDR, TX_AUX, TX_DATA0–13. -/
structure Port where
  node        : NodeId
  label       : Word
  rxEnable    : Bool
  defaultHops : BitVec 5
  tbDiv       : BitVec 8
  reqTimeout  : BitVec 16
  cfgReject   : Bool
  result      : Result
  compose     : Vector Word 16
  deriving DecidableEq, Repr

/-- The event unit (R169–R172). -/
structure EventUnit where
  latch     : BitVec 7
  enable    : BitVec 7
  dropCount : BitVec 16
  capture   : Option DropRecord
  deriving DecidableEq, Repr

/-- The route unit (R56–R58, R62). `position` numbers the thirteen sources L0 REQ … L3 PST, responder from 0. -/
structure RouteUnit where
  routeSel : BitVec 5
  routes   : Vector RouteEntry 32
  groupSel : BitVec 3
  groups   : Vector GroupEntry 8
  position : Fin 13
  deriving DecidableEq, Repr

/-- A cell handed to a lane, with the mark the lane layer carries (01, "Cells on a lane"). -/
structure LaneCell where
  control : Bool
  cell    : Cell
  deriving DecidableEq, Repr

/-- The whole part. `inReset` is the RESET input, set while it is asserted (R176). `lane`, `choices` and the two name
supplies are the model's own (logs 4, 5, 8); `pending` is the queue of waiting commands. -/
structure State where
  inReset : Bool
  port    : Port
  events  : EventUnit
  route   : RouteUnit
  links   : Vector Link 4
  slots   : Vector (Option Slot) 8
  reqs    : Vector ReqEntry 16
  cq      : List ReqIx
  inbound : List InboundEntry
  jobs    : List Job
  nextJob : Nat
  sync    : Vector SyncCounter 8
  divider : Nat
  lane    : Vector (List LaneCell) 4
  choices : Nat
  pending : List Instr
  deriving DecidableEq, Repr

/-- An empty receive store (R55). -/
def Store.empty : Store := ⟨[], 0, 0, PerClass.all false, none, false⟩

/-- A transmitter with empty queues and no credit, its scheduler at REQ and 0 (R38, R81, R95). -/
def Transmitter.idle : Transmitter := ⟨PerClass.all [], 0, PerClass.all false, .req, 0⟩

/-- LCTRLn after power-on reset, 0x10200400 (R178). -/
def LinkCtrl.powerOn : LinkCtrl := ⟨false, false, false, 4, 8, 32, 16⟩

/-- A link after power-on reset (R16, R55, R95). -/
def Link.powerOn : Link := ⟨.off, false, 0, .none, none, none, LinkCtrl.powerOn, Store.empty, Transmitter.idle⟩

/-- A FREE request entry of a generation: every other field zero or absent (R111, R130). -/
def ReqEntry.free (gen : BitVec 2) : ReqEntry :=
  ⟨gen, .free, false, 0, 0, none, 0, 0, 0, none, none, 0, 0, 0, Vector.replicate 7 0⟩

/-- A sync counter after either reset (R151, R160). -/
def SyncCounter.initial : SyncCounter := ⟨0, 1, false, false, false⟩

/-- The port after power-on reset (R176). -/
def Port.powerOn : Port := ⟨0, 0, false, 16, 50, 1000, false, ⟨0, .ok, 0, 0⟩, Vector.replicate 16 0⟩

/-- The machine right after power-on reset (R176): RESET released, nothing sent, no free value read and no command waiting. -/
def State.reset : State where
  inReset := false
  port    := Port.powerOn
  events  := ⟨0, 0, 0, none⟩
  route   := ⟨0, Vector.replicate 32 ⟨.discard, 0⟩, 0, Vector.replicate 8 ⟨false, 0, false⟩, 11⟩
  links   := Vector.replicate 4 Link.powerOn
  slots   := Vector.replicate 8 none
  reqs    := Vector.replicate 16 (ReqEntry.free 0)
  cq      := []
  inbound := []
  jobs    := []
  nextJob := 0
  sync    := Vector.replicate 8 SyncCounter.initial
  divider := 0
  lane    := Vector.replicate 4 []
  choices := 0
  pending := []

end Sys2Proof.Machine
end

