-- ==== Sys2Proof/Machine/Operands.lean ====
section
/-! DEFINITION. The layouts of 11: header and control cells, the compose window, the configuration words, the codes. -/

namespace Sys2Proof.Machine

/-! ### Cells -/

/-- Word A of a cell: bytes 0–3. -/
def lowWord (c : Cell) : Word := c.extractLsb' 0 32

/-- Word B of a cell: bytes 4–7. -/
def highWord (c : Cell) : Word := c.extractLsb' 32 32

/-- A cell from its words A and B. -/
def cellOf (a b : Word) : Cell := b ++ a

/-- The header fields a header cell carries; unassigned positions are not read (R3, R180). -/
def Header.ofCell (c : Cell) : Header where
  dest := c.extractLsb' 0 5
  src  := c.extractLsb' 8 5
  cls  := c.extractLsb' 16 2
  kind := c.extractLsb' 20 3
  grp  := c.getLsbD 23
  tag  := c.extractLsb' 24 6
  len  := c.extractLsb' 32 3
  hops := c.extractLsb' 40 5
  pool := c.getLsbD 47
  user := c.extractLsb' 48 16

/-- The header cell built from the fields, every unassigned position 0 (R3, R180). -/
def Header.toCell (h : Header) : Cell :=
  h.user ++ BitVec.ofBool h.pool ++ 0#2 ++ h.hops ++ 0#5 ++ h.len ++ 0#2 ++ h.tag ++ BitVec.ofBool h.grp ++ h.kind
    ++ 0#2 ++ h.cls ++ 0#3 ++ h.src ++ 0#3 ++ h.dest

/-- A header of zeros: what an entry without a source would be built from. No reached state has one. -/
def Header.zero : Header := ⟨0, 0, 0, 0, false, 0, 0, 0, false, 0⟩

/-- The class whose queue and region the packet uses (R4). -/
def Header.queueClass (h : Header) : Class := Class.ofCode h.cls

/-- The packet's length in cells, 1 + LEN (R2). -/
def Header.cells (h : Header) : Nat := 1 + h.len.toNat

/-- An INIT cell (11, "Cells on the lane"; R22, R180). -/
def initCell (node : NodeId) (seen : Bool) : Cell :=
  0#47 ++ BitVec.ofBool seen ++ 0#3 ++ node ++ 1#8

/-- A CREDIT cell (11, "Cells on the lane"; R49, R180). -/
def creditCell (count : BitVec 7) (res : PerClass Bool) : Cell :=
  0#45 ++ BitVec.ofBool res.pst ++ BitVec.ofBool res.rpy ++ BitVec.ofBool res.req ++ 0#1 ++ count ++ 2#8

/-- A TEARDOWN cell (11, "Cells on the lane"). -/
def teardownCell : Cell := 3

/-! ### Kinds -/

/-- Whether KIND is valid for CLASS (R5). -/
def validKind (cls : BitVec 2) (kind : BitVec 3) : Bool :=
  decide ((cls = 0 ∧ kind ≤ 1) ∨ (cls = 1 ∧ kind ≤ 2) ∨ (cls = 2 ∧ kind ≤ 1))

/-- The four conditions of R6. -/
def Header.malformed (h : Header) : Bool :=
  decide (h.cls = 3) || !validKind h.cls h.kind || (h.grp && decide (h.cls ≠ 2)) || (h.grp && decide (7 < h.dest))

/-- KIND of the reply a job sends (R10, R145). -/
def JobKind.code : JobKind → BitVec 3
  | .probeReply => 0
  | .refused => 1
  | .unreachable => 2

/-- LEN of the reply a job sends (R10). -/
def JobKind.len : JobKind → BitVec 3
  | .probeReply => 2
  | _ => 0

/-! ### The compose window (R96; 11, "Compose, receive and completion windows") -/

/-- The header SUBMIT reads from TX_HDR and TX_AUX. SRC and POOL are not read (R96): SRC is left 0 here. -/
def composedHeader (w : Vector Word 16) : Header where
  dest := w[0].extractLsb' 0 5
  src  := 0
  cls  := w[0].extractLsb' 10 2
  kind := w[0].extractLsb' 12 3
  grp  := w[0].getLsbD 15
  tag  := w[0].extractLsb' 16 6
  len  := w[0].extractLsb' 22 3
  hops := w[0].extractLsb' 25 5
  pool := false
  user := w[1].extractLsb' 0 16

/-- The seven data cells of the window: cell j from TX_DATA words 2j and 2j + 1. -/
def composedCells (w : Vector Word 16) : List Cell :=
  [cellOf w[2] w[3], cellOf w[4] w[5], cellOf w[6] w[7], cellOf w[8] w[9], cellOf w[10] w[11], cellOf w[12] w[13],
    cellOf w[14] w[15]]

/-! ### Configuration words (11) -/

/-- QUANTUM of an LCTRLn word, bits 23:16. -/
def lctrlQuantum (w : Word) : BitVec 8 := w.extractLsb' 16 8

/-- CR_THRESH of an LCTRLn word, bits 30:24. -/
def lctrlThresh (w : Word) : BitVec 7 := w.extractLsb' 24 7

/-- Whether an LCTRLn write is accepted: QUANTUM in 8–255 and CR_THRESH in 1–72 (R17, R81, R55). -/
def lctrlAccepted (w : Word) : Bool :=
  decide (8 ≤ lctrlQuantum w ∧ 1 ≤ lctrlThresh w ∧ lctrlThresh w ≤ 72)

/-- The fields an accepted LCTRLn write leaves (R178): TIME goes to the quantity TSEL selects. -/
def LinkCtrl.written (k : LinkCtrl) (w : Word) : LinkCtrl where
  enable    := w.getLsbD 0
  auto      := w.getLsbD 1
  tsel      := w.getLsbD 7
  linkHold  := if w.getLsbD 7 then k.linkHold else w.extractLsb' 8 8
  crHoldoff := if w.getLsbD 7 then w.extractLsb' 8 8 else k.crHoldoff
  quantum   := lctrlQuantum w
  crThresh  := lctrlThresh w

/-- Whether a CTRL write is accepted: neither DEFAULT_HOPS nor TB_DIV is 0 (R164). -/
def ctrlAccepted (w : Word) : Bool :=
  decide (w.extractLsb' 8 5 ≠ 0 ∧ w.extractLsb' 16 8 ≠ 0)

/-- The action of a ROUTE word: the code that names none is stored as DISCARD (R57). -/
def RouteAction.ofCode (c : BitVec 2) : RouteAction :=
  if c = 1 then .toLink else if c = 2 then .here else .discard

/-- The entry a ROUTE write stores (R57). -/
def RouteEntry.ofWord (w : Word) : RouteEntry :=
  ⟨RouteAction.ofCode (w.extractLsb' 0 2), (w.extractLsb' 4 2).toFin⟩

/-- The entry a GROUP write stores (R58). -/
def GroupEntry.ofWord (w : Word) : GroupEntry :=
  ⟨w.getLsbD 7, w.extractLsb' 0 4, w.getLsbD 4⟩

/-! ### Operand ranges (R167) -/

/-- A link operand, if it is 0–3. -/
def linkOperand (n : BitVec 5) : Option LinkId := if h : n.toNat < 4 then some ⟨n.toNat, h⟩ else none

/-- A request entry operand, if it is 0–15. -/
def entryOperand (n : BitVec 5) : Option ReqIx := if h : n.toNat < 16 then some ⟨n.toNat, h⟩ else none

/-- A counter operand, if it is 0–7. -/
def counterOperand (k : BitVec 5) : Option (Fin 8) := if h : k.toNat < 8 then some ⟨k.toNat, h⟩ else none

/-! ### Codes (11, "Codes") -/

/-- Result code. -/
def ResultCode.code : ResultCode → BitVec 4
  | .ok => 0
  | .badCommand => 1
  | .badField => 2
  | .badDest => 3
  | .noSlot => 4
  | .tableFull => 5
  | .noRoute => 6
  | .linkDown => 7
  | .egressFull => 8
  | .empty => 9
  | .notActive => 10
  | .notReady => 11

/-- Teardown cause code. -/
def Cause.code : Cause → BitVec 4
  | .none => 0
  | .hostDisable => 1
  | .hostReset => 2
  | .softReset => 3
  | .carrierLoss => 4
  | .cellError => 5
  | .controlError => 6
  | .creditOverrun => 7
  | .creditReturnError => 8
  | .peerTeardown => 9
  | .peerRestart => 10
  | .sameId => 11

/-- Drop reason code. -/
def DropReason.code : DropReason → BitVec 3
  | .malformed => 1
  | .noRoute => 2
  | .linkDown => 3
  | .hopLimit => 4
  | .badGroup => 5
  | .rxDisabled => 6
  | .stale => 7

/-- Drop origin code. -/
def Origin.code : Origin → BitVec 3
  | .link l => BitVec.ofFin (l.castLE (by decide))
  | .host => 4
  | .responder => 5

/-- Completion status code, 0 where absent. -/
def statusCode : Option Status → BitVec 3
  | none => 0
  | some .ok => 1
  | some .refused => 2
  | some .unreachable => 3
  | some .timeout => 4
  | some .linkLost => 5
  | some .cancelled => 6

/-- Link state code. -/
def LinkState.code : LinkState → BitVec 2
  | .off => 0
  | .hold => 1
  | .waitPeer => 2
  | .up => 3

/-- Request state code. -/
def ReqState.code : ReqState → BitVec 2
  | .free => 0
  | .queued => 1
  | .sent => 2
  | .done => 3

/-- Route action code. -/
def RouteAction.code : RouteAction → BitVec 2
  | .discard => 0
  | .toLink => 1
  | .here => 2

end Sys2Proof.Machine
end

