-- ==== Sys2Proof/Machine/Flags.lean ====
section
/-! DEFINITION. The event latch, INT, the drop count and the capture record (R169–R172). -/

namespace Sys2Proof.Machine

/-- The seven events of the latch (R169). -/
inductive EventBit where
  | inbound
  | completion
  | sync
  | link
  | drop
  | stale
  | txSpace
  deriving DecidableEq, Repr

/-- An event's bit in EVENT and EVENT_EN (11, "Commands, results and events"). -/
def EventBit.mask : EventBit → BitVec 7
  | .inbound => 0x01
  | .completion => 0x02
  | .sync => 0x04
  | .link => 0x08
  | .drop => 0x10
  | .stale => 0x20
  | .txSpace => 0x40

/-- The event unit with an event latched (R169). -/
def EventUnit.latched (u : EventUnit) (e : EventBit) : EventUnit := { u with latch := u.latch ||| e.mask }

/-- The event unit after a drop is handed to it: counted up to 65535, captured if the record is free, DROP latched
(R171, R172). -/
def EventUnit.dropped (u : EventUnit) (d : DropRecord) : EventUnit where
  latch     := u.latch ||| EventBit.drop.mask
  enable    := u.enable
  dropCount := if u.dropCount = 65535 then 65535 else u.dropCount + 1
  capture   := u.capture.or (some d)

/-- The capture record's contents for a packet with header `h` (R172). -/
def DropRecord.of (reason : DropReason) (origin : Origin) (h : Header) : DropRecord :=
  ⟨reason, origin, h.dest, h.src, h.cls, h.kind, h.tag⟩

/-- `s` with an event latched. -/
def State.latch (s : State) (e : EventBit) : State := { s with events := s.events.latched e }

/-- `s` after a drop. -/
def State.drop (s : State) (reason : DropReason) (origin : Origin) (h : Header) : State :=
  { s with events := s.events.dropped (DropRecord.of reason origin h) }

/-- INT is asserted exactly while some latched event bit is enabled (R170), and never while RESET is asserted (R176). -/
def State.intAsserted (s : State) : Bool := !s.inReset && decide (s.events.latch &&& s.events.enable ≠ 0)

end Sys2Proof.Machine
end

