-- ==== Sys2Proof/Machine/Ops.lean ====
section
/-! DEFINITION. The named reads and writes of each piece of state, and what a count or a flag of the window is computed
from. -/

namespace Sys2Proof.Machine

/-! ### One home for each piece -/

/-- Link `l`. -/
def State.link (s : State) (l : LinkId) : Link := s.links[l]

/-- `s` with link `l` replaced. -/
def State.setLink (s : State) (l : LinkId) (k : Link) : State := { s with links := s.links.set l k }

/-- `s` with link `l` changed by `f`. -/
def State.modLink (s : State) (l : LinkId) (f : Link → Link) : State := s.setLink l (f (s.link l))

/-- Host slot `i`, if held. -/
def State.slot (s : State) (i : SlotIx) : Option Slot := s.slots[i]

/-- `s` with slot `i` replaced. -/
def State.setSlot (s : State) (i : SlotIx) (x : Option Slot) : State := { s with slots := s.slots.set i x }

/-- Request entry `r`. -/
def State.entry (s : State) (r : ReqIx) : ReqEntry := s.reqs[r]

/-- `s` with request entry `r` replaced. -/
def State.setEntry (s : State) (r : ReqIx) (e : ReqEntry) : State := { s with reqs := s.reqs.set r e }

/-- Sync counter `k`. -/
def State.counter (s : State) (k : Fin 8) : SyncCounter := s.sync[k]

/-- `s` with sync counter `k` replaced. -/
def State.setCounter (s : State) (k : Fin 8) (c : SyncCounter) : State := { s with sync := s.sync.set k c }

/-- The cells handed to link `l`'s lane so far. -/
def State.sent (s : State) (l : LinkId) : List LaneCell := s.lane[l]

/-- `s` with cells handed to link `l`'s lane. -/
def State.send (s : State) (l : LinkId) (cells : List LaneCell) : State :=
  { s with lane := s.lane.set l (s.sent l ++ cells) }

/-- `s` with an entry at the tail of the completion queue. -/
def State.pushCq (s : State) (r : ReqIx) : State := { s with cq := s.cq ++ [r] }

/-- `s` with a message at the tail of the inbound queue. -/
def State.pushInbound (s : State) (e : InboundEntry) : State := { s with inbound := s.inbound ++ [e] }

/-- `s` with the responder's jobs replaced. -/
def State.setJobs (s : State) (js : List Job) : State := { s with jobs := js }

/-- `s` with a job at the tail, under a fresh name. -/
def State.pushJob (s : State) (j : Job) : State :=
  { s with jobs := s.jobs ++ [{ j with id := s.nextJob }], nextJob := s.nextJob + 1 }

/-- `s` with the rotation position moved (R62). -/
def State.setPosition (s : State) (p : Fin 13) : State := { s with route := { s.route with position := p } }

/-- `s` after one free value is read (log 4). -/
def State.bumpChoices (s : State) : State := { s with choices := s.choices + 1 }

/-- `s` with RESULT written for a command: request index and tag 0 (R168). -/
def State.setResult (s : State) (cmd : BitVec 4) (res : ResultCode) : State :=
  { s with port := { s.port with result := ⟨cmd, res, 0, 0⟩ } }

/-- The routing table entry for a node ID (R56). -/
def State.routeFor (s : State) (n : NodeId) : RouteEntry := s.route.routes[n.toFin]

/-- The group table entry for a group number (R58). -/
def State.groupFor (s : State) (g : BitVec 3) : GroupEntry := s.route.groups[g.toFin]

/-- Whether link `l` is in UP. -/
def State.isUp (s : State) (l : LinkId) : Bool := decide ((s.link l).state = .up)

/-- What `f` does to the part, but while RESET is asserted: then no host access is taken, no cell is sent or received
and no time is counted (R166, R176). -/
def State.unlessReset (s : State) (f : State → State) : State := if s.inReset then s else f s

/-! ### The receive store (R35–R37, R43, R47) -/

/-- The class whose queue and region a stored packet uses. -/
def StoredPacket.cls (p : StoredPacket) : Class := p.hdr.queueClass

/-- A stored packet's length in cells. -/
def StoredPacket.cells (p : StoredPacket) : Nat := p.hdr.cells

/-- The shared cells held, in any condition (R36). -/
def Store.held (k : Store) : Nat := ((k.packets.filter (fun p => p.region = .shared)).map StoredPacket.cells).sum

/-- Whether class `c`'s reserved region is occupied (R37). -/
def Store.regionHeld (k : Store) (c : Class) : Bool := k.packets.any (fun p => p.region = .reserved && p.cls = c)

/-- The free shared cells (R36). -/
def Store.free (k : Store) : Nat := Config.sharedCells - k.held - k.awaitShared

/-- Class `c`'s ingress class queue: its queued packets in arrival order (R43). -/
def Store.queue (k : Store) (c : Class) : List StoredPacket :=
  k.packets.filter (fun p => p.cond = .queued && p.cls = c)

/-- The packet in reception, if any; none at a packet boundary (R1, R35). -/
def Store.receiving (k : Store) : Option StoredPacket := k.packets.find? (fun p => p.cond = .inReception)

/-- The stored packet named `id`. -/
def Store.packet (k : Store) (id : Nat) : Option StoredPacket := k.packets.find? (fun p => p.id = id)

/-- Whether something awaits return (R47). -/
def Store.awaiting (k : Store) : Bool := decide (0 < k.awaitShared) || k.awaitRes.req || k.awaitRes.rpy || k.awaitRes.pst

/-- A store with nothing awaiting return, its holdoff timer stopped and its mark cleared (R29, R49). -/
def Store.clearReturn (k : Store) : Store :=
  { k with awaitShared := 0, awaitRes := PerClass.all false, holdoff := none, elapsed := false }

/-- The holdoff timer started for `d` units; with 0 it expires at its start (R47). -/
def Store.startHoldoff (k : Store) (d : BitVec 8) : Store :=
  if d = 0 then { k with elapsed := true } else { k with holdoff := some d.toNat }

/-- The store once the space of a released packet awaits return (R46, R47). -/
def Store.giveBack (k : Store) (d : BitVec 8) (p : StoredPacket) : Store :=
  let k' := match p.region with
    | .shared => { k with awaitShared := k.awaitShared + p.cells }
    | .reserved => { k with awaitRes := k.awaitRes.set p.cls true }
  if k.awaiting then k' else k'.startHoldoff d

/-- The store without the packet named `id`. -/
def Store.remove (k : Store) (id : Nat) : Store := { k with packets := k.packets.filter (fun p => p.id ≠ id) }

/-- The link after the release of the packet named `id`: only a link that is UP returns credit (R46, R52). -/
def Link.release (n : Link) (id : Nat) : Link :=
  match n.store.packet id with
  | none => n
  | some p =>
    if n.state = .up then { n with store := (n.store.remove id).giveBack n.ctrl.crHoldoff p }
    else { n with store := n.store.remove id }

/-- The store with `f` applied to the packet named `id`. -/
def Store.modPacket (k : Store) (id : Nat) (f : StoredPacket → StoredPacket) : Store :=
  { k with packets := k.packets.map (fun p => if p.id = id then f p else p) }

/-- One copy of the packet named `id` has ended: the event that brings its count to zero releases it (R45). -/
def Link.endCopy (n : Link) (id : Nat) : Link :=
  match n.store.packet id with
  | none => n
  | some p =>
    if p.copies ≤ 1 then n.release id
    else { n with store := n.store.modPacket id (fun q => { q with copies := q.copies - 1 }) }

/-- The dispatch of the packet named `id` with `copies` link copies: held for them, or released at once (R44). -/
def Link.dispatched (n : Link) (id copies : Nat) : Link :=
  if copies = 0 then n.release id
  else { n with store := n.store.modPacket id (fun q => { q with cond := .dispatched, copies := copies }) }

/-! ### The link controller's own moves (R19–R22) -/

/-- The hold timer a LINK_HOLD value gives: 0 expires at the entry itself (R19). -/
def holdStart (h : BitVec 8) : Option Nat := if h = 0 then none else some (h.toNat * Config.holdUnit)

/-- A fresh entry to HOLD (R19). -/
def Link.enterHold (n : Link) : Link :=
  { n with state := .hold, initTimer := none, holdTimer := holdStart n.ctrl.linkHold }

/-- The move to OFF, its timers stopped (R21). -/
def Link.enterOff (n : Link) : Link := { n with state := .off, initTimer := none, holdTimer := none }

/-- Whether the link leaves HOLD: its hold timer has expired and its store holds no packet (R20). -/
def Link.drained (n : Link) : Bool := decide (n.state = .hold) && n.holdTimer.isNone && n.store.packets.isEmpty

/-- The entry to WAIT_PEER, less the INIT it sends (R22). -/
def Link.enterWaitPeer (n : Link) : Link :=
  { n with state := .waitPeer, seen := false, initTimer := some Config.initInterval }

/-- The entry to UP: full credit, the scheduler at REQ and 0 (R27). -/
def Link.enterUp (n : Link) : Link :=
  { n with state := .up, initTimer := none,
           tx := { n.tx with shared := Config.sharedCells, reserved := PerClass.all true, cur := .req, run := 0 } }

/-- `s` with an INIT cell sent on link `l`, carrying NODE_ID and a SEEN flag (R22–R24). -/
def State.sendInit (s : State) (l : LinkId) (seen : Bool) : State :=
  s.send l [⟨true, initCell s.port.node seen⟩]

/-- The entry of link `l` to WAIT_PEER (R22). -/
def State.enterWaitPeer (s : State) (l : LinkId) : State :=
  (s.modLink l Link.enterWaitPeer).sendInit l false

/-! ### The transmitter (R77–R80) -/

/-- The egress class queue of class `c`. -/
def Transmitter.queue (t : Transmitter) (c : Class) : List EgressEntry := t.queues.get c

/-- The head of class `c`, if it has started. -/
def Transmitter.startedHead (t : Transmitter) (c : Class) : Option EgressEntry :=
  match t.queue c with
  | [] => none
  | e :: _ => if e.started then some e else none

/-- The packet in transmission: the one started head (R79, R85). -/
def Transmitter.inFlight (t : Transmitter) : Option EgressEntry :=
  (t.startedHead .req).or ((t.startedHead .rpy).or (t.startedHead .pst))

/-- Whether class `c`'s queue takes one more entry (R77, R78). -/
def Transmitter.hasRoom (t : Transmitter) (c : Class) : Bool := decide ((t.queue c).length < Config.egressEntries)

/-- The transmitter with an entry at the tail of its class's queue (R78). -/
def Transmitter.append (t : Transmitter) (e : EgressEntry) : Transmitter :=
  { t with queues := t.queues.set e.cls (t.queue e.cls ++ [e]) }

/-- The transmitter with every entry that fails `keep` removed (R90–R92); the rest close up in order (R79). -/
def Transmitter.withdraw (t : Transmitter) (keep : EgressEntry → Bool) : Transmitter :=
  { t with queues := t.queues.map (List.filter keep) }

/-- Every entry, in the order REQ, RPY, PST, head to tail in each (R93). -/
def Transmitter.entries (t : Transmitter) : List EgressEntry := t.queues.req ++ t.queues.rpy ++ t.queues.pst

/-- `s` with an entry appended on link `l`. -/
def State.appendEntry (s : State) (l : LinkId) (e : EgressEntry) : State :=
  s.modLink l (fun n => { n with tx := n.tx.append e })

/-! ### Sources of copies (R85, R87) -/

/-- The header of the reply a job sends (R10, R145), HOPS apart. -/
def Job.header (j : Job) : Header :=
  ⟨j.requester, j.addressed, Class.rpy.code, j.kind.code, false, j.tag, j.kind.len, 0, false, j.user⟩

/-- The job named `id`. -/
def State.job (s : State) (id : Nat) : Option Job := s.jobs.find? (fun j => j.id = id)

/-- The header and data cells a copy's source holds (R85). -/
def State.source (s : State) : Source → Option (Header × List Cell)
  | .store l id => ((s.link l).store.packet id).map (fun p => (p.hdr, p.data))
  | .slot i => (s.slot i).map (fun k => (k.hdr, k.data))
  | .job id => (s.job id).map (fun j => (j.header, j.payload))

/-- The data cells a copy sends after its header. -/
def State.sourceData (s : State) (src : Source) : List Cell :=
  match s.source src with
  | none => []
  | some x => x.2

/-- The header a copy is built from; `Header.zero` if its source is gone, which no reached state shows. -/
def State.sourceHeader (s : State) (src : Source) : Header :=
  match s.source src with
  | none => Header.zero
  | some x => x.1

/-- The data cells as the lane carries them: packet cells. -/
def packetCells (cs : List Cell) : List LaneCell := cs.map (fun c => ⟨false, c⟩)

/-- The request entry of a copy that is a host REQ (R107). -/
def State.hostReq (s : State) : Source → Option ReqIx
  | .slot i => (s.slot i).bind Slot.req
  | _ => none

/-- The number of free host slots (R97). -/
def State.freeSlots (s : State) : Nat := (slotIxs.filter (fun i => (s.slot i).isNone)).length

/-- The number of request entries in use (R111). -/
def State.entriesInUse (s : State) : Nat := (reqIxs.filter (fun r => (s.entry r).state ≠ .free)).length

/-- The payload cells in use in the inbound queue (R132). -/
def State.inboundCells (s : State) : Nat := (s.inbound.map (fun e => e.len.toNat)).sum

/-- Whether a message of LEN `len` has room in the inbound queue (R133). -/
def State.inboundRoom (s : State) (len : BitVec 3) : Bool :=
  decide (s.inbound.length < Config.inboundEntries ∧ s.inboundCells + len.toNat ≤ Config.inboundCells)

/-- Whether a job is free (R141). -/
def State.jobRoom (s : State) : Bool := decide (s.jobs.length < Config.responderJobs)

/-! ### The request table (R112, R114, R124) -/

/-- The tag of an entry: its index plus 16 times its generation (R112). -/
def ReqEntry.tag (e : ReqEntry) (r : ReqIx) : BitVec 6 := e.gen ++ BitVec.ofFin (w := 4) r

/-- Whether the entry's timer runs (R115). -/
def ReqEntry.timerRuns (e : ReqEntry) : Bool := decide (e.state = .sent ∧ e.captured ≠ 0)

/-- The entry at its completion: its timer stopped, cancel-pending cleared, its slot reference absent (R124). -/
def ReqEntry.completed (e : ReqEntry) (st : Status) : ReqEntry :=
  { e with state := .done, status := some st, remaining := 0, cancelPending := false, slot := none }

/-- The completion of entry `r` as `e`, from QUEUED or SENT: it joins the completion queue and COMPLETION is latched
(R124). Any other entry is left as it is. -/
def State.completeAs (s : State) (r : ReqIx) (e : ReqEntry) : State :=
  if (s.entry r).state = .queued ∨ (s.entry r).state = .sent then ((s.setEntry r e).pushCq r).latch .completion else s

/-- The completion of entry `r` with a status and no reply. -/
def State.complete (s : State) (r : ReqIx) (st : Status) : State := s.completeAs r ((s.entry r).completed st)

/-- The transmission of entry `r`'s REQ has completed: SENT with its timer started, or CANCELLED (R114). -/
def State.reqSent (s : State) (r : ReqIx) : State :=
  if (s.entry r).state = .queued then
    if (s.entry r).cancelPending then s.complete r .cancelled
    else s.setEntry r { s.entry r with
      state := .sent, captured := s.port.reqTimeout, remaining := s.port.reqTimeout, slot := none }
  else s

/-- The reply slot a reply fills: its cells, then zeros (R121). -/
def replySlot (data : List Cell) : Vector Cell 7 := Vector.ofFn (fun i => data.getD i 0)

/-- The status a reply's KIND gives (R121). -/
def replyStatus (kind : BitVec 3) : Status :=
  if kind = 0 then .ok else if kind = 1 then .refused else .unreachable

/-- The entry a reply's TAG selects (R120). -/
def replyEntry (h : Header) : ReqIx := (h.tag.extractLsb' 0 4).toFin

/-- Whether a local RPY matches its entry: SENT, generation and destination (R120). -/
def State.replyMatches (s : State) (h : Header) : Bool :=
  decide ((s.entry (replyEntry h)).state = .sent ∧ (s.entry (replyEntry h)).gen = h.tag.extractLsb' 4 2 ∧
    (s.entry (replyEntry h)).dest = h.src)

/-- A local RPY reaches the request table: it completes its entry (R121), or it is stale (R123). -/
def State.takeReply (s : State) (h : Header) (data : List Cell) (origin : Origin) : State :=
  if s.replyMatches h then
    s.completeAs (replyEntry h)
      { (s.entry (replyEntry h)).completed (replyStatus h.kind) with
        replyKind := some h.kind, replyUser := h.user, replySrc := h.src, replyLen := h.len,
        replyData := replySlot (data.take h.len.toNat) }
  else (s.drop .stale origin h).latch .stale

/-! ### The end of a copy (R87, R94, R107, R144) -/

/-- A slot's copy has ended: at zero the slot is freed and TX_SPACE latched (R107, R108). -/
def State.endSlotCopy (s : State) (i : SlotIx) : State :=
  match s.slot i with
  | none => s
  | some k =>
    if k.copies ≤ 1 then (s.setSlot i none).latch .txSpace
    else s.setSlot i (some { k with copies := k.copies - 1 })

/-- A job's one copy has ended: the job is freed (R144). -/
def State.freeJob (s : State) (id : Nat) : State := s.setJobs (s.jobs.filter (fun j => j.id ≠ id))

/-- One copy of a source has ended (R87, R94). -/
def State.endCopy (s : State) : Source → State
  | .store l id => s.modLink l (fun n => n.endCopy id)
  | .slot i => s.endSlotCopy i
  | .job id => s.freeJob id

/-- Where a source's drops originate (R93, R172). -/
def Source.origin : Source → Origin
  | .store l _ => .link l
  | .slot _ => .host
  | .job _ => .responder

/-- What the loss of a copy at a teardown records: LINK_LOST for a host REQ, nothing for a group copy, else a
LINK_DOWN drop (R93). -/
def State.recordLoss (s : State) (e : EgressEntry) : State :=
  match s.hostReq e.source with
  | some r => s.complete r .linkLost
  | none => if e.group then s else s.drop .linkDown e.source.origin (s.sourceHeader e.source)

/-- A lost copy: recorded, and its source told that one copy has ended (R93, R94). -/
def State.loseCopy (s : State) (e : EgressEntry) : State := (s.recordLoss e).endCopy e.source

/-! ### Sync counters (R152, R153) -/

/-- The firing check (R153). -/
def SyncCounter.check (c : SyncCounter) : SyncCounter :=
  if c.armed ∧ c.target ≤ c.count then { c with armed := false, fired := true } else c

/-- Whether the firing check fires (R153). -/
def SyncCounter.fires (c : SyncCounter) : Bool := decide (c.armed ∧ c.target ≤ c.count)

/-- An increment, saturating at 255 with OVERFLOW (R152). -/
def SyncCounter.counted (c : SyncCounter) : SyncCounter :=
  if c.count = 255 then { c with overflow := true } else { c with count := c.count + 1 }

/-- Counter `k` becomes `c` and the firing check is made: SYNC is latched if it fires (R153). -/
def State.checkCounter (s : State) (k : Fin 8) (c : SyncCounter) : State :=
  if c.fires then (s.setCounter k c.check).latch .sync else s.setCounter k c

/-- The local delivery of a SIGNAL (R152): the counter is the low three bits of the TAG. -/
def State.signal (s : State) (tag : BitVec 6) : State :=
  s.checkCounter (tag.extractLsb' 0 3).toFin (s.counter (tag.extractLsb' 0 3).toFin).counted

end Sys2Proof.Machine
end

