-- ==== Sys2Proof/Machine/Scheduler.lean ====
section
/-! DEFINITION. A link's lane: CREDIT cells (R48, R49, R84), the scheduler's decision (R82), a packet's start (R85) and
completion (R87). -/

namespace Sys2Proof.Machine

/-- Whether a CREDIT cell is due on the link (R48). -/
def Link.creditDue (n : Link) : Bool :=
  decide (n.state = .up) &&
    (decide (n.ctrl.crThresh.toNat ≤ n.store.awaitShared) ||
      n.store.awaitRes.req || n.store.awaitRes.rpy || n.store.awaitRes.pst || n.store.elapsed)

/-- Whether a packet is in transmission on the link (R79). -/
def Transmitter.busy (t : Transmitter) : Bool := t.inFlight.isSome

/-- Whether the transmitter holds credit for `length` cells of class `c` (R39, R80). -/
def Transmitter.affords (t : Transmitter) (c : Class) (length : Nat) : Bool :=
  decide (length ≤ t.shared) || t.reserved.get c

/-- Whether class `c`'s head has not started and is eligible (R80). -/
def Transmitter.eligible (t : Transmitter) (c : Class) : Bool :=
  match t.queue c with
  | [] => false
  | e :: _ => !e.started && t.affords c e.length

/-- The scheduler's rotation REQ → PST → RPY → REQ (R82). -/
def rotateClass : Class → Class
  | .req => .pst
  | .pst => .rpy
  | .rpy => .req

/-- Steps 2 to 5 of the decision (R82): the class to start, and the run count before its length is added. -/
def Transmitter.choose (t : Transmitter) (quantum : BitVec 8) : Option (Class × Nat) :=
  if t.eligible t.cur ∧ t.run < quantum.toNat then some (t.cur, t.run)
  else if t.eligible (rotateClass t.cur) then some (rotateClass t.cur, 0)
  else if t.eligible (rotateClass (rotateClass t.cur)) then some (rotateClass (rotateClass t.cur), 0)
  else if t.eligible t.cur then some (t.cur, 0)
  else none

/-- Whether a start of `length` cells goes out with POOL 1: only where the shared credit is short of it (R39). -/
def Transmitter.usesReserved (t : Transmitter) (length : Nat) : Bool := decide (t.shared < length)

/-- The transmitter once class `c`'s head `e` has started: credit spent, Started set, the run count raised
(R39, R82, R85). -/
def Transmitter.start (t : Transmitter) (c : Class) (run : Nat) (e : EgressEntry) (rest : List EgressEntry) :
    Transmitter where
  queues   := t.queues.set c ({ e with started := true } :: rest)
  shared   := if t.usesReserved e.length then t.shared else t.shared - e.length
  reserved := if t.usesReserved e.length then t.reserved.set c false else t.reserved
  cur      := c
  run      := run + e.length

/-- The header cell of a start: the source's fields with HOPS out and POOL (R85). -/
def State.startCell (s : State) (l : LinkId) (e : EgressEntry) : LaneCell :=
  ⟨false, ({ s.sourceHeader e.source with
    hops := e.hopsOut, pool := (s.link l).tx.usesReserved e.length }).toCell⟩

/-- The start of class `c`'s head on link `l` (R85). -/
def State.startHead (s : State) (l : LinkId) (c : Class) (run : Nat) : State :=
  match (s.link l).tx.queue c with
  | [] => s
  | e :: rest => (s.send l [s.startCell l e]).modLink l (fun n => { n with tx := n.tx.start c run e rest })

/-- Steps 2 to 5 of the decision on link `l` (R82). -/
def State.decideStart (s : State) (l : LinkId) : State :=
  match (s.link l).tx.choose (s.link l).ctrl.quantum with
  | none => s
  | some x => s.startHead l x.1 x.2

/-- The CREDIT cell sent on link `l`: it carries everything awaiting return, which is then cleared (R49). -/
def State.sendCredit (s : State) (l : LinkId) : State :=
  (s.send l [⟨true, creditCell (BitVec.ofNat 7 (s.link l).store.awaitShared) (s.link l).store.awaitRes⟩]).modLink l
    (fun n => { n with store := n.store.clearReturn })

/-- The decision at a packet boundary of link `l` (R82): a due CREDIT cell, then a start at the same boundary. -/
def State.boundary (s : State) (l : LinkId) : State :=
  State.decideStart (if (s.link l).creditDue then s.sendCredit l else s) l

/-- Whether link `l`'s lane is idle at a packet boundary with something to send (R83). -/
def Link.canAct (n : Link) : Bool :=
  decide (n.state = .up) && !n.tx.busy && (n.creditDue || (n.tx.choose n.ctrl.quantum).isSome)

/-- Link `l`'s lane acts if it is idle and has something to send (R83). -/
def State.schedule (s : State) (l : LinkId) : State := if (s.link l).canAct then s.boundary l else s

/-- Every chosen link's lane acts, in link order. -/
def State.scheduleWhere (s : State) (chosen : LinkId → Bool) : State :=
  linkIds.foldl (fun t l => if chosen l then t.schedule l else t) s

/-- The source's data cells follow the header in order (R85, R87). -/
def State.sendData (s : State) (l : LinkId) (src : Source) : State := s.send l (packetCells (s.sourceData src))

/-- What a completed copy means for the request table: a host REQ has left the node (R87, R114). -/
def State.copySent (s : State) (src : Source) : State :=
  match s.hostReq src with
  | none => s
  | some r => s.reqSent r

/-- The completion of the transmission of class `c`'s head `e` on link `l` (R87): its last cell has gone, it leaves
its queue, its request entry moves on, and its source is told that one copy has ended. -/
def State.finishHead (s : State) (l : LinkId) (c : Class) (e : EgressEntry) (rest : List EgressEntry) : State :=
  ((((s.sendData l e.source).modLink l (fun n => { n with tx := { n.tx with queues := n.tx.queues.set c rest } })).copySent
    e.source).endCopy e.source)

/-- The class of the packet in transmission (R79). -/
def Transmitter.busyClass (t : Transmitter) : Option Class :=
  if (t.startedHead .req).isSome then some .req
  else if (t.startedHead .rpy).isSome then some .rpy
  else if (t.startedHead .pst).isSome then some .pst
  else none

/-- The completion of the transmission in progress on link `l`, if any (R87). -/
def State.completeTransmission (s : State) (l : LinkId) : State :=
  match (s.link l).tx.busyClass with
  | none => s
  | some c =>
    match (s.link l).tx.queue c with
    | [] => s
    | e :: rest => s.finishHead l c e rest

end Sys2Proof.Machine
end

