-- ==== Sys2Proof/Machine/Route.lean ====
section
/-! DEFINITION. The route unit: what a head's dispatch does, whether it has room, and the thirteen sources
(R60–R75, R142–R149). -/

namespace Sys2Proof.Machine

/-- Local delivery of a dispatched packet (R64–R66, R70). -/
inductive Delivery where
  | inbound
  | signal
  | reply
  deriving DecidableEq, Repr

/-- What the dispatch of an ingress head does, all at one event (R60). -/
structure Plan where
  copies  : List LinkId := []
  hopsOut : BitVec 5 := 0
  deliver : Option Delivery := none
  job     : Option JobKind := none
  drop    : Option DropReason := none
  deriving DecidableEq, Repr

/-- A drop with no other effect. -/
def Plan.dropped (r : DropReason) : Plan := { drop := some r }

/-- Whether a unicast destination is this node (R11, R63). -/
def State.isLocal (s : State) (dest : NodeId) : Bool :=
  decide (dest = s.port.node) || decide ((s.routeFor dest).action = .here)

/-- The plan of a local unicast head (R64–R66, R136). -/
def State.planLocal (s : State) (h : Header) : Plan :=
  if h.cls = Class.rpy.code then { deliver := some .reply }
  else if h.cls = Class.req.code then
    if h.kind = 1 then { job := some .probeReply }
    else if s.port.rxEnable then { deliver := some .inbound }
    else { job := some .refused }
  else if h.kind = 1 then { deliver := some .signal }
  else if s.port.rxEnable then { deliver := some .inbound }
  else Plan.dropped .rxDisabled

/-- The first condition of R67 that fails, if any. -/
def State.routeFailure (s : State) (h : Header) : Option DropReason :=
  if (s.routeFor h.dest).action ≠ .toLink then some .noRoute
  else if !s.isUp (s.routeFor h.dest).link then some .linkDown
  else if h.hops ≤ 1 then some .hopLimit
  else none

/-- The plan of a remote unicast head (R67–R69). -/
def State.planRemote (s : State) (h : Header) : Plan :=
  match s.routeFailure h with
  | some r => if h.cls = Class.req.code then { job := some .unreachable, drop := some r } else Plan.dropped r
  | none => { copies := [(s.routeFor h.dest).link], hopsOut := h.hops - 1 }

/-- The member links of a group that are UP (R70, R104). -/
def State.upMembers (s : State) (g : GroupEntry) : List LinkId :=
  linkIds.filter (fun m => g.mask.getLsbD m && s.isUp m)

/-- The group table entry a group header names (R70). -/
def State.groupOf (s : State) (h : Header) : GroupEntry := s.groupFor (h.dest.extractLsb' 0 3)

/-- The local target of a group head (R70). -/
def State.groupDelivery (s : State) (h : Header) : Option Delivery :=
  if (s.groupOf h).member then
    if h.kind = 1 then some .signal else if s.port.rxEnable then some .inbound else none
  else none

/-- The plan of a group head that arrived on link `l` (R70–R73). -/
def State.planGroup (s : State) (l : LinkId) (h : Header) : Plan :=
  if (s.groupOf h).enable then
    { copies := if h.hops ≤ 1 then [] else (s.upMembers (s.groupOf h)).filter (fun m => m ≠ l)
      hopsOut := h.hops - 1
      deliver := s.groupDelivery h }
  else Plan.dropped .badGroup

/-- The plan of an ingress head that arrived on link `l`, room apart (R63). -/
def State.plan (s : State) (l : LinkId) (h : Header) : Plan :=
  if h.malformed then Plan.dropped .malformed
  else if h.grp then s.planGroup l h
  else if s.isLocal h.dest then s.planLocal h
  else s.planRemote h

/-- Whether every target of a plan has room at this event (R65, R69, R72, R133, R141). -/
def State.planFits (s : State) (h : Header) (p : Plan) : Bool :=
  p.copies.all (fun m => (s.link m).tx.hasRoom h.queueClass) &&
    (!decide (p.deliver = some .inbound) || s.inboundRoom h.len) && (!p.job.isSome || s.jobRoom)

/-- The state code and peer ID of a link in word 1 of a PROBE answer. -/
def State.probeLink (s : State) (l : LinkId) : BitVec 8 := 0#1 ++ (s.link l).peer ++ (s.link l).state.code

/-- Word 0 of a PROBE answer (R147; 11, "PROBE answer payload"). -/
def State.probeWord0 (s : State) : Word :=
  0#10 ++ BitVec.ofNat 6 s.inbound.length ++ BitVec.ofBool s.port.rxEnable ++ 0#3 ++ Config.revision ++ 0#3 ++ s.port.node

/-- Word 1 of a PROBE answer: byte k holds link Lk. -/
def State.probeWord1 (s : State) : Word := s.probeLink 3 ++ s.probeLink 2 ++ s.probeLink 1 ++ s.probeLink 0

/-- The FIRED flags, bit k for counter k. -/
def State.firedFlags (s : State) : BitVec 8 :=
  BitVec.ofBool (s.counter 7).fired ++ BitVec.ofBool (s.counter 6).fired ++ BitVec.ofBool (s.counter 5).fired
    ++ BitVec.ofBool (s.counter 4).fired ++ BitVec.ofBool (s.counter 3).fired ++ BitVec.ofBool (s.counter 2).fired
    ++ BitVec.ofBool (s.counter 1).fired ++ BitVec.ofBool (s.counter 0).fired

/-- Word 3 of a PROBE answer. -/
def State.probeWord3 (s : State) : Word :=
  0#8 ++ s.firedFlags ++ 0#4 ++ BitVec.ofNat 4 s.freeSlots ++ 0#3 ++ BitVec.ofNat 5 s.entriesInUse

/-- The snapshot of a PROBE_REPLY job: two cells (R147, R148). -/
def State.probeSnapshot (s : State) : List Cell :=
  [cellOf s.probeWord0 s.probeWord1, cellOf s.port.label s.probeWord3]

/-- The job a REQ creates (R142). Its name is given where it joins the list. -/
def State.newJob (s : State) (k : JobKind) (h : Header) : Job :=
  ⟨0, k, h.src, h.dest, h.tag, h.user, if k = .probeReply then s.probeSnapshot else [], .waiting, 1⟩

/-- The inbound entry of a packet that arrived on link `l` (R134). -/
def inboundOf (l : LinkId) (p : StoredPacket) : InboundEntry :=
  ⟨l, p.hdr.dest, p.hdr.grp, p.hdr.src, p.hdr.cls, p.hdr.kind, p.hdr.tag, p.hdr.user, p.hdr.len, p.data⟩

/-- The egress entry of a stored packet's copy (R69, R71, R77). -/
def copyOf (l : LinkId) (p : StoredPacket) (hops : BitVec 5) : EgressEntry :=
  ⟨.store l p.id, p.cls, p.cells, hops, p.hdr.grp, false⟩

/-- The local delivery of a plan. -/
def State.deliver (s : State) (l : LinkId) (p : StoredPacket) : Option Delivery → State
  | none => s
  | some .inbound => (s.pushInbound (inboundOf l p)).latch .inbound
  | some .signal => s.signal p.hdr.tag
  | some .reply => s.takeReply p.hdr p.data (.link l)

/-- The job of a plan. -/
def State.createJob (s : State) (h : Header) : Option JobKind → State
  | none => s
  | some k => s.pushJob (s.newJob k h)

/-- The drop of a plan. -/
def State.recordDrop (s : State) (l : LinkId) (h : Header) : Option DropReason → State
  | none => s
  | some r => s.drop r (.link l) h

/-- The copies of a plan, one at the tail of each target's queue (R69, R72). -/
def State.appendCopies (s : State) (ms : List LinkId) (e : EgressEntry) : State :=
  ms.foldl (fun t m => t.appendEntry m e) s

/-- The whole effect of an ingress head's dispatch (R60). -/
def State.applyPlan (s : State) (l : LinkId) (p : StoredPacket) (pl : Plan) : State :=
  ((((s.createJob p.hdr pl.job).deliver l p pl.deliver).recordDrop l p.hdr pl.drop).appendCopies pl.copies
    (copyOf l p pl.hopsOut)).modLink l (fun n => n.dispatched p.id pl.copies.length)

/-- The head of an ingress class queue (R43). -/
def State.ingressHead (s : State) (l : LinkId) (c : Class) : Option StoredPacket := ((s.link l).store.queue c).head?

/-- The oldest waiting job: the responder's head (R141). -/
def State.jobHead (s : State) : Option Job := s.jobs.find? (fun j => j.cond = .waiting)

/-- The reply a job sends, with HOPS from DEFAULT_HOPS (R10, R74). -/
def State.replyHeader (s : State) (j : Job) : Header := { j.header with hops := s.port.defaultHops }

/-- Why a job's reply cannot be sent, if it cannot (R74). -/
def State.jobFailure (s : State) (j : Job) : Option DropReason :=
  if (s.routeFor j.requester).action ≠ .toLink then some .noRoute
  else if !s.isUp (s.routeFor j.requester).link then some .linkDown
  else none

/-- Whether the responder's head is dispatched when considered: only a sent copy needs room (R74, R143). -/
def State.jobFits (s : State) (j : Job) : Bool :=
  s.isLocal j.requester || (s.jobFailure j).isSome || (s.link (s.routeFor j.requester).link).tx.hasRoom .rpy

/-- The egress entry of a job's copy (R74, R77). -/
def State.jobCopy (s : State) (j : Job) : EgressEntry :=
  ⟨.job j.id, .rpy, 1 + j.kind.len.toNat, s.port.defaultHops, false, false⟩

/-- `s` with job `id` sent (R143). -/
def State.markSent (s : State) (id : Nat) : State :=
  s.setJobs (s.jobs.map (fun j => if j.id = id then { j with cond := .sent } else j))

/-- The dispatch of a responder job (R74): delivered locally, dropped, or given one copy. -/
def State.dispatchJob (s : State) (j : Job) : State :=
  if s.isLocal j.requester then (s.takeReply (s.replyHeader j) j.payload .responder).freeJob j.id
  else match s.jobFailure j with
    | some r => (s.drop r .responder (s.replyHeader j)).freeJob j.id
    | none => (s.appendEntry (s.routeFor j.requester).link (s.jobCopy j)).markSent j.id

/-- The thirteen sources of the route unit (R60, R62). -/
inductive RouteSource where
  | ingress (l : LinkId) (c : Class)
  | responder
  deriving DecidableEq, Repr

/-- The sources in rotation order (R62). -/
def rotation : List RouteSource :=
  linkIds.flatMap (fun l => classes.map (fun c => RouteSource.ingress l c)) ++ [.responder]

/-- A source's number in the rotation. -/
def RouteSource.number : RouteSource → Fin 13
  | .ingress l .req => ⟨3 * l.val, by omega⟩
  | .ingress l .rpy => ⟨3 * l.val + 1, by omega⟩
  | .ingress l .pst => ⟨3 * l.val + 2, by omega⟩
  | .responder => 12

/-- The sources in the order a pass takes them: starting after the position (R62). -/
def passOrder (position : Fin 13) : List RouteSource :=
  rotation.drop (position.val + 1) ++ rotation.take (position.val + 1)

/-- Whether a source's head, if it has one, is dispatched when considered now (R60, R61). -/
def State.ready (s : State) : RouteSource → Bool
  | .ingress l c =>
    match s.ingressHead l c with
    | none => false
    | some p => s.planFits p.hdr (s.plan l p.hdr)
  | .responder =>
    match s.jobHead with
    | none => false
    | some j => s.jobFits j

/-- The dispatch of a source's head; the rotation position moves to the source (R60, R62). -/
def State.dispatchSource (s : State) : RouteSource → State
  | .ingress l c =>
    match s.ingressHead l c with
    | none => s
    | some p => (s.applyPlan l p (s.plan l p.hdr)).setPosition (RouteSource.ingress l c).number
  | .responder =>
    match s.jobHead with
    | none => s
    | some j => (s.dispatchJob j).setPosition RouteSource.responder.number

/-- The first source in rotation order whose head can be dispatched (R62). -/
def State.nextReady (s : State) : Option RouteSource := (passOrder s.route.position).find? (fun r => s.ready r)

end Sys2Proof.Machine
end

