-- ==== Sys2Proof/Machine/Teardown.lean ====
section
/-! DEFINITION. The teardown of a link: one event at the link controller and its notice to every block that holds
state tied to the link (R29–R32, R42, R51, R89–R94, R116, R117, R173). -/

namespace Sys2Proof.Machine

/-- The state a teardown leaves the link for (R31). -/
def teardownTarget (cause : Cause) (auto : Bool) : LinkState :=
  match cause with
  | .hostDisable | .sameId => .off
  | .hostReset | .softReset => .hold
  | _ => if auto then .hold else .off

/-- The data cells of the abandoned packet that had gone on the lane: fewer than LEN of them, how many is a free
value (R29, R89; log 5). -/
def State.sentBeforeCut (s : State) (src : Source) : List Cell :=
  (s.sourceData src).take (Config.cellsSent s.choices % (s.sourceData src).length)

/-- The cells already sent of the packet in transmission on link `l`: no further cell of it follows (R29, R89). -/
def State.cutTransmission (s : State) (l : LinkId) : State :=
  match (s.link l).tx.inFlight with
  | none => s
  | some e => if (s.sourceData e.source).isEmpty then s
    else (s.send l (packetCells (s.sentBeforeCut e.source))).bumpChoices

/-- The TEARDOWN cell, sent for every cause but CARRIER_LOSS (R29). -/
def State.sendTeardown (s : State) (l : LinkId) (cause : Cause) : State :=
  if cause = .carrierLoss then s else s.send l [⟨true, teardownCell⟩]

/-- A transmitter with its queues emptied and its credit zero; the scheduler's class and run count stand (R29, R81). -/
def Transmitter.torn (t : Transmitter) : Transmitter :=
  { t with queues := PerClass.all [], shared := 0, reserved := PerClass.all false }

/-- A store at its own link's teardown: the packet in reception and every queued packet released without credit return,
nothing awaiting return, the holdoff timer stopped (R29, R42, R51). -/
def Store.torn (k : Store) : Store :=
  { k.clearReturn with packets := k.packets.filter (fun p => p.cond = .dispatched) }

/-- The link moved to the state its teardown leads to (R31), started as R19 or R21 states. -/
def Link.moveTo (n : Link) (target : LinkState) : Link :=
  if target = .hold then n.enterHold else n.enterOff

/-- What a teardown changes at the link itself (R29). -/
def Link.torn (n : Link) (cause : Cause) : Link :=
  ({ n with cause := cause, store := n.store.torn, tx := n.tx.torn }).moveTo (teardownTarget cause n.ctrl.auto)

/-- Whether an entry of another link is withdrawn at link `n`'s teardown: not started, its source in link `n`'s store
(R91). -/
def EgressEntry.orphaned (e : EgressEntry) (n : LinkId) : Bool :=
  !e.started && (match e.source with
    | .store l _ => decide (l = n)
    | _ => false)

/-- The copies lost on the torn-down link itself: the abandoned one, then the withdrawn ones in queue order
(R89, R90, R93). -/
def Transmitter.lostHere (t : Transmitter) : List EgressEntry :=
  t.entries.filter (fun e => e.started) ++ t.entries.filter (fun e => !e.started)

/-- The copies withdrawn from the other links, in link order (R91, R93). -/
def State.lostElsewhere (s : State) (n : LinkId) : List EgressEntry :=
  (linkIds.filter (fun l => l ≠ n)).flatMap (fun l => (s.link l).tx.entries.filter (fun e => e.orphaned n))

/-- Every copy a teardown of link `n` loses, in the order they are handed to the event unit (R93, R173). -/
def State.lostCopies (s : State) (n : LinkId) : List EgressEntry := (s.link n).tx.lostHere ++ s.lostElsewhere n

/-- The other transmitters' queues without the entries withdrawn (R91). -/
def State.withdrawElsewhere (s : State) (n : LinkId) : State :=
  linkIds.foldl (fun t l => if l = n then t
    else t.modLink l (fun k => { k with tx := k.tx.withdraw (fun e => !e.orphaned n) })) s

/-- The drop of a purged packet: LINK_DOWN with origin this link, none for a group packet (R51). -/
def State.recordPurge (s : State) (n : LinkId) (p : StoredPacket) : State :=
  if p.hdr.grp then s else s.drop .linkDown (.link n) p.hdr

/-- The queued packets of a store in the order of their purge: REQ, RPY, PST, head to tail (R173). -/
def Store.queuedPackets (k : Store) : List StoredPacket := k.queue .req ++ k.queue .rpy ++ k.queue .pst

/-- The drops of the purge of link `n`'s ingress class queues (R51). -/
def State.recordPurges (s : State) (n : LinkId) (ps : List StoredPacket) : State :=
  ps.foldl (fun t p => t.recordPurge n p) s

/-- The SENT entries whose egress link is `n` complete with LINK_LOST, in index order (R116, R117). -/
def State.loseSent (s : State) (n : LinkId) : State :=
  reqIxs.foldl (fun t r =>
    if (t.entry r).state = .sent ∧ (t.entry r).egress = n then t.complete r .linkLost else t) s

/-- The teardown event of link `n` (R29), its notice (R32) and the LINK event (R34). What waiting heads, drained links
and idle lanes then do at the same event follows in `settle`. -/
def State.teardown (s : State) (n : LinkId) (cause : Cause) : State :=
  let lost := s.lostCopies n
  let purged := (s.link n).store.queuedPackets
  let s1 := (((s.cutTransmission n).sendTeardown n cause).modLink n (fun k => k.torn cause)).withdrawElsewhere n
  (((lost.foldl State.loseCopy s1).recordPurges n purged).loseSent n).latch .link

end Sys2Proof.Machine
end

