-- ==== Sys2Proof/Machine/Settle.lean ====
section
/-! DEFINITION. What the part does on its own inside the event that makes it possible (log 1): drained links in
HOLD enter WAIT_PEER (R20), waiting heads are dispatched in rotation order (R61, R62), idle lanes send (R83). -/

namespace Sys2Proof.Machine

/-- Whether some idle lane has something to send (R83). -/
def State.lanesCanAct (s : State) : Bool := linkIds.any (fun l => (s.link l).canAct)

/-- Lanes that could start before the next dispatch of the same event: which of them do is a free value (R83, log 4). -/
def State.interleave (s : State) : State :=
  if s.lanesCanAct then (s.scheduleWhere (Config.lanesFirst s.choices)).bumpChoices else s

/-- Dispatches in rotation order until no head can be dispatched (R62). A pass of R62 that follows another one begins
after the last source dispatched, so the passes are one walk round the rotation. -/
def drain : Nat → State → State
  | 0, s => s
  | n + 1, s =>
    match s.nextReady with
    | none => s
    | some r => drain n (s.interleave.dispatchSource r)

/-- The dispatches that can follow one another: each takes a queued packet, which makes at most one job, or a waiting
job. -/
def State.workLeft (s : State) : Nat :=
  2 * (linkIds.map (fun l => (s.link l).store.queuedPackets.length)).sum +
    (s.jobs.filter (fun j => j.cond = .waiting)).length

/-- Link `l` enters WAIT_PEER if it is drained (R20). -/
def State.leaveHold (s : State) (l : LinkId) : State := if (s.link l).drained then s.enterWaitPeer l else s

/-- Every drained link enters WAIT_PEER (R20). -/
def State.leaveHolds (s : State) : State := linkIds.foldl State.leaveHold s

/-- The rest of an event (R20, R61, R62, R83). A link drained by the event is in WAIT_PEER before any head is decided:
that entry is part of the one that drained it (R20). A link could be drained by a dispatch only in states no run reaches.
That waiting heads are dispatched inside the very event that makes room, so that a SUBMIT never takes that room first,
is the model's choice between the two orders of R62 and R106 (log 13). -/
def settle (s : State) : State :=
  ((drain s.leaveHolds.workLeft s.leaveHolds).leaveHolds).scheduleWhere (fun _ => true)

end Sys2Proof.Machine
end

