-- ==== Sys2Proof/Machine/HostCommands.lean ====
section
/-! DEFINITION. The commands of the host transmit path, inbound queue, request table, link restart, drop record and
soft reset (R98–R110, R138, R127, R118, R18, R174, R175). -/

namespace Sys2Proof.Machine

/-! ### SUBMIT (R98–R106) -/

/-- Check 1: whether the composed fields are a packet the host may originate (R99). -/
def hostMayOriginate (h : Header) : Bool :=
  decide (h.cls ≠ 3) && decide (h.kind ≤ 1) && (!h.grp || decide (h.cls = Class.pst.code)) &&
    (!h.grp || decide (h.dest ≤ 7)) && decide (h.hops ≠ 0) &&
    !(decide (h.cls = Class.pst.code) && decide (h.kind = 1) && decide (h.len ≠ 0))

/-- Check 3: the last two free slots are kept for RPY (R101). -/
def State.slotRefused (s : State) (h : Header) : Bool :=
  decide (s.freeSlots = 0) || (decide (h.cls ≠ Class.rpy.code) && decide (s.freeSlots ≤ 2))

/-- The lowest-numbered free slot (R105). -/
def State.freeSlot (s : State) : Option SlotIx := slotIxs.find? (fun i => (s.slot i).isNone)

/-- The lowest-numbered FREE request entry (R113). -/
def State.freeEntry (s : State) : Option ReqIx := reqIxs.find? (fun r => (s.entry r).state = .free)

/-- Checks 5 and 6: the target links, or the refusal (R103, R104). -/
def State.submitTargets (s : State) (h : Header) : Except ResultCode (List LinkId) :=
  if h.grp then
    if !(s.groupOf h).enable then .error .noRoute
    else if (s.upMembers (s.groupOf h)).isEmpty then .error .linkDown
    else .ok (s.upMembers (s.groupOf h))
  else if (s.routeFor h.dest).action ≠ .toLink then .error .noRoute
  else if !s.isUp (s.routeFor h.dest).link then .error .linkDown
  else .ok [(s.routeFor h.dest).link]

/-- The seven checks in order: the targets, or the first refusal (R98). -/
def State.submitCheck (s : State) (h : Header) : Except ResultCode (List LinkId) :=
  if !hostMayOriginate h then .error .badField
  else if !h.grp && decide (h.dest = s.port.node) then .error .badDest
  else if s.slotRefused h then .error .noSlot
  else if decide (h.cls = Class.req.code) && s.freeEntry.isNone then .error .tableFull
  else match s.submitTargets h with
    | .error e => .error e
    | .ok ms => if ms.all (fun m => (s.link m).tx.hasRoom h.queueClass) then .ok ms else .error .egressFull

/-- A request entry as SUBMIT allocates it (R113). -/
def ReqEntry.allocated (e : ReqEntry) (h : Header) (egress : LinkId) (i : SlotIx) : ReqEntry :=
  { ReqEntry.free e.gen with state := .queued, dest := h.dest, egress := egress, slot := some i, user := h.user }

/-- The egress entry of a host copy (R77, R105). -/
def hostCopy (i : SlotIx) (h : Header) : EgressEntry := ⟨.slot i, h.queueClass, h.cells, h.hops, h.grp, false⟩

/-- An accepted SUBMIT's slot and copies, for header `h` already completed (R105). -/
def State.takeSlot (s : State) (i : SlotIx) (h : Header) (req : Option ReqIx) (ms : List LinkId) : State :=
  (s.setSlot i (some ⟨h, (composedCells s.port.compose).take h.len.toNat, ms.length, req⟩)).appendCopies ms
    (hostCopy i h)

/-- RESULT of an accepted REQ: its entry's index and tag (R168). -/
def State.setReqResult (s : State) (r : ReqIx) (tag : BitVec 6) : State :=
  { s with port := { s.port with result := ⟨1, .ok, BitVec.ofFin (w := 4) r, tag⟩ } }

/-- An accepted SUBMIT of a REQ to link `m` (R105, R113). -/
def State.submitReq (s : State) (i : SlotIx) (r : ReqIx) (h : Header) (m : LinkId) : State :=
  (((s.setEntry r ((s.entry r).allocated h m i)).takeSlot i { h with tag := (s.entry r).tag r } (some r) [m]).setReqResult r
    ((s.entry r).tag r))

/-- An accepted SUBMIT of an RPY or PST (R105). -/
def State.submitPlain (s : State) (i : SlotIx) (h : Header) (ms : List LinkId) : State :=
  (s.takeSlot i h none ms).setResult 1 .ok

/-- The header SUBMIT composes: SRC is NODE_ID (R105). -/
def State.composed (s : State) : Header := { composedHeader s.port.compose with src := s.port.node }

/-- An accepted SUBMIT up to the starts it makes possible (R105). The branches without a slot or an entry are those
checks 3 and 4 have refused. -/
def State.submitAccepted (s : State) (ms : List LinkId) : State :=
  match s.freeSlot with
  | none => s.setResult 1 .noSlot
  | some i =>
    if s.composed.cls = Class.req.code then
      match s.freeEntry, ms with
      | some r, m :: _ => s.submitReq i r s.composed m
      | _, _ => s.setResult 1 .tableFull
    else s.submitPlain i s.composed ms

/-- SUBMIT (R98): a refusal changes RESULT alone. -/
def State.submit (s : State) : State :=
  match s.submitCheck s.composed with
  | .error e => s.setResult 1 e
  | .ok ms => settle (s.submitAccepted ms)

/-! ### RX_POP (R138) -/

/-- RX_POP (R138): the removal lets waiting heads be considered. -/
def State.rxPop (s : State) : State :=
  match s.inbound with
  | [] => s.setResult 2 .empty
  | _ :: rest => settle ({ s with inbound := rest }.setResult 2 .ok)

/-! ### CQ_RELEASE (R127) -/

/-- CQ_RELEASE (R127): the head entry returns to FREE with its generation advanced (R112). -/
def State.cqRelease (s : State) : State :=
  match s.cq with
  | [] => s.setResult 3 .empty
  | r :: rest => ({ s with cq := rest }.setEntry r (ReqEntry.free ((s.entry r).gen + 1))).setResult 3 .ok

/-! ### REQ_CANCEL (R118) -/

/-- Whether an egress entry names slot `i`. -/
def EgressEntry.namesSlot (e : EgressEntry) (i : SlotIx) : Bool := decide (e.source = .slot i)

/-- Whether the REQ in slot `i` is in transmission on link `l` (R92). -/
def State.slotStarted (s : State) (l : LinkId) (i : SlotIx) : Bool :=
  ((s.link l).tx.queue .req).any (fun e => e.namesSlot i && e.started)

/-- The withdrawal of a REQ that has not started, its slot freed (R92). -/
def State.withdrawReq (s : State) (l : LinkId) (i : SlotIx) : State :=
  (s.modLink l (fun n => { n with tx := n.tx.withdraw (fun e => !e.namesSlot i) })).endSlotCopy i

/-- The cancel of an entry in QUEUED (R118, R92). -/
def State.cancelQueued (s : State) (r : ReqIx) : State :=
  match (s.entry r).slot with
  | none => s.complete r .cancelled
  | some i =>
    if s.slotStarted (s.entry r).egress i then s.setEntry r { s.entry r with cancelPending := true }
    else (s.withdrawReq (s.entry r).egress i).complete r .cancelled

/-- REQ_CANCEL of entry `r` (R118). -/
def State.cancelEntry (s : State) (r : ReqIx) : State :=
  match (s.entry r).state with
  | .free => s.setResult 4 .notActive
  | .queued => settle ((s.cancelQueued r).setResult 4 .ok)
  | .sent => (s.complete r .cancelled).setResult 4 .ok
  | .done => s.setResult 4 .notActive

/-- REQ_CANCEL n (R118). -/
def State.reqCancel (s : State) (n : BitVec 5) : State :=
  match entryOperand n with
  | none => s.setResult 4 .badField
  | some r => s.cancelEntry r

/-! ### LINK_RESET (R18) -/

/-- LINK_RESET of an enabled link (R18). -/
def State.restartLink (s : State) (l : LinkId) : State :=
  if (s.link l).state = .up then s.teardown l .hostReset else s.modLink l Link.enterHold

/-- LINK_RESET n (R18). -/
def State.linkReset (s : State) (n : BitVec 5) : State :=
  match linkOperand n with
  | none => s.setResult 5 .badField
  | some l =>
    if (s.link l).ctrl.enable then settle ((s.restartLink l).setResult 5 .ok) else s.setResult 5 .notActive

/-! ### DROP_CLEAR (R174) -/

/-- DROP_CLEAR (R174): the DROP event stays latched. -/
def State.dropClear (s : State) : State :=
  { s with events := { s.events with dropCount := 0, capture := none } }.setResult 11 .ok

/-! ### SOFT_RESET (R175) -/

/-- A link at soft reset: emptied, its cause recorded if it was UP, in HOLD if enabled and else OFF (R33, R54, R95). -/
def Link.softReset (n : Link) : Link :=
  Link.moveTo
    { n with
      cause := if n.state = .up then .softReset else n.cause
      store := { Store.empty with nextId := n.store.nextId }
      tx := Transmitter.idle }
    (if n.ctrl.enable then .hold else .off)

/-- The cells a soft reset sends on link `l`: a TEARDOWN cell if it is UP, after the cells already sent (R33, R95). -/
def State.softResetLane (s : State) (l : LinkId) : State :=
  if (s.link l).state = .up then (s.cutTransmission l).sendTeardown l .softReset else s

/-- A request entry at soft reset (R130). -/
def ReqEntry.softReset (e : ReqEntry) : ReqEntry := ReqEntry.free (if e.state = .free then e.gen else e.gen + 1)

/-- SOFT_RESET up to the links that leave HOLD at once (R175, R20). -/
def State.softResetCore (s : State) : State :=
  let t := linkIds.foldl State.softResetLane s
  { t with
    port    := { t.port with cfgReject := false, compose := Vector.replicate 16 0, result := ⟨6, .ok, 0, 0⟩ }
    events  := ⟨0, t.events.enable, 0, none⟩
    route   := { t.route with position := 11 }
    links   := Vector.ofFn (fun l => (t.link l).softReset)
    slots   := Vector.replicate 8 none
    reqs    := Vector.ofFn (fun r => (t.entry r).softReset)
    cq      := []
    inbound := []
    jobs    := []
    sync    := Vector.replicate 8 SyncCounter.initial }

/-- SOFT_RESET (R175). -/
def State.softReset (s : State) : State := settle s.softResetCore

/-! ### The rows -/

/-- SUBMIT (R98). -/
def execSubmit (s : State) : Host.Outcome State Fault Refusal := .next (s.unlessReset (·.submit))

/-- RX_POP (R138). -/
def execRxPop (s : State) : Host.Outcome State Fault Refusal := .next (s.unlessReset (·.rxPop))

/-- CQ_RELEASE (R127). -/
def execCqRelease (s : State) : Host.Outcome State Fault Refusal := .next (s.unlessReset (·.cqRelease))

/-- REQ_CANCEL (R118). -/
def execReqCancel (n : BitVec 5) (s : State) : Host.Outcome State Fault Refusal :=
  .next (s.unlessReset (·.reqCancel n))

/-- LINK_RESET (R18). -/
def execLinkReset (n : BitVec 5) (s : State) : Host.Outcome State Fault Refusal :=
  .next (s.unlessReset (·.linkReset n))

/-- SOFT_RESET (R175). -/
def execSoftReset (s : State) : Host.Outcome State Fault Refusal := .next (s.unlessReset (·.softReset))

/-- DROP_CLEAR (R174). -/
def execDropClear (s : State) : Host.Outcome State Fault Refusal := .next (s.unlessReset (·.dropClear))

end Sys2Proof.Machine
end

