-- ==== Sys2Proof/Machine/SyncCommands.lean ====
section
/-! DEFINITION. The sync counter commands (R154–R158). -/

namespace Sys2Proof.Machine

/-- SYNC_ARM of counter `j` with a target that is not 0 (R155). -/
def State.armCounter (s : State) (j : Fin 8) (t : BitVec 8) : State :=
  s.checkCounter j { s.counter j with target := t, armed := true, fired := false }

/-- SYNC_ARM k,t (R155). -/
def State.syncArm (s : State) (k : BitVec 5) (t : BitVec 8) : State :=
  match counterOperand k with
  | none => s.setResult 7 .badField
  | some j => if t = 0 then s.setResult 7 .badField else (s.armCounter j t).setResult 7 .ok

/-- SYNC_TAKE of counter `j` whose count is at least its target (R156). -/
def State.takeRound (s : State) (j : Fin 8) : State :=
  s.checkCounter j
    { s.counter j with count := (s.counter j).count - (s.counter j).target, armed := true, fired := false }

/-- SYNC_TAKE k (R156). -/
def State.syncTake (s : State) (k : BitVec 5) : State :=
  match counterOperand k with
  | none => s.setResult 8 .badField
  | some j =>
    if (s.counter j).target ≤ (s.counter j).count then (s.takeRound j).setResult 8 .ok else s.setResult 8 .notReady

/-- SYNC_DISARM k (R157). -/
def State.syncDisarm (s : State) (k : BitVec 5) : State :=
  match counterOperand k with
  | none => s.setResult 9 .badField
  | some j => (s.setCounter j { s.counter j with armed := false }).setResult 9 .ok

/-- SYNC_CLEAR k (R158). -/
def State.syncClear (s : State) (k : BitVec 5) : State :=
  match counterOperand k with
  | none => s.setResult 10 .badField
  | some j => (s.setCounter j ⟨0, (s.counter j).target, false, false, false⟩).setResult 10 .ok

/-- SYNC_ARM (R155). -/
def execSyncArm (k : BitVec 5) (t : BitVec 8) (s : State) : Host.Outcome State Fault Refusal :=
  .next (s.unlessReset (·.syncArm k t))

/-- SYNC_TAKE (R156). -/
def execSyncTake (k : BitVec 5) (s : State) : Host.Outcome State Fault Refusal := .next (s.unlessReset (·.syncTake k))

/-- SYNC_DISARM (R157). -/
def execSyncDisarm (k : BitVec 5) (s : State) : Host.Outcome State Fault Refusal :=
  .next (s.unlessReset (·.syncDisarm k))

/-- SYNC_CLEAR (R158). -/
def execSyncClear (k : BitVec 5) (s : State) : Host.Outcome State Fault Refusal :=
  .next (s.unlessReset (·.syncClear k))

end Sys2Proof.Machine
end

