-- ==== Sys2Proof/Machine/HostWrites.lean ====
section
/-! DEFINITION. The host's writes of configuration, status and event words, and power-on reset (R57, R58, R161–R170,
R176–R178). -/

namespace Sys2Proof.Machine

/-- A refused configuration write (R165). -/
def State.rejectConfig (s : State) : State := { s with port := { s.port with cfgReject := true } }

/-- NODE write (R163). -/
def State.nodeWrite (s : State) (w : Word) : State :=
  if linkIds.all (fun l => (s.link l).state = .off) then { s with port := { s.port with node := w.extractLsb' 0 5 } }
  else s.rejectConfig

/-- The three fields of an accepted CTRL write; a change of TB_DIV restarts the divider (R164, R166). -/
def State.storeCtrl (s : State) (w : Word) : State :=
  { s with
    port := { s.port with
      rxEnable := w.getLsbD 0, defaultHops := w.extractLsb' 8 5, tbDiv := w.extractLsb' 16 8 }
    divider := if w.extractLsb' 16 8 = s.port.tbDiv then s.divider else 0 }

/-- CTRL write (R164): only a change of RX_ENABLE lets heads be considered again (R136). -/
def State.ctrlWrite (s : State) (w : Word) : State :=
  if !ctrlAccepted w then s.rejectConfig
  else if w.getLsbD 0 = s.port.rxEnable then s.storeCtrl w
  else settle (s.storeCtrl w)

/-- What ENABLE does once an LCTRLn write is stored: `was` is the ENABLE it replaced (R17, R21). -/
def State.applyEnable (s : State) (l : LinkId) (was : Bool) : State :=
  if (s.link l).ctrl.enable then
    if !was && decide ((s.link l).state = .off) then s.modLink l Link.enterHold else s
  else if (s.link l).state = .up then s.teardown l .hostDisable
  else s.modLink l Link.enterOff

/-- LCTRLn write (R17, R21, R178). -/
def State.lctrlWrite (s : State) (l : LinkId) (w : Word) : State :=
  if lctrlAccepted w then
    settle ((s.modLink l (fun n => { n with ctrl := n.ctrl.written w })).applyEnable l (s.link l).ctrl.enable)
  else s.rejectConfig

/-- STATUS write (R165): bit 0 as 1 clears CFG_REJECT. -/
def State.statusWrite (s : State) (w : Word) : State :=
  { s with port := { s.port with cfgReject := s.port.cfgReject && !w.getLsbD 0 } }

/-- EVENT write: each bit written as 1 is cleared (R169). -/
def State.eventWrite (s : State) (w : Word) : State :=
  { s with events := { s.events with latch := s.events.latch &&& ~~~(w.extractLsb' 0 7) } }

/-- EVENT_EN write (R170). -/
def State.eventEnWrite (s : State) (w : Word) : State :=
  { s with events := { s.events with enable := w.extractLsb' 0 7 } }

/-- ROUTE write: the selected entry is stored, and waiting heads are considered again (R57, R61). -/
def State.routeWrite (s : State) (w : Word) : State :=
  settle { s with route := { s.route with routes := s.route.routes.set s.route.routeSel.toFin (RouteEntry.ofWord w) } }

/-- GROUP write (R58, R61). -/
def State.groupWrite (s : State) (w : Word) : State :=
  settle { s with route := { s.route with groups := s.route.groups.set s.route.groupSel.toFin (GroupEntry.ofWord w) } }

/-- A CMD write (R167): the code's command with its operand fields; an unknown code changes RESULT alone. -/
def State.cmdWrite (s : State) (w : Word) : State :=
  if cmdCode w = 1 then s.submit
  else if cmdCode w = 2 then s.rxPop
  else if cmdCode w = 3 then s.cqRelease
  else if cmdCode w = 4 then s.reqCancel (cmdN w)
  else if cmdCode w = 5 then s.linkReset (cmdN w)
  else if cmdCode w = 6 then s.softReset
  else if cmdCode w = 7 then s.syncArm (cmdN w) (cmdT w)
  else if cmdCode w = 8 then s.syncTake (cmdN w)
  else if cmdCode w = 9 then s.syncDisarm (cmdN w)
  else if cmdCode w = 10 then s.syncClear (cmdN w)
  else if cmdCode w = 11 then s.dropClear
  else s.setResult (cmdCode w) .badCommand

/-- A write of a word without a row of its own (R162): stored as written, or ignored where the word is read only or
unmapped. -/
def State.plainWrite (s : State) (a : BitVec 7) (w : Word) : State :=
  if a = 2 then { s with port := { s.port with label := w } }
  else if a = 5 then { s with port := { s.port with reqTimeout := w.extractLsb' 0 16 } }
  else if a = 40 then { s with route := { s.route with routeSel := w.extractLsb' 0 5 } }
  else if a = 42 then { s with route := { s.route with groupSel := w.extractLsb' 0 3 } }
  else if h : 48 ≤ a.toNat ∧ a.toNat < 64 then
    { s with port := { s.port with compose := s.port.compose.set (a.toNat - 48) w (by omega) } }
  else s

/-- A host write of `w` to window word `a` (R161, R162). -/
def hostWrite (s : State) (a : BitVec 7) (w : Word) : State :=
  if a = 1 then s.nodeWrite w
  else if a = 3 then s.ctrlWrite w
  else if a = 4 then s.statusWrite w
  else if a = 6 then s.cmdWrite w
  else if a = 8 then s.eventWrite w
  else if a = 9 then s.eventEnWrite w
  else if a = 24 then s.lctrlWrite 0 w
  else if a = 25 then s.lctrlWrite 1 w
  else if a = 26 then s.lctrlWrite 2 w
  else if a = 27 then s.lctrlWrite 3 w
  else if a = 41 then s.routeWrite w
  else if a = 43 then s.groupWrite w
  else s.plainWrite a w

/-- The part with power-on values everywhere and its RESET input at a level (R176). What has gone on the lanes, the free
values read and the waiting commands are no state of the part and stand. -/
def State.powerOn (s : State) (asserted : Bool) : State :=
  { State.reset with inReset := asserted, lane := s.lane, choices := s.choices, pending := s.pending }

/-! ### The rows -/

/-- NODE_WRITE (R163). -/
def execNodeWrite (w : Word) (s : State) : Host.Outcome State Fault Refusal := .next (s.unlessReset (·.nodeWrite w))

/-- CTRL_WRITE (R164). -/
def execCtrlWrite (w : Word) (s : State) : Host.Outcome State Fault Refusal := .next (s.unlessReset (·.ctrlWrite w))

/-- LCTRL_WRITE (R17). -/
def execLctrlWrite (l : LinkId) (w : Word) (s : State) : Host.Outcome State Fault Refusal :=
  .next (s.unlessReset (·.lctrlWrite l w))

/-- STATUS_WRITE (R165). -/
def execStatusWrite (w : Word) (s : State) : Host.Outcome State Fault Refusal :=
  .next (s.unlessReset (·.statusWrite w))

/-- EVENT_WRITE (R169). -/
def execEventWrite (w : Word) (s : State) : Host.Outcome State Fault Refusal := .next (s.unlessReset (·.eventWrite w))

/-- EVENT_EN_WRITE (R170). -/
def execEventEnWrite (w : Word) (s : State) : Host.Outcome State Fault Refusal :=
  .next (s.unlessReset (·.eventEnWrite w))

/-- ROUTE_WRITE (R57). -/
def execRouteWrite (w : Word) (s : State) : Host.Outcome State Fault Refusal := .next (s.unlessReset (·.routeWrite w))

/-- GROUP_WRITE (R58). -/
def execGroupWrite (w : Word) (s : State) : Host.Outcome State Fault Refusal := .next (s.unlessReset (·.groupWrite w))

/-- REGISTER_WRITE (R162). An address with a row of its own means the same host write. -/
def execRegisterWrite (a : BitVec 7) (w : Word) (s : State) : Host.Outcome State Fault Refusal :=
  .next (s.unlessReset (hostWrite · a w))

/-- BAD_COMMAND (R167): the CMD write of that code. -/
def execBadCommand (code : BitVec 4) (s : State) : Host.Outcome State Fault Refusal :=
  .next (s.unlessReset (·.cmdWrite (code.setWidth 32)))

/-- A change of the RESET input's level (R176): asserted where it is released, and the part is stopped; released where it
is asserted (log 2). Every piece of state holds its power-on value from the assertion on. -/
def State.resetInput (s : State) : State := s.powerOn (!s.inReset)

/-- POWER_ON_RESET (R176). -/
def execPowerOnReset (s : State) : Host.Outcome State Fault Refusal := .next s.resetInput

end Sys2Proof.Machine
end

