-- ==== Sys2Proof/Machine/InternalEvents.lean ====
section
/-! DEFINITION. The rows of the part's own events, taken as commands: the state of the part decides what each does, and
in a state where the event cannot take place nothing happens (log 2). -/

namespace Sys2Proof.Machine

/-- The consideration of one source's head: dispatched if its outcome has room, else it waits (R60, R61). -/
def State.considerSource (s : State) (r : RouteSource) : State := if s.ready r then settle (s.dispatchSource r) else s

/-- Whether the scheduler of link `l` has a head to start at a packet boundary (R82). -/
def Link.canStart (n : Link) : Bool := decide (n.state = .up) && !n.tx.busy && (n.tx.choose n.ctrl.quantum).isSome

/-- Whether a due CREDIT cell can go out on link `l` (R84). -/
def Link.canCredit (n : Link) : Bool := n.creditDue && !n.tx.busy

/-- A start on link `l`, a due CREDIT cell first (R82, R85). -/
def State.startWhere (s : State) (l : LinkId) : State := if (s.link l).canStart then s.boundary l else s

/-- A due CREDIT cell on link `l`; the decision then continues at the same boundary (R49, R82). -/
def State.creditWhere (s : State) (l : LinkId) : State := if (s.link l).canCredit then s.boundary l else s

/-- The completion of the transmission on link `l`, if there is one (R87). -/
def State.finishWhere (s : State) (l : LinkId) : State :=
  if (s.link l).tx.busy then settle (s.completeTransmission l) else s

/-- WAIT_PEER_ENTRY (R20). -/
def execWaitPeerEntry (l : LinkId) (s : State) : Host.Outcome State Fault Refusal :=
  .next (s.unlessReset (·.leaveHold l))

/-- DISPATCH (R60). -/
def execDispatch (l : LinkId) (c : Class) (s : State) : Host.Outcome State Fault Refusal :=
  .next (s.unlessReset (·.considerSource (.ingress l c)))

/-- RESPONDER_DISPATCH (R74). -/
def execResponderDispatch (s : State) : Host.Outcome State Fault Refusal :=
  .next (s.unlessReset (·.considerSource .responder))

/-- TRANSMISSION_START (R85). -/
def execTransmissionStart (l : LinkId) (s : State) : Host.Outcome State Fault Refusal :=
  .next (s.unlessReset (·.startWhere l))

/-- CREDIT_CELL_SEND (R49). -/
def execCreditCellSend (l : LinkId) (s : State) : Host.Outcome State Fault Refusal :=
  .next (s.unlessReset (·.creditWhere l))

/-- TRANSMISSION_COMPLETION (R87). -/
def execTransmissionCompletion (l : LinkId) (s : State) : Host.Outcome State Fault Refusal :=
  .next (s.unlessReset (·.finishWhere l))

end Sys2Proof.Machine
end

