-- ==== Sys2Proof/Machine/LaneEvents.lean ====
section
/-! DEFINITION. What a link does with the cells it receives and with a loss of carrier (R1, R19–R28, R30, R40–R42,
R50). -/

namespace Sys2Proof.Machine

/-! ### Packet cells (R1, R40, R41) -/

/-- The header check against the store's own occupancy (R40). -/
def Store.admits (k : Store) (h : Header) : Bool :=
  if h.pool then !k.regionHeld h.queueClass && !k.awaitRes.get h.queueClass else decide (h.cells ≤ k.free)

/-- The record a header cell opens; with LEN 0 the header cell is the packet's arrival (R40, R41). -/
def Store.newPacket (k : Store) (h : Header) : StoredPacket :=
  ⟨k.nextId, h, [], if h.pool then .reserved else .shared, if h.len = 0 then .queued else .inReception,
    if h.len = 0 then 1 else 0⟩

/-- The store once a header cell's space is set aside (R40). -/
def Store.openPacket (k : Store) (h : Header) : Store :=
  { k with packets := k.packets ++ [k.newPacket h], nextId := k.nextId + 1 }

/-- The packet in reception with its next data cell; the LEN-th is its arrival (R41). -/
def StoredPacket.withCell (p : StoredPacket) (c : Cell) : StoredPacket :=
  if p.hdr.len.toNat ≤ p.data.length + 1 then { p with data := p.data ++ [c], cond := .queued, copies := 1 }
  else { p with data := p.data ++ [c] }

/-- The store once a data cell has arrived for its packet in reception (R41). -/
def Store.takeCell (k : Store) (c : Cell) : Store :=
  { k with packets := k.packets.map (fun p => if p.cond = .inReception then p.withCell c else p) }

/-- A packet cell on a link in UP: a header cell at a packet boundary, else a data cell (R1). -/
def State.framedCell (s : State) (l : LinkId) (c : Cell) : State :=
  match (s.link l).store.receiving with
  | some _ => s.modLink l (fun n => { n with store := n.store.takeCell c })
  | none =>
    if (s.link l).store.admits (Header.ofCell c) then
      s.modLink l (fun n => { n with store := n.store.openPacket (Header.ofCell c) })
    else s.teardown l .creditOverrun

/-- SEEN cleared, the recovery of R26. -/
def State.clearSeen (s : State) (l : LinkId) : State := s.modLink l (fun n => { n with seen := false })

/-- A good packet cell on link `l`, whatever its state (R1, R19, R21, R26). -/
def State.packetCell (s : State) (l : LinkId) (c : Cell) : State :=
  match (s.link l).state with
  | .off => s
  | .hold => s
  | .waitPeer => s.clearSeen l
  | .up => settle (s.framedCell l c)

/-! ### Control cells (R1, R22–R28, R50) -/

/-- An INIT received in WAIT_PEER that does not carry the own NODE_ID, with SEEN 0 (R23). -/
def State.answerInit (s : State) (l : LinkId) (node : NodeId) : State :=
  (s.modLink l (fun n => { n with peer := node, seen := true, initTimer := some Config.initInterval })).sendInit l true

/-- An INIT received in WAIT_PEER that does not carry the own NODE_ID, with SEEN 1 (R24, R27). -/
def State.comeUp (s : State) (l : LinkId) (node : NodeId) : State :=
  ((if (s.link l).seen then s else s.sendInit l true).modLink l
    (fun n => { n with peer := node, seen := true }.enterUp)).latch .link

/-- An INIT received in WAIT_PEER (R23–R25). -/
def State.initInWaitPeer (s : State) (l : LinkId) (node : NodeId) (seen : Bool) : State :=
  if node = s.port.node then settle ((s.modLink l (fun n => { n with peer := node })).teardown l .sameId)
  else if seen then settle (s.comeUp l node)
  else s.answerInit l node

/-- A control cell on a link in UP: inside a packet it is a CONTROL_ERROR whatever its type (R1). -/
def State.controlInUp (s : State) (l : LinkId) (atBoundary : State) : State :=
  match (s.link l).store.receiving with
  | some _ => settle (s.teardown l .controlError)
  | none => atBoundary

/-- INIT received (R19, R21, R23–R25, R28). -/
def State.initReceived (s : State) (l : LinkId) (node : NodeId) (seen : Bool) : State :=
  match (s.link l).state with
  | .off => s
  | .hold => s
  | .waitPeer => s.initInWaitPeer l node seen
  | .up => s.controlInUp l (if seen then s else settle (s.teardown l .peerRestart))

/-- Whether a CREDIT cell would overfill the transmitter (R50). -/
def Transmitter.overfilled (t : Transmitter) (count : BitVec 7) (res : PerClass Bool) : Bool :=
  decide (Config.sharedCells < t.shared + count.toNat) || (res.req && t.reserved.req) || (res.rpy && t.reserved.rpy) ||
    (res.pst && t.reserved.pst)

/-- The transmitter with a CREDIT cell's credit added (R50). -/
def Transmitter.credited (t : Transmitter) (count : BitVec 7) (res : PerClass Bool) : Transmitter :=
  { t with shared := t.shared + count.toNat
           reserved := ⟨t.reserved.req || res.req, t.reserved.rpy || res.rpy, t.reserved.pst || res.pst⟩ }

/-- A CREDIT cell at a packet boundary of a link in UP (R50). -/
def State.creditInUp (s : State) (l : LinkId) (count : BitVec 7) (res : PerClass Bool) : State :=
  settle (if (s.link l).tx.overfilled count res then s.teardown l .creditReturnError
    else s.modLink l (fun n => { n with tx := n.tx.credited count res }))

/-- CREDIT received (R19, R21, R26, R50). -/
def State.creditReceived (s : State) (l : LinkId) (count : BitVec 7) (res : PerClass Bool) : State :=
  match (s.link l).state with
  | .off => s
  | .hold => s
  | .waitPeer => s.clearSeen l
  | .up => s.controlInUp l (s.creditInUp l count res)

/-- TEARDOWN cell received (R19, R21, R26, R30). -/
def State.teardownReceived (s : State) (l : LinkId) : State :=
  if (s.link l).state = .up then s.controlInUp l (settle (s.teardown l .peerTeardown)) else s

/-- Control cell of unknown type (R1, R19, R21, R26). -/
def State.unknownControl (s : State) (l : LinkId) : State :=
  if (s.link l).state = .up then settle (s.teardown l .controlError) else s

/-- A cell reported bad (R1, R19, R21, R26). -/
def State.badCell (s : State) (l : LinkId) : State :=
  match (s.link l).state with
  | .off => s
  | .hold => s
  | .waitPeer => s.clearSeen l
  | .up => settle (s.teardown l .cellError)

/-- A loss of carrier (R19, R21, R22, R30). -/
def State.carrierLoss (s : State) (l : LinkId) : State :=
  if (s.link l).state = .up then settle (s.teardown l .carrierLoss) else s

/-! ### The rows -/

/-- HEADER_CELL_ARRIVAL (R40). Whether a packet cell is a header cell is the link's framing (R1). -/
def execHeaderCellArrival (l : LinkId) (c : Cell) (s : State) : Host.Outcome State Fault Refusal :=
  .next (s.unlessReset (·.packetCell l c))

/-- DATA_CELL_ARRIVAL (R41). -/
def execDataCellArrival (l : LinkId) (c : Cell) (s : State) : Host.Outcome State Fault Refusal :=
  .next (s.unlessReset (·.packetCell l c))

/-- PACKET_CELL_WHILE_NOT_UP (R26). -/
def execPacketCellWhileNotUp (l : LinkId) (c : Cell) (s : State) : Host.Outcome State Fault Refusal :=
  .next (s.unlessReset (·.packetCell l c))

/-- INIT_RECEIVED (R24). -/
def execInitReceived (l : LinkId) (node : NodeId) (seen : Bool) (s : State) : Host.Outcome State Fault Refusal :=
  .next (s.unlessReset (·.initReceived l node seen))

/-- CREDIT_RECEIVED (R50). -/
def execCreditReceived (l : LinkId) (count : BitVec 7) (res : PerClass Bool) (s : State) :
    Host.Outcome State Fault Refusal := .next (s.unlessReset (·.creditReceived l count res))

/-- TEARDOWN_CELL_RECEIVED (R30). -/
def execTeardownCellReceived (l : LinkId) (s : State) : Host.Outcome State Fault Refusal :=
  .next (s.unlessReset (·.teardownReceived l))

/-- UNKNOWN_CONTROL_CELL (R1). -/
def execUnknownControlCell (l : LinkId) (s : State) : Host.Outcome State Fault Refusal :=
  .next (s.unlessReset (·.unknownControl l))

/-- BAD_CELL (R1). -/
def execBadCell (l : LinkId) (s : State) : Host.Outcome State Fault Refusal := .next (s.unlessReset (·.badCell l))

/-- CARRIER_LOSS (R30). -/
def execCarrierLoss (l : LinkId) (s : State) : Host.Outcome State Fault Refusal :=
  .next (s.unlessReset (·.carrierLoss l))

end Sys2Proof.Machine
end

