-- ==== Sys2Proof/Machine/TimerEvents.lean ====
section
/-! DEFINITION. The expiries of the part's timers and the timebase (R19, R22, R47, R115, R166). -/

namespace Sys2Proof.Machine

/-- The hold timer's expiry: a stopped timer does not expire (R19, R20). -/
def State.holdExpiry (s : State) (l : LinkId) : State :=
  if (s.link l).state = .hold ∧ (s.link l).holdTimer.isSome then
    settle (s.modLink l (fun n => { n with holdTimer := none }))
  else s

/-- The INIT timer's expiry in WAIT_PEER (R22). -/
def State.initExpiry (s : State) (l : LinkId) : State :=
  if (s.link l).state = .waitPeer ∧ (s.link l).initTimer.isSome then
    (s.modLink l (fun n => { n with initTimer := some Config.initInterval })).sendInit l (s.link l).seen
  else s

/-- The holdoff timer's expiry sets the elapsed mark, which makes a CREDIT cell due (R47, R48). -/
def State.holdoffExpiry (s : State) (l : LinkId) : State :=
  if (s.link l).store.holdoff.isSome then
    settle (s.modLink l (fun n => { n with store := { n.store with holdoff := none, elapsed := true } }))
  else s

/-- A request timer's expiry (R115). -/
def State.requestExpiry (s : State) (r : ReqIx) : State :=
  if (s.entry r).timerRuns then s.complete r .timeout else s

/-- The timers of the part (R166). -/
inductive TimerId where
  | hold (l : LinkId)
  | init (l : LinkId)
  | holdoff (l : LinkId)
  | request (r : ReqIx)
  deriving DecidableEq, Repr

/-- Every timer. -/
def timerIds : List TimerId :=
  linkIds.map TimerId.hold ++ linkIds.map TimerId.init ++ linkIds.map TimerId.holdoff ++ reqIxs.map TimerId.request

/-- Whether a timer runs and has no unit left. -/
def State.timerOut (s : State) : TimerId → Bool
  | .hold l => decide ((s.link l).holdTimer = some 0)
  | .init l => decide ((s.link l).initTimer = some 0)
  | .holdoff l => decide ((s.link l).store.holdoff = some 0)
  | .request r => (s.entry r).timerRuns && decide ((s.entry r).remaining = 0)

/-- A timer's expiry. -/
def State.expire (s : State) : TimerId → State
  | .hold l => s.holdExpiry l
  | .init l => s.initExpiry l
  | .holdoff l => s.holdoffExpiry l
  | .request r => s.requestExpiry r

/-- A link's timers one unit on. -/
def Link.unitEnd (n : Link) : Link :=
  { n with initTimer := n.initTimer.map (· - 1), holdTimer := n.holdTimer.map (· - 1)
           store := { n.store with holdoff := n.store.holdoff.map (· - 1) } }

/-- An entry's running timer one unit on. -/
def ReqEntry.unitEnd (e : ReqEntry) : ReqEntry := if e.timerRuns then { e with remaining := e.remaining - 1 } else e

/-- Every running timer one unit on (R166). -/
def State.countUnit (s : State) : State :=
  { s with links := Vector.ofFn (fun l => (s.link l).unitEnd), reqs := Vector.ofFn (fun r => (s.entry r).unitEnd) }

/-- One of several timers that are out: which is a free value (log 6). -/
def State.pickTimer (s : State) (t : TimerId) (ts : List TimerId) : TimerId :=
  (t :: ts).getD (Config.nextExpiry s.choices % (ts.length + 1)) t

/-- The expiries of one unit's end, one after another (R122, R166). -/
def expireAll : Nat → State → State
  | 0, s => s
  | n + 1, s =>
    match timerIds.filter (fun t => s.timerOut t) with
    | [] => s
    | [t] => expireAll n (s.expire t)
    | t :: u :: ts => expireAll n (s.bumpChoices.expire (s.pickTimer t (u :: ts)))

/-- One reference clock period while RESET is released: the divider ends a unit after each TB_DIV of them (R166). -/
def State.period (s : State) : State :=
  if s.port.tbDiv.toNat ≤ s.divider + 1 then expireAll timerIds.length { s.countUnit with divider := 0 }
  else { s with divider := s.divider + 1 }

/-- One reference clock period: the divider's first unit starts at the release of RESET (R166). -/
def tick (s : State) : State := s.unlessReset State.period

/-- HOLD_TIMER_EXPIRY (R19). -/
def execHoldTimerExpiry (l : LinkId) (s : State) : Host.Outcome State Fault Refusal :=
  .next (s.unlessReset (·.holdExpiry l))

/-- INIT_TIMER_EXPIRY (R22). -/
def execInitTimerExpiry (l : LinkId) (s : State) : Host.Outcome State Fault Refusal :=
  .next (s.unlessReset (·.initExpiry l))

/-- CREDIT_HOLDOFF_EXPIRY (R47). -/
def execCreditHoldoffExpiry (l : LinkId) (s : State) : Host.Outcome State Fault Refusal :=
  .next (s.unlessReset (·.holdoffExpiry l))

/-- REQUEST_TIMER_EXPIRY (R115). -/
def execRequestTimerExpiry (r : ReqIx) (s : State) : Host.Outcome State Fault Refusal :=
  .next (s.unlessReset (·.requestExpiry r))

end Sys2Proof.Machine
end

