-- ==== Sys2Proof/Machine/Dispatch.lean ====
section
/-! DEFINITION. One arm for each command: its meaning. -/

namespace Sys2Proof.Machine

def exec (i : Instr) (s : State) : Host.Outcome State Fault Refusal :=
  match i with
  | .submit => Sys2Proof.Machine.execSubmit s
  | .rxPop => Sys2Proof.Machine.execRxPop s
  | .cqRelease => Sys2Proof.Machine.execCqRelease s
  | .reqCancel n => Sys2Proof.Machine.execReqCancel n s
  | .linkReset n => Sys2Proof.Machine.execLinkReset n s
  | .softReset => Sys2Proof.Machine.execSoftReset s
  | .syncArm k t => Sys2Proof.Machine.execSyncArm k t s
  | .syncTake k => Sys2Proof.Machine.execSyncTake k s
  | .syncDisarm k => Sys2Proof.Machine.execSyncDisarm k s
  | .syncClear k => Sys2Proof.Machine.execSyncClear k s
  | .dropClear => Sys2Proof.Machine.execDropClear s
  | .badCommand c => Sys2Proof.Machine.execBadCommand c s
  | .nodeWrite w => Sys2Proof.Machine.execNodeWrite w s
  | .ctrlWrite w => Sys2Proof.Machine.execCtrlWrite w s
  | .lctrlWrite l w => Sys2Proof.Machine.execLctrlWrite l w s
  | .statusWrite w => Sys2Proof.Machine.execStatusWrite w s
  | .eventWrite w => Sys2Proof.Machine.execEventWrite w s
  | .eventEnWrite w => Sys2Proof.Machine.execEventEnWrite w s
  | .routeWrite w => Sys2Proof.Machine.execRouteWrite w s
  | .groupWrite w => Sys2Proof.Machine.execGroupWrite w s
  | .registerWrite a w => Sys2Proof.Machine.execRegisterWrite a w s
  | .powerOnReset => Sys2Proof.Machine.execPowerOnReset s
  | .headerCellArrival l c => Sys2Proof.Machine.execHeaderCellArrival l c s
  | .dataCellArrival l c => Sys2Proof.Machine.execDataCellArrival l c s
  | .initReceived l n b => Sys2Proof.Machine.execInitReceived l n b s
  | .creditReceived l n r => Sys2Proof.Machine.execCreditReceived l n r s
  | .teardownCellReceived l => Sys2Proof.Machine.execTeardownCellReceived l s
  | .unknownControlCell l => Sys2Proof.Machine.execUnknownControlCell l s
  | .badCell l => Sys2Proof.Machine.execBadCell l s
  | .carrierLoss l => Sys2Proof.Machine.execCarrierLoss l s
  | .holdTimerExpiry l => Sys2Proof.Machine.execHoldTimerExpiry l s
  | .waitPeerEntry l => Sys2Proof.Machine.execWaitPeerEntry l s
  | .initTimerExpiry l => Sys2Proof.Machine.execInitTimerExpiry l s
  | .creditHoldoffExpiry l => Sys2Proof.Machine.execCreditHoldoffExpiry l s
  | .requestTimerExpiry r => Sys2Proof.Machine.execRequestTimerExpiry r s
  | .dispatch l c => Sys2Proof.Machine.execDispatch l c s
  | .responderDispatch => Sys2Proof.Machine.execResponderDispatch s
  | .transmissionStart l => Sys2Proof.Machine.execTransmissionStart l s
  | .creditCellSend l => Sys2Proof.Machine.execCreditCellSend l s
  | .transmissionCompletion l => Sys2Proof.Machine.execTransmissionCompletion l s
  | .packetCellWhileNotUp l c => Sys2Proof.Machine.execPacketCellWhileNotUp l c s

end Sys2Proof.Machine
end

