-- ==== Sys2Proof/Machine/Window.lean ====
section
/-! DEFINITION. What each word of the host window reads as (R161, R162, R177; layouts of 11). A read is a function of
the state: it changes nothing. -/

namespace Sys2Proof.Machine

/-- The ID word. -/
def readId : Word := Config.idWord

/-- CTRL (11, "Identity and configuration words"). -/
def State.readCtrl (s : State) : Word :=
  0#8 ++ s.port.tbDiv ++ 0#3 ++ s.port.defaultHops ++ 0#7 ++ BitVec.ofBool s.port.rxEnable

/-- STATUS: CFG_REJECT and the four counts (R162). -/
def State.readStatus (s : State) : Word :=
  0#5 ++ BitVec.ofNat 3 s.jobs.length ++ 0#1 ++ BitVec.ofNat 7 s.inboundCells ++ 0#2 ++ BitVec.ofNat 6 s.inbound.length
    ++ BitVec.ofNat 4 s.freeSlots ++ 0#3 ++ BitVec.ofBool s.port.cfgReject

/-- RESULT (R168). -/
def State.readResult (s : State) : Word :=
  0#10 ++ s.port.result.tag ++ 0#4 ++ s.port.result.index ++ s.port.result.res.code ++ s.port.result.cmd

/-- DROP_INFO: 0 while the record is free (R172). -/
def State.readDropInfo (s : State) : Word :=
  match s.events.capture with
  | none => 0
  | some d => 1#1 ++ 0#20 ++ d.origin.code ++ 0#5 ++ d.reason.code

/-- DROP_HDR: 0 while the record is free (R172). -/
def State.readDropHdr (s : State) : Word :=
  match s.events.capture with
  | none => 0
  | some d => 0#10 ++ d.tag ++ 0#1 ++ d.kind ++ d.cls ++ d.src ++ d.dest

/-- Eight flags as a byte, bit k for counter k. -/
def State.counterFlags (s : State) (f : SyncCounter → Bool) : BitVec 8 :=
  BitVec.ofBool (f (s.counter 7)) ++ BitVec.ofBool (f (s.counter 6)) ++ BitVec.ofBool (f (s.counter 5))
    ++ BitVec.ofBool (f (s.counter 4)) ++ BitVec.ofBool (f (s.counter 3)) ++ BitVec.ofBool (f (s.counter 2))
    ++ BitVec.ofBool (f (s.counter 1)) ++ BitVec.ofBool (f (s.counter 0))

/-- SYNC_SUMMARY (R151). -/
def State.readSyncSummary (s : State) : Word :=
  0#8 ++ s.counterFlags SyncCounter.overflow ++ s.counterFlags SyncCounter.fired ++ s.counterFlags SyncCounter.armed

/-- SYNCk (R151). -/
def SyncCounter.read (c : SyncCounter) : Word :=
  0#13 ++ BitVec.ofBool c.overflow ++ BitVec.ofBool c.fired ++ BitVec.ofBool c.armed ++ c.target ++ c.count

/-- LCTRLn: TIME shows the quantity the stored TSEL selects (R178). -/
def LinkCtrl.read (k : LinkCtrl) : Word :=
  0#1 ++ k.crThresh ++ k.quantum ++ (if k.tsel then k.crHoldoff else k.linkHold) ++ BitVec.ofBool k.tsel ++ 0#5
    ++ BitVec.ofBool k.auto ++ BitVec.ofBool k.enable

/-- LSTATn (R16). -/
def Link.readStat (n : Link) : Word :=
  0#12 ++ n.cause.code ++ 0#3 ++ n.peer ++ 0#5 ++ BitVec.ofBool n.seen ++ n.state.code

/-- Three class flags, REQ lowest. -/
def classFlags (p : PerClass Bool) : BitVec 3 := BitVec.ofBool p.pst ++ BitVec.ofBool p.rpy ++ BitVec.ofBool p.req

/-- LCREDn (R38, R55). -/
def Link.readCred (n : Link) : Word :=
  0#2 ++ classFlags n.store.awaitRes ++ BitVec.ofNat 7 n.store.awaitShared
    ++ classFlags ⟨n.store.regionHeld .req, n.store.regionHeld .rpy, n.store.regionHeld .pst⟩
    ++ BitVec.ofNat 7 n.store.held ++ classFlags n.tx.reserved ++ BitVec.ofNat 7 n.tx.shared

/-- An ingress count as shown: up to 15 (R179). -/
def shownCount (n : Nat) : BitVec 4 := BitVec.ofNat 4 (min n 15)

/-- LQUEUEn (R79, R179). -/
def Link.readQueue (n : Link) : Word :=
  shownCount (n.store.queue .pst).length ++ shownCount (n.store.queue .rpy).length
    ++ shownCount (n.store.queue .req).length ++ 0#2 ++ n.tx.cur.code ++ BitVec.ofBool n.tx.busy
    ++ BitVec.ofNat 5 (n.tx.queue .pst).length ++ BitVec.ofNat 5 (n.tx.queue .rpy).length
    ++ BitVec.ofNat 5 (n.tx.queue .req).length

/-- ROUTE: the entry ROUTE_SEL selects (R57). -/
def State.readRoute (s : State) : Word :=
  0#26 ++ BitVec.ofFin (w := 2) (s.routeFor s.route.routeSel).link ++ 0#2 ++ (s.routeFor s.route.routeSel).action.code

/-- GROUP: the entry GROUP_SEL selects (R58). -/
def State.readGroup (s : State) : Word :=
  0#24 ++ BitVec.ofBool (s.groupFor s.route.groupSel).enable ++ 0#2 ++ BitVec.ofBool (s.groupFor s.route.groupSel).member
    ++ (s.groupFor s.route.groupSel).mask

/-- Word `i` of a data window whose cells are `cells`: the even word is the low half of its cell, and words beyond the
cells read 0 (R126, R137). -/
def dataWord (cells : List Cell) (i : Nat) : Word :=
  if i % 2 = 0 then lowWord (cells.getD (i / 2) 0) else highWord (cells.getD (i / 2) 0)

/-- RX_HDR (R137). -/
def State.readRxHdr (s : State) : Word :=
  match s.inbound with
  | [] => 0
  | e :: _ => 1#1 ++ 0#3 ++ BitVec.ofFin (w := 2) e.link ++ 0#1 ++ e.len ++ e.tag ++ BitVec.ofBool e.grp ++ e.kind
    ++ e.cls ++ e.src ++ e.dest

/-- RX_AUX (R137). -/
def State.readRxAux (s : State) : Word :=
  match s.inbound with
  | [] => 0
  | e :: _ => e.user.setWidth 32

/-- RX_DATAi (R137). -/
def State.readRxData (s : State) (i : Nat) : Word :=
  match s.inbound with
  | [] => 0
  | e :: _ => dataWord e.data i

/-- The source field of CQ_HDR: the reply's SRC, or the destination where no reply completed the entry (R126). -/
def ReqEntry.shownSource (e : ReqEntry) : NodeId := if e.replyKind.isSome then e.replySrc else e.dest

/-- CQ_HDR (R126). -/
def State.readCqHdr (s : State) : Word :=
  match s.cq with
  | [] => 0
  | r :: _ => 1#1 ++ 0#1 ++ statusCode (s.entry r).status ++ 0#2 ++ (s.entry r).replyLen ++ (s.entry r).tag r ++ 0#1
    ++ (s.entry r).replyKind.getD 0 ++ 0#2 ++ (s.entry r).shownSource ++ 0#1 ++ BitVec.ofFin (w := 4) r

/-- CQ_AUX (R126). -/
def State.readCqAux (s : State) : Word :=
  match s.cq with
  | [] => 0
  | r :: _ => (s.entry r).replyUser ++ (s.entry r).user

/-- CQ_DATAi (R126). -/
def State.readCqData (s : State) (i : Nat) : Word :=
  match s.cq with
  | [] => 0
  | r :: _ => dataWord (s.entry r).replyData.toList i

/-- REQn: an entry in FREE shows its generation and nothing else (R128). -/
def ReqEntry.read (e : ReqEntry) : Word :=
  (if e.timerRuns then e.remaining else 0) ++ 0#1 ++ BitVec.ofFin (w := 2) e.egress ++ e.dest ++ statusCode e.status
    ++ BitVec.ofBool e.cancelPending ++ e.gen ++ e.state.code

/-- What window word `n` reads as (R161, R162): unmapped words and CMD read 0. -/
def readWordNat (s : State) (n : Nat) : Word :=
  if n = 0 then readId
  else if n = 1 then s.port.node.setWidth 32
  else if n = 2 then s.port.label
  else if n = 3 then s.readCtrl
  else if n = 4 then s.readStatus
  else if n = 5 then s.port.reqTimeout.setWidth 32
  else if n = 7 then s.readResult
  else if n = 8 then s.events.latch.setWidth 32
  else if n = 9 then s.events.enable.setWidth 32
  else if n = 10 then s.readDropInfo
  else if n = 11 then s.readDropHdr
  else if n = 12 then s.events.dropCount.setWidth 32
  else if n = 13 then s.readSyncSummary
  else if h : 16 ≤ n ∧ n < 24 then (s.counter ⟨n - 16, by omega⟩).read
  else if h : 24 ≤ n ∧ n < 28 then (s.link ⟨n - 24, by omega⟩).ctrl.read
  else if h : 28 ≤ n ∧ n < 32 then (s.link ⟨n - 28, by omega⟩).readStat
  else if h : 32 ≤ n ∧ n < 36 then (s.link ⟨n - 32, by omega⟩).readCred
  else if h : 36 ≤ n ∧ n < 40 then (s.link ⟨n - 36, by omega⟩).readQueue
  else if n = 40 then s.route.routeSel.setWidth 32
  else if n = 41 then s.readRoute
  else if n = 42 then s.route.groupSel.setWidth 32
  else if n = 43 then s.readGroup
  else if h : 48 ≤ n ∧ n < 64 then s.port.compose[n - 48]
  else if n = 64 then s.readRxHdr
  else if n = 65 then s.readRxAux
  else if 66 ≤ n ∧ n < 80 then s.readRxData (n - 66)
  else if n = 80 then s.readCqHdr
  else if n = 81 then s.readCqAux
  else if 82 ≤ n ∧ n < 96 then s.readCqData (n - 82)
  else if h : 96 ≤ n ∧ n < 112 then (s.entry ⟨n - 96, by omega⟩).read
  else 0

/-- A host read of window word `a` (R161): 0 while RESET is asserted (R176). -/
def readWord (s : State) (a : BitVec 7) : Word := if s.inReset then 0 else readWordNat s a.toNat

end Sys2Proof.Machine
end

