-- ==== Sys2Proof/Safety.lean ====
section
/-! DEFINITION. The laws the manual states of the part's state, in the terms the statements use. -/

namespace Sys2Proof.Machine

/-- The packets in class `c`'s reserved region. -/
def Store.inRegion (k : Store) (c : Class) : List StoredPacket :=
  k.packets.filter (fun p => p.region = .reserved && p.cls = c)

/-- Shared cells held plus shared cells awaiting return never exceed 72 (R36). -/
abbrev Store.SharedLaw (k : Store) : Prop := k.held + k.awaitShared ≤ 72

/-- A reserved region holds at most one packet, and its return bit is set only while it is empty (R37). -/
abbrev Store.RegionLaw (k : Store) (c : Class) : Prop :=
  (k.inRegion c).length ≤ 1 ∧ (k.awaitRes.get c = true → k.inRegion c = [])

/-- The law of R36 and R37 for a whole store. -/
abbrev Store.Lawful (k : Store) : Prop :=
  k.SharedLaw ∧ k.RegionLaw .req ∧ k.RegionLaw .rpy ∧ k.RegionLaw .pst

/-- A link that is not UP has zero credit, empty egress queues, nothing awaiting return, its holdoff timer stopped and
only dispatched packets in its store (R20, R29, R38, R52, R78). -/
abbrev Link.DownLaw (n : Link) : Prop :=
  n.state ≠ .up →
    n.tx.shared = 0 ∧ n.tx.reserved = PerClass.all false ∧ n.tx.queues = PerClass.all [] ∧ n.store.awaitShared = 0 ∧
      n.store.awaitRes = PerClass.all false ∧ n.store.holdoff = none ∧ n.store.elapsed = false ∧
      ∀ p ∈ n.store.packets, p.cond = .dispatched

/-- A link in WAIT_PEER has an empty receive store (R20, R52). -/
abbrev Link.WaitLaw (n : Link) : Prop := n.state = .waitPeer → n.store.packets = []

/-- A transmitter's shared credit lies in 0–72 (R38). -/
abbrev Transmitter.CreditLaw (t : Transmitter) : Prop := t.shared ≤ 72

/-- No egress class queue holds more than 16 entries (R77). -/
abbrev Transmitter.QueueLaw (t : Transmitter) : Prop :=
  (t.queue .req).length ≤ 16 ∧ (t.queue .rpy).length ≤ 16 ∧ (t.queue .pst).length ≤ 16

/-- The inbound queue holds at most 32 entries and at most 112 payload cells (R132). -/
abbrev State.InboundLaw (s : State) : Prop := s.inbound.length ≤ 32 ∧ s.inboundCells ≤ 112

/-- The responder holds at most 4 jobs (R141). -/
abbrev State.JobLaw (s : State) : Prop := s.jobs.length ≤ 4

/-- Whether a slot holds a REQ or PST packet. -/
def holdsReqOrPst : Option Slot → Bool
  | none => false
  | some k => decide (k.hdr.cls ≠ Class.rpy.code)

/-- The slots that hold REQ or PST packets. -/
def State.reqPstSlots (s : State) : List SlotIx := slotIxs.filter (fun i => holdsReqOrPst (s.slot i))

/-- At most 6 of the 8 slots hold REQ or PST packets (R101). -/
abbrev State.SlotLaw (s : State) : Prop := s.reqPstSlots.length ≤ 6

/-- ARMED and FIRED are never set together, an armed counter's count is below its target, and no target is 0
(R151, R153). -/
abbrev SyncCounter.Lawful (c : SyncCounter) : Prop :=
  ¬(c.armed = true ∧ c.fired = true) ∧ (c.armed = true → c.count < c.target) ∧ c.target ≠ 0

/-- The completion queue holds exactly the DONE entries, each once (R125). -/
abbrev State.CompletionLaw (s : State) : Prop := s.cq.Nodup ∧ ∀ r : ReqIx, r ∈ s.cq ↔ (s.entry r).state = .done

/-- The fields a configuration write checks hold values the part can use (R17, R164). -/
abbrev State.ConfigLaw (s : State) : Prop :=
  s.port.defaultHops ≠ 0 ∧ s.port.tbDiv ≠ 0 ∧
    ∀ l : LinkId, 8 ≤ (s.link l).ctrl.quantum ∧ 1 ≤ (s.link l).ctrl.crThresh ∧ (s.link l).ctrl.crThresh ≤ 72

/-- The egress entries of every link. -/
def State.allEntries (s : State) : List EgressEntry := linkIds.flatMap (fun l => (s.link l).tx.entries)

/-- The egress entries that name a source. -/
def State.copiesOf (s : State) (src : Source) : Nat := (s.allEntries.filter (fun e => e.source = src)).length

/-- The copy count a stored packet must have (R45): its egress entries, started or not, plus one while it waits for
dispatch. -/
def State.owedCopies (s : State) (l : LinkId) (p : StoredPacket) : Nat :=
  s.copiesOf (.store l p.id) + if p.cond = .queued then 1 else 0

/-- The packets of a link's store have distinct names, none of which is still to be given (log 8). -/
abbrev Store.NamesLaw (k : Store) : Prop := (k.packets.map StoredPacket.id).Nodup ∧ ∀ p ∈ k.packets, p.id < k.nextId

/-- Every stored packet's copy count is what R45 says: none in reception, 1 while it waits, not 0 once dispatched. -/
abbrev State.CopyLaw (s : State) : Prop :=
  ∀ l : LinkId, (s.link l).store.NamesLaw ∧ ∀ p ∈ (s.link l).store.packets, p.copies = s.owedCopies l p ∧
    (p.cond = .inReception → p.copies = 0) ∧ (p.cond = .queued → p.copies = 1) ∧ (p.cond = .dispatched → 0 < p.copies)

/-- Every held slot's copy count is the number of egress entries that name it, and is not 0 (R97). -/
abbrev State.SlotCopyLaw (s : State) : Prop :=
  ∀ i : SlotIx, ∀ k ∈ (s.slot i).toList, k.copies = s.copiesOf (.slot i) ∧ 0 < k.copies

/-- Every job has copy count 1, and exactly one egress entry names it once it is sent (R141, R143); jobs have distinct
names, none of which is still to be given (log 8). -/
abbrev State.JobCopyLaw (s : State) : Prop :=
  (s.jobs.map Job.id).Nodup ∧ ∀ j ∈ s.jobs, j.id < s.nextJob ∧ j.copies = 1 ∧
    s.copiesOf (.job j.id) = if j.cond = .sent then 1 else 0

/-- The source every egress entry names is held (R77). -/
abbrev State.SourceLaw (s : State) : Prop := ∀ e ∈ s.allEntries, (s.source e.source).isSome = true

/-- The request entry of a held slot is in QUEUED and names it, and the slot's copy count is 1; the slot of an entry in
QUEUED is held for it, its one copy in the REQ queue of the entry's egress link (R97, R107, R113). -/
abbrev State.HostReqLaw (s : State) : Prop :=
  (∀ i : SlotIx, ∀ k ∈ (s.slot i).toList, ∀ r ∈ k.req.toList,
    (s.entry r).state = .queued ∧ (s.entry r).slot = some i ∧ k.copies = 1) ∧
  ∀ r : ReqIx, (s.entry r).state = .queued → ∃ i : SlotIx, (s.entry r).slot = some i ∧
    (∃ k ∈ (s.slot i).toList, k.req = some r) ∧ ∃ e ∈ (s.link (s.entry r).egress).tx.queue .req, e.source = .slot i

/-- The account of every copy: what is held for it and what it is held by agree. -/
abbrev State.CopiesLaw (s : State) : Prop :=
  s.SourceLaw ∧ s.CopyLaw ∧ s.SlotCopyLaw ∧ s.JobCopyLaw ∧ s.HostReqLaw

/-- A started entry is the head of the queue of the class the scheduler serves: at most one packet is in transmission on
a link (R79, R85, R179). -/
abbrev Transmitter.StartedLaw (t : Transmitter) : Prop :=
  (∀ e ∈ t.queues.req.drop 1 ++ t.queues.rpy.drop 1 ++ t.queues.pst.drop 1, e.started = false) ∧
    ∀ c ∈ classes, (t.startedHead c).isSome = true → c = t.cur

/-- An entry is a whole packet of its queue's class (R77). -/
abbrev Transmitter.EntryLaw (t : Transmitter) : Prop :=
  ∀ c ∈ classes, ∀ e ∈ t.queue c, e.cls = c ∧ 1 ≤ e.length ∧ e.length ≤ 8

/-- The run count of a transmitter stays within 262 (R81, R82). -/
abbrev Transmitter.RunLaw (t : Transmitter) : Prop := t.run ≤ 262

/-- No waiting head can be dispatched, no link in HOLD is drained and no idle lane has anything to send: what R20, R61
and R83 leave at the end of an event. -/
abbrev State.Settled (s : State) : Prop :=
  s.nextReady = none ∧ ∀ l : LinkId, (s.link l).drained = false ∧ (s.link l).canAct = false

/-- What `k` ended copies leave of a stored packet: a lower count, or nothing where they were its last (R45). -/
def StoredPacket.less (p : StoredPacket) (k : Nat) : Option StoredPacket :=
  if k = 0 then some p else if k < p.copies then some { p with copies := p.copies - k } else none

/-- What `k` ended copies leave of a host slot: a lower count, or a free slot where they were its last (R107). -/
def Slot.less (x : Slot) (k : Nat) : Option Slot :=
  if k = 0 then some x else if k < x.copies then some { x with copies := x.copies - k } else none

/-- The copies among `es` of a source. -/
def copiesAmong (es : List EgressEntry) (src : Source) : Nat := (es.filter (fun e => e.source = src)).length

/-- The packets of link `m`'s store that the end of the copies `es` releases (R45). -/
def Store.releasedBy (k : Store) (m : LinkId) (es : List EgressEntry) : List StoredPacket :=
  k.packets.filter (fun p => p.less (copiesAmong es (.store m p.id)) = none)

/-- Store `k'` of link `m` is store `k` once the packets `ps` have been released from it (R46, R47, R52, R53): on a link
that is UP their cells and their class's bit await return, and where nothing awaited return the holdoff timer is started
with CR_HOLDOFF, which 0 ends at its start; on any other link nothing is returned. -/
structure Released (up : Bool) (crHoldoff : BitVec 8) (ps : List StoredPacket) (k k' : Store) : Prop where
  shared   : k'.awaitShared = k.awaitShared +
               if up then ((ps.filter (fun p => p.region = .shared)).map (fun p => 1 + p.hdr.len.toNat)).sum else 0
  reserved : ∀ c, k'.awaitRes.get c = (k.awaitRes.get c || up && ps.any (fun p => p.region = .reserved && p.cls = c))
  timer    : if up = true ∧ ps ≠ [] ∧ k.awaitShared = 0 ∧ k.awaitRes = ⟨false, false, false⟩ then
               if crHoldoff = 0 then k'.holdoff = k.holdoff ∧ k'.elapsed = true
               else k'.holdoff = some crHoldoff.toNat ∧ k'.elapsed = k.elapsed
             else k'.holdoff = k.holdoff ∧ k'.elapsed = k.elapsed
  nextId   : k'.nextId = k.nextId

/-- The copies a teardown of link `n` ends, in order: those of the link's own queues, the one in transmission first, then
in link order those of the other links that have not started and whose packet is in its store (R89–R91, R93). -/
def State.endedCopies (u : State) (n : LinkId) : List EgressEntry :=
  (u.link n).tx.entries.filter (fun e => e.started) ++ (u.link n).tx.entries.filter (fun e => !e.started) ++
    (linkIds.filter (fun m => m ≠ n)).flatMap (fun m => (u.link m).tx.entries.filter (fun e => e.orphaned n))

/-- The drops a teardown of link `n` hands to the event unit: LINK_DOWN for each unicast copy ended but a host REQ's, then
for each unicast packet queued in its store, REQ, RPY, PST, head to tail in each (R51, R93, R173). -/
def State.teardownDrops (u : State) (n : LinkId) : List DropRecord :=
  ((u.endedCopies n).filter (fun e => !e.group && (u.hostReq e.source).isNone)).map
      (fun e => DropRecord.of .linkDown e.source.origin (u.sourceHeader e.source)) ++
    ((classes.flatMap (fun c => (u.link n).store.packets.filter (fun p => p.cond = .queued && p.cls = c))).filter
      (fun p => !p.hdr.grp)).map (fun p => DropRecord.of .linkDown (.link n) p.hdr)

/-- The request entries a teardown of link `n` completes, in order: those whose REQ is among the copies ended, then those
in SENT whose egress link it is, in index order (R116, R117). -/
def State.teardownLosses (u : State) (n : LinkId) : List ReqIx :=
  (u.endedCopies n).filterMap (fun e => u.hostReq e.source) ++
    reqIxs.filter (fun r => (u.entry r).state = .sent ∧ (u.entry r).egress = n)

/-- What a teardown of link `n` with a cause makes of `u`, at the one event of R29: `v` is the state before the rest of
the event. -/
structure TornDown (u : State) (n : LinkId) (why : Cause) (v : State) : Prop where
  /-- The cause is recorded (R29). -/
  cause    : (v.link n).cause = why
  /-- The link goes where R31 directs. -/
  state    : (v.link n).state =
               if why = .hostDisable ∨ why = .sameId then .off
               else if why = .hostReset ∨ why = .softReset then .hold
               else if (u.link n).ctrl.auto then .hold else .off
  /-- A link that goes to HOLD starts its hold timer for LINK_HOLD times 64 units, which 0 ends at its start; no other
  timer of the link controller runs (R19, R21, R22). -/
  timers   : (v.link n).initTimer = none ∧ (v.link n).holdTimer =
               if (v.link n).state = .hold ∧ (u.link n).ctrl.linkHold ≠ 0 then
                 some ((u.link n).ctrl.linkHold.toNat * 64) else none
  /-- Its queues are empty and its credit is zero; the scheduler's class and run count stand (R29, R81, R90). -/
  tx       : (v.link n).tx = { (u.link n).tx with queues := ⟨[], [], []⟩, shared := 0, reserved := ⟨false, false, false⟩ }
  /-- Nothing awaits return and the holdoff timer is stopped (R29, R51). -/
  returns  : (v.link n).store.awaitShared = 0 ∧ (v.link n).store.awaitRes = ⟨false, false, false⟩ ∧
               (v.link n).store.holdoff = none ∧ (v.link n).store.elapsed = false
  /-- What the host set and the handshake recorded stands (R16). -/
  kept     : (v.link n).ctrl = (u.link n).ctrl ∧ (v.link n).peer = (u.link n).peer ∧ (v.link n).seen = (u.link n).seen ∧
               (v.link n).store.nextId = (u.link n).store.nextId
  /-- Its store keeps dispatched packets alone, as they were received (R42, R51, R52). -/
  zombies  : ∀ p ∈ (v.link n).store.packets, p.cond = .dispatched ∧
               ∃ q ∈ (u.link n).store.packets, q.id = p.id ∧ q.hdr = p.hdr ∧ q.data = p.data ∧ q.region = p.region
  /-- They are held for the copies not ended, and gone with their last (R45, R52, R94). -/
  store    : (u.link n).store.NamesLaw → (v.link n).store.packets =
               ((u.link n).store.packets.filter (fun p => p.cond = .dispatched)).filterMap
                 (fun p => p.less (copiesAmong (u.endedCopies n) (.store n p.id)))
  /-- Every other link keeps its own words and loses from its queues the entries not started that name a packet of this
  link's store (R91). -/
  others   : ∀ m, m ≠ n → (v.link m).state = (u.link m).state ∧ (v.link m).seen = (u.link m).seen ∧
               (v.link m).peer = (u.link m).peer ∧ (v.link m).cause = (u.link m).cause ∧
               (v.link m).initTimer = (u.link m).initTimer ∧ (v.link m).holdTimer = (u.link m).holdTimer ∧
               (v.link m).ctrl = (u.link m).ctrl ∧ (v.link m).tx = (u.link m).tx.withdraw (fun e => !e.orphaned n)
  /-- The packets of the other links' stores lose the copies ended, and those released return their credit (R53). -/
  stores   : ∀ m, m ≠ n → (u.link m).store.NamesLaw →
               (v.link m).store.packets = (u.link m).store.packets.filterMap
                 (fun p => p.less (copiesAmong (u.endedCopies n) (.store m p.id))) ∧
               Released (u.isUp m) (u.link m).ctrl.crHoldoff ((u.link m).store.releasedBy m (u.endedCopies n)) (u.link m).store
                 (v.link m).store
  /-- Slots lose the copies ended, and are freed with their last (R107, R109). -/
  slots    : ∀ i, v.slot i = (u.slot i).bind (fun k => k.less (copiesAmong (u.endedCopies n) (.slot i)))
  /-- Jobs whose copy is ended are freed; no other is touched (R144, R149). -/
  jobs     : v.jobs = u.jobs.filter (fun j => copiesAmong (u.endedCopies n) (.job j.id) = 0) ∧ v.nextJob = u.nextJob
  /-- LINK is latched (R34), and nothing latched is cleared. -/
  latched  : (u.events.latch ||| EventBit.link.mask) &&& v.events.latch = u.events.latch ||| EventBit.link.mask
  enable   : v.events.enable = u.events.enable
  /-- Each entry in SENT whose egress link is this one completes with LINK_LOST (R116). -/
  lost     : ∀ r, (u.entry r).state = .sent → (u.entry r).egress = n →
               (v.entry r).state = .done ∧ (v.entry r).status = some .linkLost ∧ r ∈ v.cq
  /-- An entry in FREE or DONE is left as it was (R124). -/
  entry    : ∀ r, (u.entry r).state = .free ∨ (u.entry r).state = .done → v.entry r = u.entry r
  cq       : u.cq <+: v.cq
  /-- The entries in QUEUED or SENT whose egress link this is become DONE with LINK_LOST; every other entry is as it was
  (R116, R124). This field and the next two need the account of copies, a law every step keeps. -/
  entries  : u.CopiesLaw → ∀ r, v.entry r =
               if ((u.entry r).state = .queued ∨ (u.entry r).state = .sent) ∧ (u.entry r).egress = n then
                 { u.entry r with
                   state := .done, status := some .linkLost, remaining := 0, cancelPending := false, slot := none }
               else u.entry r
  /-- They join the completion queue in the order of R117. -/
  order    : u.CopiesLaw → v.cq = u.cq ++ u.teardownLosses n
  /-- The drops are counted, the first fills a free capture record, and LINK is latched, with DROP, COMPLETION and
  TX_SPACE where there was a drop, a completion or a slot freed (R34, R108, R124, R171, R172). -/
  events   : u.CopiesLaw →
               v.events.dropCount.toNat = min 65535 (u.events.dropCount.toNat + (u.teardownDrops n).length) ∧
               v.events.capture = u.events.capture.or (u.teardownDrops n).head? ∧
               v.events.latch = u.events.latch ||| 0x08 ||| (if u.teardownDrops n = [] then 0 else 0x10) |||
                 (if u.teardownLosses n = [] then 0 else 0x02) |||
                 (if ∃ i, (u.slot i).isSome = true ∧ v.slot i = none then 0x40 else 0)
  /-- The cells of an abandoned packet that had gone on the lane are fewer than its data cells (log 5); the TEARDOWN cell
  follows them for every cause but CARRIER_LOSS (R29, R89). -/
  lane     : ∃ ds, v.sent n = u.sent n ++ packetCells ds ++ (if why = .carrierLoss then [] else [⟨true, teardownCell⟩]) ∧
               (ds = [] ∨ ∃ e, (u.link n).tx.inFlight = some e ∧ ds <+: u.sourceData e.source ∧
                 ds.length < (u.sourceData e.source).length)
  lanes    : ∀ m, m ≠ n → v.sent m = u.sent m
  port     : v.port = u.port
  route    : v.route = u.route
  inbound  : v.inbound = u.inbound
  sync     : v.sync = u.sync
  divider  : v.divider = u.divider
  inReset  : v.inReset = u.inReset
  pending  : v.pending = u.pending

/-- An entry as it was appended, its Started flag aside. -/
def EgressEntry.appended (e : EgressEntry) : EgressEntry := { e with started := false }

/-- What the rest of an event (R20, R61, R83) may change: `u` is the state once the event's own effect is done, `t` the
state at its end. It adds to the inbound and completion queues, to the lanes and to the latch; of the request entries it
changes those in SENT alone, and of a link's own words only a state of HOLD, to WAIT_PEER. -/
structure Aftermath (u t : State) : Prop where
  inReset  : t.inReset = u.inReset
  port     : t.port = u.port
  enable   : t.events.enable = u.events.enable
  latched  : u.events.latch &&& t.events.latch = u.events.latch
  routeSel : t.route.routeSel = u.route.routeSel
  routes   : t.route.routes = u.route.routes
  groupSel : t.route.groupSel = u.route.groupSel
  groups   : t.route.groups = u.route.groups
  slots    : t.slots = u.slots
  entry    : ∀ r, (u.entry r).state ≠ .sent → t.entry r = u.entry r
  cq       : u.cq <+: t.cq
  inbound  : u.inbound <+: t.inbound
  target   : ∀ k, (t.counter k).target = (u.counter k).target
  divider  : t.divider = u.divider
  sent     : ∀ l, u.sent l <+: t.sent l
  pending  : t.pending = u.pending
  ctrl     : ∀ l, (t.link l).ctrl = (u.link l).ctrl
  cause    : ∀ l, (t.link l).cause = (u.link l).cause
  peer     : ∀ l, (t.link l).peer = (u.link l).peer
  state    : ∀ l, (t.link l).state = (u.link l).state ∨ ((u.link l).state = .hold ∧ (t.link l).state = .waitPeer)
  tx       : ∀ l, (u.link l).state ≠ .up → (t.link l).tx = (u.link l).tx
  queues   : ∀ l c, ((u.link l).tx.queue c).map EgressEntry.appended <+: ((t.link l).tx.queue c).map EgressEntry.appended
  store    : ∀ l, (u.link l).state ≠ .up → (∀ p ∈ (u.link l).store.packets, p.cond ≠ .queued) →
               (t.link l).store = (u.link l).store

/-- `t` is what the event whose own effect leaves `u` ends in: `u` itself wherever nothing more can happen in it. -/
abbrev EndsAs (u t : State) : Prop := Aftermath u t ∧ (u.Settled → t = u)

/-! ### Terms of the statements -/

/-- The timers of a link controller run where they may: the INIT timer in WAIT_PEER, the hold timer in HOLD alone
(R19, R22, R27). -/
abbrev Link.TimerLaw (n : Link) : Prop :=
  (n.initTimer.isSome = true ↔ n.state = .waitPeer) ∧ (n.holdTimer.isSome = true → n.state = .hold)

/-- The words of the window after power-on reset (R176, R178; 11). -/
def powerOnWord (a : BitVec 7) : Word :=
  if a = 0 then 0x0E410001
  else if a = 3 then 0x00321000
  else if a = 4 then 0x00000080
  else if a = 5 then 1000
  else if 16 ≤ a ∧ a < 24 then 0x00000100
  else if 24 ≤ a ∧ a < 28 then 0x10200400
  else 0

/-- The bits a REGISTER_WRITE stores: LABEL, REQ_TIMEOUT, ROUTE_SEL, GROUP_SEL and the compose window (R162, R177). -/
def storedMask (a : BitVec 7) : Word :=
  if a = 2 then 0xFFFFFFFF
  else if a = 5 then 0x0000FFFF
  else if a = 40 then 0x0000001F
  else if a = 42 then 0x00000007
  else if 48 ≤ a ∧ a < 64 then 0xFFFFFFFF
  else 0

/-- Every word of the window but those listed reads the same. -/
abbrev SameWindowBut (s t : State) (as : List (BitVec 7)) : Prop := ∀ a, a ∉ as → readWord t a = readWord s a

/-- The window word of link `l` in a group of four that starts at `base`. -/
def linkWord (base : Nat) (l : LinkId) : BitVec 7 := BitVec.ofNat 7 (base + l.val)

/-- The assigned positions of a header cell (11, "Cells on the lane"): all but 17 bits. -/
def headerMask : Cell := 0xFFFF9F073FF31F1F

/-- Whether the composed fields fail a condition of R99. -/
abbrev Header.badFields (h : Header) : Prop :=
  h.cls = 3 ∨ 2 ≤ h.kind ∨ (h.grp = true ∧ h.cls ≠ 2) ∨ (h.grp = true ∧ 8 ≤ h.dest) ∨ h.hops = 0 ∨
    (h.cls = 2 ∧ h.kind = 1 ∧ h.len ≠ 0)

/-- The links a SUBMIT of `h` goes to, where it is accepted (R103, R104). -/
def State.targets (s : State) (h : Header) : List LinkId :=
  if h.grp then linkIds.filter (fun m => (s.groupOf h).mask.getLsbD m && s.isUp m) else [(s.routeFor h.dest).link]

/-- The first of the seven checks of SUBMIT that fails, in the order of R98 (R99–R104). -/
def State.refusal (s : State) (h : Header) : Option ResultCode :=
  if h.badFields then some .badField
  else if h.grp = false ∧ h.dest = s.port.node then some .badDest
  else if s.freeSlots = 0 ∨ (h.cls ≠ 1 ∧ s.freeSlots ≤ 2) then some .noSlot
  else if h.cls = 0 ∧ ∀ r, (s.entry r).state ≠ .free then some .tableFull
  else if h.grp = false ∧ (s.routeFor h.dest).action ≠ .toLink then some .noRoute
  else if h.grp = true ∧ (s.groupOf h).enable = false then some .noRoute
  else if h.grp = false ∧ (s.link (s.routeFor h.dest).link).state ≠ .up then some .linkDown
  else if h.grp = true ∧ s.targets h = [] then some .linkDown
  else if ∃ m ∈ s.targets h, 16 ≤ ((s.link m).tx.queue h.queueClass).length then some .egressFull
  else none

/-- The remote unicast head of class `c` on link `l` that passes R67, and the link it goes to. -/
abbrev State.forwards (s : State) (l : LinkId) (c : Class) (p : StoredPacket) (m : LinkId) : Prop :=
  s.ingressHead l c = some p ∧ p.hdr.malformed = false ∧ p.hdr.grp = false ∧ p.hdr.dest ≠ s.port.node ∧
    s.routeFor p.hdr.dest = ⟨.toLink, m⟩ ∧ (s.link m).state = .up ∧ 2 ≤ p.hdr.hops

/-- The remote unicast head of class `c` on link `l` that fails a condition of R67, with the reason. -/
abbrev State.failsRoute (s : State) (l : LinkId) (c : Class) (p : StoredPacket) (why : DropReason) : Prop :=
  s.ingressHead l c = some p ∧ p.hdr.malformed = false ∧ p.hdr.grp = false ∧ p.hdr.dest ≠ s.port.node ∧
    (((s.routeFor p.hdr.dest).action = .discard ∧ why = .noRoute) ∨
      ((s.routeFor p.hdr.dest).action = .toLink ∧
        (((s.link (s.routeFor p.hdr.dest).link).state ≠ .up ∧ why = .linkDown) ∨
          ((s.link (s.routeFor p.hdr.dest).link).state = .up ∧ p.hdr.hops ≤ 1 ∧ why = .hopLimit))))

/-- The local unicast head of class `c` on link `l` (R11, R63). -/
abbrev State.localHead (s : State) (l : LinkId) (c : Class) (p : StoredPacket) : Prop :=
  s.ingressHead l c = some p ∧ p.hdr.malformed = false ∧ p.hdr.grp = false ∧
    (p.hdr.dest = s.port.node ∨ (s.routeFor p.hdr.dest).action = .here)

/-- The state after an ingress head that gets no copy has left its store, `u` being the state with its delivery, job or
drop: the packet is released and the rotation stands at its source (R44, R46, R62). -/
def State.letGo (u : State) (l : LinkId) (c : Class) (p : StoredPacket) : State :=
  (u.modLink l (fun n => n.release p.id)).setPosition (RouteSource.ingress l c).number

end Sys2Proof.Machine
end

