-- ==== Sys2Proof/WellFormed.lean ====
section
/-! DEFINITION. When a command is the row's own form. The meanings are total: an ill-formed term means what the same
host write means (R162, R167), see `Sys2Proof.Machine.hostWrite`. -/

namespace Sys2Proof

/-- The window words whose write has a row of its own: NODE, CTRL, STATUS, CMD, EVENT, EVENT_EN, LCTRL0–3, ROUTE
and GROUP (R162, 11 register map). -/
def hasOwnRow (a : BitVec 7) : Bool :=
  decide (a = 1 ∨ a = 3 ∨ a = 4 ∨ a = 6 ∨ a = 8 ∨ a = 9 ∨ (24 ≤ a ∧ a ≤ 27) ∨ a = 41 ∨ a = 43)

/-- The command codes that start a command, 1–11 (11, "Codes"). -/
def isKnownCode (c : BitVec 4) : Bool :=
  decide (1 ≤ c ∧ c ≤ 11)

/-- REGISTER_WRITE names a word without a row of its own, and BAD_COMMAND carries an unknown code. -/
def Instr.wellFormed : Instr → Bool
  | .registerWrite a _ => !hasOwnRow a
  | .badCommand c => !isKnownCode c
  | _ => true

end Sys2Proof
end

