-- ==== Sys2Proof/Certificates/Slice0/Obligations.lean ====
section
/-! DEFINITION. The statements for the provers. `EndsAs u t` says that the event whose own effect leaves `u` ends in `t`:
`t` is `u` followed by what R20, R61 and R83 make happen in the same event (log 1), and `u` itself where nothing more
can. A command's own statement is about a part whose RESET input is not asserted (`inReset = false`);
`PowerOnResetState` says what every command does while it is. -/

open Sys2Proof Sys2Proof.Machine

/-! ### The interface -/

/-- The command at the front of the queue is run on the state with the queue's rest. -/
def Obligations.StepRunsFront : Prop :=
  ∀ (c : Instr) (rest : List Instr) (s : State), s.pending = c :: rest → step s = exec c { s with pending := rest }

/-- Every command completes, and none touches the queue: the part queues no command (R167). -/
def Obligations.CommandsKeepQueue : Prop :=
  ∀ (c : Instr) (s : State), ∃ t, exec c s = .next t ∧ t.pending = s.pending

/-- With no command waiting, one reference period passes: TB_DIV of them end a unit, at which each running timer has one
unit less, and none is left running with no unit left, whichever order the expiries take (R19, R22, R47, R115, R166; log 6).
That an empty queue stands for one period is the model's choice, log 3. -/
def Obligations.IdleStepCountsTime : Prop :=
  ∀ s : State, s.inReset = false → s.pending = [] →
    (s.divider + 1 < s.port.tbDiv.toNat → step s = .next { s with divider := s.divider + 1 }) ∧
    (s.port.tbDiv.toNat ≤ s.divider + 1 →
      (∀ l x, ((s.link l).holdTimer = some x ∨ (s.link l).initTimer = some x ∨ (s.link l).store.holdoff = some x) → 2 ≤ x) →
      (∀ r, (s.entry r).timerRuns = true → 2 ≤ (s.entry r).remaining) →
      ∃ t, step s = .next t ∧ t.divider = 0 ∧
        (∀ l, t.link l = { s.link l with
          initTimer := (s.link l).initTimer.map (· - 1), holdTimer := (s.link l).holdTimer.map (· - 1)
          store := { (s.link l).store with holdoff := (s.link l).store.holdoff.map (· - 1) } }) ∧
        (∀ r, t.entry r = if (s.entry r).timerRuns then { s.entry r with remaining := (s.entry r).remaining - 1 }
          else s.entry r) ∧
        { t with divider := s.divider, links := s.links, reqs := s.reqs } = s) ∧
    (s.port.tbDiv.toNat ≤ s.divider + 1 → (∀ l, (s.link l).TimerLaw) → ∃ t, step s = .next t ∧ ∀ x, t.timerOut x = false)

/-! ### Cells and window words (R3, R162, R167, R180) -/

/-- A header cell carries every field, every unassigned bit is sent 0, and on receipt the unassigned bits are not read
(R3, R180). -/
def Obligations.HeaderCellRoundTrip : Prop :=
  (∀ h : Header, Header.ofCell h.toCell = h) ∧ (∀ c : Cell, (Header.ofCell c).toCell = c &&& headerMask)

/-- A control cell built by a part is read back as it was built, whatever its unassigned bits; a type byte of 0 or 4–255 is
a control cell of unknown type (R180). -/
def Obligations.ControlCellRoundTrip : Prop :=
  (∀ (l : LinkId) (node : NodeId) (seen : Bool) (noise : Cell),
    controlCellRow l (initCell node seen ||| (noise &&& 0xFFFFFFFFFFFEE000)) = .initReceived l node seen) ∧
  (∀ (l : LinkId) (count : BitVec 7) (res : PerClass Bool) (noise : Cell),
    controlCellRow l (creditCell count res ||| (noise &&& 0xFFFFFFFFFFF88000)) = .creditReceived l count res) ∧
  (∀ (l : LinkId) (noise : Cell),
    controlCellRow l (teardownCell ||| (noise &&& 0xFFFFFFFFFFFFFF00)) = .teardownCellReceived l) ∧
  (∀ (l : LinkId) (cell : Cell), controlType cell = 0 ∨ 4 ≤ controlType cell →
    controlCellRow l cell = .unknownControlCell l)

/-- Every host write has a row, a well-formed one, and that row is the write (R162, R167). -/
def Obligations.HostWriteHasItsRow : Prop :=
  ∀ (a : BitVec 7) (w : Word) (s : State), s.inReset = false →
    (hostWriteRow a w).wellFormed = true ∧ exec (hostWriteRow a w) s = .next (hostWrite s a w)

/-! ### The host port (R161–R170, R176–R178) -/

/-- POWER_ON_RESET is a change of the RESET input's level: its assertion, or its release where it is asserted. It sends no
cell. While RESET is asserted every word reads 0, INT is deasserted, and no other command nor time changes anything; after
the release every window word has its power-on value, INT is deasserted, and every table, store, slot, entry, job, counter
and the timebase divider is at its power-on state (R16, R55, R76, R131, R166, R176). That one command is one change of the
level, and that the state is cleared at the assertion already, is the model's choice, log 2. -/
def Obligations.PowerOnResetState : Prop :=
  (∀ s : State, ∃ t, exec .powerOnReset s = .next t ∧ t.inReset = !s.inReset ∧
    (s.inReset = true → ∀ a, readWord t a = powerOnWord a) ∧ t.intAsserted = false ∧
    (∀ n, t.routeFor n = ⟨.discard, 0⟩) ∧ (∀ g, t.groupFor g = ⟨false, 0, false⟩) ∧ t.route.position = 11 ∧
    (∀ l, t.link l = Link.powerOn) ∧ (∀ i, t.slot i = none) ∧ (∀ r, t.entry r = ReqEntry.free 0) ∧
    t.cq = [] ∧ t.inbound = [] ∧ t.jobs = [] ∧ (∀ k, t.counter k = ⟨0, 1, false, false, false⟩) ∧ t.divider = 0 ∧
    (∀ l, t.sent l = s.sent l)) ∧
  (∀ s : State, s.inReset = true → (∀ a, readWord s a = 0) ∧ s.intAsserted = false ∧
    (∀ c, c ≠ .powerOnReset → exec c s = .next s) ∧ (s.pending = [] → step s = .next s))

/-- REGISTER_WRITE of a word the host may set reads back as written in its assigned bits, and changes no other word but
the one its selector shows; a write of a read-only or unmapped word is ignored, and unmapped words and CMD read 0
(R57, R58, R161, R162, R177). -/
def Obligations.RegisterWrite : Prop :=
  (∀ (a : BitVec 7) (w : Word) (s : State), s.inReset = false → storedMask a ≠ 0 →
    ∃ t, exec (.registerWrite a w) s = .next t ∧ readWord t a = w &&& storedMask a ∧
      SameWindowBut s t (if a = 40 then [40, 41] else if a = 42 then [42, 43] else [a]) ∧
      (∀ n, t.routeFor n = s.routeFor n) ∧ (∀ g, t.groupFor g = s.groupFor g) ∧ t.route.position = s.route.position ∧
      { t with port := s.port, route := s.route } = s) ∧
  (∀ (a : BitVec 7) (w : Word) (s : State),
    s.inReset = false → (Instr.registerWrite a w).wellFormed = true → storedMask a = 0 →
    exec (.registerWrite a w) s = .next s) ∧
  (∀ (a : BitVec 7) (s : State), a = 6 ∨ a = 14 ∨ a = 15 ∨ (44 ≤ a ∧ a ≤ 47) ∨ 112 ≤ a → readWord s a = 0)

/-- A STATUS write clears CFG_REJECT exactly where it carries 1 there; an EVENT write clears each bit written as 1; an
EVENT_EN write stores its bits; none changes another word; and INT is asserted exactly while some latched bit is enabled
(R165, R169, R170). -/
def Obligations.StatusAndEventWrites : Prop :=
  (∀ (w : Word) (s : State), s.inReset = false → ∃ t, exec (.statusWrite w) s = .next t ∧
    readWord t 4 = (if w.getLsbD 0 then readWord s 4 &&& ~~~1 else readWord s 4) ∧ SameWindowBut s t [4] ∧
    { t with port := s.port } = s) ∧
  (∀ (w : Word) (s : State),
    s.inReset = false → ∃ t, exec (.eventWrite w) s = .next t ∧ readWord t 8 = readWord s 8 &&& ~~~w ∧
    SameWindowBut s t [8] ∧ { t with events := s.events } = s) ∧
  (∀ (w : Word) (s : State), s.inReset = false → ∃ t, exec (.eventEnWrite w) s = .next t ∧ readWord t 9 = w &&& 0x7F ∧
    SameWindowBut s t [9] ∧ { t with events := s.events } = s) ∧
  (∀ s : State, s.intAsserted = true ↔ readWord s 8 &&& readWord s 9 ≠ 0)

/-- A NODE write is stored while every link is in OFF; else it sets CFG_REJECT and nothing else (R163). -/
def Obligations.NodeWrite : Prop :=
  ∀ (w : Word) (s : State), s.inReset = false →
    ((∀ l, (s.link l).state = .off) → ∃ t, exec (.nodeWrite w) s = .next t ∧ readWord t 1 = w &&& 0x1F ∧
      SameWindowBut s t [1] ∧ { t with port := s.port } = s) ∧
    ((∃ l, (s.link l).state ≠ .off) → ∃ t, exec (.nodeWrite w) s = .next t ∧ readWord t 4 = readWord s 4 ||| 1 ∧
      SameWindowBut s t [4] ∧ { t with port := s.port } = s)

/-- A CTRL write with DEFAULT_HOPS 0 or TB_DIV 0 is refused whole; any other stores its three fields, and lets heads be
considered again only where RX_ENABLE changes; a change of TB_DIV restarts the divider (R164, R166). -/
def Obligations.CtrlWrite : Prop :=
  ∀ (w : Word) (s : State), s.inReset = false →
    ((w.extractLsb' 8 5 = 0 ∨ w.extractLsb' 16 8 = 0) → ∃ t, exec (.ctrlWrite w) s = .next t ∧
      readWord t 4 = readWord s 4 ||| 1 ∧ SameWindowBut s t [4] ∧ { t with port := s.port } = s) ∧
    (w.extractLsb' 8 5 ≠ 0 → w.extractLsb' 16 8 ≠ 0 → ∃ t, exec (.ctrlWrite w) s = .next t ∧
      readWord t 3 = w &&& 0x00FF1F01 ∧
      EndsAs { s with
        port := { s.port with
          rxEnable := w.getLsbD 0, defaultHops := w.extractLsb' 8 5, tbDiv := w.extractLsb' 16 8 }
        divider := if w.extractLsb' 16 8 = s.port.tbDiv then s.divider else 0 } t ∧
      (w.getLsbD 0 = s.port.rxEnable → { t with port := s.port, divider := s.divider } = s))

/-- A ROUTE write stores the selected entry alone, the fourth action code as DISCARD, and a GROUP write all three fields
of the selected group (R57, R58). -/
def Obligations.TableWrites : Prop :=
  (∀ (w : Word) (s : State), s.inReset = false → ∃ t, exec (.routeWrite w) s = .next t ∧
    readWord t 41 = (if w &&& 3 = 3 then w &&& 0x30 else w &&& 0x33) ∧
    (∀ n, n ≠ s.route.routeSel → t.routeFor n = s.routeFor n) ∧ readWord t 40 = readWord s 40 ∧
    EndsAs { s with route := { s.route with routes := t.route.routes } } t) ∧
  (∀ (w : Word) (s : State), s.inReset = false → ∃ t, exec (.groupWrite w) s = .next t ∧ readWord t 43 = w &&& 0x9F ∧
    (∀ g, g ≠ s.route.groupSel → t.groupFor g = s.groupFor g) ∧ readWord t 42 = readWord s 42 ∧
    EndsAs { s with route := { s.route with groups := t.route.groups } } t)

/-- An LCTRLn write with a QUANTUM outside 8–255 or a CR_THRESH outside 1–72 is refused whole: it sets CFG_REJECT and
nothing else. An accepted one reads back as written, TIME into the quantity TSEL selects, the other quantity and the other
links' words kept (R17, R165, R178). -/
def Obligations.LinkControlStored : Prop :=
  (∀ (l : LinkId) (w : Word) (s : State), s.inReset = false →
    w.extractLsb' 16 8 < 8 ∨ w.extractLsb' 24 7 = 0 ∨ 72 < w.extractLsb' 24 7 →
    ∃ t, exec (.lctrlWrite l w) s = .next t ∧ readWord t 4 = readWord s 4 ||| 1 ∧ SameWindowBut s t [4] ∧
      { t with port := s.port } = s) ∧
  (∀ (l : LinkId) (w : Word) (s : State), s.inReset = false →
    8 ≤ w.extractLsb' 16 8 → w.extractLsb' 24 7 ≠ 0 → w.extractLsb' 24 7 ≤ 72 →
    ∃ t, exec (.lctrlWrite l w) s = .next t ∧ readWord t (linkWord 24 l) = w &&& 0x7FFFFF83 ∧
      (w.getLsbD 7 = false → (t.link l).ctrl.crHoldoff = (s.link l).ctrl.crHoldoff) ∧
      (w.getLsbD 7 = true → (t.link l).ctrl.linkHold = (s.link l).ctrl.linkHold) ∧
      (∀ m, m ≠ l → (t.link m).ctrl = (s.link m).ctrl) ∧ t.port = s.port)

/-- What ENABLE in an accepted LCTRLn write does: 0 to 1 in OFF enters HOLD; 1 on an enabled link changes no state; 0
moves the link to OFF, from UP by a HOST_DISABLE teardown (R17, R21). `k` is the link with its new fields stored. -/
def Obligations.LinkControlEnable : Prop :=
  ∀ (l : LinkId) (w : Word) (s : State) (k : Link), s.inReset = false →
    8 ≤ w.extractLsb' 16 8 → w.extractLsb' 24 7 ≠ 0 → w.extractLsb' 24 7 ≤ 72 →
    k = { s.link l with ctrl := (s.link l).ctrl.written w } →
    (w.getLsbD 0 = true → (s.link l).ctrl.enable = false → (s.link l).state = .off →
      ∃ t, exec (.lctrlWrite l w) s = .next t ∧
        EndsAs (s.setLink l { k with
          state := .hold, initTimer := none
          holdTimer := if k.ctrl.linkHold = 0 then none else some (k.ctrl.linkHold.toNat * 64) }) t) ∧
    (w.getLsbD 0 = true → (s.link l).ctrl.enable = true →
      ∃ t, exec (.lctrlWrite l w) s = .next t ∧ EndsAs (s.setLink l k) t) ∧
    (w.getLsbD 0 = false → (s.link l).state ≠ .up →
      ∃ t, exec (.lctrlWrite l w) s = .next t ∧
        EndsAs (s.setLink l { k with state := .off, initTimer := none, holdTimer := none }) t) ∧
    (w.getLsbD 0 = false → (s.link l).state = .up →
      ∃ v t, exec (.lctrlWrite l w) s = .next t ∧ TornDown (s.setLink l k) l .hostDisable v ∧ EndsAs v t)

/-- An unknown command code is refused with BAD_COMMAND and changes no state of the part except RESULT (R167, R168). -/
def Obligations.BadCommand : Prop :=
  ∀ (code : BitVec 4) (s : State), s.inReset = false → (Instr.badCommand code).wellFormed = true →
    ∃ t, exec (.badCommand code) s = .next t ∧ readWord t 7 = code.setWidth 32 ||| 0x10 ∧ SameWindowBut s t [7] ∧
      { t with port := s.port } = s

/-- The read-only words of the host's side, each field at its place and every other bit 0: the RX window shows the head of
the inbound queue and the CQ window the head of the completion queue, each reading 0 while its queue is empty; REQn, SYNCk
and SYNC_SUMMARY, DROP_INFO, DROP_HDR and DROP_COUNT, STATUS and RESULT show their fields as they stand
(R126, R128, R137, R151, R162, R168, R171, R172, R177; codes of 11). -/
def Obligations.HostWords : Prop :=
  (∀ s : State, s.inReset = false →
    (s.inbound = [] → ∀ i : Fin 16, readWord s (BitVec.ofNat 7 (64 + i.val)) = 0) ∧
    (∀ e rest, s.inbound = e :: rest →
      (readWord s 64).toNat = e.dest.toNat + 2 ^ 5 * e.src.toNat + 2 ^ 10 * e.cls.toNat + 2 ^ 12 * e.kind.toNat +
        2 ^ 15 * e.grp.toNat + 2 ^ 16 * e.tag.toNat + 2 ^ 22 * e.len.toNat + 2 ^ 26 * e.link.val + 2 ^ 31 ∧
      (readWord s 65).toNat = e.user.toNat ∧
      ∀ j : Fin 7, readWord s (BitVec.ofNat 7 (67 + 2 * j.val)) ++ readWord s (BitVec.ofNat 7 (66 + 2 * j.val)) =
        e.data.getD j.val 0) ∧
    (s.cq = [] → ∀ i : Fin 16, readWord s (BitVec.ofNat 7 (80 + i.val)) = 0) ∧
    (∀ r rest, s.cq = r :: rest →
      (readWord s 80).toNat = r.val +
        2 ^ 5 * (if (s.entry r).replyKind = none then (s.entry r).dest else (s.entry r).replySrc).toNat +
        2 ^ 12 * ((s.entry r).replyKind.getD 0).toNat + 2 ^ 16 * (r.val + 16 * (s.entry r).gen.toNat) +
        2 ^ 22 * (s.entry r).replyLen.toNat + 2 ^ 27 * (statusCode (s.entry r).status).toNat + 2 ^ 31 ∧
      (readWord s 81).toNat = (s.entry r).user.toNat + 2 ^ 16 * (s.entry r).replyUser.toNat ∧
      ∀ j : Fin 7, readWord s (BitVec.ofNat 7 (83 + 2 * j.val)) ++ readWord s (BitVec.ofNat 7 (82 + 2 * j.val)) =
        (s.entry r).replyData[j]) ∧
    (∀ r : ReqIx, (readWord s (BitVec.ofNat 7 (96 + r.val))).toNat = (s.entry r).state.code.toNat +
      2 ^ 2 * (s.entry r).gen.toNat + 2 ^ 4 * (s.entry r).cancelPending.toNat + 2 ^ 5 * (statusCode (s.entry r).status).toNat +
      2 ^ 8 * (s.entry r).dest.toNat + 2 ^ 13 * (s.entry r).egress.val +
      2 ^ 16 * (if (s.entry r).state = .sent ∧ (s.entry r).captured ≠ 0 then (s.entry r).remaining.toNat else 0)) ∧
    (∀ (r : ReqIx) g, s.entry r = ReqEntry.free g → (readWord s (BitVec.ofNat 7 (96 + r.val))).toNat = 4 * g.toNat) ∧
    (∀ k : Fin 8, (readWord s (BitVec.ofNat 7 (16 + k.val))).toNat = (s.counter k).count.toNat +
      2 ^ 8 * (s.counter k).target.toNat + 2 ^ 16 * (s.counter k).armed.toNat + 2 ^ 17 * (s.counter k).fired.toNat +
      2 ^ 18 * (s.counter k).overflow.toNat) ∧
    (∀ k : Fin 8, (readWord s 13).getLsbD k.val = (s.counter k).armed ∧
      (readWord s 13).getLsbD (8 + k.val) = (s.counter k).fired ∧
      (readWord s 13).getLsbD (16 + k.val) = (s.counter k).overflow ∧ (readWord s 13).getLsbD (24 + k.val) = false) ∧
    (s.events.capture = none → readWord s 10 = 0 ∧ readWord s 11 = 0) ∧
    (∀ d, s.events.capture = some d →
      (readWord s 10).toNat = d.reason.code.toNat + 2 ^ 8 * d.origin.code.toNat + 2 ^ 31 ∧
      (readWord s 11).toNat = d.dest.toNat + 2 ^ 5 * d.src.toNat + 2 ^ 10 * d.cls.toNat + 2 ^ 12 * d.kind.toNat +
        2 ^ 16 * d.tag.toNat) ∧
    (readWord s 12).toNat = s.events.dropCount.toNat ∧
    (s.InboundLaw → s.JobLaw → (readWord s 4).toNat = s.port.cfgReject.toNat +
      2 ^ 4 * (slotIxs.filter (fun i => s.slot i = none)).length + 2 ^ 8 * s.inbound.length +
      2 ^ 16 * (s.inbound.map (fun e => e.len.toNat)).sum + 2 ^ 24 * s.jobs.length) ∧
    (readWord s 7).toNat = s.port.result.cmd.toNat + 2 ^ 4 * s.port.result.res.code.toNat +
      2 ^ 8 * s.port.result.index.toNat + 2 ^ 16 * s.port.result.tag.toNat) ∧
  ([ReqState.free, .queued, .sent, .done].map ReqState.code = [0, 1, 2, 3]) ∧
  ([none, some Status.ok, some .refused, some .unreachable, some .timeout, some .linkLost, some .cancelled].map statusCode =
    [0, 1, 2, 3, 4, 5, 6]) ∧
  ([DropReason.malformed, .noRoute, .linkDown, .hopLimit, .badGroup, .rxDisabled, .stale].map DropReason.code =
    [1, 2, 3, 4, 5, 6, 7]) ∧
  ([Origin.link 0, .link 1, .link 2, .link 3, .host, .responder].map Origin.code = [0, 1, 2, 3, 4, 5]) ∧
  ([ResultCode.ok, .badCommand, .badField, .badDest, .noSlot, .tableFull, .noRoute, .linkDown, .egressFull, .empty, .notActive,
    .notReady].map ResultCode.code = [0, 1, 2, 3, 4, 5, 6, 7, 8, 9, 10, 11])

/-- LSTATn, LCREDn and LQUEUEn show each link's state, SEEN, peer and cause, its credit and its store's occupancy, and its
queues, each field at its place and every other bit 0; an ingress count shows up to 15 (R16, R55, R177, R179; codes of 11).
The premises on the counts are laws every step keeps. -/
def Obligations.LinkWords : Prop :=
  (∀ (s : State) (l : LinkId), s.inReset = false →
    (readWord s (linkWord 28 l)).toNat = (s.link l).state.code.toNat + 2 ^ 2 * (s.link l).seen.toNat +
      2 ^ 8 * (s.link l).peer.toNat + 2 ^ 16 * (s.link l).cause.code.toNat ∧
    ((s.link l).tx.CreditLaw → (s.link l).store.SharedLaw → (readWord s (linkWord 32 l)).toNat = (s.link l).tx.shared +
      2 ^ 7 * (s.link l).tx.reserved.req.toNat + 2 ^ 8 * (s.link l).tx.reserved.rpy.toNat +
      2 ^ 9 * (s.link l).tx.reserved.pst.toNat +
      2 ^ 10 * (((s.link l).store.packets.filter (fun p => p.region = .shared)).map (fun p => 1 + p.hdr.len.toNat)).sum +
      2 ^ 17 * (if (s.link l).store.inRegion .req = [] then 0 else 1) +
      2 ^ 18 * (if (s.link l).store.inRegion .rpy = [] then 0 else 1) +
      2 ^ 19 * (if (s.link l).store.inRegion .pst = [] then 0 else 1) + 2 ^ 20 * (s.link l).store.awaitShared +
      2 ^ 27 * (s.link l).store.awaitRes.req.toNat + 2 ^ 28 * (s.link l).store.awaitRes.rpy.toNat +
      2 ^ 29 * (s.link l).store.awaitRes.pst.toNat) ∧
    ((s.link l).tx.QueueLaw → (s.link l).tx.StartedLaw → (readWord s (linkWord 36 l)).toNat =
      (s.link l).tx.queues.req.length + 2 ^ 5 * (s.link l).tx.queues.rpy.length + 2 ^ 10 * (s.link l).tx.queues.pst.length +
      2 ^ 15 * (if ∃ e ∈ (s.link l).tx.entries, e.started = true then 1 else 0) + 2 ^ 16 * (s.link l).tx.cur.code.toNat +
      2 ^ 20 * min 15 ((s.link l).store.packets.filter (fun p => p.cond = .queued && p.cls = .req)).length +
      2 ^ 24 * min 15 ((s.link l).store.packets.filter (fun p => p.cond = .queued && p.cls = .rpy)).length +
      2 ^ 28 * min 15 ((s.link l).store.packets.filter (fun p => p.cond = .queued && p.cls = .pst)).length)) ∧
  ([LinkState.off, .hold, .waitPeer, .up].map LinkState.code = [0, 1, 2, 3]) ∧
  ([Sys2Proof.Class.req, .rpy, .pst].map Class.code = [0, 1, 2]) ∧
  ([Cause.none, .hostDisable, .hostReset, .softReset, .carrierLoss, .cellError, .controlError, .creditOverrun,
    .creditReturnError, .peerTeardown, .peerRestart, .sameId].map Cause.code = [0, 1, 2, 3, 4, 5, 6, 7, 8, 9, 10, 11])

/-! ### The host's commands -/

/-- A SUBMIT that fails a check is refused with the result of the first that fails, and changes RESULT alone
(R98–R104). -/
def Obligations.SubmitRefused : Prop :=
  ∀ (s : State) (e : ResultCode), s.inReset = false → s.refusal (composedHeader s.port.compose) = some e →
    ∃ t, exec .submit s = .next t ∧ t.port.result = ⟨1, e, 0, 0⟩ ∧ SameWindowBut s t [7] ∧ { t with port := s.port } = s

/-- An accepted SUBMIT of a REQ takes the lowest free slot and the lowest FREE entry, tags the packet with the entry's
index plus 16 times its generation, appends its one copy and shows index and tag in RESULT (R105, R112, R113, R168). -/
def Obligations.SubmitRequest : Prop :=
  ∀ (s : State) (h : Header), s.inReset = false → h = composedHeader s.port.compose → s.refusal h = none → h.cls = 0 →
    ∃ t i r, exec .submit s = .next t ∧ s.slot i = none ∧ (∀ j < i, s.slot j ≠ none) ∧ (s.entry r).state = .free ∧
      (∀ q < r, (s.entry q).state ≠ .free) ∧
      EndsAs { ((s.setEntry r { ReqEntry.free (s.entry r).gen with
          state := .queued, dest := h.dest, egress := (s.routeFor h.dest).link, slot := some i, user := h.user }).setSlot i
          (some ⟨{ h with src := s.port.node, tag := (s.entry r).gen ++ BitVec.ofFin (w := 4) r },
            (composedCells s.port.compose).take h.len.toNat, 1, some r⟩)).appendEntry (s.routeFor h.dest).link
          ⟨.slot i, .req, 1 + h.len.toNat, h.hops, false, false⟩ with
        port := { s.port with
          result := ⟨1, .ok, BitVec.ofFin (w := 4) r, (s.entry r).gen ++ BitVec.ofFin (w := 4) r⟩ } } t

/-- An accepted SUBMIT of an RPY or PST takes the lowest free slot, keeps the composed TAG, sets SRC to NODE_ID and
appends one copy on each target link (R105). -/
def Obligations.SubmitPacket : Prop :=
  ∀ (s : State) (h : Header), s.inReset = false → h = composedHeader s.port.compose → s.refusal h = none → h.cls ≠ 0 →
    ∃ t i, exec .submit s = .next t ∧ s.slot i = none ∧ (∀ j < i, s.slot j ≠ none) ∧
      EndsAs { (s.setSlot i (some ⟨{ h with src := s.port.node }, (composedCells s.port.compose).take h.len.toNat,
          (s.targets h).length, none⟩)).appendCopies (s.targets h)
          ⟨.slot i, h.queueClass, 1 + h.len.toNat, h.hops, h.grp, false⟩ with
        port := { s.port with result := ⟨1, .ok, 0, 0⟩ } } t

/-- RX_POP removes the head of the inbound queue; CQ_RELEASE frees the head of the completion queue, its generation
advanced by one and every other field zero; on an empty queue each is refused with EMPTY and changes RESULT alone
(R112, R127, R138, R168). -/
def Obligations.QueueHeadsRemoved : Prop :=
  (∀ s : State, s.inReset = false →
    (s.inbound = [] → exec .rxPop s = .next { s with port := { s.port with result := ⟨2, .empty, 0, 0⟩ } }) ∧
    (∀ e rest, s.inbound = e :: rest → ∃ t, exec .rxPop s = .next t ∧
      EndsAs { s with inbound := rest, port := { s.port with result := ⟨2, .ok, 0, 0⟩ } } t)) ∧
  (∀ s : State, s.inReset = false →
    (s.cq = [] → exec .cqRelease s = .next { s with port := { s.port with result := ⟨3, .empty, 0, 0⟩ } }) ∧
    (∀ r rest, s.cq = r :: rest → ∃ t, exec .cqRelease s = .next t ∧ t.cq = rest ∧
      t.entry r = ReqEntry.free ((s.entry r).gen + 1) ∧ (∀ q, q ≠ r → t.entry q = s.entry q) ∧
      t.port = { s.port with result := ⟨3, .ok, 0, 0⟩ } ∧ { t with cq := s.cq, reqs := s.reqs, port := s.port } = s))

/-- REQ_CANCEL: refused with BAD_FIELD or NOT_ACTIVE; an entry in SENT completes with CANCELLED; one in QUEUED whose
packet has started is marked cancel-pending, else its copy is withdrawn and it completes (R92, R118, R124). -/
def Obligations.ReqCancel : Prop :=
  (∀ (n : BitVec 5) (s : State), s.inReset = false → 16 ≤ n →
    exec (.reqCancel n) s = .next { s with port := { s.port with result := ⟨4, .badField, 0, 0⟩ } }) ∧
  (∀ (n : BitVec 5) (r : ReqIx) (s : State), s.inReset = false → n.toNat = r.val →
    ((s.entry r).state = .free ∨ (s.entry r).state = .done →
      exec (.reqCancel n) s = .next { s with port := { s.port with result := ⟨4, .notActive, 0, 0⟩ } }) ∧
    ((s.entry r).state = .sent → ∃ t, exec (.reqCancel n) s = .next t ∧
      t.entry r = (s.entry r).completed .cancelled ∧ (∀ q, q ≠ r → t.entry q = s.entry q) ∧ t.cq = s.cq ++ [r] ∧
      t.events = { s.events with latch := s.events.latch ||| 0x02 } ∧
      t.port = { s.port with result := ⟨4, .ok, 0, 0⟩ } ∧
      { t with reqs := s.reqs, cq := s.cq, events := s.events, port := s.port } = s) ∧
    (∀ i, (s.entry r).state = .queued → (s.entry r).slot = some i →
      ((∃ e ∈ (s.link (s.entry r).egress).tx.queue .req, e.source = .slot i ∧ e.started = true) →
        ∃ t, exec (.reqCancel n) s = .next t ∧ EndsAs { s.setEntry r { s.entry r with cancelPending := true } with
          port := { s.port with result := ⟨4, .ok, 0, 0⟩ } } t) ∧
      ((∀ e ∈ (s.link (s.entry r).egress).tx.queue .req, e.source = .slot i → e.started = false) →
        ∀ k, s.slot i = some k → k.copies = 1 → ∃ t, exec (.reqCancel n) s = .next t ∧
          EndsAs { ((((((s.modLink (s.entry r).egress (fun n =>
              { n with tx := n.tx.withdraw (fun e => !e.namesSlot i) })).setSlot i none).latch .txSpace).setEntry r
              ((s.entry r).completed .cancelled)).pushCq r).latch .completion) with
            port := { s.port with result := ⟨4, .ok, 0, 0⟩ } } t)))

/-- LINK_RESET: BAD_FIELD above link 3, NOT_ACTIVE where ENABLE is 0; a teardown with HOST_RESET from UP, a fresh entry
to HOLD from every other state (R18, R19). -/
def Obligations.LinkReset : Prop :=
  (∀ (n : BitVec 5) (s : State), s.inReset = false → 4 ≤ n →
    exec (.linkReset n) s = .next { s with port := { s.port with result := ⟨5, .badField, 0, 0⟩ } }) ∧
  (∀ (n : BitVec 5) (l : LinkId) (s : State), s.inReset = false → n.toNat = l.val →
    ((s.link l).ctrl.enable = false →
      exec (.linkReset n) s = .next { s with port := { s.port with result := ⟨5, .notActive, 0, 0⟩ } }) ∧
    ((s.link l).ctrl.enable = true → (s.link l).state ≠ .up → ∃ t, exec (.linkReset n) s = .next t ∧
      EndsAs { s.setLink l { s.link l with
          state := .hold, initTimer := none
          holdTimer := if (s.link l).ctrl.linkHold = 0 then none else some ((s.link l).ctrl.linkHold.toNat * 64) } with
        port := { s.port with result := ⟨5, .ok, 0, 0⟩ } } t) ∧
    ((s.link l).ctrl.enable = true → (s.link l).state = .up → ∃ v t, exec (.linkReset n) s = .next t ∧
      TornDown s l .hostReset v ∧ EndsAs { v with port := { s.port with result := ⟨5, .ok, 0, 0⟩ } } t))

/-- SOFT_RESET empties every store, queue, slot, table and counter, keeps the configuration, the route and group tables
and the divider, and leaves every enabled link in HOLD, its hold timer started (in WAIT_PEER where LINK_HOLD is 0), and
every other in OFF (R20, R33, R54, R76, R95, R110, R130, R140, R150, R160, R175). -/
def Obligations.SoftReset : Prop :=
  ∀ s : State, s.inReset = false → ∃ t, exec .softReset s = .next t ∧
    t.port = { s.port with cfgReject := false, compose := Vector.replicate 16 0, result := ⟨6, .ok, 0, 0⟩ } ∧
    t.events = ⟨0, s.events.enable, 0, none⟩ ∧ t.intAsserted = false ∧ t.route = { s.route with position := 11 } ∧
    t.divider = s.divider ∧ t.cq = [] ∧ t.inbound = [] ∧ t.jobs = [] ∧ (∀ i, t.slot i = none) ∧
    (∀ r, t.entry r = ReqEntry.free (if (s.entry r).state = .free then (s.entry r).gen else (s.entry r).gen + 1)) ∧
    (∀ k, t.counter k = ⟨0, 1, false, false, false⟩) ∧
    (∀ l, (t.link l).ctrl = (s.link l).ctrl ∧ (t.link l).peer = (s.link l).peer ∧
      (t.link l).cause = (if (s.link l).state = .up then .softReset else (s.link l).cause) ∧
      (t.link l).store = { Store.empty with nextId := (s.link l).store.nextId } ∧ (t.link l).tx = Transmitter.idle ∧
      (t.link l).state = (if (s.link l).ctrl.enable = false then .off
        else if (s.link l).ctrl.linkHold = 0 then .waitPeer else .hold) ∧
      ((t.link l).state ≠ .waitPeer → (t.link l).seen = (s.link l).seen) ∧
      (t.link l).holdTimer = (if (s.link l).ctrl.enable = false ∨ (s.link l).ctrl.linkHold = 0 then none
        else some ((s.link l).ctrl.linkHold.toNat * 64)) ∧
      s.sent l <+: t.sent l ∧ ((s.link l).state = .up → ⟨true, teardownCell⟩ ∈ (t.sent l).drop (s.sent l).length))

/-- SYNC_ARM: BAD_FIELD for a counter above 7 or a target of 0; else the target is set and the counter is armed, or fires
at once where its count is at least the target. SYNC_TAKE: BAD_FIELD for a counter above 7, NOT_READY where the count is
below the target; else the target is subtracted and the counter is armed again, or fires again where enough is left.
Nothing else changes (R153, R154, R155, R156). -/
def Obligations.SyncArmAndTake : Prop :=
  (∀ (k : BitVec 5) (x : BitVec 8) (s : State), s.inReset = false → 8 ≤ k ∨ x = 0 →
    exec (.syncArm k x) s = .next { s with port := { s.port with result := ⟨7, .badField, 0, 0⟩ } }) ∧
  (∀ (k : BitVec 5) (j : Fin 8) (x : BitVec 8) (s : State), s.inReset = false → k.toNat = j.val → x ≠ 0 →
    ∃ t, exec (.syncArm k x) s = .next t ∧
      t.counter j = ⟨(s.counter j).count, x, decide ((s.counter j).count < x), decide (x ≤ (s.counter j).count),
        (s.counter j).overflow⟩ ∧
      (∀ i, i ≠ j → t.counter i = s.counter i) ∧
      t.events = { s.events with
        latch := if x ≤ (s.counter j).count then s.events.latch ||| 0x04 else s.events.latch } ∧
      t.port = { s.port with result := ⟨7, .ok, 0, 0⟩ } ∧
      { t with sync := s.sync, events := s.events, port := s.port } = s) ∧
  (∀ (k : BitVec 5) (s : State), s.inReset = false → 8 ≤ k →
    exec (.syncTake k) s = .next { s with port := { s.port with result := ⟨8, .badField, 0, 0⟩ } }) ∧
  (∀ (k : BitVec 5) (j : Fin 8) (s : State),
    s.inReset = false → k.toNat = j.val → (s.counter j).count < (s.counter j).target →
    exec (.syncTake k) s = .next { s with port := { s.port with result := ⟨8, .notReady, 0, 0⟩ } }) ∧
  (∀ (k : BitVec 5) (j : Fin 8) (s : State) (left : BitVec 8), s.inReset = false → k.toNat = j.val →
    (s.counter j).target ≤ (s.counter j).count → left = (s.counter j).count - (s.counter j).target →
    ∃ t, exec (.syncTake k) s = .next t ∧
      t.counter j = ⟨left, (s.counter j).target, decide (left < (s.counter j).target),
        decide ((s.counter j).target ≤ left), (s.counter j).overflow⟩ ∧
      (∀ i, i ≠ j → t.counter i = s.counter i) ∧
      t.events = { s.events with
        latch := if (s.counter j).target ≤ left then s.events.latch ||| 0x04 else s.events.latch } ∧
      t.port = { s.port with result := ⟨8, .ok, 0, 0⟩ } ∧
      { t with sync := s.sync, events := s.events, port := s.port } = s)

/-- SYNC_DISARM clears ARMED; SYNC_CLEAR clears the count and the three flags and keeps the target; a counter above 7 is
refused with BAD_FIELD; no event is latched (R154, R157, R158). -/
def Obligations.SyncDisarmAndClear : Prop :=
  (∀ (k : BitVec 5) (s : State), s.inReset = false → 8 ≤ k →
    exec (.syncDisarm k) s = .next { s with port := { s.port with result := ⟨9, .badField, 0, 0⟩ } } ∧
    exec (.syncClear k) s = .next { s with port := { s.port with result := ⟨10, .badField, 0, 0⟩ } }) ∧
  (∀ (k : BitVec 5) (j : Fin 8) (s : State), s.inReset = false → k.toNat = j.val →
    (∃ t, exec (.syncDisarm k) s = .next t ∧ t.counter j = { s.counter j with armed := false } ∧
      (∀ i, i ≠ j → t.counter i = s.counter i) ∧ t.port = { s.port with result := ⟨9, .ok, 0, 0⟩ } ∧
      { t with sync := s.sync, port := s.port } = s) ∧
    (∃ t, exec (.syncClear k) s = .next t ∧ t.counter j = ⟨0, (s.counter j).target, false, false, false⟩ ∧
      (∀ i, i ≠ j → t.counter i = s.counter i) ∧ t.port = { s.port with result := ⟨10, .ok, 0, 0⟩ } ∧
      { t with sync := s.sync, port := s.port } = s))

/-- A drop raises DROP_COUNT by one, which stays at 65535, fills the capture record with what its block handed over where
that is free and leaves a valid one as it is, latches DROP, and changes nothing else. DROP_CLEAR frees the record and zeroes
DROP_COUNT; the DROP event stays as it is (R171, R172, R174). -/
def Obligations.DropClear : Prop :=
  (∀ (s : State) (why : DropReason) (origin : Origin) (h : Header),
    (s.drop why origin h).events.dropCount.toNat = min 65535 (s.events.dropCount.toNat + 1) ∧
    (s.events.capture = none → (s.drop why origin h).events.capture =
      some ⟨why, origin, h.dest, h.src, h.cls, h.kind, h.tag⟩) ∧
    (∀ d, s.events.capture = some d → (s.drop why origin h).events.capture = some d) ∧
    (s.drop why origin h).events.latch = s.events.latch ||| 0x10 ∧
    (s.drop why origin h).events.enable = s.events.enable ∧ { s.drop why origin h with events := s.events } = s) ∧
  (∀ s : State,
    s.inReset = false → ∃ t, exec .dropClear s = .next t ∧ readWord t 10 = 0 ∧ readWord t 11 = 0 ∧ readWord t 12 = 0 ∧
    t.port.result = ⟨11, .ok, 0, 0⟩ ∧ SameWindowBut s t [7, 10, 11, 12] ∧
    { t with events := s.events, port := s.port } = s)

/-! ### Cells on a link -/

/-- In OFF and HOLD every received cell and a loss of carrier have no effect; in WAIT_PEER a packet cell, a CREDIT and a
bad cell clear SEEN and do nothing else, and a TEARDOWN, an unknown control cell and a loss of carrier have no effect
(R19, R21, R22, R26). -/
def Obligations.DownLinkDiscards : Prop :=
  (∀ (s : State) (l : LinkId), s.inReset = false → (s.link l).state = .off ∨ (s.link l).state = .hold →
    (∀ cell, exec (.packetCellWhileNotUp l cell) s = .next s ∧ exec (.headerCellArrival l cell) s = .next s ∧
      exec (.dataCellArrival l cell) s = .next s) ∧
    (∀ node seen, exec (.initReceived l node seen) s = .next s) ∧
    (∀ count res, exec (.creditReceived l count res) s = .next s) ∧ exec (.teardownCellReceived l) s = .next s ∧
    exec (.unknownControlCell l) s = .next s ∧ exec (.badCell l) s = .next s ∧ exec (.carrierLoss l) s = .next s) ∧
  (∀ (s : State) (l : LinkId), s.inReset = false → (s.link l).state = .waitPeer →
    (∀ cell, ∃ t, exec (.packetCellWhileNotUp l cell) s = .next t ∧ t = s.setLink l { s.link l with seen := false }) ∧
    (∀ count res, ∃ t, exec (.creditReceived l count res) s = .next t ∧
      t = s.setLink l { s.link l with seen := false }) ∧
    (∃ t, exec (.badCell l) s = .next t ∧ t = s.setLink l { s.link l with seen := false }) ∧
    exec (.teardownCellReceived l) s = .next s ∧ exec (.unknownControlCell l) s = .next s ∧
    exec (.carrierLoss l) s = .next s)

/-- The handshake: an INIT received in WAIT_PEER with another node's ID records the peer; SEEN 0 is answered with an INIT
of SEEN 1 and the timer restarts; SEEN 1 brings the link UP with full credit, the scheduler at REQ and 0 and LINK latched,
after one INIT of SEEN 1 if none had been heard; an INIT with the own ID tears the link down with SAME_ID, to OFF whatever
AUTO holds (R23, R24, R25, R27, R31). -/
def Obligations.Handshake : Prop :=
  (∀ (s : State) (l : LinkId) (node : NodeId), s.inReset = false → (s.link l).state = .waitPeer → node ≠ s.port.node →
    (∃ t, exec (.initReceived l node false) s = .next t ∧
      t.link l = { s.link l with peer := node, seen := true, initTimer := some 128 } ∧
      (∀ m, m ≠ l → t.link m = s.link m) ∧ t.sent l = s.sent l ++ [⟨true, initCell s.port.node true⟩] ∧
      (∀ m, m ≠ l → t.sent m = s.sent m) ∧ { t with links := s.links, lane := s.lane } = s) ∧
    (∃ u t, exec (.initReceived l node true) s = .next t ∧ EndsAs u t ∧
      u.link l = { s.link l with
        state := .up, peer := node, seen := true, initTimer := none
        tx := { (s.link l).tx with shared := 72, reserved := ⟨true, true, true⟩, cur := .req, run := 0 } } ∧
      (∀ m, m ≠ l → u.link m = s.link m) ∧
      u.sent l = s.sent l ++ (if (s.link l).seen then [] else [⟨true, initCell s.port.node true⟩]) ∧
      (∀ m, m ≠ l → u.sent m = s.sent m) ∧ u.events = { s.events with latch := s.events.latch ||| 0x08 } ∧
      { u with links := s.links, lane := s.lane, events := s.events } = s)) ∧
  (∀ (s : State) (l : LinkId) (seen : Bool), s.inReset = false → (s.link l).state = .waitPeer →
    ∃ v t, exec (.initReceived l s.port.node seen) s = .next t ∧
      TornDown (s.setLink l { s.link l with peer := s.port.node }) l .sameId v ∧ EndsAs v t ∧ (t.link l).state = .off ∧
      (t.link l).peer = s.port.node ∧ (t.link l).cause = .sameId)

/-- Each fault of a link in UP tears it down with its own cause: at a packet boundary an INIT with SEEN 0, a TEARDOWN
cell, a CREDIT that returns too much and a header without space; within a packet every control cell; anywhere an unknown
control cell, a bad cell and a loss of carrier (R1, R28, R30, R40, R50). -/
def Obligations.LinkFaults : Prop :=
  ∀ (s : State) (l : LinkId), s.inReset = false → (s.link l).state = .up →
    (∃ v t, exec (.badCell l) s = .next t ∧ TornDown s l .cellError v ∧ EndsAs v t) ∧
    (∃ v t, exec (.carrierLoss l) s = .next t ∧ TornDown s l .carrierLoss v ∧ EndsAs v t) ∧
    (∃ v t, exec (.unknownControlCell l) s = .next t ∧ TornDown s l .controlError v ∧ EndsAs v t) ∧
    ((∃ p ∈ (s.link l).store.packets, p.cond = .inReception) →
      (∀ node seen, ∃ v t, exec (.initReceived l node seen) s = .next t ∧ TornDown s l .controlError v ∧ EndsAs v t) ∧
      (∀ count res, ∃ v t, exec (.creditReceived l count res) s = .next t ∧ TornDown s l .controlError v ∧ EndsAs v t) ∧
      (∃ v t, exec (.teardownCellReceived l) s = .next t ∧ TornDown s l .controlError v ∧ EndsAs v t)) ∧
    ((∀ p ∈ (s.link l).store.packets, p.cond ≠ .inReception) →
      (∀ node, ∃ v t, exec (.initReceived l node false) s = .next t ∧ TornDown s l .peerRestart v ∧ EndsAs v t) ∧
      (∀ node, exec (.initReceived l node true) s = .next s) ∧
      (∃ v t, exec (.teardownCellReceived l) s = .next t ∧ TornDown s l .peerTeardown v ∧ EndsAs v t) ∧
      (∀ count res, 72 < (s.link l).tx.shared + count.toNat ∨
          (∃ c, res.get c = true ∧ (s.link l).tx.reserved.get c = true) →
        ∃ v t, exec (.creditReceived l count res) s = .next t ∧ TornDown s l .creditReturnError v ∧ EndsAs v t) ∧
      (∀ cell h, h = Header.ofCell cell →
          (h.pool = false ∧ 72 < (s.link l).store.held + (s.link l).store.awaitShared + (1 + h.len.toNat)) ∨
            (h.pool = true ∧ ((s.link l).store.inRegion h.queueClass ≠ [] ∨
              (s.link l).store.awaitRes.get h.queueClass = true)) →
        ∃ v t, exec (.headerCellArrival l cell) s = .next t ∧ TornDown s l .creditOverrun v ∧ EndsAs v t))

/-- A CREDIT cell that does not overfill the transmitter adds its count and its reserved credits (R38, R50). -/
def Obligations.CreditAccepted : Prop :=
  ∀ (s : State) (l : LinkId) (count : BitVec 7) (res : PerClass Bool), s.inReset = false → (s.link l).state = .up →
    (∀ p ∈ (s.link l).store.packets, p.cond ≠ .inReception) → (s.link l).tx.shared + count.toNat ≤ 72 →
    (∀ c, res.get c = true → (s.link l).tx.reserved.get c = false) →
    ∃ u t, exec (.creditReceived l count res) s = .next t ∧ EndsAs u t ∧ (∀ m, m ≠ l → u.link m = s.link m) ∧
      (u.link l).tx.shared = (s.link l).tx.shared + count.toNat ∧
      (∀ c, (u.link l).tx.reserved.get c = ((s.link l).tx.reserved.get c || res.get c)) ∧
      { u.link l with tx := { (u.link l).tx with
        shared := (s.link l).tx.shared, reserved := (s.link l).tx.reserved } } = s.link l ∧ { u with links := s.links } = s

/-- A header cell whose space is there opens a packet record: POOL 0 needs 1 + LEN free shared cells, POOL 1 the class's
reserved region empty with its return bit clear; with LEN 0 the packet has arrived. A data cell joins the packet in
reception; the LEN-th is the packet's arrival: it is queued with copy count 1 (R1, R35, R40, R41). -/
def Obligations.HeaderAdmitted : Prop :=
  (∀ (s : State) (l : LinkId) (cell : Cell) (h : Header),
    s.inReset = false → h = Header.ofCell cell → (s.link l).state = .up →
    (∀ p ∈ (s.link l).store.packets, p.cond ≠ .inReception) →
    (h.pool = false → (s.link l).store.held + (s.link l).store.awaitShared + (1 + h.len.toNat) ≤ 72) →
    (h.pool = true → (s.link l).store.inRegion h.queueClass = [] ∧
      (s.link l).store.awaitRes.get h.queueClass = false) →
    ∃ t, exec (.headerCellArrival l cell) s = .next t ∧
      EndsAs (s.setLink l { s.link l with store := { (s.link l).store with
        packets := (s.link l).store.packets ++ [⟨(s.link l).store.nextId, h, [], if h.pool then .reserved else .shared,
          if h.len = 0 then .queued else .inReception, if h.len = 0 then 1 else 0⟩]
        nextId := (s.link l).store.nextId + 1 } }) t) ∧
  (∀ (s : State) (l : LinkId) (cell : Cell) (before after : List StoredPacket) (p : StoredPacket), s.inReset = false →
    (s.link l).state = .up → (s.link l).store.packets = before ++ p :: after → p.cond = .inReception →
    (∀ q ∈ before ++ after, q.cond ≠ .inReception) →
    ∃ t, exec (.dataCellArrival l cell) s = .next t ∧
      EndsAs (s.setLink l { s.link l with store := { (s.link l).store with
        packets := before ++ (if p.hdr.len.toNat ≤ p.data.length + 1 then
            { p with data := p.data ++ [cell], cond := .queued, copies := 1 }
          else { p with data := p.data ++ [cell] }) :: after } }) t)

/-! ### Timers -/

/-- WAIT_PEER_ENTRY and HOLD_TIMER_EXPIRY: a link in HOLD leaves for WAIT_PEER when its hold timer has expired and its
store holds no packet, with SEEN 0, one INIT of SEEN 0 and the INIT timer at 128 units; else it stays
(R19, R20, R22). A timer that does not run does not expire, and one that runs may whatever it counts (logs 2 and 7). -/
def Obligations.HoldEnds : Prop :=
  ∀ (s : State) (l : LinkId), s.inReset = false →
    ((s.link l).state = .hold → (s.link l).store.packets = [] →
      ((s.link l).holdTimer = none → ∃ t, exec (.waitPeerEntry l) s = .next t ∧
        t.link l = { s.link l with state := .waitPeer, seen := false, initTimer := some 128 } ∧
        (∀ m, m ≠ l → t.link m = s.link m ∧ t.sent m = s.sent m) ∧
        t.sent l = s.sent l ++ [⟨true, initCell s.port.node false⟩] ∧
        { t with links := s.links, lane := s.lane } = s) ∧
      ((s.link l).holdTimer ≠ none → ∃ t, exec (.holdTimerExpiry l) s = .next t ∧ (t.link l).state = .waitPeer ∧
        (t.link l).holdTimer = none ∧ (t.link l).seen = false ∧ (t.link l).initTimer = some 128 ∧
        t.sent l = s.sent l ++ [⟨true, initCell s.port.node false⟩])) ∧
    ((s.link l).state = .hold → (s.link l).store.packets ≠ [] →
      exec (.waitPeerEntry l) s = .next s ∧
      ((s.link l).holdTimer ≠ none → ∃ t, exec (.holdTimerExpiry l) s = .next t ∧
        EndsAs (s.setLink l { s.link l with holdTimer := none }) t)) ∧
    ((s.link l).state ≠ .hold ∨ (s.link l).holdTimer ≠ none → exec (.waitPeerEntry l) s = .next s) ∧
    ((s.link l).state ≠ .hold ∨ (s.link l).holdTimer = none → exec (.holdTimerExpiry l) s = .next s)

/-- INIT_TIMER_EXPIRY sends one INIT with NODE_ID and SEEN as it stands and restarts the timer for 128 units, in WAIT_PEER
with the timer running alone; CREDIT_HOLDOFF_EXPIRY stops the holdoff timer and sets the elapsed mark, which makes a CREDIT
cell due on a link in UP; REQUEST_TIMER_EXPIRY completes an entry in SENT whose timer runs with TIMEOUT: it joins the
completion queue and COMPLETION is latched, and no other entry is touched (R22, R47, R48, R115, R124). A timer that does
not run does not expire, and one that runs may whatever it counts (logs 2 and 7). -/
def Obligations.LinkTimersExpire : Prop :=
  (∀ (s : State) (l : LinkId), s.inReset = false →
    ((s.link l).state = .waitPeer → (s.link l).initTimer ≠ none → ∃ t, exec (.initTimerExpiry l) s = .next t ∧
      t.link l = { s.link l with initTimer := some 128 } ∧ (∀ m, m ≠ l → t.link m = s.link m) ∧
      t.sent l = s.sent l ++ [⟨true, initCell s.port.node (s.link l).seen⟩] ∧ (∀ m, m ≠ l → t.sent m = s.sent m) ∧
      { t with links := s.links, lane := s.lane } = s) ∧
    ((s.link l).state ≠ .waitPeer ∨ (s.link l).initTimer = none → exec (.initTimerExpiry l) s = .next s)) ∧
  (∀ (s : State) (l : LinkId), s.inReset = false →
    ((s.link l).store.holdoff ≠ none → ∃ t, exec (.creditHoldoffExpiry l) s = .next t ∧
      EndsAs (s.setLink l { s.link l with store := { (s.link l).store with holdoff := none, elapsed := true } }) t) ∧
    ((s.link l).store.holdoff = none → exec (.creditHoldoffExpiry l) s = .next s) ∧
    ((s.link l).state = .up → (s.link l).store.elapsed = true → (s.link l).creditDue = true)) ∧
  (∀ (s : State) (r : ReqIx), s.inReset = false →
    ((s.entry r).state = .sent → (s.entry r).captured ≠ 0 → ∃ t, exec (.requestTimerExpiry r) s = .next t ∧
      t.entry r = { s.entry r with
        state := .done, status := some .timeout, remaining := 0, cancelPending := false, slot := none } ∧
      (∀ q, q ≠ r → t.entry q = s.entry q) ∧ t.cq = s.cq ++ [r] ∧
      t.events = { s.events with latch := s.events.latch ||| 0x02 } ∧
      { t with reqs := s.reqs, cq := s.cq, events := s.events } = s) ∧
    ((s.entry r).state ≠ .sent ∨ (s.entry r).captured = 0 → exec (.requestTimerExpiry r) s = .next s))

/-! ### The route unit and the responder -/

/-- A remote unicast head that passes R67 is forwarded: one copy with HOPS one less at the tail of the target's queue of
its class, the packet dispatched with copy count 1 and the rotation at its source; with 16 entries there it waits
(R60, R62, R69, R77). -/
def Obligations.DispatchForwards : Prop :=
  ∀ (s : State) (l m : LinkId) (c : Sys2Proof.Class) (p : StoredPacket), s.inReset = false → s.forwards l c p m →
    (((s.link m).tx.queue c).length < 16 → ∃ t, exec (.dispatch l c) s = .next t ∧
      EndsAs (((s.appendEntry m ⟨.store l p.id, c, 1 + p.hdr.len.toNat, p.hdr.hops - 1, false, false⟩).modLink l
        (fun n => { n with store := n.store.modPacket p.id (fun q => { q with cond := .dispatched, copies := 1 }) })).setPosition
          (RouteSource.ingress l c).number) t) ∧
    (16 ≤ ((s.link m).tx.queue c).length → exec (.dispatch l c) s = .next s)

/-- A remote unicast head that fails R67 is dropped with the reason, an RPY or PST at once; a REQ becomes an UNREACHABLE
job beside the drop, and waits, recording nothing, while no job is free (R67, R68, R75, R142). -/
def Obligations.DispatchFailsRoute : Prop :=
  ∀ (s : State) (l : LinkId) (c : Sys2Proof.Class) (p : StoredPacket) (why : DropReason),
    s.inReset = false → s.failsRoute l c p why →
    (p.hdr.cls ≠ 0 → ∃ t, exec (.dispatch l c) s = .next t ∧ EndsAs ((s.drop why (.link l) p.hdr).letGo l c p) t) ∧
    (p.hdr.cls = 0 → s.jobs.length < 4 → ∃ t, exec (.dispatch l c) s = .next t ∧
      EndsAs (((s.pushJob ⟨0, .unreachable, p.hdr.src, p.hdr.dest, p.hdr.tag, p.hdr.user, [], .waiting, 1⟩).drop why (.link l)
        p.hdr).letGo l c p) t) ∧
    (p.hdr.cls = 0 → 4 ≤ s.jobs.length → exec (.dispatch l c) s = .next s)

/-- A local unicast MSG with RX_ENABLE set joins the tail of the inbound queue with its arrival link, fields and payload
and INBOUND is latched, or waits while the queue has no room for it (R65, R66, R132, R133, R134, R139). -/
def Obligations.DispatchMessage : Prop :=
  ∀ (s : State) (l : LinkId) (c : Sys2Proof.Class) (p : StoredPacket),
    s.inReset = false → s.localHead l c p → p.hdr.cls ≠ 1 → p.hdr.kind = 0 →
    s.port.rxEnable = true →
    (s.inbound.length < 32 ∧ s.inboundCells + p.hdr.len.toNat ≤ 112 → ∃ t, exec (.dispatch l c) s = .next t ∧
      EndsAs (((s.pushInbound ⟨l, p.hdr.dest, p.hdr.grp, p.hdr.src, p.hdr.cls, p.hdr.kind, p.hdr.tag, p.hdr.user,
        p.hdr.len, p.data⟩).latch .inbound).letGo l c p) t) ∧
    (32 ≤ s.inbound.length ∨ 112 < s.inboundCells + p.hdr.len.toNat → exec (.dispatch l c) s = .next s)

/-- With RX_ENABLE clear a local REQ MSG becomes a REFUSED job and a local PST MSG is dropped with RX_DISABLED; a REQ
PROBE becomes a PROBE_REPLY job with the four words of R147 as they stand at this event; a REQ waits while no job is free
(R65, R66, R142, R147, R148). -/
def Obligations.DispatchAnswers : Prop :=
  ∀ (s : State) (l : LinkId) (c : Sys2Proof.Class) (p : StoredPacket), s.inReset = false → s.localHead l c p →
    (p.hdr.cls = 2 → p.hdr.kind = 0 → s.port.rxEnable = false → ∃ t, exec (.dispatch l c) s = .next t ∧
      EndsAs ((s.drop .rxDisabled (.link l) p.hdr).letGo l c p) t) ∧
    (p.hdr.cls = 0 → p.hdr.kind = 0 → s.port.rxEnable = false → s.jobs.length < 4 →
      ∃ t, exec (.dispatch l c) s = .next t ∧
        EndsAs ((s.pushJob ⟨0, .refused, p.hdr.src, p.hdr.dest, p.hdr.tag, p.hdr.user, [], .waiting, 1⟩).letGo l c p) t) ∧
    (p.hdr.cls = 0 → p.hdr.kind = 1 → s.jobs.length < 4 → s.inbound.length ≤ 32 →
      ∃ (w0 w1 w3 : Word) (t : State), exec (.dispatch l c) s = .next t ∧
        w0.toNat = s.port.node.toNat + 2 ^ 8 + 2 ^ 15 * s.port.rxEnable.toNat + 2 ^ 16 * s.inbound.length ∧
        (∀ m : LinkId, (w1.extractLsb' (8 * m.val) 8).toNat =
          (s.link m).state.code.toNat + 2 ^ 2 * (s.link m).peer.toNat) ∧
        (w3.extractLsb' 0 16).toNat = (reqIxs.filter (fun r => (s.entry r).state ≠ .free)).length +
          2 ^ 8 * (slotIxs.filter (fun i => s.slot i = none)).length ∧
        (∀ k : Fin 8, w3.getLsbD (16 + k.val) = (s.counter k).fired) ∧ w3.extractLsb' 24 8 = 0 ∧
        EndsAs ((s.pushJob ⟨0, .probeReply, p.hdr.src, p.hdr.dest, p.hdr.tag, p.hdr.user, [w1 ++ w0, w3 ++ s.port.label],
          .waiting, 1⟩).letGo l c p) t) ∧
    (p.hdr.cls = 0 → (p.hdr.kind = 1 ∨ s.port.rxEnable = false) → 4 ≤ s.jobs.length →
      exec (.dispatch l c) s = .next s)

/-- A local PST SIGNAL adds one to the counter its TAG's low three bits select, 255 staying with OVERFLOW, and an ARMED
counter whose count reaches its target fires (R66, R152, R153). -/
def Obligations.DispatchSignal : Prop :=
  ∀ (s : State) (l : LinkId) (c : Sys2Proof.Class) (p : StoredPacket) (k : Fin 8),
    s.inReset = false → s.localHead l c p → p.hdr.cls = 2 →
    p.hdr.kind = 1 → k.val = p.hdr.tag.toNat % 8 →
    ∃ u t : State, exec (.dispatch l c) s = .next t ∧ EndsAs (u.letGo l c p) t ∧
      (u.counter k).count = (if (s.counter k).count = 255 then 255 else (s.counter k).count + 1) ∧
      ((u.counter k).overflow = true ↔ (s.counter k).overflow = true ∨ (s.counter k).count = 255) ∧
      (u.counter k).target = (s.counter k).target ∧
      (((s.counter k).armed = true ∧ (s.counter k).target ≤ (u.counter k).count) →
        (u.counter k).armed = false ∧ (u.counter k).fired = true ∧ u.events = s.events.latched .sync) ∧
      (¬((s.counter k).armed = true ∧ (s.counter k).target ≤ (u.counter k).count) →
        (u.counter k).armed = (s.counter k).armed ∧ (u.counter k).fired = (s.counter k).fired ∧ u.events = s.events) ∧
      (∀ i, i ≠ k → u.counter i = s.counter i) ∧ { u with sync := s.sync, events := s.events } = s

/-- A local RPY completes the entry its TAG's low four bits select where that is in SENT with the TAG's generation and
the reply's SRC as its destination, with the status of its kind and its fields and cells; else it is dropped as STALE
(R64, R120, R121, R123, R124). -/
def Obligations.DispatchReply : Prop :=
  ∀ (s : State) (l : LinkId) (c : Sys2Proof.Class) (p : StoredPacket) (r : ReqIx),
    s.inReset = false → s.localHead l c p → p.hdr.cls = 1 →
    r.val = p.hdr.tag.toNat % 16 →
    ((s.entry r).state = .sent ∧ (s.entry r).gen.toNat = p.hdr.tag.toNat / 16 ∧ (s.entry r).dest = p.hdr.src →
      ∃ (v : Vector Cell 7) (t : State), exec (.dispatch l c) s = .next t ∧
        (∀ j : Fin 7, v[j] = (p.data.take p.hdr.len.toNat).getD j 0) ∧
        EndsAs ((((s.setEntry r { s.entry r with
          state := .done
          status := some (if p.hdr.kind = 0 then .ok else if p.hdr.kind = 1 then .refused else .unreachable)
          remaining := 0, cancelPending := false, slot := none, replyKind := some p.hdr.kind, replyUser := p.hdr.user
          replySrc := p.hdr.src, replyLen := p.hdr.len, replyData := v }).pushCq r).latch .completion).letGo l c p) t) ∧
    (¬((s.entry r).state = .sent ∧ (s.entry r).gen.toNat = p.hdr.tag.toNat / 16 ∧ (s.entry r).dest = p.hdr.src) →
      ∃ t, exec (.dispatch l c) s = .next t ∧
        EndsAs (((s.drop .stale (.link l) p.hdr).latch .stale).letGo l c p) t)

/-- A malformed head is dropped as MALFORMED whatever else holds, and a well-formed group head whose entry has ENABLE 0
as BAD_GROUP (R6, R63, R70). -/
def Obligations.DispatchMalformed : Prop :=
  ∀ (s : State) (l : LinkId) (c : Sys2Proof.Class) (p : StoredPacket), s.inReset = false → s.ingressHead l c = some p →
    (p.hdr.cls = 3 ∨ (p.hdr.cls = 0 ∧ 2 ≤ p.hdr.kind) ∨ (p.hdr.cls = 1 ∧ 3 ≤ p.hdr.kind) ∨
        (p.hdr.cls = 2 ∧ 2 ≤ p.hdr.kind) ∨ (p.hdr.grp = true ∧ (p.hdr.cls ≠ 2 ∨ 8 ≤ p.hdr.dest)) →
      ∃ t, exec (.dispatch l c) s = .next t ∧ EndsAs ((s.drop .malformed (.link l) p.hdr).letGo l c p) t) ∧
    (p.hdr.malformed = false → p.hdr.grp = true → (s.groupOf p.hdr).enable = false →
      ∃ t, exec (.dispatch l c) s = .next t ∧ EndsAs ((s.drop .badGroup (.link l) p.hdr).letGo l c p) t)

/-- A group head of an enabled group gets a copy, HOPS one less, on each member link that is UP but the arrival link (on
none with HOPS 0 or 1), and its local delivery, all at one event; where any of them lacks room it waits and nothing is
delivered (R70–R73). -/
def Obligations.DispatchGroup : Prop :=
  ∀ (s : State) (l : LinkId) (c : Sys2Proof.Class) (p : StoredPacket) (ms : List LinkId) (msg : Bool),
    s.inReset = false →
    s.ingressHead l c = some p → p.hdr.malformed = false → p.hdr.grp = true → (s.groupOf p.hdr).enable = true →
    ms = (if p.hdr.hops ≤ 1 then [] else linkIds.filter
      (fun m : LinkId => (s.groupOf p.hdr).mask.getLsbD m && s.isUp m && decide (m ≠ l))) →
    msg = ((s.groupOf p.hdr).member && decide (p.hdr.kind = 0) && s.port.rxEnable) →
    ((∀ m ∈ ms, ((s.link m).tx.queue c).length < 16) →
      (msg = true → s.inbound.length < 32 ∧ s.inboundCells + p.hdr.len.toNat ≤ 112) →
      ∃ d t, exec (.dispatch l c) s = .next t ∧
        d = (if msg then (s.pushInbound ⟨l, p.hdr.dest, true, p.hdr.src, p.hdr.cls, p.hdr.kind, p.hdr.tag, p.hdr.user,
            p.hdr.len, p.data⟩).latch .inbound
          else if (s.groupOf p.hdr).member = true ∧ p.hdr.kind = 1 then s.signal p.hdr.tag else s) ∧
        EndsAs (((d.appendCopies ms ⟨.store l p.id, c, 1 + p.hdr.len.toNat, p.hdr.hops - 1, true, false⟩).modLink l
          (fun n => n.dispatched p.id ms.length)).setPosition (RouteSource.ingress l c).number) t) ∧
    ((∃ m ∈ ms, 16 ≤ ((s.link m).tx.queue c).length) ∨
        (msg = true ∧ (32 ≤ s.inbound.length ∨ 112 < s.inboundCells + p.hdr.len.toNat)) →
      exec (.dispatch l c) s = .next s)

/-- The responder's head: taken by the request table where its requester is local, dropped where its route fails, given
one copy with DEFAULT_HOPS in the RPY queue of its link otherwise, waiting while that is full (R74, R143, R144). -/
def Obligations.ResponderDispatch : Prop :=
  ∀ (s : State) (j : Job) (e : RouteEntry) (h : Header),
    s.inReset = false → s.jobHead = some j → e = s.routeFor j.requester →
    h = ⟨j.requester, j.addressed, 1, j.kind.code, false, j.tag, j.kind.len, s.port.defaultHops, false, j.user⟩ →
    (j.requester = s.port.node ∨ e.action = .here → ∃ t, exec .responderDispatch s = .next t ∧
      EndsAs (((s.takeReply h j.payload .responder).freeJob j.id).setPosition 12) t) ∧
    (j.requester ≠ s.port.node → e.action = .discard → ∃ t, exec .responderDispatch s = .next t ∧
      EndsAs (((s.drop .noRoute .responder h).freeJob j.id).setPosition 12) t) ∧
    (j.requester ≠ s.port.node → e.action = .toLink → (s.link e.link).state ≠ .up →
      ∃ t, exec .responderDispatch s = .next t ∧
        EndsAs (((s.drop .linkDown .responder h).freeJob j.id).setPosition 12) t) ∧
    (j.requester ≠ s.port.node → e.action = .toLink → (s.link e.link).state = .up →
      (((s.link e.link).tx.queue .rpy).length < 16 → ∃ t, exec .responderDispatch s = .next t ∧
        EndsAs (((s.appendEntry e.link ⟨.job j.id, .rpy, 1 + j.kind.len.toNat, s.port.defaultHops, false, false⟩).markSent
          j.id).setPosition 12) t) ∧
      (16 ≤ ((s.link e.link).tx.queue .rpy).length → exec .responderDispatch s = .next s))

/-! ### Lanes -/

/-- The scheduler's decision starts an eligible head wherever there is one; it serves another class once the run has used
the quantum, and counts anew whenever it does not continue a run below it (R82). -/
def Obligations.SchedulerDecides : Prop :=
  ∀ (t : Transmitter) (q : BitVec 8),
    (t.choose q = none ↔ ∀ c, t.eligible c = false) ∧
    (∀ c run, t.choose q = some (c, run) → t.eligible c = true ∧
      ((c = t.cur ∧ run = t.run ∧ t.run < q.toNat) ∨
        (run = 0 ∧ ¬(t.eligible t.cur = true ∧ t.run < q.toNat) ∧ (c = t.cur → ∀ d, d ≠ t.cur → t.eligible d = false) ∧
          (c = rotateClass (rotateClass t.cur) → t.eligible (rotateClass t.cur) = false))))

/-- TRANSMISSION_START of the class the scheduler chooses, no CREDIT cell being due: the header cell goes out with the
entry's HOPS and POOL 1 only where the shared credit is short, that credit is spent, Started is set, the class becomes
current and its run grows by the length (R39, R82, R85). -/
def Obligations.TransmissionStart : Prop :=
  ∀ (s : State) (l : LinkId) (c : Sys2Proof.Class) (run : Nat) (e : EgressEntry) (rest : List EgressEntry) (pool : Bool),
    s.inReset = false →
    (s.link l).state = .up → (s.link l).tx.busy = false → (s.link l).creditDue = false →
    (s.link l).tx.choose (s.link l).ctrl.quantum = some (c, run) → (s.link l).tx.queue c = e :: rest →
    pool = decide ((s.link l).tx.shared < e.length) →
    ∃ t, exec (.transmissionStart l) s = .next t ∧
      t.sent l = s.sent l ++
        [⟨false, ({ s.sourceHeader e.source with hops := e.hopsOut, pool := pool } : Header).toCell⟩] ∧
      (∀ m, m ≠ l → t.sent m = s.sent m ∧ t.link m = s.link m) ∧
      (t.link l).tx.queue c = { e with started := true } :: rest ∧
      (∀ d, d ≠ c → (t.link l).tx.queue d = (s.link l).tx.queue d) ∧
      (t.link l).tx.shared = (if pool then (s.link l).tx.shared else (s.link l).tx.shared - e.length) ∧
      (∀ d, (t.link l).tx.reserved.get d = ((s.link l).tx.reserved.get d && !(pool && decide (d = c)))) ∧
      (t.link l).tx.cur = c ∧ (t.link l).tx.run = run + e.length ∧ { t.link l with tx := (s.link l).tx } = s.link l ∧
      { t with links := s.links, lane := s.lane } = s

/-- CREDIT_CELL_SEND: a due CREDIT cell carries everything awaiting return, which is then cleared with the timer and the
mark; a head the scheduler chooses starts right behind it at the same boundary (R49, R82, R84). -/
def Obligations.CreditCellSent : Prop :=
  ∀ (s : State) (l : LinkId),
    s.inReset = false → (s.link l).state = .up → (s.link l).tx.busy = false → (s.link l).creditDue = true →
    ∃ t, exec (.creditCellSend l) s = .next t ∧
      (s.sent l ++ [⟨true, creditCell (BitVec.ofNat 7 (s.link l).store.awaitShared) (s.link l).store.awaitRes⟩]) <+: t.sent l ∧
      (t.link l).store = { (s.link l).store with
        awaitShared := 0, awaitRes := PerClass.all false, holdoff := none, elapsed := false } ∧
      ((s.link l).tx.choose (s.link l).ctrl.quantum = none → (t.link l).tx = (s.link l).tx ∧
        t.sent l = s.sent l ++
          [⟨true, creditCell (BitVec.ofNat 7 (s.link l).store.awaitShared) (s.link l).store.awaitRes⟩]) ∧
      (∀ c run e rest pool, (s.link l).tx.choose (s.link l).ctrl.quantum = some (c, run) →
        (s.link l).tx.queue c = e :: rest → pool = decide ((s.link l).tx.shared < e.length) →
        (t.link l).tx.queue c = { e with started := true } :: rest ∧ t.sent l = s.sent l ++
          [⟨true, creditCell (BitVec.ofNat 7 (s.link l).store.awaitShared) (s.link l).store.awaitRes⟩,
            ⟨false, ({ s.sourceHeader e.source with hops := e.hopsOut, pool := pool } : Header).toCell⟩]) ∧
      (∀ m, m ≠ l → t.link m = s.link m ∧ t.sent m = s.sent m) ∧ { t with links := s.links, lane := s.lane } = s

/-- TRANSMISSION_COMPLETION: the data cells have followed the header, the entry leaves its queue and one copy of its
source ends: a stored packet's count falls or the packet is released, a slot's count falls or the slot is freed, a job is
freed; a host REQ's entry moves on (R85, R87, R107, R114, R144). That the transcript shows the data cells at this event is
the model's choice, log 5. -/
def Obligations.TransmissionCompletes : Prop :=
  ∀ (s : State) (l : LinkId) (c : Sys2Proof.Class) (e : EgressEntry) (rest : List EgressEntry) (u : State),
    s.inReset = false →
    (s.link l).tx.StartedLaw → (s.link l).tx.queue c = e :: rest → e.started = true →
    u = (s.send l (packetCells (s.sourceData e.source))).modLink l
      (fun n => { n with tx := { n.tx with queues := n.tx.queues.set c rest } }) →
    (∀ m id, e.source = .store m id → ∃ t, exec (.transmissionCompletion l) s = .next t ∧
      EndsAs (u.modLink m (fun n => n.endCopy id)) t) ∧
    (∀ id, e.source = .job id → ∃ t, exec (.transmissionCompletion l) s = .next t ∧
      EndsAs { u with jobs := s.jobs.filter (fun j => j.id ≠ id) } t) ∧
    (∀ i k, e.source = .slot i → s.slot i = some k →
      (k.req = none → 1 < k.copies → ∃ t, exec (.transmissionCompletion l) s = .next t ∧
        EndsAs (u.setSlot i (some { k with copies := k.copies - 1 })) t) ∧
      (k.req = none → k.copies ≤ 1 → ∃ t, exec (.transmissionCompletion l) s = .next t ∧
        EndsAs ((u.setSlot i none).latch .txSpace) t) ∧
      (∀ r, k.req = some r → k.copies ≤ 1 → (s.entry r).state = .queued →
        ((s.entry r).cancelPending = false → ∃ t, exec (.transmissionCompletion l) s = .next t ∧
          EndsAs (((u.setEntry r { s.entry r with
            state := .sent, captured := s.port.reqTimeout, remaining := s.port.reqTimeout, slot := none }).setSlot i
              none).latch .txSpace) t) ∧
        ((s.entry r).cancelPending = true → ∃ t, exec (.transmissionCompletion l) s = .next t ∧
          EndsAs (((((u.setEntry r ((s.entry r).completed .cancelled)).pushCq r).latch .completion).setSlot i
            none).latch .txSpace) t)))

/-- The dispatch and the end of a copy of a stored packet. Dispatched with copies, it is held for them; with none, or at the
end of its last copy, it is released; a count above 1 falls by one. A release on a link that is UP makes the packet's
shared cells, or its class's bit, await return, and where nothing awaited return starts the holdoff timer with CR_HOLDOFF,
which 0 ends at its start; on any other link it returns nothing (R44, R45, R46, R47, R52). `w` is the store after the
release. -/
def Obligations.CopyEnds : Prop :=
  ∀ (n : Link) (id : Nat) (p : StoredPacket), n.store.packet id = some p →
    (∀ copies, n.dispatched id copies = if copies = 0 then n.release id else
      { n with store := { n.store with
        packets := n.store.packets.map
          (fun q => if q.id = id then { q with cond := .dispatched, copies := copies } else q) } }) ∧
    (1 < p.copies → n.endCopy id = { n with store := { n.store with
      packets := n.store.packets.map (fun q => if q.id = id then { q with copies := q.copies - 1 } else q) } }) ∧
    (p.copies ≤ 1 → n.endCopy id = n.release id) ∧
    (n.state ≠ .up → n.release id = { n with store := { n.store with
      packets := n.store.packets.filter (fun q => q.id ≠ id) } }) ∧
    (n.state = .up → ∃ w : Store, n.release id = { n with store := w } ∧
      w.packets = n.store.packets.filter (fun q => q.id ≠ id) ∧ w.nextId = n.store.nextId ∧
      w.awaitShared = (if p.region = .shared then n.store.awaitShared + (1 + p.hdr.len.toNat) else n.store.awaitShared) ∧
      (∀ c, w.awaitRes.get c = (n.store.awaitRes.get c || decide (p.region = .reserved ∧ c = p.hdr.queueClass))) ∧
      (n.store.awaitShared = 0 → n.store.awaitRes = ⟨false, false, false⟩ →
        (n.ctrl.crHoldoff = 0 → w.elapsed = true ∧ w.holdoff = n.store.holdoff) ∧
        (n.ctrl.crHoldoff ≠ 0 → w.holdoff = some n.ctrl.crHoldoff.toNat ∧ w.elapsed = n.store.elapsed)) ∧
      (¬(n.store.awaitShared = 0 ∧ n.store.awaitRes = ⟨false, false, false⟩) →
        w.holdoff = n.store.holdoff ∧ w.elapsed = n.store.elapsed))

/-! ### Laws every step keeps -/

/-- Each law the manual states of the part holds right after reset, the account of copies (R45, R97) among them. -/
def Obligations.LawsHoldAtReset : Prop :=
  (∀ l, (State.reset.link l).store.Lawful ∧ (State.reset.link l).DownLaw ∧ (State.reset.link l).WaitLaw ∧
    (State.reset.link l).TimerLaw ∧ (State.reset.link l).tx.CreditLaw ∧ (State.reset.link l).tx.QueueLaw ∧
    (State.reset.link l).tx.StartedLaw ∧ (State.reset.link l).tx.EntryLaw ∧ (State.reset.link l).tx.RunLaw) ∧
  State.reset.InboundLaw ∧ State.reset.JobLaw ∧ State.reset.SlotLaw ∧ State.reset.CompletionLaw ∧
  State.reset.ConfigLaw ∧ State.reset.CopiesLaw ∧ State.reset.Settled ∧ ∀ k, (State.reset.counter k).Lawful

/-- In every receive store the shared cells held plus those awaiting return never exceed 72, and each reserved region
holds at most one packet, its return bit set only while it is empty (R36, R37). -/
def Obligations.StoreLawKept : Prop :=
  ∀ s t : State, (∀ l, (s.link l).store.Lawful) → step s = .next t → ∀ l, (t.link l).store.Lawful

/-- A link that is not UP has zero credit, empty queues, nothing awaiting return and only dispatched packets in its store;
one in WAIT_PEER an empty store; and each timer runs only in its state (R19, R20, R22, R27, R38, R52, R78). -/
def Obligations.LinkLawKept : Prop :=
  ∀ s t : State, (∀ l, (s.link l).DownLaw ∧ (s.link l).WaitLaw ∧ (s.link l).TimerLaw) → step s = .next t →
    ∀ l, (t.link l).DownLaw ∧ (t.link l).WaitLaw ∧ (t.link l).TimerLaw

/-- A transmitter's shared credit lies in 0–72 and no egress class queue holds more than 16 entries (R38, R77). -/
def Obligations.TransmitterLawKept : Prop :=
  ∀ s t : State, (∀ l, (s.link l).tx.CreditLaw ∧ (s.link l).tx.QueueLaw) → step s = .next t →
    ∀ l, (t.link l).tx.CreditLaw ∧ (t.link l).tx.QueueLaw

/-- At most one packet is in transmission on a link, the head of the current class; entries are whole packets of their
queue's class; and the run count stays within 262 (R79, R81, R85, R179). The premise on links that are not UP rules out
states no run reaches. -/
def Obligations.SchedulerLawKept : Prop :=
  ∀ s t : State, (∀ l, (s.link l).DownLaw ∧ (s.link l).WaitLaw) →
    (∀ l, (s.link l).tx.StartedLaw ∧ (s.link l).tx.EntryLaw ∧ (s.link l).tx.RunLaw) → step s = .next t →
    ∀ l, (t.link l).tx.StartedLaw ∧ (t.link l).tx.EntryLaw ∧ (t.link l).tx.RunLaw

/-- The inbound queue never holds more than 32 entries or 112 payload cells, the responder never more than 4 jobs, and at
most 6 host slots hold REQ or PST packets; a sync counter is never ARMED and FIRED together, an ARMED counter's count is
below its target, and no target is 0; and no configuration field holds a value its write refuses
(R17, R101, R132, R141, R151, R153, R164). -/
def Obligations.HostLawsKept : Prop :=
  ∀ s t : State, step s = .next t →
    (s.InboundLaw → t.InboundLaw) ∧ (s.JobLaw → t.JobLaw) ∧ (s.SlotLaw → t.SlotLaw) ∧
    ((∀ k, (s.counter k).Lawful) → ∀ k, (t.counter k).Lawful) ∧ (s.ConfigLaw → t.ConfigLaw)

/-- The completion queue holds exactly the entries in DONE, each once and so at most 16; entries join its tail, and leave
at CQ_RELEASE, which takes the head, or at a reset, which empties it (R125). -/
def Obligations.CompletionLawKept : Prop :=
  ∀ s t : State, s.CompletionLaw → step s = .next t → t.CompletionLaw ∧ t.cq.length ≤ 16 ∧
    (s.inReset = false → s.pending.head? = some .cqRelease → t.cq = s.cq.tail) ∧
    (s.inReset = false → s.pending.head? = some .softReset → t.cq = []) ∧
    (s.pending.head? = some .powerOnReset → t.cq = []) ∧
    ((∀ c ∈ s.pending.head?, c.wellFormed = true ∧ c ≠ .cqRelease ∧ c ≠ .softReset ∧ c ≠ .powerOnReset) →
      s.cq <+: t.cq)

/-- The account of copies: every stored packet's copy count is the number of egress entries that name it, started or not,
plus one while it waits for dispatch; every held slot's is the number of entries that name it, and is not 0; a job's is 1,
with one entry once it is sent; every entry names a held source; and an entry of the request table is in QUEUED exactly
while its REQ holds a slot with its one copy on its egress link (R45, R77, R97, R107, R113, R141). The premise on the
completion queue is a law every step keeps. -/
def Obligations.CopyCountsKept : Prop :=
  ∀ s t : State, s.CopiesLaw → s.CompletionLaw → step s = .next t → t.CopiesLaw

/-- Between events no head that could be dispatched waits, no drained link stays in HOLD and no idle lane has anything to
send (R20, R61, R83). The premises are laws every step keeps. -/
def Obligations.NothingLeftWaiting : Prop :=
  ∀ s t : State, s.ConfigLaw → (∀ l, (s.link l).DownLaw) → s.Settled → step s = .next t → t.Settled

/-- A link comes UP by the handshake alone: an INIT with SEEN 1 that carries another node's ID, received in WAIT_PEER; and
LINK is latched then (R24, R27, R34). -/
def Obligations.UpByHandshakeAlone : Prop :=
  ∀ (s t : State) (l : LinkId), step s = .next t → (s.link l).state ≠ .up → (t.link l).state = .up →
    (∃ node, s.pending.head? = some (.initReceived l node true) ∧ node ≠ s.port.node) ∧ (s.link l).state = .waitPeer ∧
      t.events.latch &&& 0x08 ≠ 0

/-- An entry's tag is its index plus 16 times its generation, and its generation advances by one each time the entry
returns to FREE and at no other event but power-on reset (R112). The premise is a law every step keeps. -/
def Obligations.GenerationAdvances : Prop :=
  (∀ (e : ReqEntry) (r : ReqIx), (e.tag r).toNat = r.val + 16 * e.gen.toNat) ∧
  ∀ (s t : State) (r : ReqIx), s.CompletionLaw → step s = .next t → s.pending.head? ≠ some .powerOnReset →
    if (s.entry r).state ≠ .free ∧ (t.entry r).state = .free then (t.entry r).gen = (s.entry r).gen + 1
    else (t.entry r).gen = (s.entry r).gen

/-- A latched event stays latched until the host clears it or a reset does: only an EVENT write, SOFT_RESET and power-on
reset clear bits of the latch (R169). -/
def Obligations.EventsStayLatched : Prop :=
  ∀ s t : State, step s = .next t →
    (∀ c ∈ s.pending.head?, c.wellFormed = true ∧ (∀ w, c ≠ .eventWrite w) ∧ c ≠ .softReset ∧ c ≠ .powerOnReset) →
    s.events.latch &&& t.events.latch = s.events.latch
end

