-- ==== Sys2Proof/Laws/State.lean ====
section
/-! SUPPORT. One lemma for each field and each named update, and the reads of what an update has written, so that no
later proof unfolds a record update. -/

namespace Sys2Proof.Machine

/-! Reading back what was written. -/

@[simp] theorem State.link_setLink_self (s : State) (l : LinkId) (k : Link) : (s.setLink l k).link l = k := by
  simp [State.link, State.setLink]

theorem State.link_setLink_ne (s : State) (k : Link) {l m : LinkId} (h : m ≠ l) : (s.setLink l k).link m = s.link m := by
  have h' : l.val ≠ m.val := fun e => h (Fin.ext e.symm)
  simp [State.link, State.setLink, h']

theorem State.link_setLink (s : State) (l m : LinkId) (k : Link) :
    (s.setLink l k).link m = if m = l then k else s.link m := by
  by_cases h : m = l
  · subst h; simp
  · simp [State.link_setLink_ne s k h, h]

@[simp] theorem State.link_modLink_self (s : State) (l : LinkId) (f : Link → Link) :
    (s.modLink l f).link l = f (s.link l) := by
  simp [State.modLink]

theorem State.link_modLink_ne (s : State) (f : Link → Link) {l m : LinkId} (h : m ≠ l) :
    (s.modLink l f).link m = s.link m := by
  simp [State.modLink, State.link_setLink_ne s _ h]

theorem State.link_modLink (s : State) (l m : LinkId) (f : Link → Link) :
    (s.modLink l f).link m = if m = l then f (s.link m) else s.link m := by
  by_cases h : m = l
  · subst h; simp
  · simp [State.link_modLink_ne s f h, h]

theorem State.slot_setSlot (s : State) (i j : SlotIx) (x : Option Slot) :
    (s.setSlot i x).slot j = if j = i then x else s.slot j := by
  by_cases h : j = i
  · subst h; simp [State.slot, State.setSlot]
  · have h' : i.val ≠ j.val := fun e => h (Fin.ext e.symm)
    simp [State.slot, State.setSlot, h, h']

theorem State.entry_setEntry (s : State) (r q : ReqIx) (e : ReqEntry) :
    (s.setEntry r e).entry q = if q = r then e else s.entry q := by
  by_cases h : q = r
  · subst h; simp [State.entry, State.setEntry]
  · have h' : r.val ≠ q.val := fun e => h (Fin.ext e.symm)
    simp [State.entry, State.setEntry, h, h']

theorem State.counter_setCounter (s : State) (k j : Fin 8) (c : SyncCounter) :
    (s.setCounter k c).counter j = if j = k then c else s.counter j := by
  by_cases h : j = k
  · subst h; simp [State.counter, State.setCounter]
  · have h' : k.val ≠ j.val := fun e => h (Fin.ext e.symm)
    simp [State.counter, State.setCounter, h, h']

theorem State.sent_send (s : State) (l m : LinkId) (cs : List LaneCell) :
    (s.send l cs).sent m = if m = l then s.sent m ++ cs else s.sent m := by
  by_cases h : m = l
  · subst h; simp [State.sent, State.send]
  · have h' : l.val ≠ m.val := fun e => h (Fin.ext e.symm)
    simp [State.sent, State.send, h, h']

@[simp] theorem State.unlessReset_of_released {s : State} (f : State → State) (h : s.inReset = false) :
    s.unlessReset f = f s := by
  simp [State.unlessReset, h]

@[simp] theorem State.unlessReset_of_asserted {s : State} (f : State → State) (h : s.inReset = true) :
    s.unlessReset f = s := by
  simp [State.unlessReset, h]

/-- What holds of the part as it stands and after `f` holds whatever the RESET input. -/
theorem State.unlessReset_of {P : State → Prop} {s : State} {f : State → State} (h : P s) (hf : P (f s)) :
    P (s.unlessReset f) := by
  unfold State.unlessReset; split
  · exact h
  · exact hf

@[simp] theorem State.pushCq_cq (s : State) (r : ReqIx) : (s.pushCq r).cq = s.cq ++ [r] := rfl

@[simp] theorem State.pushInbound_inbound (s : State) (e : InboundEntry) : (s.pushInbound e).inbound = s.inbound ++ [e] := rfl

@[simp] theorem State.setJobs_jobs (s : State) (js : List Job) : (s.setJobs js).jobs = js := rfl

@[simp] theorem State.pushJob_jobs (s : State) (j : Job) : (s.pushJob j).jobs = s.jobs ++ [{ j with id := s.nextJob }] := rfl

@[simp] theorem State.setResult_result (s : State) (c : BitVec 4) (r : ResultCode) :
    (s.setResult c r).port.result = ⟨c, r, 0, 0⟩ := rfl

@[simp] theorem State.latch_latch (s : State) (e : EventBit) : (s.latch e).events.latch = s.events.latch ||| e.mask := rfl

@[simp] theorem State.latch_enable (s : State) (e : EventBit) : (s.latch e).events.enable = s.events.enable := rfl

@[simp] theorem State.drop_latch (s : State) (r : DropReason) (o : Origin) (h : Header) :
    (s.drop r o h).events.latch = s.events.latch ||| EventBit.drop.mask := rfl

@[simp] theorem State.drop_enable (s : State) (r : DropReason) (o : Origin) (h : Header) :
    (s.drop r o h).events.enable = s.events.enable := rfl

@[simp] theorem State.setPosition_position (s : State) (p : Fin 13) : (s.setPosition p).route.position = p := rfl

@[simp] theorem State.setPosition_routes (s : State) (p : Fin 13) : (s.setPosition p).route.routes = s.route.routes := rfl

@[simp] theorem State.setPosition_groups (s : State) (p : Fin 13) : (s.setPosition p).route.groups = s.route.groups := rfl

@[simp] theorem State.setPosition_routeSel (s : State) (p : Fin 13) : (s.setPosition p).route.routeSel = s.route.routeSel := rfl

@[simp] theorem State.setPosition_groupSel (s : State) (p : Fin 13) : (s.setPosition p).route.groupSel = s.route.groupSel := rfl

@[simp] theorem PerClass.get_set_self {α : Type} (p : PerClass α) (c : Class) (x : α) : (p.set c x).get c = x := by
  cases c <;> rfl

theorem PerClass.get_set {α : Type} (p : PerClass α) (c d : Class) (x : α) :
    (p.set c x).get d = if d = c then x else p.get d := by
  cases c <;> cases d <;> rfl

@[simp] theorem PerClass.get_all {α : Type} (c : Class) (x : α) : (PerClass.all x).get c = x := by
  cases c <;> rfl

@[simp] theorem PerClass.get_map {α β : Type} (f : α → β) (p : PerClass α) (c : Class) : (p.map f).get c = f (p.get c) := by
  cases c <;> rfl

/-! `State.setLink`: the fields it leaves alone. -/

@[simp] theorem State.setLink_inReset (s : State) (l : LinkId) (k : Link) : (s.setLink l k).inReset = s.inReset := rfl
@[simp] theorem State.setLink_port (s : State) (l : LinkId) (k : Link) : (s.setLink l k).port = s.port := rfl
@[simp] theorem State.setLink_events (s : State) (l : LinkId) (k : Link) : (s.setLink l k).events = s.events := rfl
@[simp] theorem State.setLink_route (s : State) (l : LinkId) (k : Link) : (s.setLink l k).route = s.route := rfl
@[simp] theorem State.setLink_slots (s : State) (l : LinkId) (k : Link) : (s.setLink l k).slots = s.slots := rfl
@[simp] theorem State.setLink_reqs (s : State) (l : LinkId) (k : Link) : (s.setLink l k).reqs = s.reqs := rfl
@[simp] theorem State.setLink_cq (s : State) (l : LinkId) (k : Link) : (s.setLink l k).cq = s.cq := rfl
@[simp] theorem State.setLink_inbound (s : State) (l : LinkId) (k : Link) : (s.setLink l k).inbound = s.inbound := rfl
@[simp] theorem State.setLink_jobs (s : State) (l : LinkId) (k : Link) : (s.setLink l k).jobs = s.jobs := rfl
@[simp] theorem State.setLink_nextJob (s : State) (l : LinkId) (k : Link) : (s.setLink l k).nextJob = s.nextJob := rfl
@[simp] theorem State.setLink_sync (s : State) (l : LinkId) (k : Link) : (s.setLink l k).sync = s.sync := rfl
@[simp] theorem State.setLink_divider (s : State) (l : LinkId) (k : Link) : (s.setLink l k).divider = s.divider := rfl
@[simp] theorem State.setLink_lane (s : State) (l : LinkId) (k : Link) : (s.setLink l k).lane = s.lane := rfl
@[simp] theorem State.setLink_choices (s : State) (l : LinkId) (k : Link) : (s.setLink l k).choices = s.choices := rfl
@[simp] theorem State.setLink_pending (s : State) (l : LinkId) (k : Link) : (s.setLink l k).pending = s.pending := rfl
@[simp] theorem State.setLink_slot (s : State) (l : LinkId) (k : Link) (j : SlotIx) : (s.setLink l k).slot j = s.slot j := rfl
@[simp] theorem State.setLink_entry (s : State) (l : LinkId) (k : Link) (q : ReqIx) : (s.setLink l k).entry q = s.entry q := rfl
@[simp] theorem State.setLink_counter (s : State) (l : LinkId) (k : Link) (j : Fin 8) : (s.setLink l k).counter j = s.counter j := rfl
@[simp] theorem State.setLink_sent (s : State) (l : LinkId) (k : Link) (m : LinkId) : (s.setLink l k).sent m = s.sent m := rfl
@[simp] theorem State.setLink_routeFor (s : State) (l : LinkId) (k : Link) (n : NodeId) : (s.setLink l k).routeFor n = s.routeFor n := rfl
@[simp] theorem State.setLink_groupFor (s : State) (l : LinkId) (k : Link) (g : BitVec 3) : (s.setLink l k).groupFor g = s.groupFor g := rfl
@[simp] theorem State.setLink_job (s : State) (l : LinkId) (k : Link) (id : Nat) : (s.setLink l k).job id = s.job id := rfl
@[simp] theorem State.setLink_jobHead (s : State) (l : LinkId) (k : Link) : (s.setLink l k).jobHead = s.jobHead := rfl
@[simp] theorem State.setLink_inboundCells (s : State) (l : LinkId) (k : Link) : (s.setLink l k).inboundCells = s.inboundCells := rfl
@[simp] theorem State.setLink_freeSlots (s : State) (l : LinkId) (k : Link) : (s.setLink l k).freeSlots = s.freeSlots := rfl
@[simp] theorem State.setLink_entriesInUse (s : State) (l : LinkId) (k : Link) : (s.setLink l k).entriesInUse = s.entriesInUse := rfl

/-! `State.modLink`: the fields it leaves alone. -/

@[simp] theorem State.modLink_inReset (s : State) (l : LinkId) (f : Link → Link) : (s.modLink l f).inReset = s.inReset := rfl
@[simp] theorem State.modLink_port (s : State) (l : LinkId) (f : Link → Link) : (s.modLink l f).port = s.port := rfl
@[simp] theorem State.modLink_events (s : State) (l : LinkId) (f : Link → Link) : (s.modLink l f).events = s.events := rfl
@[simp] theorem State.modLink_route (s : State) (l : LinkId) (f : Link → Link) : (s.modLink l f).route = s.route := rfl
@[simp] theorem State.modLink_slots (s : State) (l : LinkId) (f : Link → Link) : (s.modLink l f).slots = s.slots := rfl
@[simp] theorem State.modLink_reqs (s : State) (l : LinkId) (f : Link → Link) : (s.modLink l f).reqs = s.reqs := rfl
@[simp] theorem State.modLink_cq (s : State) (l : LinkId) (f : Link → Link) : (s.modLink l f).cq = s.cq := rfl
@[simp] theorem State.modLink_inbound (s : State) (l : LinkId) (f : Link → Link) : (s.modLink l f).inbound = s.inbound := rfl
@[simp] theorem State.modLink_jobs (s : State) (l : LinkId) (f : Link → Link) : (s.modLink l f).jobs = s.jobs := rfl
@[simp] theorem State.modLink_nextJob (s : State) (l : LinkId) (f : Link → Link) : (s.modLink l f).nextJob = s.nextJob := rfl
@[simp] theorem State.modLink_sync (s : State) (l : LinkId) (f : Link → Link) : (s.modLink l f).sync = s.sync := rfl
@[simp] theorem State.modLink_divider (s : State) (l : LinkId) (f : Link → Link) : (s.modLink l f).divider = s.divider := rfl
@[simp] theorem State.modLink_lane (s : State) (l : LinkId) (f : Link → Link) : (s.modLink l f).lane = s.lane := rfl
@[simp] theorem State.modLink_choices (s : State) (l : LinkId) (f : Link → Link) : (s.modLink l f).choices = s.choices := rfl
@[simp] theorem State.modLink_pending (s : State) (l : LinkId) (f : Link → Link) : (s.modLink l f).pending = s.pending := rfl
@[simp] theorem State.modLink_slot (s : State) (l : LinkId) (f : Link → Link) (j : SlotIx) : (s.modLink l f).slot j = s.slot j := rfl
@[simp] theorem State.modLink_entry (s : State) (l : LinkId) (f : Link → Link) (q : ReqIx) : (s.modLink l f).entry q = s.entry q := rfl
@[simp] theorem State.modLink_counter (s : State) (l : LinkId) (f : Link → Link) (j : Fin 8) : (s.modLink l f).counter j = s.counter j := rfl
@[simp] theorem State.modLink_sent (s : State) (l : LinkId) (f : Link → Link) (m : LinkId) : (s.modLink l f).sent m = s.sent m := rfl
@[simp] theorem State.modLink_routeFor (s : State) (l : LinkId) (f : Link → Link) (n : NodeId) : (s.modLink l f).routeFor n = s.routeFor n := rfl
@[simp] theorem State.modLink_groupFor (s : State) (l : LinkId) (f : Link → Link) (g : BitVec 3) : (s.modLink l f).groupFor g = s.groupFor g := rfl
@[simp] theorem State.modLink_job (s : State) (l : LinkId) (f : Link → Link) (id : Nat) : (s.modLink l f).job id = s.job id := rfl
@[simp] theorem State.modLink_jobHead (s : State) (l : LinkId) (f : Link → Link) : (s.modLink l f).jobHead = s.jobHead := rfl
@[simp] theorem State.modLink_inboundCells (s : State) (l : LinkId) (f : Link → Link) : (s.modLink l f).inboundCells = s.inboundCells := rfl
@[simp] theorem State.modLink_freeSlots (s : State) (l : LinkId) (f : Link → Link) : (s.modLink l f).freeSlots = s.freeSlots := rfl
@[simp] theorem State.modLink_entriesInUse (s : State) (l : LinkId) (f : Link → Link) : (s.modLink l f).entriesInUse = s.entriesInUse := rfl

/-! `State.setSlot`: the fields it leaves alone. -/

@[simp] theorem State.setSlot_inReset (s : State) (i : SlotIx) (x : Option Slot) : (s.setSlot i x).inReset = s.inReset := rfl
@[simp] theorem State.setSlot_port (s : State) (i : SlotIx) (x : Option Slot) : (s.setSlot i x).port = s.port := rfl
@[simp] theorem State.setSlot_events (s : State) (i : SlotIx) (x : Option Slot) : (s.setSlot i x).events = s.events := rfl
@[simp] theorem State.setSlot_route (s : State) (i : SlotIx) (x : Option Slot) : (s.setSlot i x).route = s.route := rfl
@[simp] theorem State.setSlot_links (s : State) (i : SlotIx) (x : Option Slot) : (s.setSlot i x).links = s.links := rfl
@[simp] theorem State.setSlot_reqs (s : State) (i : SlotIx) (x : Option Slot) : (s.setSlot i x).reqs = s.reqs := rfl
@[simp] theorem State.setSlot_cq (s : State) (i : SlotIx) (x : Option Slot) : (s.setSlot i x).cq = s.cq := rfl
@[simp] theorem State.setSlot_inbound (s : State) (i : SlotIx) (x : Option Slot) : (s.setSlot i x).inbound = s.inbound := rfl
@[simp] theorem State.setSlot_jobs (s : State) (i : SlotIx) (x : Option Slot) : (s.setSlot i x).jobs = s.jobs := rfl
@[simp] theorem State.setSlot_nextJob (s : State) (i : SlotIx) (x : Option Slot) : (s.setSlot i x).nextJob = s.nextJob := rfl
@[simp] theorem State.setSlot_sync (s : State) (i : SlotIx) (x : Option Slot) : (s.setSlot i x).sync = s.sync := rfl
@[simp] theorem State.setSlot_divider (s : State) (i : SlotIx) (x : Option Slot) : (s.setSlot i x).divider = s.divider := rfl
@[simp] theorem State.setSlot_lane (s : State) (i : SlotIx) (x : Option Slot) : (s.setSlot i x).lane = s.lane := rfl
@[simp] theorem State.setSlot_choices (s : State) (i : SlotIx) (x : Option Slot) : (s.setSlot i x).choices = s.choices := rfl
@[simp] theorem State.setSlot_pending (s : State) (i : SlotIx) (x : Option Slot) : (s.setSlot i x).pending = s.pending := rfl
@[simp] theorem State.setSlot_link (s : State) (i : SlotIx) (x : Option Slot) (m : LinkId) : (s.setSlot i x).link m = s.link m := rfl
@[simp] theorem State.setSlot_entry (s : State) (i : SlotIx) (x : Option Slot) (q : ReqIx) : (s.setSlot i x).entry q = s.entry q := rfl
@[simp] theorem State.setSlot_counter (s : State) (i : SlotIx) (x : Option Slot) (j : Fin 8) : (s.setSlot i x).counter j = s.counter j := rfl
@[simp] theorem State.setSlot_sent (s : State) (i : SlotIx) (x : Option Slot) (m : LinkId) : (s.setSlot i x).sent m = s.sent m := rfl
@[simp] theorem State.setSlot_routeFor (s : State) (i : SlotIx) (x : Option Slot) (n : NodeId) : (s.setSlot i x).routeFor n = s.routeFor n := rfl
@[simp] theorem State.setSlot_groupFor (s : State) (i : SlotIx) (x : Option Slot) (g : BitVec 3) : (s.setSlot i x).groupFor g = s.groupFor g := rfl
@[simp] theorem State.setSlot_job (s : State) (i : SlotIx) (x : Option Slot) (id : Nat) : (s.setSlot i x).job id = s.job id := rfl
@[simp] theorem State.setSlot_jobHead (s : State) (i : SlotIx) (x : Option Slot) : (s.setSlot i x).jobHead = s.jobHead := rfl
@[simp] theorem State.setSlot_inboundCells (s : State) (i : SlotIx) (x : Option Slot) : (s.setSlot i x).inboundCells = s.inboundCells := rfl
@[simp] theorem State.setSlot_entriesInUse (s : State) (i : SlotIx) (x : Option Slot) : (s.setSlot i x).entriesInUse = s.entriesInUse := rfl

/-! `State.setEntry`: the fields it leaves alone. -/

@[simp] theorem State.setEntry_inReset (s : State) (r : ReqIx) (e : ReqEntry) : (s.setEntry r e).inReset = s.inReset := rfl
@[simp] theorem State.setEntry_port (s : State) (r : ReqIx) (e : ReqEntry) : (s.setEntry r e).port = s.port := rfl
@[simp] theorem State.setEntry_events (s : State) (r : ReqIx) (e : ReqEntry) : (s.setEntry r e).events = s.events := rfl
@[simp] theorem State.setEntry_route (s : State) (r : ReqIx) (e : ReqEntry) : (s.setEntry r e).route = s.route := rfl
@[simp] theorem State.setEntry_links (s : State) (r : ReqIx) (e : ReqEntry) : (s.setEntry r e).links = s.links := rfl
@[simp] theorem State.setEntry_slots (s : State) (r : ReqIx) (e : ReqEntry) : (s.setEntry r e).slots = s.slots := rfl
@[simp] theorem State.setEntry_cq (s : State) (r : ReqIx) (e : ReqEntry) : (s.setEntry r e).cq = s.cq := rfl
@[simp] theorem State.setEntry_inbound (s : State) (r : ReqIx) (e : ReqEntry) : (s.setEntry r e).inbound = s.inbound := rfl
@[simp] theorem State.setEntry_jobs (s : State) (r : ReqIx) (e : ReqEntry) : (s.setEntry r e).jobs = s.jobs := rfl
@[simp] theorem State.setEntry_nextJob (s : State) (r : ReqIx) (e : ReqEntry) : (s.setEntry r e).nextJob = s.nextJob := rfl
@[simp] theorem State.setEntry_sync (s : State) (r : ReqIx) (e : ReqEntry) : (s.setEntry r e).sync = s.sync := rfl
@[simp] theorem State.setEntry_divider (s : State) (r : ReqIx) (e : ReqEntry) : (s.setEntry r e).divider = s.divider := rfl
@[simp] theorem State.setEntry_lane (s : State) (r : ReqIx) (e : ReqEntry) : (s.setEntry r e).lane = s.lane := rfl
@[simp] theorem State.setEntry_choices (s : State) (r : ReqIx) (e : ReqEntry) : (s.setEntry r e).choices = s.choices := rfl
@[simp] theorem State.setEntry_pending (s : State) (r : ReqIx) (e : ReqEntry) : (s.setEntry r e).pending = s.pending := rfl
@[simp] theorem State.setEntry_link (s : State) (r : ReqIx) (e : ReqEntry) (m : LinkId) : (s.setEntry r e).link m = s.link m := rfl
@[simp] theorem State.setEntry_slot (s : State) (r : ReqIx) (e : ReqEntry) (j : SlotIx) : (s.setEntry r e).slot j = s.slot j := rfl
@[simp] theorem State.setEntry_counter (s : State) (r : ReqIx) (e : ReqEntry) (j : Fin 8) : (s.setEntry r e).counter j = s.counter j := rfl
@[simp] theorem State.setEntry_sent (s : State) (r : ReqIx) (e : ReqEntry) (m : LinkId) : (s.setEntry r e).sent m = s.sent m := rfl
@[simp] theorem State.setEntry_routeFor (s : State) (r : ReqIx) (e : ReqEntry) (n : NodeId) : (s.setEntry r e).routeFor n = s.routeFor n := rfl
@[simp] theorem State.setEntry_groupFor (s : State) (r : ReqIx) (e : ReqEntry) (g : BitVec 3) : (s.setEntry r e).groupFor g = s.groupFor g := rfl
@[simp] theorem State.setEntry_job (s : State) (r : ReqIx) (e : ReqEntry) (id : Nat) : (s.setEntry r e).job id = s.job id := rfl
@[simp] theorem State.setEntry_jobHead (s : State) (r : ReqIx) (e : ReqEntry) : (s.setEntry r e).jobHead = s.jobHead := rfl
@[simp] theorem State.setEntry_inboundCells (s : State) (r : ReqIx) (e : ReqEntry) : (s.setEntry r e).inboundCells = s.inboundCells := rfl
@[simp] theorem State.setEntry_freeSlots (s : State) (r : ReqIx) (e : ReqEntry) : (s.setEntry r e).freeSlots = s.freeSlots := rfl

/-! `State.setCounter`: the fields it leaves alone. -/

@[simp] theorem State.setCounter_inReset (s : State) (k : Fin 8) (c : SyncCounter) : (s.setCounter k c).inReset = s.inReset := rfl
@[simp] theorem State.setCounter_port (s : State) (k : Fin 8) (c : SyncCounter) : (s.setCounter k c).port = s.port := rfl
@[simp] theorem State.setCounter_events (s : State) (k : Fin 8) (c : SyncCounter) : (s.setCounter k c).events = s.events := rfl
@[simp] theorem State.setCounter_route (s : State) (k : Fin 8) (c : SyncCounter) : (s.setCounter k c).route = s.route := rfl
@[simp] theorem State.setCounter_links (s : State) (k : Fin 8) (c : SyncCounter) : (s.setCounter k c).links = s.links := rfl
@[simp] theorem State.setCounter_slots (s : State) (k : Fin 8) (c : SyncCounter) : (s.setCounter k c).slots = s.slots := rfl
@[simp] theorem State.setCounter_reqs (s : State) (k : Fin 8) (c : SyncCounter) : (s.setCounter k c).reqs = s.reqs := rfl
@[simp] theorem State.setCounter_cq (s : State) (k : Fin 8) (c : SyncCounter) : (s.setCounter k c).cq = s.cq := rfl
@[simp] theorem State.setCounter_inbound (s : State) (k : Fin 8) (c : SyncCounter) : (s.setCounter k c).inbound = s.inbound := rfl
@[simp] theorem State.setCounter_jobs (s : State) (k : Fin 8) (c : SyncCounter) : (s.setCounter k c).jobs = s.jobs := rfl
@[simp] theorem State.setCounter_nextJob (s : State) (k : Fin 8) (c : SyncCounter) : (s.setCounter k c).nextJob = s.nextJob := rfl
@[simp] theorem State.setCounter_divider (s : State) (k : Fin 8) (c : SyncCounter) : (s.setCounter k c).divider = s.divider := rfl
@[simp] theorem State.setCounter_lane (s : State) (k : Fin 8) (c : SyncCounter) : (s.setCounter k c).lane = s.lane := rfl
@[simp] theorem State.setCounter_choices (s : State) (k : Fin 8) (c : SyncCounter) : (s.setCounter k c).choices = s.choices := rfl
@[simp] theorem State.setCounter_pending (s : State) (k : Fin 8) (c : SyncCounter) : (s.setCounter k c).pending = s.pending := rfl
@[simp] theorem State.setCounter_link (s : State) (k : Fin 8) (c : SyncCounter) (m : LinkId) : (s.setCounter k c).link m = s.link m := rfl
@[simp] theorem State.setCounter_slot (s : State) (k : Fin 8) (c : SyncCounter) (j : SlotIx) : (s.setCounter k c).slot j = s.slot j := rfl
@[simp] theorem State.setCounter_entry (s : State) (k : Fin 8) (c : SyncCounter) (q : ReqIx) : (s.setCounter k c).entry q = s.entry q := rfl
@[simp] theorem State.setCounter_sent (s : State) (k : Fin 8) (c : SyncCounter) (m : LinkId) : (s.setCounter k c).sent m = s.sent m := rfl
@[simp] theorem State.setCounter_routeFor (s : State) (k : Fin 8) (c : SyncCounter) (n : NodeId) : (s.setCounter k c).routeFor n = s.routeFor n := rfl
@[simp] theorem State.setCounter_groupFor (s : State) (k : Fin 8) (c : SyncCounter) (g : BitVec 3) : (s.setCounter k c).groupFor g = s.groupFor g := rfl
@[simp] theorem State.setCounter_job (s : State) (k : Fin 8) (c : SyncCounter) (id : Nat) : (s.setCounter k c).job id = s.job id := rfl
@[simp] theorem State.setCounter_jobHead (s : State) (k : Fin 8) (c : SyncCounter) : (s.setCounter k c).jobHead = s.jobHead := rfl
@[simp] theorem State.setCounter_inboundCells (s : State) (k : Fin 8) (c : SyncCounter) : (s.setCounter k c).inboundCells = s.inboundCells := rfl
@[simp] theorem State.setCounter_freeSlots (s : State) (k : Fin 8) (c : SyncCounter) : (s.setCounter k c).freeSlots = s.freeSlots := rfl
@[simp] theorem State.setCounter_entriesInUse (s : State) (k : Fin 8) (c : SyncCounter) : (s.setCounter k c).entriesInUse = s.entriesInUse := rfl

/-! `State.send`: the fields it leaves alone. -/

@[simp] theorem State.send_inReset (s : State) (l : LinkId) (cs : List LaneCell) : (s.send l cs).inReset = s.inReset := rfl
@[simp] theorem State.send_port (s : State) (l : LinkId) (cs : List LaneCell) : (s.send l cs).port = s.port := rfl
@[simp] theorem State.send_events (s : State) (l : LinkId) (cs : List LaneCell) : (s.send l cs).events = s.events := rfl
@[simp] theorem State.send_route (s : State) (l : LinkId) (cs : List LaneCell) : (s.send l cs).route = s.route := rfl
@[simp] theorem State.send_links (s : State) (l : LinkId) (cs : List LaneCell) : (s.send l cs).links = s.links := rfl
@[simp] theorem State.send_slots (s : State) (l : LinkId) (cs : List LaneCell) : (s.send l cs).slots = s.slots := rfl
@[simp] theorem State.send_reqs (s : State) (l : LinkId) (cs : List LaneCell) : (s.send l cs).reqs = s.reqs := rfl
@[simp] theorem State.send_cq (s : State) (l : LinkId) (cs : List LaneCell) : (s.send l cs).cq = s.cq := rfl
@[simp] theorem State.send_inbound (s : State) (l : LinkId) (cs : List LaneCell) : (s.send l cs).inbound = s.inbound := rfl
@[simp] theorem State.send_jobs (s : State) (l : LinkId) (cs : List LaneCell) : (s.send l cs).jobs = s.jobs := rfl
@[simp] theorem State.send_nextJob (s : State) (l : LinkId) (cs : List LaneCell) : (s.send l cs).nextJob = s.nextJob := rfl
@[simp] theorem State.send_sync (s : State) (l : LinkId) (cs : List LaneCell) : (s.send l cs).sync = s.sync := rfl
@[simp] theorem State.send_divider (s : State) (l : LinkId) (cs : List LaneCell) : (s.send l cs).divider = s.divider := rfl
@[simp] theorem State.send_choices (s : State) (l : LinkId) (cs : List LaneCell) : (s.send l cs).choices = s.choices := rfl
@[simp] theorem State.send_pending (s : State) (l : LinkId) (cs : List LaneCell) : (s.send l cs).pending = s.pending := rfl
@[simp] theorem State.send_link (s : State) (l : LinkId) (cs : List LaneCell) (m : LinkId) : (s.send l cs).link m = s.link m := rfl
@[simp] theorem State.send_slot (s : State) (l : LinkId) (cs : List LaneCell) (j : SlotIx) : (s.send l cs).slot j = s.slot j := rfl
@[simp] theorem State.send_entry (s : State) (l : LinkId) (cs : List LaneCell) (q : ReqIx) : (s.send l cs).entry q = s.entry q := rfl
@[simp] theorem State.send_counter (s : State) (l : LinkId) (cs : List LaneCell) (j : Fin 8) : (s.send l cs).counter j = s.counter j := rfl
@[simp] theorem State.send_routeFor (s : State) (l : LinkId) (cs : List LaneCell) (n : NodeId) : (s.send l cs).routeFor n = s.routeFor n := rfl
@[simp] theorem State.send_groupFor (s : State) (l : LinkId) (cs : List LaneCell) (g : BitVec 3) : (s.send l cs).groupFor g = s.groupFor g := rfl
@[simp] theorem State.send_job (s : State) (l : LinkId) (cs : List LaneCell) (id : Nat) : (s.send l cs).job id = s.job id := rfl
@[simp] theorem State.send_jobHead (s : State) (l : LinkId) (cs : List LaneCell) : (s.send l cs).jobHead = s.jobHead := rfl
@[simp] theorem State.send_inboundCells (s : State) (l : LinkId) (cs : List LaneCell) : (s.send l cs).inboundCells = s.inboundCells := rfl
@[simp] theorem State.send_freeSlots (s : State) (l : LinkId) (cs : List LaneCell) : (s.send l cs).freeSlots = s.freeSlots := rfl
@[simp] theorem State.send_entriesInUse (s : State) (l : LinkId) (cs : List LaneCell) : (s.send l cs).entriesInUse = s.entriesInUse := rfl

/-! `State.pushCq`: the fields it leaves alone. -/

@[simp] theorem State.pushCq_inReset (s : State) (r : ReqIx) : (s.pushCq r).inReset = s.inReset := rfl
@[simp] theorem State.pushCq_port (s : State) (r : ReqIx) : (s.pushCq r).port = s.port := rfl
@[simp] theorem State.pushCq_events (s : State) (r : ReqIx) : (s.pushCq r).events = s.events := rfl
@[simp] theorem State.pushCq_route (s : State) (r : ReqIx) : (s.pushCq r).route = s.route := rfl
@[simp] theorem State.pushCq_links (s : State) (r : ReqIx) : (s.pushCq r).links = s.links := rfl
@[simp] theorem State.pushCq_slots (s : State) (r : ReqIx) : (s.pushCq r).slots = s.slots := rfl
@[simp] theorem State.pushCq_reqs (s : State) (r : ReqIx) : (s.pushCq r).reqs = s.reqs := rfl
@[simp] theorem State.pushCq_inbound (s : State) (r : ReqIx) : (s.pushCq r).inbound = s.inbound := rfl
@[simp] theorem State.pushCq_jobs (s : State) (r : ReqIx) : (s.pushCq r).jobs = s.jobs := rfl
@[simp] theorem State.pushCq_nextJob (s : State) (r : ReqIx) : (s.pushCq r).nextJob = s.nextJob := rfl
@[simp] theorem State.pushCq_sync (s : State) (r : ReqIx) : (s.pushCq r).sync = s.sync := rfl
@[simp] theorem State.pushCq_divider (s : State) (r : ReqIx) : (s.pushCq r).divider = s.divider := rfl
@[simp] theorem State.pushCq_lane (s : State) (r : ReqIx) : (s.pushCq r).lane = s.lane := rfl
@[simp] theorem State.pushCq_choices (s : State) (r : ReqIx) : (s.pushCq r).choices = s.choices := rfl
@[simp] theorem State.pushCq_pending (s : State) (r : ReqIx) : (s.pushCq r).pending = s.pending := rfl
@[simp] theorem State.pushCq_link (s : State) (r : ReqIx) (m : LinkId) : (s.pushCq r).link m = s.link m := rfl
@[simp] theorem State.pushCq_slot (s : State) (r : ReqIx) (j : SlotIx) : (s.pushCq r).slot j = s.slot j := rfl
@[simp] theorem State.pushCq_entry (s : State) (r : ReqIx) (q : ReqIx) : (s.pushCq r).entry q = s.entry q := rfl
@[simp] theorem State.pushCq_counter (s : State) (r : ReqIx) (j : Fin 8) : (s.pushCq r).counter j = s.counter j := rfl
@[simp] theorem State.pushCq_sent (s : State) (r : ReqIx) (m : LinkId) : (s.pushCq r).sent m = s.sent m := rfl
@[simp] theorem State.pushCq_routeFor (s : State) (r : ReqIx) (n : NodeId) : (s.pushCq r).routeFor n = s.routeFor n := rfl
@[simp] theorem State.pushCq_groupFor (s : State) (r : ReqIx) (g : BitVec 3) : (s.pushCq r).groupFor g = s.groupFor g := rfl
@[simp] theorem State.pushCq_job (s : State) (r : ReqIx) (id : Nat) : (s.pushCq r).job id = s.job id := rfl
@[simp] theorem State.pushCq_jobHead (s : State) (r : ReqIx) : (s.pushCq r).jobHead = s.jobHead := rfl
@[simp] theorem State.pushCq_inboundCells (s : State) (r : ReqIx) : (s.pushCq r).inboundCells = s.inboundCells := rfl
@[simp] theorem State.pushCq_freeSlots (s : State) (r : ReqIx) : (s.pushCq r).freeSlots = s.freeSlots := rfl
@[simp] theorem State.pushCq_entriesInUse (s : State) (r : ReqIx) : (s.pushCq r).entriesInUse = s.entriesInUse := rfl

/-! `State.pushInbound`: the fields it leaves alone. -/

@[simp] theorem State.pushInbound_inReset (s : State) (e : InboundEntry) : (s.pushInbound e).inReset = s.inReset := rfl
@[simp] theorem State.pushInbound_port (s : State) (e : InboundEntry) : (s.pushInbound e).port = s.port := rfl
@[simp] theorem State.pushInbound_events (s : State) (e : InboundEntry) : (s.pushInbound e).events = s.events := rfl
@[simp] theorem State.pushInbound_route (s : State) (e : InboundEntry) : (s.pushInbound e).route = s.route := rfl
@[simp] theorem State.pushInbound_links (s : State) (e : InboundEntry) : (s.pushInbound e).links = s.links := rfl
@[simp] theorem State.pushInbound_slots (s : State) (e : InboundEntry) : (s.pushInbound e).slots = s.slots := rfl
@[simp] theorem State.pushInbound_reqs (s : State) (e : InboundEntry) : (s.pushInbound e).reqs = s.reqs := rfl
@[simp] theorem State.pushInbound_cq (s : State) (e : InboundEntry) : (s.pushInbound e).cq = s.cq := rfl
@[simp] theorem State.pushInbound_jobs (s : State) (e : InboundEntry) : (s.pushInbound e).jobs = s.jobs := rfl
@[simp] theorem State.pushInbound_nextJob (s : State) (e : InboundEntry) : (s.pushInbound e).nextJob = s.nextJob := rfl
@[simp] theorem State.pushInbound_sync (s : State) (e : InboundEntry) : (s.pushInbound e).sync = s.sync := rfl
@[simp] theorem State.pushInbound_divider (s : State) (e : InboundEntry) : (s.pushInbound e).divider = s.divider := rfl
@[simp] theorem State.pushInbound_lane (s : State) (e : InboundEntry) : (s.pushInbound e).lane = s.lane := rfl
@[simp] theorem State.pushInbound_choices (s : State) (e : InboundEntry) : (s.pushInbound e).choices = s.choices := rfl
@[simp] theorem State.pushInbound_pending (s : State) (e : InboundEntry) : (s.pushInbound e).pending = s.pending := rfl
@[simp] theorem State.pushInbound_link (s : State) (e : InboundEntry) (m : LinkId) : (s.pushInbound e).link m = s.link m := rfl
@[simp] theorem State.pushInbound_slot (s : State) (e : InboundEntry) (j : SlotIx) : (s.pushInbound e).slot j = s.slot j := rfl
@[simp] theorem State.pushInbound_entry (s : State) (e : InboundEntry) (q : ReqIx) : (s.pushInbound e).entry q = s.entry q := rfl
@[simp] theorem State.pushInbound_counter (s : State) (e : InboundEntry) (j : Fin 8) : (s.pushInbound e).counter j = s.counter j := rfl
@[simp] theorem State.pushInbound_sent (s : State) (e : InboundEntry) (m : LinkId) : (s.pushInbound e).sent m = s.sent m := rfl
@[simp] theorem State.pushInbound_routeFor (s : State) (e : InboundEntry) (n : NodeId) : (s.pushInbound e).routeFor n = s.routeFor n := rfl
@[simp] theorem State.pushInbound_groupFor (s : State) (e : InboundEntry) (g : BitVec 3) : (s.pushInbound e).groupFor g = s.groupFor g := rfl
@[simp] theorem State.pushInbound_job (s : State) (e : InboundEntry) (id : Nat) : (s.pushInbound e).job id = s.job id := rfl
@[simp] theorem State.pushInbound_jobHead (s : State) (e : InboundEntry) : (s.pushInbound e).jobHead = s.jobHead := rfl
@[simp] theorem State.pushInbound_freeSlots (s : State) (e : InboundEntry) : (s.pushInbound e).freeSlots = s.freeSlots := rfl
@[simp] theorem State.pushInbound_entriesInUse (s : State) (e : InboundEntry) : (s.pushInbound e).entriesInUse = s.entriesInUse := rfl

/-! `State.setJobs`: the fields it leaves alone. -/

@[simp] theorem State.setJobs_inReset (s : State) (js : List Job) : (s.setJobs js).inReset = s.inReset := rfl
@[simp] theorem State.setJobs_port (s : State) (js : List Job) : (s.setJobs js).port = s.port := rfl
@[simp] theorem State.setJobs_events (s : State) (js : List Job) : (s.setJobs js).events = s.events := rfl
@[simp] theorem State.setJobs_route (s : State) (js : List Job) : (s.setJobs js).route = s.route := rfl
@[simp] theorem State.setJobs_links (s : State) (js : List Job) : (s.setJobs js).links = s.links := rfl
@[simp] theorem State.setJobs_slots (s : State) (js : List Job) : (s.setJobs js).slots = s.slots := rfl
@[simp] theorem State.setJobs_reqs (s : State) (js : List Job) : (s.setJobs js).reqs = s.reqs := rfl
@[simp] theorem State.setJobs_cq (s : State) (js : List Job) : (s.setJobs js).cq = s.cq := rfl
@[simp] theorem State.setJobs_inbound (s : State) (js : List Job) : (s.setJobs js).inbound = s.inbound := rfl
@[simp] theorem State.setJobs_nextJob (s : State) (js : List Job) : (s.setJobs js).nextJob = s.nextJob := rfl
@[simp] theorem State.setJobs_sync (s : State) (js : List Job) : (s.setJobs js).sync = s.sync := rfl
@[simp] theorem State.setJobs_divider (s : State) (js : List Job) : (s.setJobs js).divider = s.divider := rfl
@[simp] theorem State.setJobs_lane (s : State) (js : List Job) : (s.setJobs js).lane = s.lane := rfl
@[simp] theorem State.setJobs_choices (s : State) (js : List Job) : (s.setJobs js).choices = s.choices := rfl
@[simp] theorem State.setJobs_pending (s : State) (js : List Job) : (s.setJobs js).pending = s.pending := rfl
@[simp] theorem State.setJobs_link (s : State) (js : List Job) (m : LinkId) : (s.setJobs js).link m = s.link m := rfl
@[simp] theorem State.setJobs_slot (s : State) (js : List Job) (j : SlotIx) : (s.setJobs js).slot j = s.slot j := rfl
@[simp] theorem State.setJobs_entry (s : State) (js : List Job) (q : ReqIx) : (s.setJobs js).entry q = s.entry q := rfl
@[simp] theorem State.setJobs_counter (s : State) (js : List Job) (j : Fin 8) : (s.setJobs js).counter j = s.counter j := rfl
@[simp] theorem State.setJobs_sent (s : State) (js : List Job) (m : LinkId) : (s.setJobs js).sent m = s.sent m := rfl
@[simp] theorem State.setJobs_routeFor (s : State) (js : List Job) (n : NodeId) : (s.setJobs js).routeFor n = s.routeFor n := rfl
@[simp] theorem State.setJobs_groupFor (s : State) (js : List Job) (g : BitVec 3) : (s.setJobs js).groupFor g = s.groupFor g := rfl
@[simp] theorem State.setJobs_inboundCells (s : State) (js : List Job) : (s.setJobs js).inboundCells = s.inboundCells := rfl
@[simp] theorem State.setJobs_freeSlots (s : State) (js : List Job) : (s.setJobs js).freeSlots = s.freeSlots := rfl
@[simp] theorem State.setJobs_entriesInUse (s : State) (js : List Job) : (s.setJobs js).entriesInUse = s.entriesInUse := rfl

/-! `State.pushJob`: the fields it leaves alone. -/

@[simp] theorem State.pushJob_inReset (s : State) (x : Job) : (s.pushJob x).inReset = s.inReset := rfl
@[simp] theorem State.pushJob_port (s : State) (x : Job) : (s.pushJob x).port = s.port := rfl
@[simp] theorem State.pushJob_events (s : State) (x : Job) : (s.pushJob x).events = s.events := rfl
@[simp] theorem State.pushJob_route (s : State) (x : Job) : (s.pushJob x).route = s.route := rfl
@[simp] theorem State.pushJob_links (s : State) (x : Job) : (s.pushJob x).links = s.links := rfl
@[simp] theorem State.pushJob_slots (s : State) (x : Job) : (s.pushJob x).slots = s.slots := rfl
@[simp] theorem State.pushJob_reqs (s : State) (x : Job) : (s.pushJob x).reqs = s.reqs := rfl
@[simp] theorem State.pushJob_cq (s : State) (x : Job) : (s.pushJob x).cq = s.cq := rfl
@[simp] theorem State.pushJob_inbound (s : State) (x : Job) : (s.pushJob x).inbound = s.inbound := rfl
@[simp] theorem State.pushJob_sync (s : State) (x : Job) : (s.pushJob x).sync = s.sync := rfl
@[simp] theorem State.pushJob_divider (s : State) (x : Job) : (s.pushJob x).divider = s.divider := rfl
@[simp] theorem State.pushJob_lane (s : State) (x : Job) : (s.pushJob x).lane = s.lane := rfl
@[simp] theorem State.pushJob_choices (s : State) (x : Job) : (s.pushJob x).choices = s.choices := rfl
@[simp] theorem State.pushJob_pending (s : State) (x : Job) : (s.pushJob x).pending = s.pending := rfl
@[simp] theorem State.pushJob_link (s : State) (x : Job) (m : LinkId) : (s.pushJob x).link m = s.link m := rfl
@[simp] theorem State.pushJob_slot (s : State) (x : Job) (j : SlotIx) : (s.pushJob x).slot j = s.slot j := rfl
@[simp] theorem State.pushJob_entry (s : State) (x : Job) (q : ReqIx) : (s.pushJob x).entry q = s.entry q := rfl
@[simp] theorem State.pushJob_counter (s : State) (x : Job) (j : Fin 8) : (s.pushJob x).counter j = s.counter j := rfl
@[simp] theorem State.pushJob_sent (s : State) (x : Job) (m : LinkId) : (s.pushJob x).sent m = s.sent m := rfl
@[simp] theorem State.pushJob_routeFor (s : State) (x : Job) (n : NodeId) : (s.pushJob x).routeFor n = s.routeFor n := rfl
@[simp] theorem State.pushJob_groupFor (s : State) (x : Job) (g : BitVec 3) : (s.pushJob x).groupFor g = s.groupFor g := rfl
@[simp] theorem State.pushJob_inboundCells (s : State) (x : Job) : (s.pushJob x).inboundCells = s.inboundCells := rfl
@[simp] theorem State.pushJob_freeSlots (s : State) (x : Job) : (s.pushJob x).freeSlots = s.freeSlots := rfl
@[simp] theorem State.pushJob_entriesInUse (s : State) (x : Job) : (s.pushJob x).entriesInUse = s.entriesInUse := rfl

/-! `State.setPosition`: the fields it leaves alone. -/

@[simp] theorem State.setPosition_inReset (s : State) (p : Fin 13) : (s.setPosition p).inReset = s.inReset := rfl
@[simp] theorem State.setPosition_port (s : State) (p : Fin 13) : (s.setPosition p).port = s.port := rfl
@[simp] theorem State.setPosition_events (s : State) (p : Fin 13) : (s.setPosition p).events = s.events := rfl
@[simp] theorem State.setPosition_links (s : State) (p : Fin 13) : (s.setPosition p).links = s.links := rfl
@[simp] theorem State.setPosition_slots (s : State) (p : Fin 13) : (s.setPosition p).slots = s.slots := rfl
@[simp] theorem State.setPosition_reqs (s : State) (p : Fin 13) : (s.setPosition p).reqs = s.reqs := rfl
@[simp] theorem State.setPosition_cq (s : State) (p : Fin 13) : (s.setPosition p).cq = s.cq := rfl
@[simp] theorem State.setPosition_inbound (s : State) (p : Fin 13) : (s.setPosition p).inbound = s.inbound := rfl
@[simp] theorem State.setPosition_jobs (s : State) (p : Fin 13) : (s.setPosition p).jobs = s.jobs := rfl
@[simp] theorem State.setPosition_nextJob (s : State) (p : Fin 13) : (s.setPosition p).nextJob = s.nextJob := rfl
@[simp] theorem State.setPosition_sync (s : State) (p : Fin 13) : (s.setPosition p).sync = s.sync := rfl
@[simp] theorem State.setPosition_divider (s : State) (p : Fin 13) : (s.setPosition p).divider = s.divider := rfl
@[simp] theorem State.setPosition_lane (s : State) (p : Fin 13) : (s.setPosition p).lane = s.lane := rfl
@[simp] theorem State.setPosition_choices (s : State) (p : Fin 13) : (s.setPosition p).choices = s.choices := rfl
@[simp] theorem State.setPosition_pending (s : State) (p : Fin 13) : (s.setPosition p).pending = s.pending := rfl
@[simp] theorem State.setPosition_link (s : State) (p : Fin 13) (m : LinkId) : (s.setPosition p).link m = s.link m := rfl
@[simp] theorem State.setPosition_slot (s : State) (p : Fin 13) (j : SlotIx) : (s.setPosition p).slot j = s.slot j := rfl
@[simp] theorem State.setPosition_entry (s : State) (p : Fin 13) (q : ReqIx) : (s.setPosition p).entry q = s.entry q := rfl
@[simp] theorem State.setPosition_counter (s : State) (p : Fin 13) (j : Fin 8) : (s.setPosition p).counter j = s.counter j := rfl
@[simp] theorem State.setPosition_sent (s : State) (p : Fin 13) (m : LinkId) : (s.setPosition p).sent m = s.sent m := rfl
@[simp] theorem State.setPosition_routeFor (s : State) (p : Fin 13) (n : NodeId) : (s.setPosition p).routeFor n = s.routeFor n := rfl
@[simp] theorem State.setPosition_groupFor (s : State) (p : Fin 13) (g : BitVec 3) : (s.setPosition p).groupFor g = s.groupFor g := rfl
@[simp] theorem State.setPosition_job (s : State) (p : Fin 13) (id : Nat) : (s.setPosition p).job id = s.job id := rfl
@[simp] theorem State.setPosition_jobHead (s : State) (p : Fin 13) : (s.setPosition p).jobHead = s.jobHead := rfl
@[simp] theorem State.setPosition_inboundCells (s : State) (p : Fin 13) : (s.setPosition p).inboundCells = s.inboundCells := rfl
@[simp] theorem State.setPosition_freeSlots (s : State) (p : Fin 13) : (s.setPosition p).freeSlots = s.freeSlots := rfl
@[simp] theorem State.setPosition_entriesInUse (s : State) (p : Fin 13) : (s.setPosition p).entriesInUse = s.entriesInUse := rfl

/-! `State.bumpChoices`: the fields it leaves alone. -/

@[simp] theorem State.bumpChoices_inReset (s : State) : (s.bumpChoices).inReset = s.inReset := rfl
@[simp] theorem State.bumpChoices_port (s : State) : (s.bumpChoices).port = s.port := rfl
@[simp] theorem State.bumpChoices_events (s : State) : (s.bumpChoices).events = s.events := rfl
@[simp] theorem State.bumpChoices_route (s : State) : (s.bumpChoices).route = s.route := rfl
@[simp] theorem State.bumpChoices_links (s : State) : (s.bumpChoices).links = s.links := rfl
@[simp] theorem State.bumpChoices_slots (s : State) : (s.bumpChoices).slots = s.slots := rfl
@[simp] theorem State.bumpChoices_reqs (s : State) : (s.bumpChoices).reqs = s.reqs := rfl
@[simp] theorem State.bumpChoices_cq (s : State) : (s.bumpChoices).cq = s.cq := rfl
@[simp] theorem State.bumpChoices_inbound (s : State) : (s.bumpChoices).inbound = s.inbound := rfl
@[simp] theorem State.bumpChoices_jobs (s : State) : (s.bumpChoices).jobs = s.jobs := rfl
@[simp] theorem State.bumpChoices_nextJob (s : State) : (s.bumpChoices).nextJob = s.nextJob := rfl
@[simp] theorem State.bumpChoices_sync (s : State) : (s.bumpChoices).sync = s.sync := rfl
@[simp] theorem State.bumpChoices_divider (s : State) : (s.bumpChoices).divider = s.divider := rfl
@[simp] theorem State.bumpChoices_lane (s : State) : (s.bumpChoices).lane = s.lane := rfl
@[simp] theorem State.bumpChoices_pending (s : State) : (s.bumpChoices).pending = s.pending := rfl
@[simp] theorem State.bumpChoices_link (s : State) (m : LinkId) : (s.bumpChoices).link m = s.link m := rfl
@[simp] theorem State.bumpChoices_slot (s : State) (j : SlotIx) : (s.bumpChoices).slot j = s.slot j := rfl
@[simp] theorem State.bumpChoices_entry (s : State) (q : ReqIx) : (s.bumpChoices).entry q = s.entry q := rfl
@[simp] theorem State.bumpChoices_counter (s : State) (j : Fin 8) : (s.bumpChoices).counter j = s.counter j := rfl
@[simp] theorem State.bumpChoices_sent (s : State) (m : LinkId) : (s.bumpChoices).sent m = s.sent m := rfl
@[simp] theorem State.bumpChoices_routeFor (s : State) (n : NodeId) : (s.bumpChoices).routeFor n = s.routeFor n := rfl
@[simp] theorem State.bumpChoices_groupFor (s : State) (g : BitVec 3) : (s.bumpChoices).groupFor g = s.groupFor g := rfl
@[simp] theorem State.bumpChoices_job (s : State) (id : Nat) : (s.bumpChoices).job id = s.job id := rfl
@[simp] theorem State.bumpChoices_jobHead (s : State) : (s.bumpChoices).jobHead = s.jobHead := rfl
@[simp] theorem State.bumpChoices_inboundCells (s : State) : (s.bumpChoices).inboundCells = s.inboundCells := rfl
@[simp] theorem State.bumpChoices_freeSlots (s : State) : (s.bumpChoices).freeSlots = s.freeSlots := rfl
@[simp] theorem State.bumpChoices_entriesInUse (s : State) : (s.bumpChoices).entriesInUse = s.entriesInUse := rfl

/-! `State.setResult`: the fields it leaves alone. -/

@[simp] theorem State.setResult_inReset (s : State) (c : BitVec 4) (r : ResultCode) : (s.setResult c r).inReset = s.inReset := rfl
@[simp] theorem State.setResult_events (s : State) (c : BitVec 4) (r : ResultCode) : (s.setResult c r).events = s.events := rfl
@[simp] theorem State.setResult_route (s : State) (c : BitVec 4) (r : ResultCode) : (s.setResult c r).route = s.route := rfl
@[simp] theorem State.setResult_links (s : State) (c : BitVec 4) (r : ResultCode) : (s.setResult c r).links = s.links := rfl
@[simp] theorem State.setResult_slots (s : State) (c : BitVec 4) (r : ResultCode) : (s.setResult c r).slots = s.slots := rfl
@[simp] theorem State.setResult_reqs (s : State) (c : BitVec 4) (r : ResultCode) : (s.setResult c r).reqs = s.reqs := rfl
@[simp] theorem State.setResult_cq (s : State) (c : BitVec 4) (r : ResultCode) : (s.setResult c r).cq = s.cq := rfl
@[simp] theorem State.setResult_inbound (s : State) (c : BitVec 4) (r : ResultCode) : (s.setResult c r).inbound = s.inbound := rfl
@[simp] theorem State.setResult_jobs (s : State) (c : BitVec 4) (r : ResultCode) : (s.setResult c r).jobs = s.jobs := rfl
@[simp] theorem State.setResult_nextJob (s : State) (c : BitVec 4) (r : ResultCode) : (s.setResult c r).nextJob = s.nextJob := rfl
@[simp] theorem State.setResult_sync (s : State) (c : BitVec 4) (r : ResultCode) : (s.setResult c r).sync = s.sync := rfl
@[simp] theorem State.setResult_divider (s : State) (c : BitVec 4) (r : ResultCode) : (s.setResult c r).divider = s.divider := rfl
@[simp] theorem State.setResult_lane (s : State) (c : BitVec 4) (r : ResultCode) : (s.setResult c r).lane = s.lane := rfl
@[simp] theorem State.setResult_choices (s : State) (c : BitVec 4) (r : ResultCode) : (s.setResult c r).choices = s.choices := rfl
@[simp] theorem State.setResult_pending (s : State) (c : BitVec 4) (r : ResultCode) : (s.setResult c r).pending = s.pending := rfl
@[simp] theorem State.setResult_link (s : State) (c : BitVec 4) (r : ResultCode) (m : LinkId) : (s.setResult c r).link m = s.link m := rfl
@[simp] theorem State.setResult_slot (s : State) (c : BitVec 4) (r : ResultCode) (j : SlotIx) : (s.setResult c r).slot j = s.slot j := rfl
@[simp] theorem State.setResult_entry (s : State) (c : BitVec 4) (r : ResultCode) (q : ReqIx) : (s.setResult c r).entry q = s.entry q := rfl
@[simp] theorem State.setResult_counter (s : State) (c : BitVec 4) (r : ResultCode) (j : Fin 8) : (s.setResult c r).counter j = s.counter j := rfl
@[simp] theorem State.setResult_sent (s : State) (c : BitVec 4) (r : ResultCode) (m : LinkId) : (s.setResult c r).sent m = s.sent m := rfl
@[simp] theorem State.setResult_routeFor (s : State) (c : BitVec 4) (r : ResultCode) (n : NodeId) : (s.setResult c r).routeFor n = s.routeFor n := rfl
@[simp] theorem State.setResult_groupFor (s : State) (c : BitVec 4) (r : ResultCode) (g : BitVec 3) : (s.setResult c r).groupFor g = s.groupFor g := rfl
@[simp] theorem State.setResult_job (s : State) (c : BitVec 4) (r : ResultCode) (id : Nat) : (s.setResult c r).job id = s.job id := rfl
@[simp] theorem State.setResult_jobHead (s : State) (c : BitVec 4) (r : ResultCode) : (s.setResult c r).jobHead = s.jobHead := rfl
@[simp] theorem State.setResult_inboundCells (s : State) (c : BitVec 4) (r : ResultCode) : (s.setResult c r).inboundCells = s.inboundCells := rfl
@[simp] theorem State.setResult_freeSlots (s : State) (c : BitVec 4) (r : ResultCode) : (s.setResult c r).freeSlots = s.freeSlots := rfl
@[simp] theorem State.setResult_entriesInUse (s : State) (c : BitVec 4) (r : ResultCode) : (s.setResult c r).entriesInUse = s.entriesInUse := rfl

/-! `State.latch`: the fields it leaves alone. -/

@[simp] theorem State.latch_inReset (s : State) (e : EventBit) : (s.latch e).inReset = s.inReset := rfl
@[simp] theorem State.latch_port (s : State) (e : EventBit) : (s.latch e).port = s.port := rfl
@[simp] theorem State.latch_route (s : State) (e : EventBit) : (s.latch e).route = s.route := rfl
@[simp] theorem State.latch_links (s : State) (e : EventBit) : (s.latch e).links = s.links := rfl
@[simp] theorem State.latch_slots (s : State) (e : EventBit) : (s.latch e).slots = s.slots := rfl
@[simp] theorem State.latch_reqs (s : State) (e : EventBit) : (s.latch e).reqs = s.reqs := rfl
@[simp] theorem State.latch_cq (s : State) (e : EventBit) : (s.latch e).cq = s.cq := rfl
@[simp] theorem State.latch_inbound (s : State) (e : EventBit) : (s.latch e).inbound = s.inbound := rfl
@[simp] theorem State.latch_jobs (s : State) (e : EventBit) : (s.latch e).jobs = s.jobs := rfl
@[simp] theorem State.latch_nextJob (s : State) (e : EventBit) : (s.latch e).nextJob = s.nextJob := rfl
@[simp] theorem State.latch_sync (s : State) (e : EventBit) : (s.latch e).sync = s.sync := rfl
@[simp] theorem State.latch_divider (s : State) (e : EventBit) : (s.latch e).divider = s.divider := rfl
@[simp] theorem State.latch_lane (s : State) (e : EventBit) : (s.latch e).lane = s.lane := rfl
@[simp] theorem State.latch_choices (s : State) (e : EventBit) : (s.latch e).choices = s.choices := rfl
@[simp] theorem State.latch_pending (s : State) (e : EventBit) : (s.latch e).pending = s.pending := rfl
@[simp] theorem State.latch_link (s : State) (e : EventBit) (m : LinkId) : (s.latch e).link m = s.link m := rfl
@[simp] theorem State.latch_slot (s : State) (e : EventBit) (j : SlotIx) : (s.latch e).slot j = s.slot j := rfl
@[simp] theorem State.latch_entry (s : State) (e : EventBit) (q : ReqIx) : (s.latch e).entry q = s.entry q := rfl
@[simp] theorem State.latch_counter (s : State) (e : EventBit) (j : Fin 8) : (s.latch e).counter j = s.counter j := rfl
@[simp] theorem State.latch_sent (s : State) (e : EventBit) (m : LinkId) : (s.latch e).sent m = s.sent m := rfl
@[simp] theorem State.latch_routeFor (s : State) (e : EventBit) (n : NodeId) : (s.latch e).routeFor n = s.routeFor n := rfl
@[simp] theorem State.latch_groupFor (s : State) (e : EventBit) (g : BitVec 3) : (s.latch e).groupFor g = s.groupFor g := rfl
@[simp] theorem State.latch_job (s : State) (e : EventBit) (id : Nat) : (s.latch e).job id = s.job id := rfl
@[simp] theorem State.latch_jobHead (s : State) (e : EventBit) : (s.latch e).jobHead = s.jobHead := rfl
@[simp] theorem State.latch_inboundCells (s : State) (e : EventBit) : (s.latch e).inboundCells = s.inboundCells := rfl
@[simp] theorem State.latch_freeSlots (s : State) (e : EventBit) : (s.latch e).freeSlots = s.freeSlots := rfl
@[simp] theorem State.latch_entriesInUse (s : State) (e : EventBit) : (s.latch e).entriesInUse = s.entriesInUse := rfl

/-! `State.drop`: the fields it leaves alone. -/

@[simp] theorem State.drop_inReset (s : State) (r : DropReason) (o : Origin) (h : Header) : (s.drop r o h).inReset = s.inReset := rfl
@[simp] theorem State.drop_port (s : State) (r : DropReason) (o : Origin) (h : Header) : (s.drop r o h).port = s.port := rfl
@[simp] theorem State.drop_route (s : State) (r : DropReason) (o : Origin) (h : Header) : (s.drop r o h).route = s.route := rfl
@[simp] theorem State.drop_links (s : State) (r : DropReason) (o : Origin) (h : Header) : (s.drop r o h).links = s.links := rfl
@[simp] theorem State.drop_slots (s : State) (r : DropReason) (o : Origin) (h : Header) : (s.drop r o h).slots = s.slots := rfl
@[simp] theorem State.drop_reqs (s : State) (r : DropReason) (o : Origin) (h : Header) : (s.drop r o h).reqs = s.reqs := rfl
@[simp] theorem State.drop_cq (s : State) (r : DropReason) (o : Origin) (h : Header) : (s.drop r o h).cq = s.cq := rfl
@[simp] theorem State.drop_inbound (s : State) (r : DropReason) (o : Origin) (h : Header) : (s.drop r o h).inbound = s.inbound := rfl
@[simp] theorem State.drop_jobs (s : State) (r : DropReason) (o : Origin) (h : Header) : (s.drop r o h).jobs = s.jobs := rfl
@[simp] theorem State.drop_nextJob (s : State) (r : DropReason) (o : Origin) (h : Header) : (s.drop r o h).nextJob = s.nextJob := rfl
@[simp] theorem State.drop_sync (s : State) (r : DropReason) (o : Origin) (h : Header) : (s.drop r o h).sync = s.sync := rfl
@[simp] theorem State.drop_divider (s : State) (r : DropReason) (o : Origin) (h : Header) : (s.drop r o h).divider = s.divider := rfl
@[simp] theorem State.drop_lane (s : State) (r : DropReason) (o : Origin) (h : Header) : (s.drop r o h).lane = s.lane := rfl
@[simp] theorem State.drop_choices (s : State) (r : DropReason) (o : Origin) (h : Header) : (s.drop r o h).choices = s.choices := rfl
@[simp] theorem State.drop_pending (s : State) (r : DropReason) (o : Origin) (h : Header) : (s.drop r o h).pending = s.pending := rfl
@[simp] theorem State.drop_link (s : State) (r : DropReason) (o : Origin) (h : Header) (m : LinkId) : (s.drop r o h).link m = s.link m := rfl
@[simp] theorem State.drop_slot (s : State) (r : DropReason) (o : Origin) (h : Header) (j : SlotIx) : (s.drop r o h).slot j = s.slot j := rfl
@[simp] theorem State.drop_entry (s : State) (r : DropReason) (o : Origin) (h : Header) (q : ReqIx) : (s.drop r o h).entry q = s.entry q := rfl
@[simp] theorem State.drop_counter (s : State) (r : DropReason) (o : Origin) (h : Header) (j : Fin 8) : (s.drop r o h).counter j = s.counter j := rfl
@[simp] theorem State.drop_sent (s : State) (r : DropReason) (o : Origin) (h : Header) (m : LinkId) : (s.drop r o h).sent m = s.sent m := rfl
@[simp] theorem State.drop_routeFor (s : State) (r : DropReason) (o : Origin) (h : Header) (n : NodeId) : (s.drop r o h).routeFor n = s.routeFor n := rfl
@[simp] theorem State.drop_groupFor (s : State) (r : DropReason) (o : Origin) (h : Header) (g : BitVec 3) : (s.drop r o h).groupFor g = s.groupFor g := rfl
@[simp] theorem State.drop_job (s : State) (r : DropReason) (o : Origin) (h : Header) (id : Nat) : (s.drop r o h).job id = s.job id := rfl
@[simp] theorem State.drop_jobHead (s : State) (r : DropReason) (o : Origin) (h : Header) : (s.drop r o h).jobHead = s.jobHead := rfl
@[simp] theorem State.drop_inboundCells (s : State) (r : DropReason) (o : Origin) (h : Header) : (s.drop r o h).inboundCells = s.inboundCells := rfl
@[simp] theorem State.drop_freeSlots (s : State) (r : DropReason) (o : Origin) (h : Header) : (s.drop r o h).freeSlots = s.freeSlots := rfl
@[simp] theorem State.drop_entriesInUse (s : State) (r : DropReason) (o : Origin) (h : Header) : (s.drop r o h).entriesInUse = s.entriesInUse := rfl

/-! `State.rejectConfig`: the fields it leaves alone. -/

@[simp] theorem State.rejectConfig_inReset (s : State) : (s.rejectConfig).inReset = s.inReset := rfl
@[simp] theorem State.rejectConfig_events (s : State) : (s.rejectConfig).events = s.events := rfl
@[simp] theorem State.rejectConfig_route (s : State) : (s.rejectConfig).route = s.route := rfl
@[simp] theorem State.rejectConfig_links (s : State) : (s.rejectConfig).links = s.links := rfl
@[simp] theorem State.rejectConfig_slots (s : State) : (s.rejectConfig).slots = s.slots := rfl
@[simp] theorem State.rejectConfig_reqs (s : State) : (s.rejectConfig).reqs = s.reqs := rfl
@[simp] theorem State.rejectConfig_cq (s : State) : (s.rejectConfig).cq = s.cq := rfl
@[simp] theorem State.rejectConfig_inbound (s : State) : (s.rejectConfig).inbound = s.inbound := rfl
@[simp] theorem State.rejectConfig_jobs (s : State) : (s.rejectConfig).jobs = s.jobs := rfl
@[simp] theorem State.rejectConfig_nextJob (s : State) : (s.rejectConfig).nextJob = s.nextJob := rfl
@[simp] theorem State.rejectConfig_sync (s : State) : (s.rejectConfig).sync = s.sync := rfl
@[simp] theorem State.rejectConfig_divider (s : State) : (s.rejectConfig).divider = s.divider := rfl
@[simp] theorem State.rejectConfig_lane (s : State) : (s.rejectConfig).lane = s.lane := rfl
@[simp] theorem State.rejectConfig_choices (s : State) : (s.rejectConfig).choices = s.choices := rfl
@[simp] theorem State.rejectConfig_pending (s : State) : (s.rejectConfig).pending = s.pending := rfl
@[simp] theorem State.rejectConfig_link (s : State) (m : LinkId) : (s.rejectConfig).link m = s.link m := rfl
@[simp] theorem State.rejectConfig_slot (s : State) (j : SlotIx) : (s.rejectConfig).slot j = s.slot j := rfl
@[simp] theorem State.rejectConfig_entry (s : State) (q : ReqIx) : (s.rejectConfig).entry q = s.entry q := rfl
@[simp] theorem State.rejectConfig_counter (s : State) (j : Fin 8) : (s.rejectConfig).counter j = s.counter j := rfl
@[simp] theorem State.rejectConfig_sent (s : State) (m : LinkId) : (s.rejectConfig).sent m = s.sent m := rfl
@[simp] theorem State.rejectConfig_routeFor (s : State) (n : NodeId) : (s.rejectConfig).routeFor n = s.routeFor n := rfl
@[simp] theorem State.rejectConfig_groupFor (s : State) (g : BitVec 3) : (s.rejectConfig).groupFor g = s.groupFor g := rfl
@[simp] theorem State.rejectConfig_job (s : State) (id : Nat) : (s.rejectConfig).job id = s.job id := rfl
@[simp] theorem State.rejectConfig_jobHead (s : State) : (s.rejectConfig).jobHead = s.jobHead := rfl
@[simp] theorem State.rejectConfig_inboundCells (s : State) : (s.rejectConfig).inboundCells = s.inboundCells := rfl
@[simp] theorem State.rejectConfig_freeSlots (s : State) : (s.rejectConfig).freeSlots = s.freeSlots := rfl
@[simp] theorem State.rejectConfig_entriesInUse (s : State) : (s.rejectConfig).entriesInUse = s.entriesInUse := rfl

/-! `State.setResult`: the words of the port it leaves alone. -/

@[simp] theorem State.setResult_node (s : State) (c : BitVec 4) (r : ResultCode) : (s.setResult c r).port.node = s.port.node := rfl
@[simp] theorem State.setResult_label (s : State) (c : BitVec 4) (r : ResultCode) : (s.setResult c r).port.label = s.port.label := rfl
@[simp] theorem State.setResult_rxEnable (s : State) (c : BitVec 4) (r : ResultCode) : (s.setResult c r).port.rxEnable = s.port.rxEnable := rfl
@[simp] theorem State.setResult_defaultHops (s : State) (c : BitVec 4) (r : ResultCode) : (s.setResult c r).port.defaultHops = s.port.defaultHops := rfl
@[simp] theorem State.setResult_tbDiv (s : State) (c : BitVec 4) (r : ResultCode) : (s.setResult c r).port.tbDiv = s.port.tbDiv := rfl
@[simp] theorem State.setResult_reqTimeout (s : State) (c : BitVec 4) (r : ResultCode) : (s.setResult c r).port.reqTimeout = s.port.reqTimeout := rfl
@[simp] theorem State.setResult_cfgReject (s : State) (c : BitVec 4) (r : ResultCode) : (s.setResult c r).port.cfgReject = s.port.cfgReject := rfl
@[simp] theorem State.setResult_compose (s : State) (c : BitVec 4) (r : ResultCode) : (s.setResult c r).port.compose = s.port.compose := rfl

end Sys2Proof.Machine
end

