-- ==== Sys2Proof/Laws/Settle.lean ====
section
/-! SUPPORT. What the rest of an event can do: an induction over `settle`, what it leaves alone, and that it ends where
nothing more can happen. -/

namespace Sys2Proof.Machine

/-! ### What the route unit reads (R60, R61) -/

/-- Two states between which the route unit cannot tell: the same tables, stores, jobs and messages, and as many egress
entries in every queue. -/
structure SameHeads (s t : State) : Prop where
  port    : t.port = s.port
  route   : t.route = s.route
  inbound : t.inbound = s.inbound
  jobs    : t.jobs = s.jobs
  state   : ∀ l, (t.link l).state = (s.link l).state
  packets : ∀ l, (t.link l).store.packets = (s.link l).store.packets
  room    : ∀ l c, ((t.link l).tx.queue c).length = ((s.link l).tx.queue c).length

theorem SameHeads.refl (s : State) : SameHeads s s := ⟨rfl, rfl, rfl, rfl, fun _ => rfl, fun _ => rfl, fun _ _ => rfl⟩

theorem SameHeads.trans {s t u : State} (h : SameHeads s t) (k : SameHeads t u) : SameHeads s u :=
  ⟨k.port.trans h.port, k.route.trans h.route, k.inbound.trans h.inbound, k.jobs.trans h.jobs,
    fun l => (k.state l).trans (h.state l), fun l => (k.packets l).trans (h.packets l),
    fun l c => (k.room l c).trans (h.room l c)⟩

theorem SameHeads.isUp {s t : State} (h : SameHeads s t) (l : LinkId) : t.isUp l = s.isUp l := by
  simp [State.isUp, h.state]

theorem SameHeads.hasRoom {s t : State} (h : SameHeads s t) (l : LinkId) (c : Class) :
    (t.link l).tx.hasRoom c = (s.link l).tx.hasRoom c := by
  simp [Transmitter.hasRoom, h.room]

theorem SameHeads.routeFor {s t : State} (h : SameHeads s t) (n : NodeId) : t.routeFor n = s.routeFor n := by
  simp [State.routeFor, h.route]

theorem SameHeads.isLocal {s t : State} (h : SameHeads s t) (n : NodeId) : t.isLocal n = s.isLocal n := by
  simp [State.isLocal, h.port, h.routeFor]

theorem SameHeads.ingressHead {s t : State} (h : SameHeads s t) (l : LinkId) (c : Class) :
    t.ingressHead l c = s.ingressHead l c := by
  simp [State.ingressHead, Store.queue, h.packets]

theorem SameHeads.upMembers {s t : State} (h : SameHeads s t) (g : GroupEntry) : t.upMembers g = s.upMembers g := by
  simp [State.upMembers, h.isUp]

theorem SameHeads.groupOf {s t : State} (h : SameHeads s t) (x : Header) : t.groupOf x = s.groupOf x := by
  simp [State.groupOf, State.groupFor, h.route]

theorem SameHeads.plan {s t : State} (h : SameHeads s t) (l : LinkId) (x : Header) : t.plan l x = s.plan l x := by
  have hg : t.groupDelivery x = s.groupDelivery x := by simp [State.groupDelivery, h.groupOf, h.port]
  have hf : t.routeFailure x = s.routeFailure x := by simp [State.routeFailure, h.routeFor, h.isUp]
  simp only [State.plan, State.planGroup, State.planLocal, State.planRemote, hg, hf, h.groupOf, h.upMembers, h.isLocal,
    h.port, h.routeFor]

theorem SameHeads.planFits {s t : State} (h : SameHeads s t) (x : Header) (p : Plan) : t.planFits x p = s.planFits x p := by
  have hi : t.inboundRoom x.len = s.inboundRoom x.len := by
    unfold State.inboundRoom State.inboundCells; rw [h.inbound]
  simp only [State.planFits, h.hasRoom, hi, State.jobRoom, h.jobs]

theorem SameHeads.jobHead {s t : State} (h : SameHeads s t) : t.jobHead = s.jobHead := by
  simp [State.jobHead, h.jobs]

theorem SameHeads.jobFailure {s t : State} (h : SameHeads s t) (j : Job) : t.jobFailure j = s.jobFailure j := by
  simp [State.jobFailure, h.routeFor, h.isUp]

theorem SameHeads.jobFits {s t : State} (h : SameHeads s t) (j : Job) : t.jobFits j = s.jobFits j := by
  simp [State.jobFits, h.isLocal, h.jobFailure, h.hasRoom, h.routeFor]

/-- The route unit finds the same heads ready. -/
theorem SameHeads.ready {s t : State} (h : SameHeads s t) (r : RouteSource) : t.ready r = s.ready r := by
  cases r <;> simp [State.ready, h.ingressHead, h.plan, h.planFits, h.jobHead, h.jobFits]

theorem SameHeads.nextReady {s t : State} (h : SameHeads s t) : t.nextReady = s.nextReady := by
  simp [State.nextReady, h.route, h.ready]

/-! ### Lanes leave the heads alone (R49, R85) -/

theorem State.sendCredit_sameHeads (s : State) (l : LinkId) : SameHeads s (s.sendCredit l) := by
  refine ⟨rfl, rfl, rfl, rfl, ?_, ?_, ?_⟩ <;> intro m <;>
    simp only [State.sendCredit, State.link_modLink, State.send_link] <;> split <;> simp [Store.clearReturn]

theorem Transmitter.start_length (t : Transmitter) (c d : Class) (run : Nat) (e : EgressEntry) (rest : List EgressEntry)
    (h : t.queue c = e :: rest) : ((t.start c run e rest).queue d).length = (t.queue d).length := by
  by_cases hd : d = c
  · subst hd; simp [Transmitter.start, Transmitter.queue] at *; simp [h]
  · simp [Transmitter.start, Transmitter.queue, PerClass.get_set, hd]

theorem State.startHead_sameHeads (s : State) (l : LinkId) (c : Class) (run : Nat) : SameHeads s (s.startHead l c run) := by
  unfold State.startHead
  split
  · exact .refl s
  · rename_i e rest h
    refine ⟨rfl, rfl, rfl, rfl, ?_, ?_, ?_⟩ <;> intro m <;> simp only [State.link_modLink, State.send_link] <;> split <;>
      simp
    subst m
    exact fun d => Transmitter.start_length _ _ _ _ _ _ h

theorem State.decideStart_sameHeads (s : State) (l : LinkId) : SameHeads s (s.decideStart l) := by
  unfold State.decideStart
  split
  · exact .refl s
  · exact s.startHead_sameHeads ..

theorem State.boundary_sameHeads (s : State) (l : LinkId) : SameHeads s (s.boundary l) := by
  unfold State.boundary
  split
  · exact (s.sendCredit_sameHeads l).trans (State.decideStart_sameHeads _ l)
  · exact s.decideStart_sameHeads l

/-! ### Induction over the rest of an event -/

section Induct

variable {P : State → Prop}

/-- What the lanes do keeps `P` if every boundary does. -/
theorem scheduleWhere_induct (hs : ∀ s l, (s.link l).canAct = true → P s → P (s.boundary l)) (chosen : LinkId → Bool)
    {s : State} (h : P s) : P (s.scheduleWhere chosen) := by
  have key : ∀ (ls : List LinkId) (t : State), P t →
      P (ls.foldl (fun t l => if chosen l then t.schedule l else t) t) := by
    intro ls
    induction ls with
    | nil => exact fun _ ht => ht
    | cons l ls ih =>
      intro t ht
      refine ih _ ?_
      change P (if chosen l then t.schedule l else t)
      split
      · unfold State.schedule; split
        · exact hs t l ‹_› ht
        · exact ht
      · exact ht
  exact key _ s h

theorem State.scheduleWhere_sameHeads (s : State) (chosen : LinkId → Bool) : SameHeads s (s.scheduleWhere chosen) :=
  scheduleWhere_induct (P := SameHeads s) (fun t l _ h => h.trans (t.boundary_sameHeads l)) chosen (.refl s)

theorem State.interleave_sameHeads (s : State) : SameHeads s s.interleave := by
  unfold State.interleave
  split
  · have h := s.scheduleWhere_sameHeads (Config.lanesFirst s.choices)
    exact ⟨h.port, h.route, h.inbound, h.jobs, h.state, h.packets, h.room⟩
  · exact .refl s

theorem State.nextReady_ready {s : State} {r : RouteSource} (h : s.nextReady = some r) : s.ready r = true :=
  List.find?_some h

theorem interleave_induct (hs : ∀ s l, (s.link l).canAct = true → P s → P (s.boundary l))
    (hb : ∀ s, P s → P s.bumpChoices) {s : State} (h : P s) : P s.interleave := by
  unfold State.interleave
  split
  · exact hb _ (scheduleWhere_induct hs _ h)
  · exact h

/-- The dispatches of one event keep `P` if each dispatch of a ready head does, whatever lanes start between them. -/
theorem drain_induct (hd : ∀ s r, s.ready r = true → P s → P (s.dispatchSource r))
    (hs : ∀ s l, (s.link l).canAct = true → P s → P (s.boundary l)) (hb : ∀ s, P s → P s.bumpChoices) :
    ∀ (n : Nat) {s : State}, P s → P (drain n s) := by
  intro n
  induction n with
  | zero => exact fun h => h
  | succ n ih =>
    intro s h
    unfold drain
    split
    · exact h
    · rename_i r hr
      refine ih (hd _ r ?_ (interleave_induct hs hb h))
      rw [s.interleave_sameHeads.ready]
      exact State.nextReady_ready hr

theorem leaveHolds_induct (hl : ∀ s l, (s.link l).drained = true → P s → P (s.enterWaitPeer l)) {s : State} (h : P s) :
    P s.leaveHolds := by
  have key : ∀ (ls : List LinkId) (t : State), P t → P (ls.foldl State.leaveHold t) := by
    intro ls
    induction ls with
    | nil => exact fun _ ht => ht
    | cons l ls ih =>
      intro t ht
      refine ih _ ?_
      unfold State.leaveHold; split
      · exact hl t l ‹_› ht
      · exact ht
  exact key _ s h

/-- Whatever a ready head's dispatch, an idle lane's act, a drained link's entry to WAIT_PEER and the reading of a free
value keep, the rest of an event keeps (R20, R60, R82). -/
theorem settle_induct (hd : ∀ s r, s.ready r = true → P s → P (s.dispatchSource r))
    (hs : ∀ s l, (s.link l).canAct = true → P s → P (s.boundary l))
    (hl : ∀ s l, (s.link l).drained = true → P s → P (s.enterWaitPeer l))
    (hb : ∀ s, P s → P s.bumpChoices) {s : State} (h : P s) : P (settle s) :=
  scheduleWhere_induct hs _ (leaveHolds_induct hl (drain_induct hd hs hb _ (leaveHolds_induct hl h)))

end Induct

/-! ### What the rest of an event leaves alone -/

theorem Aftermath.refl (s : State) : Aftermath s s := by
  constructor <;> intros <;> first | rfl | simp

theorem Aftermath.trans {s t u : State} (h : Aftermath s t) (k : Aftermath t u) : Aftermath s u where
  inReset := k.inReset.trans h.inReset
  port := k.port.trans h.port
  enable := k.enable.trans h.enable
  latched := by
    have e : s.events.latch = s.events.latch &&& t.events.latch := h.latched.symm
    rw [e, BitVec.and_assoc, k.latched]
  routeSel := k.routeSel.trans h.routeSel
  routes := k.routes.trans h.routes
  groupSel := k.groupSel.trans h.groupSel
  groups := k.groups.trans h.groups
  slots := k.slots.trans h.slots
  entry r hr := (k.entry r (by rwa [h.entry r hr])).trans (h.entry r hr)
  cq := h.cq.trans k.cq
  inbound := h.inbound.trans k.inbound
  target i := (k.target i).trans (h.target i)
  divider := k.divider.trans h.divider
  sent l := (h.sent l).trans (k.sent l)
  pending := k.pending.trans h.pending
  ctrl l := (k.ctrl l).trans (h.ctrl l)
  cause l := (k.cause l).trans (h.cause l)
  peer l := (k.peer l).trans (h.peer l)
  state l := by
    have a := h.state l
    have b := k.state l
    grind
  tx l hl := by
    have a := h.state l
    have e := h.tx l hl
    have b := k.tx l (by grind)
    rw [b, e]
  queues l c := (h.queues l c).trans (k.queues l c)
  store l hl hq := by
    have a := h.state l
    have e := h.store l hl hq
    rw [← e] at hq
    rw [k.store l (by grind) hq, e]

/-- A change of the free-value counter, the rotation position or the jobs, which nothing above names. -/
theorem Aftermath.bumpChoices (s : State) : Aftermath s s.bumpChoices := by
  constructor <;> intros <;> first | rfl | simp

theorem Aftermath.setPosition (s : State) (p : Fin 13) : Aftermath s (s.setPosition p) := by
  constructor <;> intros <;> first | rfl | simp

theorem Aftermath.setJobs (s : State) (js : List Job) : Aftermath s (s.setJobs js) := by
  constructor <;> intros <;> first | rfl | simp

theorem Aftermath.pushJob (s : State) (j : Job) : Aftermath s (s.pushJob j) := by
  constructor <;> intros <;> first | rfl | simp

theorem Aftermath.latch (s : State) (e : EventBit) : Aftermath s (s.latch e) := by
  constructor <;> intros <;> first | rfl | simp
  ext i; simp; grind

theorem Aftermath.drop (s : State) (r : DropReason) (o : Origin) (x : Header) : Aftermath s (s.drop r o x) := by
  constructor <;> intros <;> first | rfl | simp
  ext i; simp; grind

theorem Aftermath.pushInbound (s : State) (e : InboundEntry) : Aftermath s (s.pushInbound e) := by
  constructor <;> intros <;> first | rfl | simp

theorem Aftermath.setCounter (s : State) (k : Fin 8) (c : SyncCounter) (h : c.target = (s.counter k).target) :
    Aftermath s (s.setCounter k c) := by
  constructor <;> intros <;> first | rfl | simp | skip
  rw [State.counter_setCounter]; split
  · subst_vars; exact h
  · rfl

theorem Aftermath.checkCounter (s : State) (k : Fin 8) (c : SyncCounter) (h : c.target = (s.counter k).target) :
    Aftermath s (s.checkCounter k c) := by
  unfold State.checkCounter
  split
  · refine (Aftermath.setCounter s k _ ?_).trans (.latch _ _)
    unfold SyncCounter.check; split <;> exact h
  · exact .setCounter s k c h

theorem Aftermath.signal (s : State) (tag : BitVec 6) : Aftermath s (s.signal tag) := by
  refine .checkCounter s _ _ ?_
  unfold SyncCounter.counted; split <;> rfl

theorem Aftermath.takeReply (s : State) (x : Header) (d : List Cell) (o : Origin) : Aftermath s (s.takeReply x d o) := by
  unfold State.takeReply
  split
  · rename_i hm
    simp only [State.replyMatches, decide_eq_true_eq] at hm
    unfold State.completeAs
    split
    · refine Aftermath.trans ?_ (.latch _ _)
      constructor <;> intros <;> first | rfl | simp
      rename_i r hr
      rw [State.entry_setEntry, if_neg]
      rintro rfl
      exact hr hm.1
    · exact .refl s
  · exact (Aftermath.drop s .stale o x).trans (.latch _ _)

/-- A link changed in its transmitter and store alone, and in its store only if it is UP or has a packet queued. -/
theorem Aftermath.modLink (s : State) (l : LinkId) (f : Link → Link)
    (hc : (f (s.link l)).ctrl = (s.link l).ctrl) (ha : (f (s.link l)).cause = (s.link l).cause)
    (hp : (f (s.link l)).peer = (s.link l).peer)
    (hs : (f (s.link l)).state = (s.link l).state ∨ ((s.link l).state = .hold ∧ (f (s.link l)).state = .waitPeer))
    (ht : (s.link l).state ≠ .up → (f (s.link l)).tx = (s.link l).tx)
    (hu : ∀ c, ((s.link l).tx.queue c).map EgressEntry.appended <+: ((f (s.link l)).tx.queue c).map EgressEntry.appended)
    (hk : (s.link l).state ≠ .up → (∀ p ∈ (s.link l).store.packets, p.cond ≠ .queued) →
      (f (s.link l)).store = (s.link l).store) : Aftermath s (s.modLink l f) := by
  constructor <;> first | rfl | simp | skip
  all_goals
    intro m
    rw [State.link_modLink]
    by_cases h : m = l
    · subst h; simpa
    · simp [h]

theorem Aftermath.send (s : State) (l : LinkId) (cs : List LaneCell) : Aftermath s (s.send l cs) := by
  constructor <;> intros <;> first | rfl | simp | skip
  rw [State.sent_send]; split <;> simp

theorem Aftermath.appendEntry (s : State) (l : LinkId) (e : EgressEntry) (h : s.isUp l = true) :
    Aftermath s (s.appendEntry l e) := by
  have h' : (s.link l).state = .up := by simpa [State.isUp] using h
  refine .modLink s l _ rfl rfl rfl (.inl rfl) (fun n => absurd h' n) (fun c => ?_) (fun n => absurd h' n)
  simp only [Transmitter.append, Transmitter.queue, PerClass.get_set]
  split
  · subst c; simp
  · exact List.prefix_refl _

theorem State.appendEntry_isUp (s : State) (l m : LinkId) (e : EgressEntry) : (s.appendEntry l e).isUp m = s.isUp m := by
  simp only [State.isUp, State.appendEntry, State.link_modLink]
  split <;> simp

theorem Aftermath.appendCopies (e : EgressEntry) : ∀ (ms : List LinkId) (s : State), (∀ m ∈ ms, s.isUp m = true) →
    Aftermath s (s.appendCopies ms e) := by
  intro ms
  induction ms with
  | nil => exact fun s _ => .refl s
  | cons m ms ih =>
    intro s h
    refine (Aftermath.appendEntry s m e (h m (by simp))).trans (ih (s.appendEntry m e) fun n hn => ?_)
    rw [State.appendEntry_isUp]
    exact h n (by simp [hn])

theorem Aftermath.isUp {s t : State} (h : Aftermath s t) (l : LinkId) : t.isUp l = s.isUp l := by
  have := h.state l
  simp only [State.isUp]
  grind

theorem Link.release_words (n : Link) (id : Nat) : (n.release id).ctrl = n.ctrl ∧ (n.release id).cause = n.cause ∧
    (n.release id).peer = n.peer ∧ (n.release id).state = n.state ∧ (n.release id).tx = n.tx ∧
    (n.release id).seen = n.seen ∧ (n.release id).initTimer = n.initTimer ∧ (n.release id).holdTimer = n.holdTimer := by
  unfold Link.release; split
  · simp
  · split <;> simp

theorem Link.dispatched_words (n : Link) (id k : Nat) : (n.dispatched id k).ctrl = n.ctrl ∧
    (n.dispatched id k).cause = n.cause ∧ (n.dispatched id k).peer = n.peer ∧ (n.dispatched id k).state = n.state ∧
    (n.dispatched id k).tx = n.tx ∧ (n.dispatched id k).seen = n.seen ∧ (n.dispatched id k).initTimer = n.initTimer ∧
    (n.dispatched id k).holdTimer = n.holdTimer := by
  unfold Link.dispatched; split
  · exact n.release_words id
  · simp

/-- The targets of a plan are links that are UP (R67, R70). -/
theorem State.plan_isUp (s : State) (l : LinkId) (x : Header) : ∀ m ∈ (s.plan l x).copies, s.isUp m = true := by
  intro m
  unfold State.plan
  split
  · simp [Plan.dropped]
  split
  · unfold State.planGroup
    split
    · split
      · simp
      · simp +contextual [State.upMembers]
    · simp [Plan.dropped]
  split
  · unfold State.planLocal Plan.dropped
    repeat' split
    all_goals simp
  · unfold State.planRemote
    split
    · split <;> simp [Plan.dropped]
    · rename_i h
      simp only [List.mem_singleton]
      rintro rfl
      unfold State.routeFailure at h
      grind

theorem Aftermath.deliver (s : State) (l : LinkId) (p : StoredPacket) (d : Option Delivery) :
    Aftermath s (s.deliver l p d) := by
  rcases d with _ | _ | _ | _
  · exact .refl s
  · exact (Aftermath.pushInbound s _).trans (.latch _ _)
  · exact .signal s _
  · exact .takeReply s _ _ _

theorem Aftermath.createJob (s : State) (x : Header) (k : Option JobKind) : Aftermath s (s.createJob x k) := by
  cases k
  · exact .refl s
  · exact .pushJob s _

theorem Aftermath.recordDrop (s : State) (l : LinkId) (x : Header) (r : Option DropReason) :
    Aftermath s (s.recordDrop l x r) := by
  cases r
  · exact .refl s
  · exact .drop s _ _ _

theorem State.takeReply_link (s : State) (x : Header) (d : List Cell) (o : Origin) (m : LinkId) :
    (s.takeReply x d o).link m = s.link m := by
  unfold State.takeReply State.completeAs
  repeat' split
  all_goals rfl

theorem State.checkCounter_link (s : State) (k : Fin 8) (c : SyncCounter) (m : LinkId) :
    (s.checkCounter k c).link m = s.link m := by
  unfold State.checkCounter
  split <;> rfl

theorem State.deliver_link (s : State) (l : LinkId) (p : StoredPacket) (d : Option Delivery) (m : LinkId) :
    (s.deliver l p d).link m = s.link m := by
  rcases d with _ | _ | _ | _
  · rfl
  · rfl
  · exact State.checkCounter_link ..
  · exact State.takeReply_link ..

theorem State.createJob_link (s : State) (x : Header) (k : Option JobKind) (m : LinkId) :
    (s.createJob x k).link m = s.link m := by
  cases k <;> rfl

theorem State.recordDrop_link (s : State) (l : LinkId) (x : Header) (r : Option DropReason) (m : LinkId) :
    (s.recordDrop l x r).link m = s.link m := by
  cases r <;> rfl

theorem State.appendCopies_link (e : EgressEntry) (m : LinkId) : ∀ (ms : List LinkId) (s : State),
    ((s.appendCopies ms e).link m) = ms.foldl (fun n k => if m = k then { n with tx := n.tx.append e } else n) (s.link m) := by
  intro ms
  induction ms with
  | nil => exact fun _ => rfl
  | cons k ms ih =>
    intro s
    refine (ih (s.appendEntry k e)).trans ?_
    simp only [List.foldl_cons, State.appendEntry, State.link_modLink]

theorem State.ingressHead_queued {s : State} {l : LinkId} {c : Class} {p : StoredPacket} (h : s.ingressHead l c = some p) :
    p ∈ (s.link l).store.packets ∧ p.cond = .queued ∧ p.cls = c := by
  have := List.mem_of_head? h
  simpa [Store.queue] using this

theorem Aftermath.applyPlan {s : State} {l : LinkId} {p : StoredPacket} (pl : Plan)
    (hp : p ∈ (s.link l).store.packets) (hq : p.cond = .queued) (hup : ∀ m ∈ pl.copies, s.isUp m = true) :
    Aftermath s (s.applyPlan l p pl) := by
  have h1 := (((Aftermath.createJob s p.hdr pl.job).trans (.deliver _ l p pl.deliver)).trans
    (.recordDrop _ l p.hdr pl.drop))
  have h2 := h1.trans (.appendCopies (copyOf l p pl.hopsOut) pl.copies _ fun m hm => by rw [h1.isUp]; exact hup m hm)
  refine h2.trans ?_
  have w := fun n : Link => n.dispatched_words p.id pl.copies.length
  refine .modLink _ l _ (w _).1 (w _).2.1 (w _).2.2.1 (.inl (w _).2.2.2.1) (fun _ => (w _).2.2.2.2.1)
    (fun c => by rw [(w _).2.2.2.2.1]) ?_
  intro _ hall
  refine absurd hq (hall p ?_)
  rw [State.appendCopies_link, State.recordDrop_link, State.deliver_link, State.createJob_link]
  have : ∀ (ms : List LinkId) (n : Link), (ms.foldl (fun n k => if l = k then
      { n with tx := n.tx.append (copyOf l p pl.hopsOut) } else n) n).store = n.store := by
    intro ms
    induction ms with
    | nil => exact fun _ => rfl
    | cons k ms ih => intro n; rw [List.foldl_cons, ih]; split <;> rfl
  rw [this]
  exact hp

theorem Aftermath.dispatchJob (s : State) (j : Job) : Aftermath s (s.dispatchJob j) := by
  unfold State.dispatchJob
  split
  · exact (Aftermath.takeReply s _ _ _).trans (.setJobs _ _)
  · split
    · exact (Aftermath.drop s _ _ _).trans (.setJobs _ _)
    · rename_i hf
      refine (Aftermath.appendEntry s _ _ ?_).trans (.setJobs _ _)
      unfold State.jobFailure at hf
      grind

theorem Aftermath.dispatchSource (s : State) (r : RouteSource) : Aftermath s (s.dispatchSource r) := by
  cases r <;> unfold State.dispatchSource <;> simp only
  · split
    · exact .refl s
    · rename_i h
      have q := State.ingressHead_queued h
      exact (Aftermath.applyPlan _ q.1 q.2.1 (s.plan_isUp _ _)).trans (.setPosition _ _)
  · split
    · exact .refl s
    · exact (Aftermath.dispatchJob s _).trans (.setPosition _ _)

theorem Aftermath.sendCredit (s : State) (l : LinkId) (h : (s.link l).state = .up) : Aftermath s (s.sendCredit l) :=
  (Aftermath.send s l _).trans
    (.modLink _ l _ rfl rfl rfl (.inl rfl) (fun n => absurd h n) (fun _ => List.prefix_refl _) (fun n => absurd h n))

theorem Aftermath.decideStart (s : State) (l : LinkId) (h : (s.link l).state = .up) : Aftermath s (s.decideStart l) := by
  unfold State.decideStart State.startHead
  split
  · exact .refl s
  · split
    · exact .refl s
    · rename_i x _ _ e rest hq
      refine (Aftermath.send s l _).trans
        (.modLink _ l _ rfl rfl rfl (.inl rfl) (fun n => absurd h n) (fun c => ?_) (fun n => absurd h n))
      simp only [State.send_link, Transmitter.start, Transmitter.queue, PerClass.get_set] at hq ⊢
      split
      · subst c; simp [hq, EgressEntry.appended]
      · exact List.prefix_refl _

theorem Aftermath.boundary (s : State) (l : LinkId) (h : (s.link l).state = .up) : Aftermath s (s.boundary l) := by
  unfold State.boundary
  split
  · refine (Aftermath.sendCredit s l h).trans (.decideStart _ l ?_)
    rw [(s.sendCredit_sameHeads l).state, h]
  · exact .decideStart s l h

theorem Aftermath.enterWaitPeer (s : State) (l : LinkId) (h : (s.link l).state = .hold) : Aftermath s (s.enterWaitPeer l) :=
  (Aftermath.modLink s l _ rfl rfl rfl (.inr ⟨h, rfl⟩) (fun _ => rfl) (fun _ => List.prefix_refl _)
    (fun _ _ => rfl)).trans (.send _ _ _)

/-- All that the rest of an event can change (R20, R61, R83). -/
theorem settle_aftermath (u : State) : Aftermath u (settle u) := by
  refine settle_induct (P := Aftermath u) (fun s r _ h => h.trans (.dispatchSource s r)) (fun s l hc h => h.trans ?_)
    (fun s l hd h => h.trans ?_) (fun s h => h.trans (.bumpChoices s)) (.refl u)
  · refine .boundary s l ?_
    simp only [Link.canAct, Bool.and_eq_true, decide_eq_true_eq] at hc
    exact hc.1.1
  · refine .enterWaitPeer s l ?_
    simp only [Link.drained, Bool.and_eq_true, decide_eq_true_eq] at hd
    exact hd.1.1

/-! ### Nothing to do -/

/-- An event that leaves nothing possible is over (R20, R61, R83). -/
theorem settle_of_settled {s : State} (h : s.Settled) : settle s = s := by
  have hd : ∀ n, drain n s = s := by
    intro n; cases n <;> simp [drain, h.1]
  have hl : s.leaveHolds = s := by
    simp [State.leaveHolds, State.leaveHold, linkIds, h.2]
  simp [settle, hd, hl, State.scheduleWhere, State.schedule, linkIds, h.2]

/-! ### The end of an event (R20, R61, R83) -/

theorem SameHeads.workLeft {s t : State} (h : SameHeads s t) : t.workLeft = s.workLeft := by
  simp [State.workLeft, Store.queuedPackets, Store.queue, h.packets, h.jobs]

/-- How many packets wait in a link's ingress class queues. -/
def Link.waiting (n : Link) : Nat := (n.store.packets.filter (fun p => p.cond = .queued)).length

theorem Store.queuedPackets_length (k : Store) :
    k.queuedPackets.length = (k.packets.filter (fun p => p.cond = .queued)).length := by
  simp only [Store.queuedPackets, Store.queue, List.length_append]
  generalize k.packets = ps
  induction ps with
  | nil => rfl
  | cons p ps ih =>
    simp only [List.filter_cons]
    rcases p.cond.casesOn (motive := fun c => c = .inReception ∨ c = .queued ∨ c = .dispatched) (by simp) (by simp) (by simp)
      with h | h | h <;> rcases hc : p.cls <;> simp [h] <;> omega

theorem State.workLeft_eq (s : State) : s.workLeft =
    2 * ((s.link 0).waiting + (s.link 1).waiting + (s.link 2).waiting + (s.link 3).waiting) +
      (s.jobs.filter (fun j => j.cond = .waiting)).length := by
  simp [State.workLeft, linkIds, Store.queuedPackets_length, Link.waiting]; omega

theorem Store.startHoldoff_packets (k : Store) (d : BitVec 8) : (k.startHoldoff d).packets = k.packets := by
  unfold Store.startHoldoff; split <;> rfl

theorem Store.giveBack_packets (k : Store) (d : BitVec 8) (p : StoredPacket) : (k.giveBack d p).packets = k.packets := by
  unfold Store.giveBack
  cases p.region <;> simp only <;> split <;> simp [Store.startHoldoff_packets]

/-- A release removes the packets of that name (R46). -/
theorem Link.release_packets (n : Link) (id : Nat) :
    (n.release id).store.packets = n.store.packets.filter (fun p => p.id ≠ id) := by
  unfold Link.release
  split
  · rename_i h
    simp only [Store.packet, List.find?_eq_none, decide_eq_true_eq] at h
    exact (List.filter_eq_self.2 fun p hp => by simpa using h p hp).symm
  · split <;> simp [Store.giveBack_packets, Store.remove]

theorem Link.dispatched_waiting {n : Link} {p : StoredPacket} (k : Nat) (hp : p ∈ n.store.packets) (hq : p.cond = .queued) :
    (n.dispatched p.id k).waiting < n.waiting := by
  have hlen : ∀ f : StoredPacket → Bool, (∀ q, f q = true → q.cond = .queued ∧ q.id ≠ p.id) →
      (n.store.packets.filter f).length < (n.store.packets.filter (fun q => q.cond = .queued)).length := by
    intro f hf
    have e : n.store.packets.filter f = (n.store.packets.filter (fun q => q.cond = .queued)).filter f := by
      rw [List.filter_filter]
      exact List.filter_congr fun q _ => by by_cases h : f q = true <;> simp_all
    rw [e]
    refine Nat.lt_of_le_of_ne (List.length_filter_le _ _) fun h => ?_
    have := List.length_filter_eq_length_iff.1 h p (by simp [hp, hq])
    exact (hf p this).2 rfl
  unfold Link.dispatched
  split
  · simp only [Link.waiting, Link.release_packets, List.filter_filter]
    exact hlen _ fun q h => by simpa using h
  · have e : ∀ ps : List StoredPacket, ((ps.map fun q => if q.id = p.id then
        { q with cond := Condition.dispatched, copies := k } else q).filter (fun q => q.cond = .queued)).length
        = (ps.filter fun q => q.cond = .queued && q.id ≠ p.id).length := by
      intro ps
      induction ps with
      | nil => rfl
      | cons q ps ih => by_cases h : q.id = p.id <;> by_cases hc : q.cond = .queued <;> simp_all
    simp only [Link.waiting, Store.modPacket, e]
    exact hlen _ fun q h => by simpa using h

theorem State.appendCopies_store (s : State) (ms : List LinkId) (e : EgressEntry) (m : LinkId) :
    ((s.appendCopies ms e).link m).store = (s.link m).store := by
  rw [State.appendCopies_link]
  generalize s.link m = n
  induction ms generalizing n with
  | nil => rfl
  | cons k ms ih => rw [List.foldl_cons, ih]; split <;> rfl

theorem State.appendCopies_fields (e : EgressEntry) : ∀ (ms : List LinkId) (s : State),
    (s.appendCopies ms e).jobs = s.jobs ∧ (s.appendCopies ms e).inbound = s.inbound ∧
      (s.appendCopies ms e).reqs = s.reqs ∧ (s.appendCopies ms e).cq = s.cq ∧ (s.appendCopies ms e).sync = s.sync ∧
      (s.appendCopies ms e).events = s.events ∧ (s.appendCopies ms e).lane = s.lane ∧
      (s.appendCopies ms e).slots = s.slots ∧ (s.appendCopies ms e).route = s.route ∧
      (s.appendCopies ms e).port = s.port ∧ (s.appendCopies ms e).nextJob = s.nextJob := by
  intro ms
  induction ms with
  | nil => exact fun _ => ⟨rfl, rfl, rfl, rfl, rfl, rfl, rfl, rfl, rfl, rfl, rfl⟩
  | cons m ms ih => exact fun s => ih (s.appendEntry m e)

/-- A link after an ingress head's dispatch: its queue holds the copy if it is a target, and the arrival link's packet is
dispatched (R44, R69, R72). -/
theorem State.applyPlan_link (s : State) (l : LinkId) (p : StoredPacket) (pl : Plan) (m : LinkId) :
    (s.applyPlan l p pl).link m =
      if m = l then ((s.appendCopies pl.copies (copyOf l p pl.hopsOut)).link m).dispatched p.id pl.copies.length
      else (s.appendCopies pl.copies (copyOf l p pl.hopsOut)).link m := by
  unfold State.applyPlan
  rw [State.link_modLink]
  simp only [State.appendCopies_link, State.recordDrop_link, State.deliver_link, State.createJob_link]

theorem State.deliver_jobs (s : State) (l : LinkId) (p : StoredPacket) (d : Option Delivery) :
    (s.deliver l p d).jobs = s.jobs := by
  rcases d with _ | _ | _ | _ <;>
    simp only [State.deliver, State.signal, State.checkCounter, State.takeReply, State.completeAs] <;>
    repeat' split
  all_goals rfl

theorem State.recordDrop_jobs (s : State) (l : LinkId) (x : Header) (r : Option DropReason) :
    (s.recordDrop l x r).jobs = s.jobs := by
  cases r <;> rfl

theorem State.applyPlan_jobs (s : State) (l : LinkId) (p : StoredPacket) (pl : Plan) :
    (s.applyPlan l p pl).jobs = (s.createJob p.hdr pl.job).jobs := by
  unfold State.applyPlan
  rw [State.modLink_jobs, (State.appendCopies_fields _ _ _).1, State.recordDrop_jobs, State.deliver_jobs]

theorem State.takeReply_jobs (s : State) (x : Header) (d : List Cell) (o : Origin) : (s.takeReply x d o).jobs = s.jobs := by
  unfold State.takeReply State.completeAs
  repeat' split
  all_goals rfl

theorem Link.append_waiting (n : Link) (e : EgressEntry) : ({ n with tx := n.tx.append e } : Link).waiting = n.waiting := rfl

/-- Each dispatch of a ready head leaves less to dispatch. -/
theorem State.dispatchSource_workLeft {s : State} {r : RouteSource} (h : s.ready r = true) :
    (s.dispatchSource r).workLeft < s.workLeft := by
  cases r with
  | ingress l c =>
    simp only [State.ready] at h
    split at h
    · cases h
    rename_i p hp
    have q := State.ingressHead_queued hp
    simp only [State.dispatchSource, hp, State.workLeft_eq, State.setPosition_link, State.setPosition_jobs]
    generalize s.plan l p.hdr = pl
    have hs : ∀ m, ((s.appendCopies pl.copies (copyOf l p pl.hopsOut)).link m).waiting = (s.link m).waiting := fun m => by
      simp [Link.waiting, State.appendCopies_store]
    have hl : ((s.applyPlan l p pl).link l).waiting < (s.link l).waiting := by
      rw [State.applyPlan_link, if_pos rfl, ← hs l]
      exact Link.dispatched_waiting _ (by rw [State.appendCopies_store]; exact q.1) q.2.1
    have hm : ∀ m, m ≠ l → ((s.applyPlan l p pl).link m).waiting = (s.link m).waiting := fun m hne => by
      rw [State.applyPlan_link, if_neg hne, hs]
    have hj : ((s.applyPlan l p pl).jobs.filter (fun j => j.cond = .waiting)).length
        ≤ (s.jobs.filter (fun j => j.cond = .waiting)).length + 1 := by
      rw [State.applyPlan_jobs]
      cases pl.job with
      | none => exact Nat.le_succ _
      | some k => simp [State.createJob, State.newJob]
    have h0 := hm 0
    have h1 := hm 1
    have h2 := hm 2
    have h3 := hm 3
    fin_cases l <;> simp at * <;> omega
  | responder =>
    simp only [State.ready] at h
    split at h
    · cases h
    rename_i j hj
    have hw : j.cond = .waiting := by simpa using List.find?_some hj
    have hmem : j ∈ s.jobs := List.mem_of_find?_eq_some hj
    simp only [State.dispatchSource, hj, State.workLeft_eq, State.setPosition_link, State.setPosition_jobs]
    have hlt : ∀ f : Job → Bool, (∀ q, f q = true → q.cond = .waiting ∧ q.id ≠ j.id) →
        (s.jobs.filter f).length < (s.jobs.filter (fun q => q.cond = .waiting)).length := by
      intro f hf
      have e : s.jobs.filter f = (s.jobs.filter (fun q => q.cond = .waiting)).filter f := by
        rw [List.filter_filter]
        exact List.filter_congr fun q _ => by by_cases h : f q = true <;> simp_all
      rw [e]
      refine Nat.lt_of_le_of_ne (List.length_filter_le _ _) fun h => ?_
      have := List.length_filter_eq_length_iff.1 h j (by simp [hmem, hw])
      exact (hf j this).2 rfl
    have hfree : (((s.jobs.filter (fun q => q.id ≠ j.id))).filter (fun q => q.cond = .waiting)).length
        < (s.jobs.filter (fun q => q.cond = .waiting)).length := by
      rw [List.filter_filter]
      exact hlt _ fun q h => by simpa [and_comm] using h
    have hmark : ((s.jobs.map (fun q => if q.id = j.id then { q with cond := JobCondition.sent } else q)).filter
        (fun q => q.cond = .waiting)).length < (s.jobs.filter (fun q => q.cond = .waiting)).length := by
      have e : ∀ js : List Job, ((js.map (fun q => if q.id = j.id then { q with cond := JobCondition.sent } else q)).filter
          (fun q => q.cond = .waiting)).length = (js.filter (fun q => q.cond = .waiting && q.id ≠ j.id)).length := by
        intro js
        induction js with
        | nil => rfl
        | cons q js ih => by_cases h : q.id = j.id <;> by_cases hc : q.cond = .waiting <;> simp_all
      rw [e]
      exact hlt _ fun q h => by simpa using h
    have hlinks : ∀ m, ((s.dispatchJob j).link m).waiting = (s.link m).waiting := by
      intro m
      unfold State.dispatchJob
      split
      · simp [State.freeJob, State.takeReply_link]
      · split
        · simp [State.freeJob]
        · simp only [State.markSent, State.setJobs_link, State.appendEntry, State.link_modLink]
          split <;> rfl
    rw [hlinks, hlinks, hlinks, hlinks]
    have : ((s.dispatchJob j).jobs.filter (fun q => q.cond = .waiting)).length
        < (s.jobs.filter (fun q => q.cond = .waiting)).length := by
      unfold State.dispatchJob
      split
      · simpa only [State.freeJob, State.setJobs_jobs, State.takeReply_jobs] using hfree
      · split
        · exact hfree
        · exact hmark
    omega

/-- The dispatches of one event end where no head is ready (R62). -/
theorem drain_nextReady : ∀ (n : Nat) (s : State), s.workLeft ≤ n → (drain n s).nextReady = none := by
  intro n
  induction n with
  | zero =>
    intro s h
    unfold drain
    rcases hr : s.nextReady with _ | r
    · rfl
    · have := State.dispatchSource_workLeft (State.nextReady_ready hr); omega
  | succ n ih =>
    intro s h
    unfold drain
    split
    · assumption
    · rename_i r hr
      have hi := s.interleave_sameHeads
      have := State.dispatchSource_workLeft (s := s.interleave) (r := r) (by
        rw [hi.ready]; exact State.nextReady_ready hr)
      rw [hi.workLeft] at this
      exact ih _ (by omega)

theorem State.enterWaitPeer_sameHeads_link (s : State) (l m : LinkId) (h : (s.link l).state ≠ .up) :
    (s.enterWaitPeer l).isUp m = s.isUp m ∧ ((s.enterWaitPeer l).link m).store = (s.link m).store ∧
      ((s.enterWaitPeer l).link m).tx = (s.link m).tx ∧ ((s.enterWaitPeer l).link m).ctrl = (s.link m).ctrl := by
  have e : (s.enterWaitPeer l).link m = if m = l then (s.link m).enterWaitPeer else s.link m := by
    simp [State.enterWaitPeer, State.sendInit, State.link_modLink]
  simp only [State.isUp, e]
  by_cases hm : m = l
  · subst hm; simp [Link.enterWaitPeer, h]
  · simp [hm]

/-- Whether a state's heads are decided, reading only whether links are UP and not which other state they are in. -/
structure SameRoom (s t : State) : Prop where
  port    : t.port = s.port
  route   : t.route = s.route
  inbound : t.inbound = s.inbound
  jobs    : t.jobs = s.jobs
  isUp    : ∀ l, t.isUp l = s.isUp l
  store   : ∀ l, (t.link l).store = (s.link l).store
  tx      : ∀ l, (t.link l).tx = (s.link l).tx
  ctrl    : ∀ l, (t.link l).ctrl = (s.link l).ctrl

theorem SameRoom.nextReady {s t : State} (h : SameRoom s t) : t.nextReady = s.nextReady := by
  have hr : ∀ n, t.routeFor n = s.routeFor n := fun n => by simp [State.routeFor, h.route]
  have hl : ∀ n, t.isLocal n = s.isLocal n := fun n => by simp [State.isLocal, h.port, hr]
  have hg : ∀ x, t.groupOf x = s.groupOf x := fun x => by simp [State.groupOf, State.groupFor, h.route]
  have hd : ∀ x, t.groupDelivery x = s.groupDelivery x := fun x => by simp [State.groupDelivery, hg, h.port]
  have hf : ∀ x, t.routeFailure x = s.routeFailure x := fun x => by simp [State.routeFailure, hr, h.isUp]
  have hu : ∀ g, t.upMembers g = s.upMembers g := fun g => by simp [State.upMembers, h.isUp]
  have hp : ∀ l x, t.plan l x = s.plan l x := fun l x => by
    simp only [State.plan, State.planGroup, State.planLocal, State.planRemote, hd, hf, hg, hu, hl, h.port, hr]
  have hi : ∀ n, t.inboundRoom n = s.inboundRoom n := fun n => by
    unfold State.inboundRoom State.inboundCells; rw [h.inbound]
  have hq : ∀ x p, t.planFits x p = s.planFits x p := fun x p => by
    simp only [State.planFits, h.tx, hi, State.jobRoom, h.jobs]
  have hx : ∀ j, t.jobFailure j = s.jobFailure j := fun j => by simp [State.jobFailure, hr, h.isUp]
  have hj : ∀ j, t.jobFits j = s.jobFits j := fun j => by simp [State.jobFits, hl, hx, h.tx, hr]
  have hready : ∀ r, t.ready r = s.ready r := by
    intro r; cases r <;> simp [State.ready, State.ingressHead, h.store, hp, hq, State.jobHead, h.jobs, hj]
  simp [State.nextReady, h.route, hready]

theorem SameRoom.refl (s : State) : SameRoom s s := ⟨rfl, rfl, rfl, rfl, fun _ => rfl, fun _ => rfl, fun _ => rfl, fun _ => rfl⟩

theorem SameRoom.enterWaitPeer {s : State} {l : LinkId} (h : (s.link l).state ≠ .up) : SameRoom s (s.enterWaitPeer l) :=
  ⟨rfl, rfl, rfl, rfl, fun m => (s.enterWaitPeer_sameHeads_link l m h).1,
    fun m => (s.enterWaitPeer_sameHeads_link l m h).2.1, fun m => (s.enterWaitPeer_sameHeads_link l m h).2.2.1,
    fun m => (s.enterWaitPeer_sameHeads_link l m h).2.2.2⟩

theorem SameRoom.trans {s t u : State} (h : SameRoom s t) (k : SameRoom t u) : SameRoom s u :=
  ⟨k.port.trans h.port, k.route.trans h.route, k.inbound.trans h.inbound, k.jobs.trans h.jobs,
    fun l => (k.isUp l).trans (h.isUp l), fun l => (k.store l).trans (h.store l), fun l => (k.tx l).trans (h.tx l),
    fun l => (k.ctrl l).trans (h.ctrl l)⟩

theorem Link.drained_hold {n : Link} (h : n.drained = true) : n.state = .hold := by
  simp only [Link.drained, Bool.and_eq_true, decide_eq_true_eq] at h
  exact h.1.1

theorem State.leaveHolds_sameRoom (s : State) : SameRoom s s.leaveHolds :=
  leaveHolds_induct (P := SameRoom s)
    (fun t l hd h => h.trans (.enterWaitPeer (by rw [Link.drained_hold hd]; decide))) (.refl s)

theorem State.leaveHold_drained (s : State) (l m : LinkId) : ((s.leaveHold l).link m).drained =
    if m = l then false else (s.link m).drained := by
  unfold State.leaveHold
  split
  · simp only [State.enterWaitPeer, State.sendInit, State.send_link, State.link_modLink]
    split <;> simp [Link.drained, Link.enterWaitPeer]
  · rename_i h
    split
    · subst m; exact Bool.eq_false_iff.2 h
    · rfl

/-- No link stays in HOLD once it is drained (R20). -/
theorem State.leaveHolds_drained (s : State) (l : LinkId) : (s.leaveHolds.link l).drained = false := by
  simp only [State.leaveHolds, linkIds, List.foldl_cons, List.foldl_nil, State.leaveHold_drained]
  fin_cases l <;> simp

theorem State.boundary_link_ne (s : State) {l m : LinkId} (h : m ≠ l) : (s.boundary l).link m = s.link m := by
  have h1 : ∀ t : State, (t.decideStart l).link m = t.link m := by
    intro t
    unfold State.decideStart State.startHead
    repeat' split
    · rfl
    · rfl
    · rw [State.link_modLink_ne _ _ h, State.send_link]
  unfold State.boundary
  rw [h1]
  split
  · unfold State.sendCredit; rw [State.link_modLink_ne _ _ h, State.send_link]
  · rfl

theorem Transmitter.choose_eligible {t : Transmitter} {q : BitVec 8} {x : Class × Nat} (h : t.choose q = some x) :
    t.eligible x.1 = true := by
  unfold Transmitter.choose at h
  grind

/-- A head that starts holds the lane: a packet is in transmission (R79, R82). -/
theorem Transmitter.start_busy (t : Transmitter) (c : Class) (run : Nat) (e : EgressEntry) (rest : List EgressEntry) :
    (t.start c run e rest).busy = true := by
  have h : ((t.start c run e rest).startedHead c).isSome = true := by
    simp [Transmitter.startedHead, Transmitter.queue, Transmitter.start]
  unfold Transmitter.busy Transmitter.inFlight
  generalize t.start c run e rest = u at *
  cases c <;> simp [Option.isSome_or, h]

/-- After the decision at a boundary the lane is busy or has nothing to send (R82, R83). -/
theorem State.boundary_canAct (s : State) (l : LinkId) (hc : 1 ≤ (s.link l).ctrl.crThresh) :
    ((s.boundary l).link l).canAct = false := by
  have key : ∀ t : State, (t.link l).creditDue = false → ((t.decideStart l).link l).canAct = false := by
    intro t ht
    unfold State.decideStart
    split
    · rename_i h; simp [Link.canAct, ht, h]
    · rename_i x h
      have he := Transmitter.choose_eligible h
      unfold State.startHead
      split
      · rename_i hn; simp [Transmitter.eligible, hn] at he
      · simp [Link.canAct, Transmitter.start_busy]
  unfold State.boundary
  apply key
  split
  · rename_i h
    have hne : (s.link l).ctrl.crThresh.toNat ≠ 0 := fun e =>
      absurd hc (by rw [show (s.link l).ctrl.crThresh = 0#7 from BitVec.eq_of_toNat_eq e]; decide)
    simp [State.sendCredit, Link.creditDue, Store.clearReturn, PerClass.all, hne]
  · rename_i h; exact Bool.eq_false_iff.2 h

theorem State.schedule_canAct (s : State) (l m : LinkId) (hc : 1 ≤ (s.link l).ctrl.crThresh) :
    ((s.schedule l).link m).canAct = if m = l then false else (s.link m).canAct := by
  unfold State.schedule
  split
  · split
    · subst m; exact s.boundary_canAct l hc
    · rw [s.boundary_link_ne ‹_›]
  · rename_i h
    split
    · subst m; exact Bool.eq_false_iff.2 h
    · rfl

theorem State.schedule_ctrl (s : State) (l m : LinkId) : ((s.schedule l).link m).ctrl = (s.link m).ctrl := by
  unfold State.schedule
  split
  · rename_i h
    refine (Aftermath.boundary s l ?_).ctrl m
    simp only [Link.canAct, Bool.and_eq_true, decide_eq_true_eq] at h
    exact h.1.1
  · rfl

/-- Once every lane has acted, none can act again at the same event (R83). -/
theorem State.scheduleWhere_canAct (s : State) (l : LinkId) (hc : ∀ k, 1 ≤ (s.link k).ctrl.crThresh) :
    ((s.scheduleWhere (fun _ => true)).link l).canAct = false := by
  have key : ∀ (ls : List LinkId) (t : State), (∀ k, 1 ≤ (t.link k).ctrl.crThresh) →
      (l ∈ ls ∨ (t.link l).canAct = false) →
      ((ls.foldl (fun u k => if true then u.schedule k else u) t).link l).canAct = false := by
    intro ls
    induction ls with
    | nil => intro t _ h; simpa using h
    | cons k ls ih =>
      intro t ht h
      refine ih (t.schedule k) (fun m => by rw [State.schedule_ctrl]; exact ht m) ?_
      rw [State.schedule_canAct t k l (ht k)]
      rcases h with h | h
      · rcases List.mem_cons.1 h with h | h
        · exact .inr (by rw [if_pos h])
        · exact .inl h
      · exact .inr (by rw [h]; split <;> rfl)
  exact key linkIds s hc (.inl (by fin_cases l <;> decide))

/-- The rest of an event leaves nothing that could still happen in it, where every CR_THRESH is at least 1
(R20, R61, R83). -/
theorem settle_settled {s : State} (hc : ∀ l, 1 ≤ (s.link l).ctrl.crThresh) : (settle s).Settled := by
  have hctrl : ∀ (chosen : LinkId → Bool) (t : State) (m : LinkId), ((t.scheduleWhere chosen).link m).ctrl = (t.link m).ctrl :=
    fun chosen t m => scheduleWhere_induct (P := fun u => (u.link m).ctrl = (t.link m).ctrl) (fun u l h e => by
      simp only [Link.canAct, Bool.and_eq_true, decide_eq_true_eq] at h
      rw [(Aftermath.boundary u l h.1.1).ctrl, e]) chosen rfl
  have hc : ∀ l, 1 ≤ (s.leaveHolds.link l).ctrl.crThresh := fun l => by rw [s.leaveHolds_sameRoom.ctrl]; exact hc l
  unfold settle
  generalize s.leaveHolds = s at *
  have hd := drain_nextReady s.workLeft s (Nat.le_refl _)
  have hdc : ∀ l, ((drain s.workLeft s).link l).ctrl = (s.link l).ctrl := fun l =>
    drain_induct (P := fun u => (u.link l).ctrl = (s.link l).ctrl) (fun u r _ e => by
      rw [(Aftermath.dispatchSource u r).ctrl, e]) (fun u m h e => by
        simp only [Link.canAct, Bool.and_eq_true, decide_eq_true_eq] at h
        rw [(Aftermath.boundary u m h.1.1).ctrl, e]) (fun _ e => e) _ rfl
  have hr := (drain s.workLeft s).leaveHolds_sameRoom
  have hh := (drain s.workLeft s).leaveHolds_drained
  generalize drain s.workLeft s = a at *
  have hs := a.leaveHolds.scheduleWhere_sameHeads (fun _ => true)
  refine ⟨by rw [hs.nextReady, hr.nextReady, hd], fun l => ⟨?_, ?_⟩⟩
  · have : ∀ chosen, ((a.leaveHolds.scheduleWhere chosen).link l).drained = false := fun chosen =>
      scheduleWhere_induct (P := fun u => (u.link l).drained = false) (fun u m h e => by
        by_cases hm : l = m
        · subst hm
          have hup : (u.link l).state = .up := by
            simp only [Link.canAct, Bool.and_eq_true, decide_eq_true_eq] at h; exact h.1.1
          simp [Link.drained, (u.boundary_sameHeads l).state, hup]
        · rw [u.boundary_link_ne hm, e]) chosen (hh l)
    exact this _
  · have hc' : ∀ l, 1 ≤ (a.leaveHolds.link l).ctrl.crThresh := fun l => by rw [hr.ctrl, hdc]; exact hc l
    exact State.scheduleWhere_canAct _ l hc'

/-- An event ends as its own effect leaves the part, but for what the rest of the event does. -/
theorem settle_endsAs (u : State) : EndsAs u (settle u) := ⟨settle_aftermath u, fun h => settle_of_settled h⟩

end Sys2Proof.Machine
end

