-- ==== Sys2Proof/Laws/Copies.lean ====
section
/-! SUPPORT. What the end of copies leaves of their sources, and what the loss of copies records (R45, R46, R53, R93,
R94, R107, R144). -/

namespace Sys2Proof.Machine

/-! ### One source after several ended copies -/

theorem StoredPacket.less_zero (p : StoredPacket) : p.less 0 = some p := by simp [StoredPacket.less]

theorem Slot.less_zero (x : Slot) : x.less 0 = some x := by simp [Slot.less]

/-- Copies that end one after another end together (R45). -/
theorem StoredPacket.less_add (p : StoredPacket) (a b : Nat) : p.less (a + b) = (p.less a).bind (·.less b) := by
  unfold StoredPacket.less
  by_cases ha : a = 0
  · simp [ha]
  by_cases hb : b = 0
  · simp [hb]
  by_cases h : a < p.copies
  · simp [ha, hb, h]
    by_cases h2 : a + b < p.copies
    · have : b < p.copies - a := by omega
      simp [h2, this, Nat.sub_sub]
    · have : ¬ b < p.copies - a := by omega
      simp [h2, this]
  · have : ¬ a + b < p.copies := by omega
    simp [ha, h, this]

theorem StoredPacket.less_kept {p q : StoredPacket} {k : Nat} (h : p.less k = some q) :
    q.id = p.id ∧ q.hdr = p.hdr ∧ q.data = p.data ∧ q.region = p.region ∧ q.cond = p.cond ∧ q.copies = p.copies - k := by
  unfold StoredPacket.less at h
  split at h
  · simp_all
  · split at h
    · cases h; simp
    · cases h

theorem Slot.less_add (x : Slot) (a b : Nat) : x.less (a + b) = (x.less a).bind (·.less b) := by
  unfold Slot.less
  by_cases ha : a = 0
  · simp [ha]
  by_cases hb : b = 0
  · simp [hb]
  by_cases h : a < x.copies
  · simp [ha, hb, h]
    by_cases h2 : a + b < x.copies
    · have : b < x.copies - a := by omega
      simp [h2, this, Nat.sub_sub]
    · have : ¬ b < x.copies - a := by omega
      simp [h2, this]
  · have : ¬ a + b < x.copies := by omega
    simp [ha, h, this]

theorem copiesAmong_cons (e : EgressEntry) (es : List EgressEntry) (src : Source) :
    copiesAmong (e :: es) src = (if e.source = src then 1 else 0) + copiesAmong es src := by
  unfold copiesAmong; simp only [List.filter_cons]; split <;> simp_all [Nat.add_comm]

theorem copiesAmong_append (es fs : List EgressEntry) (src : Source) :
    copiesAmong (es ++ fs) src = copiesAmong es src + copiesAmong fs src := by
  simp [copiesAmong]

theorem copiesAmong_pos {es : List EgressEntry} {src : Source} : 0 < copiesAmong es src ↔ ∃ e ∈ es, e.source = src := by
  simp [copiesAmong, List.length_pos_iff_exists_mem]

theorem copiesAmong_split (es : List EgressEntry) (f : EgressEntry → Bool) (src : Source) :
    copiesAmong (es.filter f) src + copiesAmong (es.filter (fun e => !f e)) src = copiesAmong es src := by
  induction es with
  | nil => rfl
  | cons e es ih =>
    simp only [List.filter_cons]
    cases f e <;> simp [copiesAmong_cons] <;> omega

/-! ### A link's store (R45–R47, R53) -/

/-- What a store's release depends on of a packet. -/
def StoredPacket.space (p : StoredPacket) : Region × Header := (p.region, p.hdr)

/-- Two releases one after the other are one (R46, R47). -/
theorem Released.trans {up : Bool} {d : BitVec 8} {ps qs rs : List StoredPacket} {a b c : Store} (h : Released up d ps a b)
    (k : Released up d qs b c) (hp : (rs.map StoredPacket.space).Perm (ps.map StoredPacket.space ++ qs.map StoredPacket.space)) :
    Released up d rs a c := by
  have hsum : ∀ xs : List StoredPacket, ((xs.filter (fun p => p.region = .shared)).map (fun p => 1 + p.hdr.len.toNat)).sum =
      (((xs.map StoredPacket.space).filter (fun x => x.1 = Region.shared)).map (fun x => 1 + x.2.len.toNat)).sum := by
    intro xs
    induction xs with
    | nil => rfl
    | cons x xs ih => simp only [List.map_cons, List.filter_cons, StoredPacket.space]; split <;> simp_all
  have hany : ∀ (xs : List StoredPacket) (c : Class), xs.any (fun p => p.region = .reserved && p.cls = c) =
      (xs.map StoredPacket.space).any (fun x => x.1 = Region.reserved && x.2.queueClass = c) := by
    intro xs c
    rw [List.any_map]; rfl
  have hnil : ∀ xs : List StoredPacket, xs = [] ↔ xs.map StoredPacket.space = [] := fun xs => by simp
  have e1 : ((rs.filter (fun p => p.region = .shared)).map (fun p => 1 + p.hdr.len.toNat)).sum =
      ((ps.filter (fun p => p.region = .shared)).map (fun p => 1 + p.hdr.len.toNat)).sum +
        ((qs.filter (fun p => p.region = .shared)).map (fun p => 1 + p.hdr.len.toNat)).sum := by
    rw [hsum rs, hsum ps, hsum qs, ((hp.filter _).map _).sum_eq]
    simp
  have e2 : ∀ c : Class, rs.any (fun p => p.region = .reserved && p.cls = c) =
      (ps.any (fun p => p.region = .reserved && p.cls = c) || qs.any (fun p => p.region = .reserved && p.cls = c)) := by
    intro c
    rw [hany rs, hany ps, hany qs, hp.any_eq, List.any_append]
  have e3 : rs = [] ↔ ps = [] ∧ qs = [] := by
    rw [hnil rs, hnil ps, hnil qs]
    constructor
    · intro h0; rw [h0] at hp
      simpa using hp.nil_eq.symm
    · intro ⟨h1, h2⟩; rw [h1, h2] at hp; simpa using hp.eq_nil
  have hb : b.awaitShared = 0 ∧ b.awaitRes = ⟨false, false, false⟩ → up = true →
      ps = [] ∧ a.awaitShared = 0 ∧ a.awaitRes = ⟨false, false, false⟩ := by
    intro ⟨hs, hr⟩ hu
    have s := h.shared
    rw [hs, hu] at s
    have r := h.reserved
    rw [hr, hu] at r
    have ha : a.awaitRes = ⟨false, false, false⟩ := by
      have r1 := r .req
      have r2 := r .rpy
      have r3 := r .pst
      cases hx : a.awaitRes
      rw [hx] at r1 r2 r3
      simp [PerClass.get] at r1 r2 r3
      simp [r1.1, r2.1, r3.1]
    refine ⟨?_, by omega, ha⟩
    match ps, s, r with
    | [], _, _ => rfl
    | p :: ps', s, r =>
      exfalso
      cases hreg : p.region with
      | shared => simp [hreg] at s; omega
      | reserved =>
        have r0 := r p.cls
        have hg : (⟨false, false, false⟩ : PerClass Bool).get p.cls = false := by cases p.cls <;> rfl
        simp [hreg, hg] at r0
  refine ⟨?_, fun c => ?_, ?_, k.nextId.trans h.nextId⟩
  · rw [k.shared, h.shared, e1]; cases up <;> simp [Nat.add_assoc]
  · rw [k.reserved, h.reserved, e2]; cases up <;> simp [Bool.or_assoc]
  · have t1 := h.timer
    have t2 := k.timer
    by_cases hu : up = true
    · by_cases hA : ps ≠ [] ∧ a.awaitShared = 0 ∧ a.awaitRes = ⟨false, false, false⟩
      · rw [if_pos ⟨hu, hA⟩] at t1
        rw [if_neg (fun x => hA.1 (hb x.2.2 hu).1)] at t2
        rw [if_pos ⟨hu, fun x => hA.1 (e3.1 x).1, hA.2⟩]
        split
        · rename_i hd; rw [if_pos hd] at t1; exact ⟨t2.1.trans t1.1, t2.2.trans t1.2⟩
        · rename_i hd; rw [if_neg hd] at t1; exact ⟨t2.1.trans t1.1, t2.2.trans t1.2⟩
      · rw [if_neg (fun x => hA x.2)] at t1
        by_cases hp0 : ps = []
        · have s := h.shared
          have ea : b.awaitShared = a.awaitShared := by rw [s, hp0]; cases up <;> simp
          have eb : b.awaitRes = a.awaitRes := by
            have r1 := h.reserved .req
            have r2 := h.reserved .rpy
            have r3 := h.reserved .pst
            rw [hp0] at r1 r2 r3
            cases hx : a.awaitRes; cases hy : b.awaitRes
            rw [hx, hy] at r1 r2 r3
            simp [PerClass.get] at r1 r2 r3
            simp [r1, r2, r3]
          rw [ea, eb] at t2
          have e4 : rs ≠ [] ↔ qs ≠ [] := not_congr (e3.trans ⟨fun x => x.2, fun x => ⟨hp0, x⟩⟩)
          by_cases hB : up = true ∧ qs ≠ [] ∧ a.awaitShared = 0 ∧ a.awaitRes = ⟨false, false, false⟩
          · rw [if_pos hB] at t2
            rw [if_pos ⟨hB.1, e4.2 hB.2.1, hB.2.2⟩]
            split
            · rename_i hd; rw [if_pos hd] at t2; exact ⟨t2.1.trans t1.1, t2.2⟩
            · rename_i hd; rw [if_neg hd] at t2; exact ⟨t2.1, t2.2.trans t1.2⟩
          · rw [if_neg hB] at t2
            rw [if_neg (fun x => hB ⟨x.1, e4.1 x.2.1, x.2.2⟩)]
            exact ⟨t2.1.trans t1.1, t2.2.trans t1.2⟩
        · have hna : ¬(a.awaitShared = 0 ∧ a.awaitRes = ⟨false, false, false⟩) := fun x => hA ⟨hp0, x⟩
          rw [if_neg (fun x => hna (hb x.2.2 hu).2)] at t2
          rw [if_neg (fun x => hna x.2.2)]
          exact ⟨t2.1.trans t1.1, t2.2.trans t1.2⟩
    · rw [if_neg (fun x => hu x.1)] at t1 t2
      rw [if_neg (fun x => hu x.1)]
      exact ⟨t2.1.trans t1.1, t2.2.trans t1.2⟩

theorem Released.none (up : Bool) (d : BitVec 8) (k : Store) : Released up d [] k k := by
  refine ⟨by simp, fun c => by simp, by simp, rfl⟩

@[simp] theorem Store.startHoldoff_awaitShared (k : Store) (d : BitVec 8) :
    (k.startHoldoff d).awaitShared = k.awaitShared := by unfold Store.startHoldoff; split <;> rfl

@[simp] theorem Store.startHoldoff_awaitRes (k : Store) (d : BitVec 8) : (k.startHoldoff d).awaitRes = k.awaitRes := by
  unfold Store.startHoldoff; split <;> rfl

@[simp] theorem Store.startHoldoff_nextId (k : Store) (d : BitVec 8) : (k.startHoldoff d).nextId = k.nextId := by
  unfold Store.startHoldoff; split <;> rfl

theorem Store.awaiting_false {k : Store} : k.awaiting = false ↔ k.awaitShared = 0 ∧ k.awaitRes = ⟨false, false, false⟩ := by
  cases hx : k.awaitRes
  rename_i a b c
  cases a <;> cases b <;> cases c <;> simp [Store.awaiting, hx]

theorem PerClass.get_set_true (x : PerClass Bool) (c d : Class) : (x.set c true).get d = (x.get d || decide (c = d)) := by
  rw [PerClass.get_set]
  by_cases h : d = c
  · simp [h]
  · simp [h, Ne.symm h]

/-- The space of a released packet awaits return (R46, R47). -/
theorem Store.giveBack_released (k : Store) (d : BitVec 8) (p : StoredPacket) : Released true d [p] k (k.giveBack d p) := by
  unfold Store.giveBack
  cases hw : k.awaiting with
  | false =>
    have hn := Store.awaiting_false.1 hw
    cases hr : p.region <;> refine ⟨?_, fun c => ?_, ?_, ?_⟩ <;>
      simp [hr, hn.1, hn.2, StoredPacket.cells, Header.cells, PerClass.get_set_true]
    all_goals unfold Store.startHoldoff; split <;> simp_all
  | true =>
    have hn : ¬(k.awaitShared = 0 ∧ k.awaitRes = ⟨false, false, false⟩) := by
      rw [← Store.awaiting_false, hw]; decide
    cases hr : p.region <;> refine ⟨?_, fun c => ?_, ?_, ?_⟩ <;>
      simp [hr, hn, StoredPacket.cells, Header.cells, PerClass.get_set_true]

/-- The release of one packet (R46, R47, R52). -/
theorem Link.release_released {n : Link} {p : StoredPacket} {id : Nat} (hp : n.store.packet id = some p) :
    Released (decide (n.state = .up)) n.ctrl.crHoldoff [p] n.store (n.release id).store := by
  unfold Link.release
  simp only [hp]
  split
  · rename_i hu
    have h := (n.store.remove id).giveBack_released n.ctrl.crHoldoff p
    rw [decide_eq_true hu]
    exact ⟨h.shared, h.reserved, h.timer, h.nextId⟩
  · rename_i hu
    rw [decide_eq_false hu]
    exact ⟨by simp [Store.remove], fun c => by simp [Store.remove], by simp [Store.remove], rfl⟩

theorem Store.find_of_nodup {ps : List StoredPacket} (h : (ps.map StoredPacket.id).Nodup) {p : StoredPacket} (hp : p ∈ ps) :
    ps.find? (fun q => q.id = p.id) = some p := by
  induction ps with
  | nil => cases hp
  | cons q ps ih =>
    rw [List.map_cons, List.nodup_cons] at h
    rcases List.mem_cons.1 hp with rfl | hp
    · simp
    · have : q.id ≠ p.id := fun e => h.1 (e ▸ List.mem_map_of_mem hp)
      rw [List.find?_cons_of_neg (by simpa using this)]
      exact ih h.2 hp

theorem Store.packet_iff {k : Store} (h : (k.packets.map StoredPacket.id).Nodup) {id : Nat} {p : StoredPacket} :
    k.packet id = some p ↔ p ∈ k.packets ∧ p.id = id := by
  constructor
  · intro e
    exact ⟨List.mem_of_find?_eq_some e, by simpa using List.find?_some e⟩
  · rintro ⟨hp, rfl⟩
    exact Store.find_of_nodup h hp

/-- One ended copy in a link's store (R45). -/
theorem Link.endCopy_packets {n : Link} (id : Nat) (h : (n.store.packets.map StoredPacket.id).Nodup) :
    (n.endCopy id).store.packets = n.store.packets.filterMap (fun p => p.less (if p.id = id then 1 else 0)) := by
  unfold Link.endCopy
  split
  · rename_i hn
    simp only [Store.packet, List.find?_eq_none, decide_eq_true_eq] at hn
    rw [List.filterMap_congr (g := some), List.filterMap_some]
    intro p hp
    rw [if_neg (hn p hp), StoredPacket.less_zero]
  · rename_i q hq
    obtain ⟨hm, rfl⟩ := (Store.packet_iff h).1 hq
    have he : ∀ p ∈ n.store.packets, p.id = q.id → p = q := fun p hp e => by
      have := (Store.packet_iff h).2 ⟨hp, e⟩
      rw [hq] at this
      cases this; rfl
    split
    · rename_i hc
      rw [Link.release_packets, ← List.filterMap_eq_filter]
      refine List.filterMap_congr fun p hp => ?_
      by_cases e : p.id = q.id
      · rw [he p hp e]; simp [StoredPacket.less, Nat.not_lt.2 hc, Option.guard]
      · simp [e, StoredPacket.less_zero, Option.guard]
    · rename_i hc
      change n.store.packets.map _ = _
      rw [← List.filterMap_eq_map]
      refine List.filterMap_congr fun p hp => ?_
      by_cases e : p.id = q.id
      · rw [he p hp e]; simp [StoredPacket.less, Nat.lt_of_not_le hc]
      · simp [e, StoredPacket.less_zero]

theorem Store.less_names {ps : List StoredPacket} (f : StoredPacket → Nat) (h : (ps.map StoredPacket.id).Nodup) :
    ((ps.filterMap (fun p => p.less (f p))).map StoredPacket.id).Nodup := by
  have : ((ps.filterMap (fun p => p.less (f p))).map StoredPacket.id).Sublist (ps.map StoredPacket.id) := by
    induction ps with
    | nil => exact List.Sublist.refl _
    | cons p ps ih =>
      have := ih (List.nodup_cons.1 h).2
      rw [List.filterMap_cons]
      split
      · exact this.cons _
      · rename_i q hq
        rw [List.map_cons, List.map_cons, (StoredPacket.less_kept hq).1]
        exact this.cons_cons _
  exact this.nodup h

/-- What one ended copy releases (R45, R46). -/
theorem Link.endCopy_released {n : Link} (id : Nat) (h : (n.store.packets.map StoredPacket.id).Nodup) :
    Released (decide (n.state = .up)) n.ctrl.crHoldoff
      (n.store.packets.filter (fun p => p.less (if p.id = id then 1 else 0) = none)) n.store (n.endCopy id).store := by
  unfold Link.endCopy
  split
  · rename_i hn
    simp only [Store.packet, List.find?_eq_none, decide_eq_true_eq] at hn
    rw [List.filter_eq_nil_iff.2]
    · exact .none _ _ _
    · intro p hp; rw [if_neg (hn p hp)]; simp [StoredPacket.less_zero]
  · rename_i q hq
    obtain ⟨hm, rfl⟩ := (Store.packet_iff h).1 hq
    have he : ∀ p ∈ n.store.packets, p.id = q.id → p = q := fun p hp e => by
      have := (Store.packet_iff h).2 ⟨hp, e⟩
      rw [hq] at this
      cases this; rfl
    split
    · rename_i hc
      have : n.store.packets.filter (fun p => p.less (if p.id = q.id then 1 else 0) = none) = [q] := by
        have e1 : n.store.packets.filter (fun p => p.less (if p.id = q.id then 1 else 0) = none) =
            n.store.packets.filter (fun p => p.id = q.id) := by
          refine List.filter_congr fun p hp => ?_
          by_cases e : p.id = q.id
          · rw [he p hp e]; simp [StoredPacket.less, Nat.not_lt.2 hc]
          · simp [e, StoredPacket.less_zero]
        rw [e1]
        clear e1 hq
        generalize n.store.packets = ps at *
        induction ps with
        | nil => cases hm
        | cons p ps ih =>
          rw [List.map_cons, List.nodup_cons] at h
          by_cases e : p.id = q.id
          · have : ps.filter (fun r => r.id = q.id) = [] := by
              rw [List.filter_eq_nil_iff]
              intro r hr
              simp only [decide_eq_true_eq]
              intro er
              exact h.1 (by rw [e, ← er]; exact List.mem_map_of_mem hr)
            simp [this, he p (by simp) e]
          · rw [List.filter_cons_of_neg (by simpa using e)]
            refine ih h.2 ?_ (fun r hr => he r (by simp [hr]))
            rcases List.mem_cons.1 hm with rfl | hm
            · exact absurd rfl e
            · exact hm
      rw [this]
      exact Link.release_released hq
    · rename_i hc
      rw [List.filter_eq_nil_iff.2]
      · exact ⟨by simp [Store.modPacket], fun c => by simp [Store.modPacket], by simp [Store.modPacket], rfl⟩
      · intro p hp
        by_cases e : p.id = q.id
        · rw [he p hp e]; simp [StoredPacket.less, Nat.lt_of_not_le hc]
        · simp [e, StoredPacket.less_zero]

/-- Several ended copies of a link's store, one after another (R45, R46, R53). -/
theorem Link.endCopies_store (ids : List Nat) : ∀ (n : Link), (n.store.packets.map StoredPacket.id).Nodup →
    (ids.foldl Link.endCopy n).store.packets = n.store.packets.filterMap (fun p => p.less (ids.count p.id)) ∧
      Released (decide (n.state = .up)) n.ctrl.crHoldoff
        (n.store.packets.filter (fun p => p.less (ids.count p.id) = none)) n.store (ids.foldl Link.endCopy n).store := by
  induction ids with
  | nil =>
    intro n _
    refine ⟨by simp [StoredPacket.less_zero], ?_⟩
    rw [List.filter_eq_nil_iff.2]
    · exact .none _ _ _
    · simp [StoredPacket.less_zero]
  | cons id ids ih =>
    intro n h
    have hp := Link.endCopy_packets id h
    have hn : ((n.endCopy id).store.packets.map StoredPacket.id).Nodup := by rw [hp]; exact Store.less_names _ h
    obtain ⟨h1, h2⟩ := ih (n.endCopy id) hn
    have hc : ∀ p : StoredPacket, p.less ((id :: ids).count p.id) =
        (p.less (if p.id = id then 1 else 0)).bind (fun q => q.less (ids.count q.id)) := by
      intro p
      have e : (id :: ids).count p.id = (if p.id = id then 1 else 0) + ids.count p.id := by
        rw [List.count_cons]
        by_cases x : p.id = id
        · simp [x, Nat.add_comm]
        · simp [x, Ne.symm x]
      rw [e, StoredPacket.less_add]
      rcases hq : p.less (if p.id = id then 1 else 0) with _ | q
      · rfl
      · simp [(StoredPacket.less_kept hq).1]
    have w : (n.endCopy id).state = n.state ∧ (n.endCopy id).ctrl = n.ctrl := by
      unfold Link.endCopy
      split
      · simp
      · split
        · exact ⟨(n.release_words id).2.2.2.1, (n.release_words id).1⟩
        · simp
    rw [List.foldl_cons, h1, hp, List.filterMap_filterMap]
    refine ⟨List.filterMap_congr fun p _ => (hc p).symm, ?_⟩
    rw [w.1, w.2, hp] at h2
    refine (Link.endCopy_released id h).trans h2 ?_
    simp only [hc]
    clear h1 h2 hn hp w h hc
    generalize n.store.packets = ps
    induction ps with
    | nil => simp
    | cons p ps ih =>
      simp only [List.filter_cons, List.filterMap_cons]
      rcases hq : p.less (if p.id = id then 1 else 0) with _ | q
      · simpa only [Option.bind_none, decide_true, if_true, List.map_cons, List.cons_append] using ih.cons _
      · have ek := StoredPacket.less_kept hq
        have es : q.space = p.space := by simp [StoredPacket.space, ek]
        simp only [Option.bind_some, reduceCtorEq, decide_false, Bool.false_eq_true, if_false, List.filter_cons]
        split
        · simp only [List.map_cons, es]
          exact (ih.cons _).trans List.perm_middle.symm
        · exact ih

/-! ### The loss of several copies (R93, R94) -/

theorem State.complete_fields (s : State) (r : ReqIx) (st : Status) : (s.complete r st).links = s.links ∧
    (s.complete r st).slots = s.slots ∧ (s.complete r st).jobs = s.jobs ∧ (s.complete r st).nextJob = s.nextJob := by
  unfold State.complete State.completeAs
  split <;> exact ⟨rfl, rfl, rfl, rfl⟩

theorem State.recordLoss_fields (s : State) (e : EgressEntry) : (s.recordLoss e).links = s.links ∧
    (s.recordLoss e).slots = s.slots ∧ (s.recordLoss e).jobs = s.jobs ∧ (s.recordLoss e).nextJob = s.nextJob := by
  unfold State.recordLoss
  split
  · exact s.complete_fields _ _
  · split <;> exact ⟨rfl, rfl, rfl, rfl⟩

/-- The packet a source names in link `m`'s store. -/
def Source.idIn (m : LinkId) : Source → Option Nat
  | .store l id => if l = m then some id else none
  | _ => none

theorem State.endCopy_link (s : State) (src : Source) (m : LinkId) : (s.endCopy src).link m =
    match src.idIn m with
    | some id => (s.link m).endCopy id
    | none => s.link m := by
  cases src with
  | store l id =>
    simp only [State.endCopy, State.link_modLink, Source.idIn]
    by_cases h : m = l
    · simp [h]
    · simp [h, Ne.symm h]
  | slot i =>
    simp only [State.endCopy, Source.idIn, State.endSlotCopy]
    repeat' split
    all_goals rfl
  | job id => rfl

theorem State.loseCopy_link (s : State) (e : EgressEntry) (m : LinkId) : (s.loseCopy e).link m =
    match e.source.idIn m with
    | some id => (s.link m).endCopy id
    | none => s.link m := by
  have : (s.recordLoss e).link m = s.link m := by simp only [State.link, (s.recordLoss_fields e).1]
  rw [State.loseCopy, State.endCopy_link, this]

theorem State.loseCopies_link (m : LinkId) : ∀ (es : List EgressEntry) (s : State),
    (es.foldl State.loseCopy s).link m = (es.filterMap (fun e => e.source.idIn m)).foldl Link.endCopy (s.link m) := by
  intro es
  induction es with
  | nil => exact fun s => rfl
  | cons e es ih =>
    intro s
    rw [List.foldl_cons, ih, State.loseCopy_link, List.filterMap_cons]
    rcases e.source.idIn m <;> rfl

theorem Source.idIn_eq {src : Source} {m : LinkId} {id : Nat} : src.idIn m = some id ↔ src = .store m id := by
  cases src <;> simp only [Source.idIn, Source.store.injEq, reduceCtorEq]
  split <;> simp_all

theorem copiesAmong_store (es : List EgressEntry) (m : LinkId) (id : Nat) :
    (es.filterMap (fun e => e.source.idIn m)).count id = copiesAmong es (.store m id) := by
  induction es with
  | nil => rfl
  | cons e es ih =>
    rw [List.filterMap_cons, copiesAmong_cons]
    rcases hs : e.source.idIn m with _ | x
    · have : e.source ≠ .store m id := fun h => by rw [Source.idIn_eq.2 h] at hs; cases hs
      simp [this, ih]
    · rw [Source.idIn_eq.1 hs, List.count_cons, ih]
      by_cases h : x = id <;> simp [h, Nat.add_comm]

theorem State.endCopy_slot (s : State) (src : Source) (i : SlotIx) :
    (s.endCopy src).slot i = (s.slot i).bind (fun k => k.less (if src = .slot i then 1 else 0)) := by
  cases src with
  | store l id => simp [State.endCopy, Slot.less_zero]
  | slot j =>
    simp only [State.endCopy, Source.slot.injEq, State.endSlotCopy]
    split
    · rename_i h
      by_cases e : j = i
      · subst e; simp [h]
      · simp [e, Slot.less_zero]
    · rename_i k h
      split
      · rename_i hc
        rw [State.latch_slot, State.slot_setSlot]
        by_cases e : i = j
        · subst e; simp [h, Slot.less, Nat.not_lt.2 hc]
        · simp [e, Ne.symm e, Slot.less_zero]
      · rename_i hc
        rw [State.slot_setSlot]
        by_cases e : i = j
        · subst e; simp [h, Slot.less, Nat.lt_of_not_le hc]
        · simp [e, Ne.symm e, Slot.less_zero]
  | job id => simp [State.endCopy, State.freeJob, Slot.less_zero]

theorem State.loseCopy_slot (s : State) (e : EgressEntry) (i : SlotIx) :
    (s.loseCopy e).slot i = (s.slot i).bind (fun k => k.less (if e.source = .slot i then 1 else 0)) := by
  have : (s.recordLoss e).slot i = s.slot i := by simp only [State.slot, (s.recordLoss_fields e).2.1]
  rw [State.loseCopy, State.endCopy_slot, this]

/-- A slot after the loss of several copies (R107, R109). -/
theorem State.loseCopies_slot (i : SlotIx) : ∀ (es : List EgressEntry) (s : State),
    (es.foldl State.loseCopy s).slot i = (s.slot i).bind (fun k => k.less (copiesAmong es (.slot i))) := by
  intro es
  induction es with
  | nil => intro s; simp [copiesAmong, Slot.less_zero]
  | cons e es ih =>
    intro s
    rw [List.foldl_cons, ih, State.loseCopy_slot, Option.bind_assoc]
    refine congrArg _ (funext fun k => ?_)
    rw [copiesAmong_cons, Slot.less_add]

theorem State.endCopy_jobs (s : State) (src : Source) :
    (s.endCopy src).jobs = s.jobs.filter (fun j => src ≠ .job j.id) ∧ (s.endCopy src).nextJob = s.nextJob := by
  cases src with
  | store l id => simp [State.endCopy]
  | slot j =>
    simp only [State.endCopy, State.endSlotCopy]
    repeat' split
    all_goals simp
  | job id =>
    refine ⟨?_, rfl⟩
    simp only [State.endCopy, State.freeJob, State.setJobs_jobs]
    refine List.filter_congr fun j _ => ?_
    by_cases h : j.id = id
    · simp [h]
    · simp [h, Ne.symm h]

/-- The responder's jobs after the loss of several copies (R144, R149). -/
theorem State.loseCopies_jobs : ∀ (es : List EgressEntry) (s : State),
    (es.foldl State.loseCopy s).jobs = s.jobs.filter (fun j => copiesAmong es (.job j.id) = 0) ∧
      (es.foldl State.loseCopy s).nextJob = s.nextJob := by
  intro es
  induction es with
  | nil => intro s; simp [copiesAmong]
  | cons e es ih =>
    intro s
    have hr := s.recordLoss_fields e
    have he := (s.recordLoss e).endCopy_jobs e.source
    rw [List.foldl_cons, (ih _).1, (ih _).2, State.loseCopy, he.1, he.2, hr.2.2.1, hr.2.2.2, List.filter_filter]
    refine ⟨List.filter_congr fun j _ => ?_, rfl⟩
    rw [copiesAmong_cons]
    by_cases h : e.source = .job j.id <;> simp [h]

/-! ### What a teardown records (R93, R117, R171, R172) -/

/-- The slots that `t` has free and `s` had held. -/
def State.Frees (s t : State) : Prop := ∃ i, (s.slot i).isSome = true ∧ t.slot i = none

/-- From `s` to `t` the entries `rs` have completed with LINK_LOST in that order and the drops `ds` have been recorded. -/
structure Noted (s t : State) (rs : List ReqIx) (ds : List DropRecord) : Prop where
  entry   : ∀ r, t.entry r = if r ∈ rs then (s.entry r).completed .linkLost else s.entry r
  cq      : t.cq = s.cq ++ rs
  enable  : t.events.enable = s.events.enable
  count   : t.events.dropCount.toNat = min 65535 (s.events.dropCount.toNat + ds.length)
  capture : t.events.capture = s.events.capture.or ds.head?
  gone    : ∀ i, s.slot i = none → t.slot i = none
  drops   : ∀ b : Bool, (b = true ↔ s.Frees t) → t.events.latch = s.events.latch ||| (if ds = [] then 0 else 0x10) |||
              (if rs = [] then 0 else 0x02) ||| (if b then 0x40 else 0)

theorem Noted.of_same {s t : State} (h1 : t.reqs = s.reqs) (h2 : t.cq = s.cq) (h3 : t.events = s.events)
    (h4 : t.slots = s.slots) : Noted s t [] [] where
  entry r := by simp [State.entry, h1]
  cq := by simp [h2]
  enable := by rw [h3]
  count := by rw [h3]; have := s.events.dropCount.isLt; simp; omega
  capture := by rw [h3]; simp
  gone i hi := by simpa [State.slot, h4] using hi
  drops b hb := by
    have : b = false := by
      rw [← Bool.not_eq_true, hb]
      rintro ⟨i, hi, hn⟩
      rw [show t.slot i = s.slot i by simp [State.slot, h4]] at hn
      rw [hn] at hi; cases hi
    simp [this, h3]

theorem Noted.refl (s : State) : Noted s s [] [] := .of_same rfl rfl rfl rfl

theorem Noted.trans {s t u : State} {rs qs : List ReqIx} {ds xs : List DropRecord} (h : Noted s t rs ds)
    (k : Noted t u qs xs) : Noted s u (rs ++ qs) (ds ++ xs) where
  entry r := by
    rw [k.entry, h.entry]
    by_cases h1 : r ∈ rs <;> by_cases h2 : r ∈ qs <;> simp [h1, h2, ReqEntry.completed]
  cq := by rw [k.cq, h.cq, List.append_assoc]
  enable := k.enable.trans h.enable
  count := by rw [k.count, h.count, List.length_append]; omega
  capture := by
    rw [k.capture, h.capture]
    cases s.events.capture <;> cases ds <;> simp
  gone i hi := k.gone i (h.gone i hi)
  drops b hb := by
    classical
    have h1 := h.drops (decide (s.Frees t)) (by simp)
    have h2 := k.drops (decide (t.Frees u)) (by simp)
    have e : b = (decide (s.Frees t) || decide (t.Frees u)) := by
      rw [Bool.eq_iff_iff, hb, Bool.or_eq_true, decide_eq_true_iff, decide_eq_true_iff]
      constructor
      · rintro ⟨i, hi, hn⟩
        by_cases ht : t.slot i = none
        · exact .inl ⟨i, hi, ht⟩
        · exact .inr ⟨i, by cases hx : t.slot i <;> simp_all, hn⟩
      · rintro (⟨i, hi, hn⟩ | ⟨i, hi, hn⟩)
        · exact ⟨i, hi, k.gone i hn⟩
        · refine ⟨i, ?_, hn⟩
          cases hx : s.slot i with
          | none => rw [h.gone i hx] at hi; cases hi
          | some _ => rfl
    rw [h2, h1, e]
    generalize decide (s.Frees t) = x
    generalize decide (t.Frees u) = y
    generalize s.events.latch = v
    have ha : ∀ (α : Type) (a b : List α) (m : BitVec 7), (if a ++ b = [] then (0 : BitVec 7) else m) =
        (if a = [] then 0 else m) ||| (if b = [] then 0 else m) := by
      intro α a b m
      cases a <;> cases b <;> simp
    rw [ha, ha]
    have hbool : (if (x || y) = true then (0x40 : BitVec 7) else 0) = (if x then 0x40 else 0) ||| (if y then 0x40 else 0) := by
      cases x <;> cases y <;> rfl
    rw [hbool]
    ac_rfl

theorem Noted.drop (s : State) (r : DropReason) (o : Origin) (h : Header) :
    Noted s (s.drop r o h) [] [DropRecord.of r o h] where
  entry r := by simp
  cq := by simp
  enable := by simp
  count := by
    have hs := s.events.dropCount.isLt
    simp only [State.drop, EventUnit.dropped]
    split
    · rename_i h; rw [h]; simp
    · rename_i hne
      have : s.events.dropCount.toNat ≠ 65535 := fun e => hne (BitVec.eq_of_toNat_eq (by rw [e]; rfl))
      rw [BitVec.toNat_add]
      simp
      omega
  capture := by simp [State.drop, EventUnit.dropped]
  gone i hi := hi
  drops b hb := by
    have : b = false := by
      rw [← Bool.not_eq_true, hb]
      rintro ⟨i, hi, hn⟩
      rw [State.drop_slot] at hn
      rw [hn] at hi; cases hi
    simp [this, EventBit.mask]

theorem Noted.complete {s : State} {r : ReqIx} (h : (s.entry r).state = .queued ∨ (s.entry r).state = .sent) :
    Noted s (s.complete r .linkLost) [r] [] := by
  have e : s.complete r .linkLost = ((s.setEntry r ((s.entry r).completed .linkLost)).pushCq r).latch .completion := by
    unfold State.complete State.completeAs; rw [if_pos h]
  rw [e]
  refine ⟨fun q => ?_, rfl, rfl, ?_, by simp [State.latch, EventUnit.latched], fun i hi => hi, fun b hb => ?_⟩
  · rw [State.latch_entry, State.pushCq_entry, State.entry_setEntry]
    by_cases hq : q = r
    · subst hq; simp
    · simp [hq]
  · have := s.events.dropCount.isLt; simp [State.latch, EventUnit.latched]; omega
  · have : b = false := by
      rw [← Bool.not_eq_true, hb]
      rintro ⟨i, hi, hn⟩
      have hn' : s.slot i = none := hn
      rw [hn'] at hi; cases hi
    simp [this, EventBit.mask]

theorem Noted.endCopy (s : State) (src : Source) : Noted s (s.endCopy src) [] [] := by
  cases src with
  | store l id => exact .of_same rfl rfl rfl rfl
  | job id => exact .of_same rfl rfl rfl rfl
  | slot i =>
    simp only [State.endCopy, State.endSlotCopy]
    split
    · exact .refl s
    · rename_i k hk
      split
      · refine ⟨fun q => by simp, by simp, by simp, ?_, ?_, fun j hj => ?_, fun b hb => ?_⟩
        · have := s.events.dropCount.isLt
          simp only [State.latch, EventUnit.latched, State.setSlot_events]
          simp; omega
        · simp [State.latch, EventUnit.latched]
        · rw [State.latch_slot, State.slot_setSlot]; split <;> simp_all
        · have : b = true := hb.2 ⟨i, by rw [hk]; rfl, by rw [State.latch_slot, State.slot_setSlot]; simp⟩
          simp [this, EventBit.mask]
      · refine ⟨fun q => by simp, by simp, by simp, ?_, ?_, fun j hj => ?_, fun b hb => ?_⟩
        · have := s.events.dropCount.isLt; simp; omega
        · simp
        · rw [State.slot_setSlot]; split
          · rename_i h; subst h; rw [hk] at hj; cases hj
          · exact hj
        · have : b = false := by
            rw [← Bool.not_eq_true, hb]
            rintro ⟨j, hi, hn⟩
            rw [State.slot_setSlot] at hn
            split at hn
            · cases hn
            · rw [hn] at hi; cases hi
          simp [this]

/-- The packet of a name after one copy has ended (R45). -/
theorem Link.endCopy_packet (n : Link) (y id : Nat) : (n.endCopy y).store.packet id =
    if y = id then (n.store.packet id).bind (·.less 1) else n.store.packet id := by
  have hrel : (n.release y).store.packet id = if y = id then none else n.store.packet id := by
    unfold Store.packet
    rw [Link.release_packets, List.find?_filter]
    split
    · subst y; rw [List.find?_eq_none]; simp
    · rename_i h
      refine congrArg (fun f => List.find? f _) (funext fun p => ?_)
      by_cases e : p.id = id
      · simp [e, Ne.symm h]
      · simp [e]
  have hmod : (n.store.modPacket y (fun q => { q with copies := q.copies - 1 })).packet id =
      (n.store.packet id).map (fun p => if p.id = y then { p with copies := p.copies - 1 } else p) := by
    simp only [Store.modPacket, Store.packet, List.find?_map]
    refine congrArg (fun f => Option.map _ (List.find? f _)) (funext fun p => ?_)
    simp only [Function.comp]; split <;> rfl
  unfold Link.endCopy
  split
  · rename_i h
    split
    · subst y; simp [h]
    · rfl
  · rename_i p h
    split
    · rename_i hc
      rw [hrel]
      split
      · subst y; simp [h, StoredPacket.less, Nat.not_lt.2 hc]
      · rfl
    · rename_i hc
      refine hmod.trans ?_
      split
      · subst y
        have hp : p.id = id := by simpa using List.find?_some h
        simp [h, hp, StoredPacket.less, Nat.lt_of_not_le hc]
      · rename_i hy
        rcases hq : n.store.packet id with _ | q
        · rfl
        · have hp : q.id = id := by simpa using List.find?_some hq
          simp [hp, Ne.symm hy]

/-- How many copies of a source can still end: those it is held for. -/
def State.capacity (s : State) : Source → Nat
  | .store l id => (((s.link l).store.packet id).map StoredPacket.copies).getD 0
  | .slot i => ((s.slot i).map Slot.copies).getD 0
  | .job id => if (s.job id).isSome then 1 else 0

theorem State.endCopy_storePacket (s : State) (x : Source) (l : LinkId) (id : Nat) :
    ((s.endCopy x).link l).store.packet id =
      if x = .store l id then ((s.link l).store.packet id).bind (·.less 1) else (s.link l).store.packet id := by
  rw [State.endCopy_link]
  rcases hx : x.idIn l with _ | y
  · have : x ≠ .store l id := fun h => by rw [Source.idIn_eq.2 h] at hx; cases hx
    simp [this]
  · rw [Source.idIn_eq.1 hx]
    simp only [Link.endCopy_packet, Source.store.injEq, true_and]

theorem State.endCopy_job (s : State) (x : Source) (id : Nat) :
    (s.endCopy x).job id = if x = .job id then none else s.job id := by
  simp only [State.job, (s.endCopy_jobs x).1, List.find?_filter]
  split
  · rename_i h
    rw [List.find?_eq_none]
    intro j _
    simp only [h, decide_eq_true_eq, not_and]
    intro h1 e; exact h1 (by rw [e])
  · rename_i h
    refine congrArg (fun f => List.find? f _) (funext fun j => ?_)
    by_cases e : j.id = id
    · simp [e, h]
    · simp [e]

/-- Each ended copy of a source leaves room for one less. -/
theorem State.endCopy_capacity (s : State) (x src : Source) :
    (s.endCopy x).capacity src = s.capacity src - if x = src then 1 else 0 := by
  cases src with
  | store l id =>
    simp only [State.capacity, State.endCopy_storePacket]
    split
    · rcases (s.link l).store.packet id with _ | p
      · rfl
      · by_cases hc : 1 < p.copies
        · simp [StoredPacket.less, hc]
        · simp [StoredPacket.less, hc]; omega
    · rfl
  | slot i =>
    simp only [State.capacity, State.endCopy_slot]
    rcases s.slot i with _ | k
    · simp
    · split
      · by_cases hc : 1 < k.copies
        · simp [Slot.less, hc]
        · simp [Slot.less, hc]; omega
      · simp [Slot.less_zero]
  | job id =>
    simp only [State.capacity, State.endCopy_job]
    split
    · simp; split <;> rfl
    · simp

/-- Whatever still has room is held as it was, but for its copy count. -/
theorem State.endCopy_source {s : State} {x src : Source} (h : 0 < (s.endCopy x).capacity src) :
    (s.endCopy x).source src = s.source src ∧ (s.endCopy x).hostReq src = s.hostReq src := by
  cases src with
  | store l id =>
    refine ⟨?_, rfl⟩
    simp only [State.capacity, State.endCopy_storePacket] at h
    simp only [State.source, State.endCopy_storePacket]
    split
    · rename_i hx
      rw [if_pos hx] at h
      rcases hp : (s.link l).store.packet id with _ | p
      · rfl
      · rcases hq : p.less 1 with _ | q
        · simp [hp, hq] at h
        · have := StoredPacket.less_kept hq
          simp [hq, this]
    · rfl
  | slot i =>
    simp only [State.capacity, State.endCopy_slot] at h
    simp only [State.source, State.hostReq, State.endCopy_slot]
    rcases hk : s.slot i with _ | k
    · simp
    · rw [hk] at h
      simp only [Option.bind_some] at h ⊢
      generalize (if x = .slot i then 1 else 0) = c at h ⊢
      unfold Slot.less at h ⊢
      split
      · simp
      · rename_i h1
        rw [if_neg h1] at h
        split
        · simp
        · rename_i h2; simp [h2] at h
  | job id =>
    refine ⟨?_, rfl⟩
    simp only [State.capacity, State.endCopy_job] at h
    simp only [State.source, State.endCopy_job]
    split
    · rename_i hx; simp [hx] at h
    · rfl

theorem State.recordLoss_source (s : State) (e : EgressEntry) (src : Source) : (s.recordLoss e).capacity src = s.capacity src ∧
    (s.recordLoss e).source src = s.source src ∧ (s.recordLoss e).hostReq src = s.hostReq src := by
  obtain ⟨h1, h2, h3, -⟩ := s.recordLoss_fields e
  cases src <;> simp [State.capacity, State.source, State.hostReq, State.link, State.slot, State.job, h1, h2, h3]

/-- What the loss of a copy is recorded as, its source still held (R93). -/
theorem Noted.recordLoss {s : State} {e : EgressEntry} (h : ∀ r, s.hostReq e.source = some r → (s.entry r).state = .queued) :
    Noted s (s.recordLoss e) (s.hostReq e.source).toList
      (if !e.group && (s.hostReq e.source).isNone then
        [DropRecord.of .linkDown e.source.origin (s.sourceHeader e.source)] else []) := by
  unfold State.recordLoss
  rcases hr : s.hostReq e.source with _ | r
  · by_cases hg : e.group = true
    · simp only [hg]; exact .refl s
    · simp only [hg]
      simpa using Noted.drop s .linkDown e.source.origin (s.sourceHeader e.source)
  · simpa using Noted.complete (.inl (h r hr))

/-- The loss of several copies, the sources held for all of them (R93, R117). -/
theorem Noted.loseCopies : ∀ (es : List EgressEntry) (s : State), (∀ src, copiesAmong es src ≤ s.capacity src) →
    (es.filterMap (fun e => s.hostReq e.source)).Nodup →
    (∀ e ∈ es, ∀ r, s.hostReq e.source = some r → (s.entry r).state = .queued) →
    Noted s (es.foldl State.loseCopy s) (es.filterMap (fun e => s.hostReq e.source))
      ((es.filter (fun e => !e.group && (s.hostReq e.source).isNone)).map
        (fun e => DropRecord.of .linkDown e.source.origin (s.sourceHeader e.source))) := by
  intro es
  induction es with
  | nil => exact fun s _ _ _ => .refl s
  | cons e es ih =>
    intro s hcap hnd hq
    have h1 := (Noted.recordLoss (hq e (by simp))).trans (.endCopy (s.recordLoss e) e.source)
    rw [List.append_nil, List.append_nil] at h1
    change Noted s (s.loseCopy e) _ _ at h1
    have hc' : ∀ src, (s.loseCopy e).capacity src = s.capacity src - if e.source = src then 1 else 0 := fun src => by
      rw [State.loseCopy, State.endCopy_capacity, (s.recordLoss_source e src).1]
    have hcap' : ∀ src, copiesAmong es src ≤ (s.loseCopy e).capacity src := fun src => by
      have := hcap src
      rw [copiesAmong_cons] at this
      rw [hc']; omega
    have hsrc : ∀ f ∈ es, (s.loseCopy e).source f.source = s.source f.source ∧
        (s.loseCopy e).hostReq f.source = s.hostReq f.source := fun f hf => by
      have hpos : 0 < (s.loseCopy e).capacity f.source :=
        Nat.lt_of_lt_of_le (copiesAmong_pos.2 ⟨f, hf, rfl⟩) (hcap' _)
      have := State.endCopy_source (s := s.recordLoss e) (x := e.source) hpos
      have k := s.recordLoss_source e f.source
      exact ⟨this.1.trans k.2.1, this.2.trans k.2.2⟩
    have hfm : es.filterMap (fun f => (s.loseCopy e).hostReq f.source) = es.filterMap (fun f => s.hostReq f.source) :=
      List.filterMap_congr fun f hf => (hsrc f hf).2
    rw [List.filterMap_cons] at hnd
    have h2 := ih (s.loseCopy e) hcap' (by
        rw [hfm]
        rcases hr : s.hostReq e.source with _ | r
        · simpa [hr] using hnd
        · rw [hr] at hnd; exact (List.nodup_cons.1 hnd).2) (fun f hf r hr => by
        rw [(hsrc f hf).2] at hr
        rw [h1.entry, if_neg]
        · exact hq f (by simp [hf]) r hr
        · intro hm
          have he : s.hostReq e.source = some r := by simpa using hm
          rw [he] at hnd
          exact (List.nodup_cons.1 hnd).1 (List.mem_filterMap.2 ⟨f, hf, hr⟩))
    have h3 := h1.trans h2
    rw [hfm] at h3
    have e1 : es.filter (fun f => !f.group && ((s.loseCopy e).hostReq f.source).isNone) =
        es.filter (fun f => !f.group && (s.hostReq f.source).isNone) :=
      List.filter_congr fun f hf => by rw [(hsrc f hf).2]
    have e2 : (es.filter (fun f => !f.group && (s.hostReq f.source).isNone)).map
        (fun f => DropRecord.of .linkDown f.source.origin ((s.loseCopy e).sourceHeader f.source)) =
        (es.filter (fun f => !f.group && (s.hostReq f.source).isNone)).map
        (fun f => DropRecord.of .linkDown f.source.origin (s.sourceHeader f.source)) :=
      List.map_congr_left fun f hf => by
        simp only [State.sourceHeader, (hsrc f (List.mem_filter.1 hf).1).1]
    rw [e1, e2] at h3
    rw [List.foldl_cons, List.filterMap_cons, List.filter_cons]
    convert h3 using 1
    · rcases s.hostReq e.source <;> rfl
    · split <;> simp

/-- The drops of a purge (R51). -/
theorem Noted.recordPurges (n : LinkId) : ∀ (ps : List StoredPacket) (s : State), Noted s (s.recordPurges n ps) []
    ((ps.filter (fun p => !p.hdr.grp)).map (fun p => DropRecord.of .linkDown (.link n) p.hdr)) := by
  intro ps
  induction ps with
  | nil => exact fun s => .refl s
  | cons p ps ih =>
    intro s
    have h : Noted s (s.recordPurge n p) [] (if !p.hdr.grp then [DropRecord.of .linkDown (.link n) p.hdr] else []) := by
      unfold State.recordPurge
      cases p.hdr.grp
      · exact .drop s _ _ _
      · exact .refl s
    have k := h.trans (ih (s.recordPurge n p))
    have e : ((p :: ps).filter (fun p => !p.hdr.grp)).map (fun p => DropRecord.of .linkDown (.link n) p.hdr) =
        (if !p.hdr.grp then [DropRecord.of .linkDown (.link n) p.hdr] else []) ++
          (ps.filter (fun p => !p.hdr.grp)).map (fun p => DropRecord.of .linkDown (.link n) p.hdr) := by
      rw [List.filter_cons]; split <;> simp
    rw [e]
    exact k

/-- The entries in SENT on the torn-down link complete in index order (R116, R117). -/
theorem Noted.loseSent (s : State) (n : LinkId) :
    Noted s (s.loseSent n) (reqIxs.filter (fun r => (s.entry r).state = .sent ∧ (s.entry r).egress = n)) [] := by
  have key : ∀ (rs : List ReqIx) (t : State), rs.Nodup → Noted t
      (rs.foldl (fun t r => if (t.entry r).state = .sent ∧ (t.entry r).egress = n then t.complete r .linkLost else t) t)
      (rs.filter (fun r => (t.entry r).state = .sent ∧ (t.entry r).egress = n)) [] := by
    intro rs
    induction rs with
    | nil => exact fun t _ => .refl t
    | cons r rs ih =>
      intro t hn
      obtain ⟨hr, hn⟩ := List.nodup_cons.1 hn
      rw [List.foldl_cons, List.filter_cons]
      by_cases hs : (t.entry r).state = .sent ∧ (t.entry r).egress = n
      · rw [if_pos hs, if_pos (by simpa using hs)]
        have h := Noted.complete (s := t) (.inr hs.1)
        have k := h.trans (ih (t.complete r .linkLost) hn)
        have e : rs.filter (fun q => ((t.complete r .linkLost).entry q).state = .sent ∧
            ((t.complete r .linkLost).entry q).egress = n) =
            rs.filter (fun q => (t.entry q).state = .sent ∧ (t.entry q).egress = n) :=
          List.filter_congr fun q hq => by
            rw [h.entry, if_neg]
            simp only [List.mem_singleton]
            rintro rfl
            exact hr hq
        rw [e] at k
        exact k
      · rw [if_neg hs, if_neg (by simpa using hs)]
        exact ih t hn
  exact key reqIxs s (by decide)

end Sys2Proof.Machine
end

