-- ==== Sys2Proof/Laws/Teardown.lean ====
section
/-! SUPPORT. What a teardown does at its one event (R29, R89–R94, R116). -/

namespace Sys2Proof.Machine

/-! ### What ends a copy leaves alone (R94) -/

/-- A link changed in its store alone. -/
structure StoreOnly (n k : Link) : Prop where
  state     : k.state = n.state
  seen      : k.seen = n.seen
  peer      : k.peer = n.peer
  cause     : k.cause = n.cause
  initTimer : k.initTimer = n.initTimer
  holdTimer : k.holdTimer = n.holdTimer
  ctrl      : k.ctrl = n.ctrl
  tx        : k.tx = n.tx
  /-- Packets leave or have their copy count lowered. -/
  packets   : ∀ p ∈ k.store.packets, ∃ q ∈ n.store.packets,
                q.id = p.id ∧ q.hdr = p.hdr ∧ q.data = p.data ∧ q.region = p.region ∧ q.cond = p.cond
  /-- Only a link that is UP returns credit. -/
  returns   : n.state ≠ .up → k.store.awaitShared = n.store.awaitShared ∧ k.store.awaitRes = n.store.awaitRes ∧
                k.store.holdoff = n.store.holdoff ∧ k.store.elapsed = n.store.elapsed

theorem StoreOnly.refl (n : Link) : StoreOnly n n :=
  ⟨rfl, rfl, rfl, rfl, rfl, rfl, rfl, rfl, fun p hp => ⟨p, hp, rfl, rfl, rfl, rfl, rfl⟩, fun _ => ⟨rfl, rfl, rfl, rfl⟩⟩

theorem StoreOnly.trans {a b c : Link} (h : StoreOnly a b) (k : StoreOnly b c) : StoreOnly a c where
  state := k.state.trans h.state
  seen := k.seen.trans h.seen
  peer := k.peer.trans h.peer
  cause := k.cause.trans h.cause
  initTimer := k.initTimer.trans h.initTimer
  holdTimer := k.holdTimer.trans h.holdTimer
  ctrl := k.ctrl.trans h.ctrl
  tx := k.tx.trans h.tx
  packets p hp := by
    obtain ⟨q, hq, e⟩ := k.packets p hp
    obtain ⟨r, hr, f⟩ := h.packets q hq
    grind
  returns hn := by
    have := h.returns hn
    have := k.returns (by rwa [h.state])
    grind

theorem Link.release_storeOnly (n : Link) (id : Nat) : StoreOnly n (n.release id) := by
  have w := n.release_words id
  refine ⟨w.2.2.2.1, w.2.2.2.2.2.1, w.2.2.1, w.2.1, w.2.2.2.2.2.2.1, w.2.2.2.2.2.2.2, w.1, w.2.2.2.2.1, ?_, ?_⟩
  · intro p hp
    rw [Link.release_packets] at hp
    exact ⟨p, (List.mem_filter.1 hp).1, rfl, rfl, rfl, rfl, rfl⟩
  · intro hn
    unfold Link.release
    split
    · exact ⟨rfl, rfl, rfl, rfl⟩
    · rw [if_neg hn]; exact ⟨rfl, rfl, rfl, rfl⟩

theorem Link.endCopy_storeOnly (n : Link) (id : Nat) : StoreOnly n (n.endCopy id) := by
  unfold Link.endCopy
  split
  · exact .refl n
  · split
    · exact n.release_storeOnly id
    · refine ⟨rfl, rfl, rfl, rfl, rfl, rfl, rfl, rfl, ?_, fun _ => ⟨rfl, rfl, rfl, rfl⟩⟩
      intro p hp
      simp only [Store.modPacket, List.mem_map] at hp
      obtain ⟨q, hq, rfl⟩ := hp
      refine ⟨q, hq, ?_⟩
      split <;> simp

/-- What the loss of copies, the purge and the completions of a teardown leave alone. -/
structure Losing (s t : State) : Prop where
  inReset : t.inReset = s.inReset
  port    : t.port = s.port
  route   : t.route = s.route
  inbound : t.inbound = s.inbound
  sync    : t.sync = s.sync
  lane    : t.lane = s.lane
  divider : t.divider = s.divider
  pending : t.pending = s.pending
  choices : t.choices = s.choices
  enable  : t.events.enable = s.events.enable
  latched : s.events.latch &&& t.events.latch = s.events.latch
  cq      : s.cq <+: t.cq
  links   : ∀ l, StoreOnly (s.link l) (t.link l)
  /-- An entry is left as it was, or it completes with LINK_LOST from QUEUED or SENT. -/
  entry   : ∀ r, t.entry r = s.entry r ∨ (((s.entry r).state = .queued ∨ (s.entry r).state = .sent) ∧
              (t.entry r).state = .done ∧ (t.entry r).status = some .linkLost ∧ r ∈ t.cq)

theorem Losing.refl (s : State) : Losing s s :=
  ⟨rfl, rfl, rfl, rfl, rfl, rfl, rfl, rfl, rfl, rfl, by simp, List.prefix_refl _, fun l => .refl _, fun r => .inl rfl⟩

theorem Losing.trans {s t u : State} (h : Losing s t) (k : Losing t u) : Losing s u where
  inReset := k.inReset.trans h.inReset
  port := k.port.trans h.port
  route := k.route.trans h.route
  inbound := k.inbound.trans h.inbound
  sync := k.sync.trans h.sync
  lane := k.lane.trans h.lane
  divider := k.divider.trans h.divider
  pending := k.pending.trans h.pending
  choices := k.choices.trans h.choices
  enable := k.enable.trans h.enable
  latched := by rw [← h.latched, BitVec.and_assoc, k.latched]
  cq := h.cq.trans k.cq
  links l := (h.links l).trans (k.links l)
  entry r := by
    have a := h.entry r
    have b := k.entry r
    have c : r ∈ t.cq → r ∈ u.cq := fun hr => k.cq.subset hr
    grind

theorem Losing.latch (s : State) (e : EventBit) : Losing s (s.latch e) := by
  refine ⟨rfl, rfl, rfl, rfl, rfl, rfl, rfl, rfl, rfl, rfl, ?_, List.prefix_refl _, fun l => .refl _, fun r => .inl rfl⟩
  ext i; simp; grind

theorem Losing.drop (s : State) (r : DropReason) (o : Origin) (x : Header) : Losing s (s.drop r o x) := by
  refine ⟨rfl, rfl, rfl, rfl, rfl, rfl, rfl, rfl, rfl, rfl, ?_, List.prefix_refl _, fun l => .refl _, fun r => .inl rfl⟩
  ext i; simp; grind

theorem Losing.setSlot (s : State) (i : SlotIx) (x : Option Slot) : Losing s (s.setSlot i x) :=
  ⟨rfl, rfl, rfl, rfl, rfl, rfl, rfl, rfl, rfl, rfl, by simp, List.prefix_refl _, fun _ => .refl _, fun _ => .inl rfl⟩

theorem Losing.setJobs (s : State) (js : List Job) : Losing s (s.setJobs js) :=
  ⟨rfl, rfl, rfl, rfl, rfl, rfl, rfl, rfl, rfl, rfl, by simp, List.prefix_refl _, fun _ => .refl _, fun _ => .inl rfl⟩

theorem Losing.complete (s : State) (r : ReqIx) : Losing s (s.complete r .linkLost) := by
  unfold State.complete State.completeAs
  split
  · rename_i hs
    refine Losing.trans (t := (s.setEntry r ((s.entry r).completed .linkLost)).pushCq r) ⟨rfl, rfl, rfl, rfl, rfl, rfl, rfl, rfl, rfl, rfl, by simp, by simp, fun _ => .refl _, ?_⟩ (.latch _ _)
    intro q
    by_cases h : q = r
    · subst h
      right
      simp [State.entry_setEntry, ReqEntry.completed, hs]
    · left; simp [State.entry_setEntry, h]
  · exact .refl s

theorem Losing.modLink (s : State) (l : LinkId) (f : Link → Link) (h : StoreOnly (s.link l) (f (s.link l))) :
    Losing s (s.modLink l f) := by
  refine ⟨rfl, rfl, rfl, rfl, rfl, rfl, rfl, rfl, rfl, rfl, by simp, List.prefix_refl _, fun m => ?_, fun _ => .inl rfl⟩
  rw [State.link_modLink]; split
  · subst m; exact h
  · exact .refl _

theorem Losing.endSlotCopy (s : State) (i : SlotIx) : Losing s (s.endSlotCopy i) := by
  unfold State.endSlotCopy
  split
  · exact .refl s
  · split
    · exact (Losing.setSlot s i _).trans (.latch _ _)
    · exact .setSlot s i _

theorem Losing.endCopy (s : State) (x : Source) : Losing s (s.endCopy x) := by
  cases x
  · exact Losing.modLink s _ (fun n => n.endCopy _) (Link.endCopy_storeOnly _ _)
  · exact .endSlotCopy s _
  · exact .setJobs s _

theorem Losing.recordLoss (s : State) (e : EgressEntry) : Losing s (s.recordLoss e) := by
  unfold State.recordLoss
  split
  · exact .complete s _
  · split
    · exact .refl s
    · exact .drop s _ _ _

/-- A lost copy's record and the end of it at its source (R93, R94). -/
theorem Losing.loseCopy (s : State) (e : EgressEntry) : Losing s (s.loseCopy e) :=
  (Losing.recordLoss s e).trans (.endCopy _ _)

theorem Losing.foldl {α : Type} (f : State → α → State) (hf : ∀ s x, Losing s (f s x)) :
    ∀ (xs : List α) (s : State), Losing s (xs.foldl f s) := by
  intro xs
  induction xs with
  | nil => exact fun s => .refl s
  | cons x xs ih => exact fun s => (hf s x).trans (ih _)

theorem Losing.recordPurge (s : State) (n : LinkId) (p : StoredPacket) : Losing s (s.recordPurge n p) := by
  unfold State.recordPurge
  split
  · exact .refl s
  · exact .drop s _ _ _

theorem Losing.recordPurges (s : State) (n : LinkId) (ps : List StoredPacket) : Losing s (s.recordPurges n ps) :=
  Losing.foldl _ (fun t p => .recordPurge t n p) ps s

theorem Losing.loseSent (s : State) (n : LinkId) : Losing s (s.loseSent n) := by
  refine Losing.foldl _ (fun t r => ?_) _ s
  split
  · exact .complete t r
  · exact .refl t

theorem State.complete_entry (s : State) (r : ReqIx) (st : Status)
    (h : (s.entry r).state = .queued ∨ (s.entry r).state = .sent) :
    (s.complete r st).entry r = (s.entry r).completed st ∧ r ∈ (s.complete r st).cq := by
  unfold State.complete State.completeAs
  rw [if_pos h]
  simp [State.entry_setEntry]

/-- Every entry in SENT on the torn-down link completes with LINK_LOST (R116). -/
theorem State.loseSent_sent (s : State) (n : LinkId) (r : ReqIx) (h1 : (s.entry r).state = .sent)
    (h2 : (s.entry r).egress = n) : ((s.loseSent n).entry r).state = .done ∧
      ((s.loseSent n).entry r).status = some .linkLost ∧ r ∈ (s.loseSent n).cq := by
  have step : ∀ (t : State) (q : ReqIx), Losing t (if (t.entry q).state = .sent ∧ (t.entry q).egress = n then
      t.complete q .linkLost else t) := fun t q => by
    split
    · exact .complete t q
    · exact .refl t
  have key : ∀ (rs : List ReqIx) (t : State), (r ∈ rs ∧ (t.entry r).state = .sent ∧ (t.entry r).egress = n) ∨
      ((t.entry r).state = .done ∧ (t.entry r).status = some .linkLost ∧ r ∈ t.cq) →
      let u := rs.foldl (fun t q => if (t.entry q).state = .sent ∧ (t.entry q).egress = n then
        t.complete q .linkLost else t) t
      (u.entry r).state = .done ∧ (u.entry r).status = some .linkLost ∧ r ∈ u.cq := by
    intro rs
    induction rs with
    | nil => intro t h; simpa using h
    | cons q rs ih =>
      intro t h
      refine ih (if (t.entry q).state = .sent ∧ (t.entry q).egress = n then t.complete q .linkLost else t) ?_
      rcases h with ⟨hm, hs, he⟩ | ⟨hs, hx, hc⟩
      · by_cases hq : q = r
        · subst hq
          right
          have := t.complete_entry q .linkLost (.inr hs)
          rw [if_pos ⟨hs, he⟩, this.1]
          exact ⟨rfl, rfl, this.2⟩
        · have := (step t q).entry r
          rcases this with e | ⟨_, e⟩
          · left
            rw [e]
            exact ⟨by simpa [Ne.symm hq] using hm, hs, he⟩
          · exact .inr e
      · right
        have l := step t q
        rcases l.entry r with e | ⟨_, e⟩
        · rw [e]; exact ⟨hs, hx, l.cq.subset hc⟩
        · exact e
  exact key reqIxs s (.inl ⟨by fin_cases r <;> decide, h1, h2⟩)

/-! ### The teardown event (R29) -/

theorem State.withdrawElsewhere_link (s : State) (n m : LinkId) : (s.withdrawElsewhere n).link m =
    if m = n then s.link m
    else { s.link m with tx := (s.link m).tx.withdraw (fun e => !e.orphaned n) } := by
  simp only [State.withdrawElsewhere, linkIds, List.foldl_cons, List.foldl_nil]
  fin_cases n <;> fin_cases m <;> simp [State.link_modLink]

theorem State.withdrawElsewhere_fields (s : State) (n : LinkId) : (s.withdrawElsewhere n).port = s.port ∧
    (s.withdrawElsewhere n).route = s.route ∧ (s.withdrawElsewhere n).inbound = s.inbound ∧
    (s.withdrawElsewhere n).sync = s.sync ∧ (s.withdrawElsewhere n).lane = s.lane ∧
    (s.withdrawElsewhere n).divider = s.divider ∧ (s.withdrawElsewhere n).pending = s.pending ∧
    (s.withdrawElsewhere n).events = s.events ∧ (s.withdrawElsewhere n).cq = s.cq ∧
    (s.withdrawElsewhere n).reqs = s.reqs ∧ (s.withdrawElsewhere n).slots = s.slots ∧
    (s.withdrawElsewhere n).jobs = s.jobs ∧ (s.withdrawElsewhere n).nextJob = s.nextJob ∧
    (s.withdrawElsewhere n).inReset = s.inReset := by
  simp only [State.withdrawElsewhere, linkIds, List.foldl_cons, List.foldl_nil]
  repeat' split
  all_goals exact ⟨rfl, rfl, rfl, rfl, rfl, rfl, rfl, rfl, rfl, rfl, rfl, rfl, rfl, rfl⟩

theorem teardownTarget_ne_up (c : Cause) (a : Bool) : teardownTarget c a ≠ .up := by
  cases c <;> cases a <;> decide

theorem Link.moveTo_words (n : Link) (x : LinkState) (h : x = .hold ∨ x = .off) : (n.moveTo x).state = x ∧
    (n.moveTo x).initTimer = none ∧ (n.moveTo x).holdTimer = (if x = .hold then holdStart n.ctrl.linkHold else none) ∧
    (n.moveTo x).tx = n.tx ∧ (n.moveTo x).store = n.store ∧ (n.moveTo x).ctrl = n.ctrl ∧ (n.moveTo x).peer = n.peer ∧
    (n.moveTo x).seen = n.seen ∧ (n.moveTo x).cause = n.cause := by
  rcases h with rfl | rfl <;> simp [Link.moveTo, Link.enterHold, Link.enterOff]

theorem teardownTarget_cases (c : Cause) (a : Bool) : teardownTarget c a = .hold ∨ teardownTarget c a = .off := by
  cases c <;> cases a <;> decide

/-- The cells a cut leaves on the lane (R29, R89). -/
theorem State.cutTransmission_sent (s : State) (n : LinkId) : ∃ ds, (∀ m, (s.cutTransmission n).sent m =
    if m = n then s.sent m ++ packetCells ds else s.sent m) ∧
      (ds = [] ∨ ∃ e, (s.link n).tx.inFlight = some e ∧ ds <+: s.sourceData e.source ∧
        ds.length < (s.sourceData e.source).length) := by
  unfold State.cutTransmission
  split
  · exact ⟨[], fun m => by simp [packetCells], .inl rfl⟩
  · rename_i e he
    split
    · exact ⟨[], fun m => by simp [packetCells], .inl rfl⟩
    · rename_i hne
      refine ⟨s.sentBeforeCut e.source, fun m => by simp [State.sent_send], .inr ⟨e, he, List.take_prefix _ _, ?_⟩⟩
      have : 0 < (s.sourceData e.source).length := by
        rcases hd : s.sourceData e.source with _ | _ <;> simp_all
      simp only [State.sentBeforeCut, List.length_take]
      have := Nat.mod_lt (Config.cellsSent s.choices) this
      omega

/-- A state changed in its lanes and the free-value counter alone. -/
structure LaneOnly (s t : State) : Prop where
  inReset : t.inReset = s.inReset
  port    : t.port = s.port
  events  : t.events = s.events
  route   : t.route = s.route
  links   : t.links = s.links
  slots   : t.slots = s.slots
  reqs    : t.reqs = s.reqs
  cq      : t.cq = s.cq
  inbound : t.inbound = s.inbound
  jobs    : t.jobs = s.jobs
  nextJob : t.nextJob = s.nextJob
  sync    : t.sync = s.sync
  divider : t.divider = s.divider
  pending : t.pending = s.pending

theorem LaneOnly.refl (s : State) : LaneOnly s s := by constructor <;> rfl

theorem LaneOnly.trans {s t u : State} (h : LaneOnly s t) (k : LaneOnly t u) : LaneOnly s u := by
  cases h; cases k; constructor <;> simp_all

theorem LaneOnly.link {s t : State} (h : LaneOnly s t) (l : LinkId) : t.link l = s.link l := by
  simp [State.link, h.links]

theorem LaneOnly.entry {s t : State} (h : LaneOnly s t) (r : ReqIx) : t.entry r = s.entry r := by
  simp [State.entry, h.reqs]

theorem State.cutTransmission_laneOnly (s : State) (n : LinkId) : LaneOnly s (s.cutTransmission n) := by
  unfold State.cutTransmission
  repeat' split
  all_goals constructor <;> rfl

theorem State.sendTeardown_laneOnly (s : State) (n : LinkId) (c : Cause) : LaneOnly s (s.sendTeardown n c) := by
  unfold State.sendTeardown
  repeat' split
  all_goals constructor <;> rfl

theorem State.recordPurges_fields (n : LinkId) : ∀ (ps : List StoredPacket) (s : State),
    (s.recordPurges n ps).links = s.links ∧ (s.recordPurges n ps).slots = s.slots ∧
      (s.recordPurges n ps).jobs = s.jobs ∧ (s.recordPurges n ps).nextJob = s.nextJob := by
  intro ps
  induction ps with
  | nil => exact fun s => ⟨rfl, rfl, rfl, rfl⟩
  | cons p ps ih =>
    intro s
    have h := ih (s.recordPurge n p)
    have k : (s.recordPurge n p).links = s.links ∧ (s.recordPurge n p).slots = s.slots ∧
        (s.recordPurge n p).jobs = s.jobs ∧ (s.recordPurge n p).nextJob = s.nextJob := by
      unfold State.recordPurge; split <;> exact ⟨rfl, rfl, rfl, rfl⟩
    exact ⟨h.1.trans k.1, h.2.1.trans k.2.1, h.2.2.1.trans k.2.2.1, h.2.2.2.trans k.2.2.2⟩

theorem State.loseSent_fields (s : State) (n : LinkId) : (s.loseSent n).links = s.links ∧
    (s.loseSent n).slots = s.slots ∧ (s.loseSent n).jobs = s.jobs ∧ (s.loseSent n).nextJob = s.nextJob := by
  have key : ∀ (rs : List ReqIx) (t : State), let u := rs.foldl (fun t r =>
      if (t.entry r).state = .sent ∧ (t.entry r).egress = n then t.complete r .linkLost else t) t
      u.links = t.links ∧ u.slots = t.slots ∧ u.jobs = t.jobs ∧ u.nextJob = t.nextJob := by
    intro rs
    induction rs with
    | nil => exact fun t => ⟨rfl, rfl, rfl, rfl⟩
    | cons r rs ih =>
      intro t
      have h := ih (if (t.entry r).state = .sent ∧ (t.entry r).egress = n then t.complete r .linkLost else t)
      have k := t.complete_fields r .linkLost
      split at h
      · rename_i hs
        simp only [List.foldl_cons, if_pos hs]
        exact ⟨h.1.trans k.1, h.2.1.trans k.2.1, h.2.2.1.trans k.2.2.1, h.2.2.2.trans k.2.2.2⟩
      · rename_i hs
        simp only [List.foldl_cons, if_neg hs]
        exact h
  exact key reqIxs s

/-! ### The copies a teardown ends (R89–R91) -/

theorem State.copiesOf_eq (s : State) (src : Source) : s.copiesOf src =
    copiesAmong (s.link 0).tx.entries src + copiesAmong (s.link 1).tx.entries src +
      copiesAmong (s.link 2).tx.entries src + copiesAmong (s.link 3).tx.entries src := by
  change copiesAmong s.allEntries src = _
  simp [State.allEntries, linkIds, copiesAmong_append, Nat.add_assoc]

theorem Transmitter.withdraw_entries (t : Transmitter) (keep : EgressEntry → Bool) :
    (t.withdraw keep).entries = t.entries.filter keep := by
  simp [Transmitter.entries, Transmitter.withdraw, PerClass.map]

/-- Every copy is among those a teardown of link `n` ends, or stays in a queue of another link. -/
theorem State.copiesOf_ended {u v : State} {n : LinkId} (hn : (v.link n).tx.entries = [])
    (hm : ∀ m, m ≠ n → (v.link m).tx = (u.link m).tx.withdraw (fun e => !e.orphaned n)) (src : Source) :
    u.copiesOf src = copiesAmong (u.endedCopies n) src + v.copiesOf src := by
  have hw : ∀ m, m ≠ n → copiesAmong (u.link m).tx.entries src =
      copiesAmong ((u.link m).tx.entries.filter (fun e => e.orphaned n)) src + copiesAmong (v.link m).tx.entries src := by
    intro m h
    rw [hm m h, Transmitter.withdraw_entries, copiesAmong_split]
  have hs := copiesAmong_split (u.link n).tx.entries (fun e => e.started) src
  have h0 := hw 0
  have h1 := hw 1
  have h2 := hw 2
  have h3 := hw 3
  have hz : copiesAmong (v.link n).tx.entries src = 0 := by rw [hn]; rfl
  simp only [State.copiesOf_eq, State.endedCopies, copiesAmong_append]
  clear hw hm hn
  fin_cases n <;> simp [linkIds, copiesAmong_append] at * <;> omega

theorem State.mem_endedCopies {u : State} {n : LinkId} {e : EgressEntry} : e ∈ u.endedCopies n ↔
    e ∈ (u.link n).tx.entries ∨ ∃ m, m ≠ n ∧ e ∈ (u.link m).tx.entries ∧ e.orphaned n = true := by
  simp only [State.endedCopies, List.mem_append, List.mem_filter, List.mem_flatMap]
  constructor
  · rintro ((h | h) | ⟨m, ⟨_, hm⟩, h⟩)
    · exact .inl h.1
    · exact .inl h.1
    · exact .inr ⟨m, by simpa using hm, h⟩
  · rintro (h | ⟨m, hm, h⟩)
    · left
      cases hs : e.started
      · exact .inr ⟨h, rfl⟩
      · exact .inl ⟨h, rfl⟩
    · exact .inr ⟨m, ⟨by fin_cases m <;> decide, by simpa using hm⟩, h⟩

theorem State.mem_allEntries {s : State} {e : EgressEntry} : e ∈ s.allEntries ↔ ∃ m, e ∈ (s.link m).tx.entries := by
  simp only [State.allEntries, List.mem_flatMap]
  exact ⟨fun ⟨m, _, h⟩ => ⟨m, h⟩, fun ⟨m, h⟩ => ⟨m, by fin_cases m <;> decide, h⟩⟩

theorem State.copiesOf_pos {s : State} {src : Source} : 0 < s.copiesOf src ↔ ∃ e ∈ s.allEntries, e.source = src :=
  copiesAmong_pos

/-- A source that copies name is held for all of them (R45, R97, R141). -/
theorem State.CopiesLaw.capacity {u : State} (h : u.CopiesLaw) (src : Source) : u.copiesOf src ≤ u.capacity src := by
  obtain ⟨hs, hc, hk, hj, -⟩ := h
  by_cases hp : 0 < u.copiesOf src
  swap
  · omega
  obtain ⟨e, he, rfl⟩ := State.copiesOf_pos.1 hp
  have hh := hs e he
  rcases hsrc : e.source with ⟨l, id⟩ | i | id <;> rw [hsrc] at hh <;> simp only [State.source, Option.isSome_map] at hh
  · obtain ⟨p, hq⟩ := Option.isSome_iff_exists.1 hh
    obtain ⟨hm, rfl⟩ := (Store.packet_iff (hc l).1.1).1 hq
    have := ((hc l).2 p hm).1
    simp only [State.owedCopies] at this
    simp only [State.capacity, hq, Option.map_some, Option.getD_some]; omega
  · obtain ⟨k, hq⟩ := Option.isSome_iff_exists.1 hh
    have := (hk i k (by simp [hq])).1
    simp only [State.capacity, hq, Option.map_some, Option.getD_some]; omega
  · obtain ⟨j, hq⟩ := Option.isSome_iff_exists.1 hh
    have hid : j.id = id := by simpa using List.find?_some hq
    have := (hj.2 j (List.mem_of_find?_eq_some hq)).2.2
    rw [hid] at this
    simp only [State.capacity, hq, Option.isSome_some, if_true]
    rw [this]; split <;> omega

/-- A packet that copies name is dispatched (R44, R45). -/
theorem State.CopiesLaw.named_dispatched {u : State} (h : u.CopiesLaw) {l : LinkId} {p : StoredPacket}
    (hm : p ∈ (u.link l).store.packets) (hp : 0 < u.copiesOf (.store l p.id)) : p.cond = .dispatched := by
  have := (h.2.1 l).2 p hm
  simp only [State.owedCopies] at this
  rcases hc : p.cond
  · have := this.2.1 hc; omega
  · have h2 := this.2.2.1 hc; simp only [hc, if_true] at this; omega
  · rfl

theorem State.CopiesLaw.hostReq_slot {u : State} (h : u.CopiesLaw) {src : Source} {r : ReqIx}
    (hr : u.hostReq src = some r) : ∃ i k, src = .slot i ∧ u.slot i = some k ∧ k.req = some r ∧ k.copies = 1 ∧
      (u.entry r).state = .queued ∧ (u.entry r).slot = some i ∧ u.copiesOf src = 1 := by
  rcases src with ⟨l, id⟩ | i | id
  · cases hr
  · simp only [State.hostReq, Option.bind_eq_some_iff] at hr
    obtain ⟨k, hk, hq⟩ := hr
    have h1 := h.2.2.2.2.1 i k (by simp [hk]) r (by simp [hq])
    have h2 := (h.2.2.1 i k (by simp [hk])).1
    exact ⟨i, k, rfl, hk, hq, h1.2.2, h1.1, h1.2.1, by rw [← h2]; exact h1.2.2⟩
  · cases hr

theorem State.CopiesLaw.losses_nodup {u : State} (h : u.CopiesLaw) (n : LinkId)
    (hle : ∀ src, copiesAmong (u.endedCopies n) src ≤ u.copiesOf src) :
    ((u.endedCopies n).filterMap (fun e => u.hostReq e.source)).Nodup := by
  rw [List.nodup_iff_count_le_one]
  intro r
  by_cases hr : ∃ src, u.hostReq src = some r
  · obtain ⟨src, hr⟩ := hr
    obtain ⟨i, k, rfl, hk, hq, hc, hs, hi, h1⟩ := h.hostReq_slot hr
    have key : ∀ es : List EgressEntry, (es.filterMap (fun e => u.hostReq e.source)).count r ≤ copiesAmong es (.slot i) := by
      intro es
      induction es with
      | nil => simp
      | cons e es ih =>
        rw [List.filterMap_cons, copiesAmong_cons]
        rcases he : u.hostReq e.source with _ | q
        · simp only; omega
        · simp only [List.count_cons]
          by_cases hqr : q = r
          · subst hqr
            obtain ⟨j, _, hj, _, _, _, _, hj', _⟩ := h.hostReq_slot he
            rw [hi] at hj'; cases hj'
            simp [hj]; omega
          · simp [hqr]; omega
    have := key (u.endedCopies n)
    have := hle (.slot i)
    omega
  · rw [List.count_eq_zero.2]
    · omega
    · intro hm
      obtain ⟨e, _, he⟩ := List.mem_filterMap.1 hm
      exact hr ⟨_, he⟩

/-- The entries in QUEUED on link `n` are those whose REQ a teardown of link `n` ends (R116). -/
theorem State.CopiesLaw.mem_losses {u : State} (h : u.CopiesLaw) (n : LinkId) (r : ReqIx) :
    r ∈ (u.endedCopies n).filterMap (fun e => u.hostReq e.source) ↔
      (u.entry r).state = .queued ∧ (u.entry r).egress = n := by
  rw [List.mem_filterMap]
  constructor
  · rintro ⟨e, he, hr⟩
    obtain ⟨i, k, hi, hk, hq, hc, hs, hsi, h1⟩ := h.hostReq_slot hr
    refine ⟨hs, ?_⟩
    obtain ⟨j, hj, -, f, hf, hfs⟩ := h.2.2.2.2.2 r hs
    rw [hsi] at hj; cases hj
    have hn : e ∈ (u.link n).tx.entries := by
      rcases State.mem_endedCopies.1 he with h' | ⟨m, _, _, ho⟩
      · exact h'
      · rw [EgressEntry.orphaned, hi] at ho; simp at ho
    by_contra hne
    have hfe : f ∈ (u.link (u.entry r).egress).tx.entries := by
      simp only [Transmitter.entries, List.mem_append]; exact .inl (.inl hf)
    have p1 : 0 < copiesAmong (u.link n).tx.entries (.slot i) := copiesAmong_pos.2 ⟨e, hn, hi⟩
    have p2 : 0 < copiesAmong (u.link (u.entry r).egress).tx.entries (.slot i) := copiesAmong_pos.2 ⟨f, hfe, hfs⟩
    rw [hi, State.copiesOf_eq] at h1
    generalize (u.entry r).egress = m at *
    fin_cases n <;> fin_cases m <;> simp at * <;> omega
  · rintro ⟨hs, rfl⟩
    obtain ⟨i, hi, ⟨k, hk, hkr⟩, f, hf, hfs⟩ := h.2.2.2.2.2 r hs
    refine ⟨f, State.mem_endedCopies.2 (.inl ?_), ?_⟩
    · simp only [Transmitter.entries, List.mem_append]; exact .inl (.inl hf)
    · rw [hfs]
      have : u.slot i = some k := by simpa using hk
      simp [State.hostReq, this, hkr]

/-! ### The teardown event, whole (R29) -/

/-- The teardown in its order: the cut and the TEARDOWN cell, the link and the withdrawals, the lost copies, the purge,
the entries in SENT, the LINK event. -/
theorem State.teardown_steps (u : State) (n : LinkId) (cause : Cause) : ∃ a b c d e : State,
    a = (u.cutTransmission n).sendTeardown n cause ∧ b = (a.modLink n (fun k => k.torn cause)).withdrawElsewhere n ∧
      c = (u.endedCopies n).foldl State.loseCopy b ∧ d = c.recordPurges n (u.link n).store.queuedPackets ∧
      e = d.loseSent n ∧ u.teardown n cause = e.latch .link :=
  ⟨_, _, _, _, _, rfl, rfl, rfl, rfl, rfl, rfl⟩

/-- What `b` in `State.teardown_steps` has that the copies ended still name. -/
theorem State.CopiesLaw.torn_source {u b : State} {n : LinkId} (h : u.CopiesLaw) (hs : b.slots = u.slots)
    (hj : b.jobs = u.jobs) (hn : (b.link n).store.packets = (u.link n).store.packets.filter (fun p => p.cond = .dispatched))
    (hm : ∀ m, m ≠ n → (b.link m).store = (u.link m).store) {src : Source} (hp : 0 < u.copiesOf src) :
    b.capacity src = u.capacity src ∧ b.source src = u.source src ∧ b.hostReq src = u.hostReq src := by
  rcases src with ⟨l, id⟩ | i | id
  · have : (b.link l).store.packet id = (u.link l).store.packet id := by
      by_cases e : l = n
      · subst e
        unfold Store.packet
        rw [hn, List.find?_filter]
        rcases hq : (u.link l).store.packets.find? (fun p => p.id = id) with _ | p
        · have : u.source (.store l id) = none := by simp [State.source, Store.packet, hq]
          obtain ⟨f, hf, hfs⟩ := State.copiesOf_pos.1 hp
          have := h.1 f hf
          simp_all
        · obtain ⟨hmem, rfl⟩ := (Store.packet_iff (h.2.1 l).1.1).1 hq
          have hd := h.named_dispatched hmem hp
          have := Store.find_of_nodup (ps := (u.link l).store.packets.filter (fun p => p.cond = .dispatched))
            (((List.filter_sublist.map StoredPacket.id).nodup) (h.2.1 l).1.1) (p := p) (by simp [hmem, hd])
          rw [List.find?_filter] at this
          exact this.trans hq.symm
      · rw [hm l e]
    simp [State.capacity, State.source, State.hostReq, this]
  · simp [State.capacity, State.source, State.hostReq, State.slot, hs]
  · simp [State.capacity, State.source, State.hostReq, State.job, hj]

/-- What the steps of a teardown are, each a state of its own: `b` with the link torn down and the orphans withdrawn, `e`
with the losses recorded. -/
structure TornSteps (u : State) (n : LinkId) (cause : Cause) (b c d e : State) : Prop where
  lane    : ∃ ds, (∀ m, b.sent m = if m = n then
              u.sent m ++ packetCells ds ++ (if cause = .carrierLoss then [] else [⟨true, teardownCell⟩]) else u.sent m) ∧
              (ds = [] ∨ ∃ e, (u.link n).tx.inFlight = some e ∧ ds <+: u.sourceData e.source ∧
                ds.length < (u.sourceData e.source).length)
  link    : ∀ m, b.link m = if m = n then (u.link m).torn cause
              else { u.link m with tx := (u.link m).tx.withdraw (fun e => !e.orphaned n) }
  port    : b.port = u.port
  route   : b.route = u.route
  inbound : b.inbound = u.inbound
  sync    : b.sync = u.sync
  divider : b.divider = u.divider
  pending : b.pending = u.pending
  events  : b.events = u.events
  cq      : b.cq = u.cq
  reqs    : b.reqs = u.reqs
  slots   : b.slots = u.slots
  jobs    : b.jobs = u.jobs
  nextJob : b.nextJob = u.nextJob
  inReset : b.inReset = u.inReset
  losses  : c = (u.endedCopies n).foldl State.loseCopy b
  purges  : d = c.recordPurges n (u.link n).store.queuedPackets
  sents   : e = d.loseSent n
  ends    : u.teardown n cause = e.latch .link

theorem State.tornSteps (u : State) (n : LinkId) (cause : Cause) : ∃ b c d e, TornSteps u n cause b c d e := by
  obtain ⟨ds, hds, hdl⟩ := u.cutTransmission_sent n
  have hA := (u.cutTransmission_laneOnly n).trans ((u.cutTransmission n).sendTeardown_laneOnly n cause)
  have hAs : ∀ m, ((u.cutTransmission n).sendTeardown n cause).sent m = if m = n then
      u.sent m ++ packetCells ds ++ (if cause = .carrierLoss then [] else [⟨true, teardownCell⟩]) else u.sent m := by
    intro m
    unfold State.sendTeardown
    split
    · rw [hds]; simp
    · rw [State.sent_send, hds]; split <;> simp
  obtain ⟨a, b, c, d, e, ha, hb, hc, hd, he, ht⟩ := u.teardown_steps n cause
  rw [← ha] at hA hAs
  have hbf := State.withdrawElsewhere_fields (a.modLink n (fun k => k.torn cause)) n
  rw [← hb] at hbf
  obtain ⟨hport, hroute, hin, hsync, hlane, hdiv, hpend, hev, hcq, hreqs, hslots, hjobs, hnext, hres⟩ := hbf
  refine ⟨b, c, d, e, ⟨ds, fun m => ?_, hdl⟩, fun m => ?_, hport.trans hA.port, hroute.trans hA.route,
    hin.trans hA.inbound, hsync.trans hA.sync, hdiv.trans hA.divider, hpend.trans hA.pending, hev.trans hA.events,
    hcq.trans hA.cq, hreqs.trans hA.reqs, hslots.trans hA.slots, hjobs.trans hA.jobs, hnext.trans hA.nextJob,
    hres.trans hA.inReset, hc, hd, he, ht⟩
  · rw [← hAs]
    simp only [State.sent, hlane, State.modLink_lane]
  · rw [hb, State.withdrawElsewhere_link, State.link_modLink, hA.link]
    split <;> rfl

section Torn

variable {u b c d e : State} {n : LinkId} {cause : Cause} (T : TornSteps u n cause b c d e)
include T

theorem TornSteps.linkSelf : b.link n = ({ u.link n with
    cause := cause, store := (u.link n).store.torn, tx := (u.link n).tx.torn } : Link).moveTo
      (teardownTarget cause (u.link n).ctrl.auto) := by rw [T.link, if_pos rfl]; rfl

theorem TornSteps.self : (b.link n).state = teardownTarget cause (u.link n).ctrl.auto ∧ (b.link n).initTimer = none ∧
    (b.link n).holdTimer = (if teardownTarget cause (u.link n).ctrl.auto = .hold then
      holdStart (u.link n).ctrl.linkHold else none) ∧
    (b.link n).tx = (u.link n).tx.torn ∧ (b.link n).store = (u.link n).store.torn ∧ (b.link n).ctrl = (u.link n).ctrl ∧
    (b.link n).peer = (u.link n).peer ∧ (b.link n).seen = (u.link n).seen ∧ (b.link n).cause = cause := by
  rw [T.linkSelf]
  exact Link.moveTo_words _ _ (teardownTarget_cases cause (u.link n).ctrl.auto)

theorem TornSteps.entry (r : ReqIx) : b.entry r = u.entry r := by simp only [State.entry, T.reqs]

theorem TornSteps.losing : Losing b c ∧ Losing c d ∧ Losing d e := by
  refine ⟨?_, ?_, ?_⟩
  · rw [T.losses]; exact .foldl _ Losing.loseCopy _ _
  · rw [T.purges]; exact .recordPurges _ _ _
  · rw [T.sents]; exact .loseSent _ _

theorem TornSteps.fields : e.links = c.links ∧ e.slots = c.slots ∧ e.jobs = c.jobs ∧ e.nextJob = c.nextJob := by
  have fd := State.recordPurges_fields n (u.link n).store.queuedPackets c
  rw [← T.purges] at fd
  have fe := d.loseSent_fields n
  rw [← T.sents] at fe
  exact ⟨fe.1.trans fd.1, fe.2.1.trans fd.2.1, fe.2.2.1.trans fd.2.2.1, fe.2.2.2.trans fd.2.2.2⟩

theorem TornSteps.linkEnd (m : LinkId) : e.link m = c.link m := by simp only [State.link, T.fields.1]

theorem TornSteps.slot (i : SlotIx) :
    e.slot i = (u.slot i).bind (fun k => k.less (copiesAmong (u.endedCopies n) (.slot i))) := by
  have : e.slot i = c.slot i := by simp only [State.slot, T.fields.2.1]
  rw [this, T.losses, State.loseCopies_slot]
  simp only [State.slot, T.slots]

theorem TornSteps.jobsEnd :
    e.jobs = u.jobs.filter (fun j => copiesAmong (u.endedCopies n) (.job j.id) = 0) ∧ e.nextJob = u.nextJob := by
  have k := State.loseCopies_jobs (u.endedCopies n) b
  rw [← T.losses, T.jobs, T.nextJob] at k
  exact ⟨T.fields.2.2.1.trans k.1, T.fields.2.2.2.trans k.2⟩

theorem TornSteps.store (m : LinkId) (h : (b.link m).store.NamesLaw) :
    (e.link m).store.packets = (b.link m).store.packets.filterMap
        (fun p => p.less (copiesAmong (u.endedCopies n) (.store m p.id))) ∧
      Released (b.isUp m) (b.link m).ctrl.crHoldoff ((b.link m).store.releasedBy m (u.endedCopies n)) (b.link m).store
        (e.link m).store := by
  have h := Link.endCopies_store ((u.endedCopies n).filterMap (fun e => e.source.idIn m)) (b.link m) h.1
  rw [T.linkEnd, T.losses, State.loseCopies_link]
  simp only [copiesAmong_store] at h
  exact h

theorem TornSteps.nextId (m : LinkId) : (e.link m).store.nextId = (b.link m).store.nextId := by
  rw [T.linkEnd, T.losses, State.loseCopies_link]
  generalize b.link m = k
  generalize (u.endedCopies n).filterMap (fun e => e.source.idIn m) = ids
  induction ids generalizing k with
  | nil => rfl
  | cons id ids ih =>
    rw [List.foldl_cons, ih]
    unfold Link.endCopy
    split
    · rfl
    · rename_i p hp
      split
      · exact (Link.release_released hp).nextId
      · rfl

theorem TornSteps.copiesOf (src : Source) : u.copiesOf src = copiesAmong (u.endedCopies n) src + b.copiesOf src :=
  State.copiesOf_ended (by rw [T.self.2.2.2.1]; rfl) (fun m hm => by rw [T.link, if_neg hm]) src

theorem TornSteps.ended_le (src : Source) : copiesAmong (u.endedCopies n) src ≤ u.copiesOf src := by
  have := T.copiesOf src; omega

theorem TornSteps.source (H : u.CopiesLaw) {f : EgressEntry} (hf : f ∈ u.endedCopies n) :
    b.capacity f.source = u.capacity f.source ∧ b.source f.source = u.source f.source ∧
      b.hostReq f.source = u.hostReq f.source :=
  H.torn_source T.slots T.jobs (by rw [T.self.2.2.2.2.1]; rfl) (fun m hm => by rw [T.link, if_neg hm])
    (Nat.lt_of_lt_of_le (copiesAmong_pos.2 ⟨f, hf, rfl⟩) (T.ended_le _))

/-- What a teardown completes and drops, in order (R93, R117, R173). -/
theorem TornSteps.noted (H : u.CopiesLaw) : Noted u e (u.teardownLosses n) (u.teardownDrops n) := by
  have e1 : (u.endedCopies n).filterMap (fun f => b.hostReq f.source) =
      (u.endedCopies n).filterMap (fun f => u.hostReq f.source) :=
    List.filterMap_congr fun f hf => (T.source H hf).2.2
  have n1 : Noted b c ((u.endedCopies n).filterMap (fun f => b.hostReq f.source))
      (((u.endedCopies n).filter (fun f => !f.group && (b.hostReq f.source).isNone)).map
        (fun f => DropRecord.of .linkDown f.source.origin (b.sourceHeader f.source))) := by
    rw [T.losses]
    refine Noted.loseCopies _ b (fun src => ?_) ?_ (fun f hf r hr => ?_)
    · by_cases hp : 0 < copiesAmong (u.endedCopies n) src
      · obtain ⟨f, hf, rfl⟩ := copiesAmong_pos.1 hp
        rw [(T.source H hf).1]
        exact Nat.le_trans (T.ended_le _) (H.capacity _)
      · omega
    · rw [e1]; exact H.losses_nodup n T.ended_le
    · rw [(T.source H hf).2.2] at hr
      obtain ⟨_, _, _, _, _, _, hs, _⟩ := H.hostReq_slot hr
      rw [T.entry]; exact hs
  have e2 : (u.endedCopies n).filter (fun f => !f.group && (b.hostReq f.source).isNone) =
      (u.endedCopies n).filter (fun f => !f.group && (u.hostReq f.source).isNone) :=
    List.filter_congr fun f hf => by rw [(T.source H hf).2.2]
  have e3 : ((u.endedCopies n).filter (fun f => !f.group && (u.hostReq f.source).isNone)).map
      (fun f => DropRecord.of .linkDown f.source.origin (b.sourceHeader f.source)) =
      ((u.endedCopies n).filter (fun f => !f.group && (u.hostReq f.source).isNone)).map
      (fun f => DropRecord.of .linkDown f.source.origin (u.sourceHeader f.source)) :=
    List.map_congr_left fun f hf => by simp only [State.sourceHeader, (T.source H (List.mem_filter.1 hf).1).2.1]
  rw [e1, e2, e3] at n1
  have n2 := Noted.recordPurges n (u.link n).store.queuedPackets c
  rw [← T.purges] at n2
  have n3 := Noted.loseSent d n
  rw [← T.sents] at n3
  have e4 : reqIxs.filter (fun r => (d.entry r).state = .sent ∧ (d.entry r).egress = n) =
      reqIxs.filter (fun r => (u.entry r).state = .sent ∧ (u.entry r).egress = n) := by
    refine List.filter_congr fun r _ => ?_
    rw [n2.entry, if_neg (by simp), n1.entry, T.entry]
    split
    · rename_i hm
      have := ((H.mem_losses n r).1 hm).1
      simp [ReqEntry.completed, this]
    · rfl
  rw [e4] at n3
  have n4 := (((Noted.of_same (s := u) (t := b) T.reqs T.cq T.events T.slots).trans n1).trans n2).trans n3
  have e5 : (u.link n).store.queuedPackets =
      classes.flatMap (fun c => (u.link n).store.packets.filter (fun p => p.cond = .queued && p.cls = c)) := by
    simp [Store.queuedPackets, Store.queue, classes]
  rw [e5, List.nil_append, List.append_nil, List.append_nil, List.nil_append] at n4
  exact n4

/-- Where a teardown leaves its link (R31), with the timers of R19 and R21. -/
theorem TornSteps.target : (e.link n).state = (if cause = .hostDisable ∨ cause = .sameId then .off
      else if cause = .hostReset ∨ cause = .softReset then .hold
      else if (u.link n).ctrl.auto then .hold else .off) ∧
    (e.link n).initTimer = none ∧ (e.link n).holdTimer =
      if (e.link n).state = .hold ∧ (u.link n).ctrl.linkHold ≠ 0 then
        some ((u.link n).ctrl.linkHold.toNat * 64) else none := by
  obtain ⟨h1, h2, h3⟩ := T.losing
  have hn := ((h1.trans h2).trans h3).links n
  rw [hn.state, hn.initTimer, hn.holdTimer, T.self.1, T.self.2.1, T.self.2.2.1]
  refine ⟨by cases cause <;> simp [teardownTarget], rfl, ?_⟩
  rcases teardownTarget_cases cause (u.link n).ctrl.auto with h | h
  · simp only [h, holdStart, if_true, true_and, Config.holdUnit]
    split <;> simp_all
  · simp [h]

end Torn

theorem latch_kept {v x : BitVec 7} (m : BitVec 7) (h : v &&& x = v) : (v ||| m) &&& (x ||| m) = v ||| m := by
  rw [← h]
  ext i hi
  simp
  grind

/-- The teardown event (R29), whole. -/
theorem State.teardown_tornDown (u : State) (n : LinkId) (cause : Cause) : TornDown u n cause (u.teardown n cause) := by
  obtain ⟨b, c, d, e, T⟩ := u.tornSteps n cause
  obtain ⟨ds, hds, hdl⟩ := T.lane
  obtain ⟨Lc, Ld, Le⟩ := T.losing
  have L := (Lc.trans Ld).trans Le
  have hs := T.self
  have hn := L.links n
  have hbms : ∀ m, m ≠ n → b.link m = { u.link m with tx := (u.link m).tx.withdraw (fun e => !e.orphaned n) } :=
    fun m hm => by rw [T.link, if_neg hm]
  have hsent : ∀ m, e.sent m = b.sent m := fun m => by simp only [State.sent, L.lane]
  rw [T.ends]
  refine
    { cause := by rw [State.latch_link, hn.cause, hs.2.2.2.2.2.2.2.2]
      state := by rw [State.latch_link, T.target.1]
      timers := by rw [State.latch_link]; exact T.target.2
      tx := by rw [State.latch_link, hn.tx, hs.2.2.2.1]; rfl
      returns := ?_
      kept := ?_
      zombies := ?_
      store := fun hnm => ?_
      others := fun m hm => ?_
      stores := fun m hm hnm => ?_
      slots := fun i => by rw [State.latch_slot, T.slot]
      jobs := by rw [State.latch_jobs, State.latch_nextJob]; exact T.jobsEnd
      latched := ?_
      enable := by rw [State.latch_enable, L.enable, T.events]
      lost := fun r h1 h2 => ?_
      entry := fun r h => ?_
      cq := ?_
      entries := fun H r => ?_
      order := fun H => by rw [State.latch_cq, (T.noted H).cq]
      events := fun H => ?_
      lane := ⟨ds, by rw [State.latch_sent, hsent, hds, if_pos rfl], hdl⟩
      lanes := fun m hm => by rw [State.latch_sent, hsent, hds, if_neg hm]
      port := by rw [State.latch_port, L.port, T.port]
      route := by rw [State.latch_route, L.route, T.route]
      inbound := by rw [State.latch_inbound, L.inbound, T.inbound]
      sync := by rw [State.latch_sync, L.sync, T.sync]
      divider := by rw [State.latch_divider, L.divider, T.divider]
      inReset := by rw [State.latch_inReset, L.inReset, T.inReset]
      pending := by rw [State.latch_pending, L.pending, T.pending] }
  · have h := hn.returns (by rw [hs.1]; exact teardownTarget_ne_up _ _)
    rw [hs.2.2.2.2.1] at h
    rw [State.latch_link]; exact h
  · rw [State.latch_link, hn.ctrl, hn.peer, hn.seen, T.nextId, hs.2.2.2.2.2.1, hs.2.2.2.2.2.2.1, hs.2.2.2.2.2.2.2.1,
      hs.2.2.2.2.1]
    exact ⟨rfl, rfl, rfl, rfl⟩
  · intro p hp
    rw [State.latch_link] at hp
    obtain ⟨q, hq, e1⟩ := hn.packets p hp
    rw [hs.2.2.2.2.1] at hq
    simp only [Store.torn, Store.clearReturn, List.mem_filter, decide_eq_true_eq] at hq
    exact ⟨by rw [← e1.2.2.2.2]; exact hq.2, q, hq.1, e1.1, e1.2.1, e1.2.2.1, e1.2.2.2.1⟩
  · have hnb : (b.link n).store.NamesLaw := by
      rw [hs.2.2.2.2.1]
      exact ⟨(List.filter_sublist.map StoredPacket.id).nodup hnm.1, fun p hp => hnm.2 p (List.mem_filter.1 hp).1⟩
    rw [State.latch_link, (T.store n hnb).1, hs.2.2.2.2.1]; rfl
  · have h := L.links m
    rw [hbms m hm] at h
    rw [State.latch_link]
    exact ⟨h.state, h.seen, h.peer, h.cause, h.initTimer, h.holdTimer, h.ctrl, h.tx⟩
  · have h := T.store m (by rw [hbms m hm]; exact hnm)
    rw [show b.isUp m = u.isUp m by simp only [State.isUp, hbms m hm], hbms m hm] at h
    rw [State.latch_link]
    exact h
  · have h := L.latched
    rw [T.events] at h
    rw [State.latch_latch]
    exact latch_kept _ h
  · have hls := d.loseSent_sent n r
    rw [← T.sents] at hls
    rw [← T.entry r] at h1 h2
    rw [State.latch_entry, State.latch_cq]
    rcases (Lc.trans Ld).entry r with e1 | ⟨_, e1⟩
    · exact hls (by rw [e1]; exact h1) (by rw [e1]; exact h2)
    · rcases Le.entry r with e2 | ⟨_, e2⟩
      · rw [e2]; exact ⟨e1.1, e1.2.1, Le.cq.subset e1.2.2⟩
      · exact e2
  · rw [State.latch_entry]
    rcases L.entry r with e1 | ⟨e1, _⟩
    · rw [e1, T.entry]
    · rw [T.entry] at e1; grind
  · have h := L.cq
    rw [T.cq] at h
    rw [State.latch_cq]; exact h
  · rw [State.latch_entry, (T.noted H).entry]
    have hr : r ∈ reqIxs := by fin_cases r <;> decide
    refine if_congr ?_ rfl rfl
    simp only [State.teardownLosses, List.mem_append, H.mem_losses n r, List.mem_filter, hr, true_and, decide_eq_true_eq]
    exact or_and_right.symm
  · have N := T.noted H
    refine ⟨N.count, N.capture, ?_⟩
    classical
    have h := N.drops (decide (u.Frees e)) (by simp)
    rw [State.latch_latch, h]
    have e1 : (∃ i, (u.slot i).isSome = true ∧ (e.latch .link).slot i = none) ↔ u.Frees e := Iff.rfl
    simp only [e1, decide_eq_true_eq, EventBit.mask]
    ac_rfl

end Sys2Proof.Machine
end

