-- ==== Sys2Proof/Laws/Moves.lean ====
section
/-! SUPPORT. Every command as a chain of small moves of its parts: what holds of a link, of the request table, of the
inbound queue, of the jobs, of the slots or of a counter through each move holds through every command. -/

namespace Sys2Proof.Machine

open Relation (ReflTransGen)

/-! ### The moves -/

/-- What can happen to a link at one instant, resets and the entry to UP aside. -/
inductive Link.Move : Link → Link → Prop where
  | note (n : Link) (seen : Bool) (peer : NodeId) : Move n { n with seen := seen, peer := peer }
  | ctrl (n : Link) (w : Word) : lctrlAccepted w = true → Move n { n with ctrl := n.ctrl.written w }
  | hold (n : Link) : n.state ≠ .up → Move n n.enterHold
  | off (n : Link) : n.state ≠ .up → Move n n.enterOff
  | wait (n : Link) : n.drained = true → Move n n.enterWaitPeer
  | torn (n : Link) (why : Cause) : Move n (n.torn why)
  | append (n : Link) (e : EgressEntry) : n.state = .up → n.tx.hasRoom e.cls = true → e.started = false → 1 ≤ e.length →
      e.length ≤ 8 → Move n { n with tx := n.tx.append e }
  | withdraw (n : Link) (keep : EgressEntry → Bool) : Move n { n with tx := n.tx.withdraw keep }
  | start (n : Link) (c : Class) (run : Nat) (e : EgressEntry) (rest : List EgressEntry) : n.state = .up →
      n.tx.busy = false → n.tx.choose n.ctrl.quantum = some (c, run) → n.tx.queue c = e :: rest →
      Move n { n with tx := n.tx.start c run e rest }
  | finish (n : Link) (c : Class) (e : EgressEntry) (rest : List EgressEntry) : n.tx.busyClass = some c →
      n.tx.queue c = e :: rest → Move n { n with tx := { n.tx with queues := n.tx.queues.set c rest } }
  | credit (n : Link) (count : BitVec 7) (res : PerClass Bool) : n.state = .up → n.tx.overfilled count res = false →
      Move n { n with tx := n.tx.credited count res }
  | returned (n : Link) : n.state = .up → Move n { n with store := n.store.clearReturn }
  | endCopy (n : Link) (id : Nat) : Move n (n.endCopy id)
  | dispatched (n : Link) (p : StoredPacket) (copies : Nat) : p ∈ n.store.packets → p.cond = .queued →
      Move n (n.dispatched p.id copies)
  | opened (n : Link) (h : Header) : n.state = .up → n.store.receiving = none → n.store.admits h = true →
      Move n { n with store := n.store.openPacket h }
  | cell (n : Link) (c : Cell) : n.state = .up → Move n { n with store := n.store.takeCell c }
  | elapsed (n : Link) : n.store.holdoff.isSome = true →
      Move n { n with store := { n.store with holdoff := none, elapsed := true } }
  | holdOut (n : Link) : Move n { n with holdTimer := none }
  | initRestart (n : Link) : n.state = .waitPeer → Move n { n with initTimer := some Config.initInterval }
  | unit (n : Link) : Move n n.unitEnd

/-- What can happen to the request table and the completion queue at one instant, CQ_RELEASE and resets aside. -/
inductive TableMove : Vector ReqEntry 16 × List ReqIx → Vector ReqEntry 16 × List ReqIx → Prop where
  | done (v : Vector ReqEntry 16) (q : List ReqIx) (r : ReqIx) (e : ReqEntry) : (v[r].state = .queued ∨ v[r].state = .sent) →
      e.state = .done → e.gen = v[r].gen → TableMove (v, q) (v.set r e, q ++ [r])
  | moved (v : Vector ReqEntry 16) (q : List ReqIx) (r : ReqIx) (e : ReqEntry) : v[r].state = .queued →
      (e.state = .queued ∨ e.state = .sent) → e.gen = v[r].gen → TableMove (v, q) (v.set r e, q)
  | taken (v : Vector ReqEntry 16) (q : List ReqIx) (r : ReqIx) (e : ReqEntry) : v[r].state = .free → e.state = .queued →
      e.gen = v[r].gen → TableMove (v, q) (v.set r e, q)
  | unit (v : Vector ReqEntry 16) (q : List ReqIx) : TableMove (v, q) (Vector.ofFn (fun r => v[r].unitEnd), q)

/-- What can happen to the inbound queue at one instant. -/
inductive InboundMove : List InboundEntry → List InboundEntry → Prop where
  | push (q : List InboundEntry) (e : InboundEntry) : q.length < 32 → (q.map (fun e => e.len.toNat)).sum + e.len.toNat ≤ 112 →
      InboundMove q (q ++ [e])
  | pop (e : InboundEntry) (q : List InboundEntry) : InboundMove (e :: q) q

/-- What can happen to the responder's jobs at one instant. -/
inductive JobsMove : List Job → List Job → Prop where
  | push (js : List Job) (j : Job) : js.length < 4 → JobsMove js (js ++ [j])
  | less (js ks : List Job) : ks.length ≤ js.length → JobsMove js ks

/-- What can happen to the host slots at one instant. -/
inductive SlotsMove : Vector (Option Slot) 8 → Vector (Option Slot) 8 → Prop where
  | take (v : Vector (Option Slot) 8) (i : SlotIx) (k : Slot) : v[i] = none →
      (k.hdr.cls ≠ Class.rpy.code → 2 < (slotIxs.filter (fun j => v[j].isNone)).length) → SlotsMove v (v.set i (some k))
  | free (v : Vector (Option Slot) 8) (i : SlotIx) : SlotsMove v (v.set i none)
  | fewer (v : Vector (Option Slot) 8) (i : SlotIx) (k : Slot) (n : Nat) : v[i] = some k →
      SlotsMove v (v.set i (some { k with copies := n }))

/-- What can happen to a sync counter at one instant. -/
inductive CounterMove : SyncCounter → SyncCounter → Prop where
  | counted (c : SyncCounter) : CounterMove c c.counted.check
  | armed (c : SyncCounter) (t : BitVec 8) : t ≠ 0 → CounterMove c ({ c with target := t, armed := true, fired := false } : SyncCounter).check
  | taken (c : SyncCounter) :
      CounterMove c ({ c with count := c.count - c.target, armed := true, fired := false } : SyncCounter).check
  | disarmed (c : SyncCounter) : CounterMove c { c with armed := false }
  | cleared (c : SyncCounter) : CounterMove c ⟨0, c.target, false, false, false⟩

/-- The part has gone from `s` to `t` by moves of its parts, clearing no latched event. -/
structure Evolves (s t : State) : Prop where
  links   : ∀ l, ReflTransGen Link.Move (s.link l) (t.link l)
  table   : ReflTransGen TableMove (s.reqs, s.cq) (t.reqs, t.cq)
  inbound : ReflTransGen InboundMove s.inbound t.inbound
  jobs    : ReflTransGen JobsMove s.jobs t.jobs
  slots   : ReflTransGen SlotsMove s.slots t.slots
  sync    : ∀ k, ReflTransGen CounterMove (s.counter k) (t.counter k)
  hops    : s.port.defaultHops ≠ 0 → t.port.defaultHops ≠ 0
  tbDiv   : s.port.tbDiv ≠ 0 → t.port.tbDiv ≠ 0
  latched : s.events.latch &&& t.events.latch = s.events.latch
  pending : t.pending = s.pending

theorem Evolves.refl (s : State) : Evolves s s :=
  ⟨fun _ => .refl, .refl, .refl, .refl, .refl, fun _ => .refl, id, id, by simp, rfl⟩

theorem Evolves.trans {s t u : State} (h : Evolves s t) (k : Evolves t u) : Evolves s u where
  links l := (h.links l).trans (k.links l)
  table := h.table.trans k.table
  inbound := h.inbound.trans k.inbound
  jobs := h.jobs.trans k.jobs
  slots := h.slots.trans k.slots
  sync i := (h.sync i).trans (k.sync i)
  hops x := k.hops (h.hops x)
  tbDiv x := k.tbDiv (h.tbDiv x)
  latched := by rw [← h.latched, BitVec.and_assoc, k.latched]
  pending := k.pending.trans h.pending

/-! ### The named updates as moves -/

/-- A change of what no move names. -/
theorem Evolves.same {s t : State} (hl : t.links = s.links) (hr : t.reqs = s.reqs) (hq : t.cq = s.cq)
    (hi : t.inbound = s.inbound) (hj : t.jobs = s.jobs) (hs : t.slots = s.slots) (hy : t.sync = s.sync)
    (hh : s.port.defaultHops ≠ 0 → t.port.defaultHops ≠ 0) (ht : s.port.tbDiv ≠ 0 → t.port.tbDiv ≠ 0)
    (he : s.events.latch &&& t.events.latch = s.events.latch) (hp : t.pending = s.pending) : Evolves s t where
  links l := by simp only [State.link, hl]; exact .refl
  table := by rw [hr, hq]
  inbound := by rw [hi]
  jobs := by rw [hj]
  slots := by rw [hs]
  sync k := by simp only [State.counter, hy]; exact .refl
  hops := hh
  tbDiv := ht
  latched := he
  pending := hp

theorem Evolves.bumpChoices (s : State) : Evolves s s.bumpChoices :=
  .same rfl rfl rfl rfl rfl rfl rfl id id (by simp) rfl

theorem Evolves.setPosition (s : State) (p : Fin 13) : Evolves s (s.setPosition p) :=
  .same rfl rfl rfl rfl rfl rfl rfl id id (by simp) rfl

theorem Evolves.setResult (s : State) (c : BitVec 4) (r : ResultCode) : Evolves s (s.setResult c r) :=
  .same rfl rfl rfl rfl rfl rfl rfl id id (by simp) rfl

theorem Evolves.setReqResult (s : State) (r : ReqIx) (tag : BitVec 6) : Evolves s (s.setReqResult r tag) :=
  .same rfl rfl rfl rfl rfl rfl rfl id id (by simp [State.setReqResult]) rfl

theorem Evolves.rejectConfig (s : State) : Evolves s s.rejectConfig :=
  .same rfl rfl rfl rfl rfl rfl rfl id id (by simp [State.rejectConfig]) rfl

theorem Evolves.latch (s : State) (e : EventBit) : Evolves s (s.latch e) := by
  refine .same rfl rfl rfl rfl rfl rfl rfl id id ?_ rfl
  ext i; simp; grind

theorem Evolves.drop (s : State) (r : DropReason) (o : Origin) (x : Header) : Evolves s (s.drop r o x) := by
  refine .same rfl rfl rfl rfl rfl rfl rfl id id ?_ rfl
  ext i; simp; grind

theorem Evolves.send (s : State) (l : LinkId) (cs : List LaneCell) : Evolves s (s.send l cs) :=
  .same rfl rfl rfl rfl rfl rfl rfl id id (by simp) rfl

theorem Evolves.modLink (s : State) (l : LinkId) (f : Link → Link) (h : ReflTransGen Link.Move (s.link l) (f (s.link l))) :
    Evolves s (s.modLink l f) := by
  refine ⟨fun m => ?_, .refl, .refl, .refl, .refl, fun _ => .refl, id, id, by simp, rfl⟩
  rw [State.link_modLink]
  split
  · subst m; exact h
  · exact .refl

theorem Evolves.pushInbound (s : State) (e : InboundEntry) (h : s.inbound.length < 32)
    (hc : s.inboundCells + e.len.toNat ≤ 112) : Evolves s (s.pushInbound e) :=
  { Evolves.refl s with inbound := .single (.push _ _ h hc) }

theorem Evolves.setJobs (s : State) (js : List Job) (h : js.length ≤ s.jobs.length) : Evolves s (s.setJobs js) :=
  { Evolves.refl s with jobs := .single (.less _ _ h) }

theorem Evolves.pushJob (s : State) (j : Job) (h : s.jobs.length < 4) : Evolves s (s.pushJob j) :=
  { Evolves.refl s with jobs := .single (.push _ _ h) }

theorem Evolves.setEntry (s : State) (r : ReqIx) (e : ReqEntry)
    (h : TableMove (s.reqs, s.cq) (s.reqs.set r e, s.cq)) : Evolves s (s.setEntry r e) :=
  { Evolves.refl s with table := .single h }

theorem Evolves.setCounter (s : State) (k : Fin 8) (c : SyncCounter) (h : CounterMove (s.counter k) c) :
    Evolves s (s.setCounter k c) := by
  refine { Evolves.refl s with sync := fun i => ?_ }
  rw [State.counter_setCounter]
  split
  · subst i; exact .single h
  · exact .refl

/-- The firing check leaves a counter as `SyncCounter.check` does, latching SYNC if it fires (R153). -/
theorem Evolves.checkCounter (s : State) (k : Fin 8) (c : SyncCounter) (h : CounterMove (s.counter k) c.check) :
    Evolves s (s.checkCounter k c) := by
  unfold State.checkCounter
  split
  · exact (Evolves.setCounter s k _ h).trans (.latch _ _)
  · rename_i hf
    have : c.check = c := by
      unfold SyncCounter.check
      rw [if_neg]
      simpa [SyncCounter.fires] using hf
    exact .setCounter s k c (this ▸ h)

theorem Evolves.signal (s : State) (tag : BitVec 6) : Evolves s (s.signal tag) :=
  .checkCounter s _ _ (.counted _)

theorem Evolves.completeAs (s : State) (r : ReqIx) (e : ReqEntry) (he : e.state = .done) (hg : e.gen = (s.entry r).gen) :
    Evolves s (s.completeAs r e) := by
  unfold State.completeAs
  split
  · rename_i h
    refine Evolves.trans (t := (s.setEntry r e).pushCq r) { Evolves.refl s with table := .single ?_ } (.latch _ _)
    exact .done _ _ r e h he hg
  · exact .refl s

theorem Evolves.complete (s : State) (r : ReqIx) (st : Status) : Evolves s (s.complete r st) :=
  .completeAs s r _ rfl rfl

theorem Evolves.reqSent (s : State) (r : ReqIx) : Evolves s (s.reqSent r) := by
  unfold State.reqSent
  split
  · split
    · exact .complete s r _
    · exact .setEntry s r _ (.moved _ _ r _ ‹_› (.inr rfl) rfl)
  · exact .refl s

theorem Evolves.takeReply (s : State) (x : Header) (d : List Cell) (o : Origin) : Evolves s (s.takeReply x d o) := by
  unfold State.takeReply
  split
  · exact .completeAs s _ _ rfl rfl
  · exact (Evolves.drop s _ _ _).trans (.latch _ _)

theorem Evolves.endSlotCopy (s : State) (i : SlotIx) : Evolves s (s.endSlotCopy i) := by
  unfold State.endSlotCopy
  split
  · exact .refl s
  · rename_i k hk
    split
    · exact Evolves.trans (t := s.setSlot i none) { Evolves.refl s with slots := .single (.free _ i) } (.latch _ _)
    · exact { Evolves.refl s with slots := .single (.fewer _ i k _ hk) }

theorem Evolves.freeJob (s : State) (id : Nat) : Evolves s (s.freeJob id) :=
  .setJobs s _ (List.length_filter_le _ _)

theorem Evolves.markSent (s : State) (id : Nat) : Evolves s (s.markSent id) :=
  .setJobs s _ (by simp)

theorem Evolves.endCopy (s : State) (x : Source) : Evolves s (s.endCopy x) := by
  cases x
  · exact Evolves.modLink s _ (fun n => n.endCopy _) (.single (.endCopy _ _))
  · exact .endSlotCopy s _
  · exact .freeJob s _

theorem Evolves.foldl {α : Type} (f : State → α → State) (hf : ∀ s x, Evolves s (f s x)) :
    ∀ (xs : List α) (s : State), Evolves s (xs.foldl f s) := by
  intro xs
  induction xs with
  | nil => exact fun s => .refl s
  | cons x xs ih => exact fun s => (hf s x).trans (ih _)

/-! ### Copies appended (R69, R72, R74, R105) -/

theorem Evolves.appendEntry (s : State) (m : LinkId) (e : EgressEntry) (hu : s.isUp m = true)
    (hr : (s.link m).tx.hasRoom e.cls = true) (hs : e.started = false) (h1 : 1 ≤ e.length) (h8 : e.length ≤ 8) :
    Evolves s (s.appendEntry m e) :=
  .modLink s m _ (.single (.append _ e (by simpa [State.isUp] using hu) hr hs h1 h8))

theorem State.appendEntry_room (s : State) {l m : LinkId} (e : EgressEntry) (h : m ≠ l) :
    (s.appendEntry l e).link m = s.link m := by
  rw [State.appendEntry, State.link_modLink_ne _ _ h]

theorem Evolves.appendCopies (e : EgressEntry) (hs : e.started = false) (h1 : 1 ≤ e.length) (h8 : e.length ≤ 8) :
    ∀ (ms : List LinkId) (s : State), ms.Nodup → (∀ m ∈ ms, s.isUp m = true ∧ (s.link m).tx.hasRoom e.cls = true) →
      Evolves s (s.appendCopies ms e) := by
  intro ms
  induction ms with
  | nil => exact fun s _ _ => .refl s
  | cons m ms ih =>
    intro s hn h
    have hm := h m (by simp)
    have hnd := List.nodup_cons.1 hn
    refine (Evolves.appendEntry s m e hm.1 hm.2 hs h1 h8).trans (ih _ hnd.2 fun k hk => ?_)
    have hne : k ≠ m := fun x => hnd.1 (x ▸ hk)
    rw [State.appendEntry_isUp, State.appendEntry_room s e hne]
    exact h k (by simp [hk])

theorem Header.cells_bounds (h : Header) : 1 ≤ h.cells ∧ h.cells ≤ 8 := by
  have := h.len.isLt
  simp only [Header.cells]; omega

/-! ### The route unit (R60–R74) -/

theorem State.plan_nodup (s : State) (l : LinkId) (x : Header) : (s.plan l x).copies.Nodup := by
  have hl : linkIds.Nodup := by decide
  unfold State.plan
  split
  · simp [Plan.dropped]
  split
  · unfold State.planGroup
    split
    · simp only
      split
      · exact List.nodup_nil
      · exact (hl.filter _).filter _
    · simp [Plan.dropped]
  split
  · unfold State.planLocal Plan.dropped
    repeat' split
    all_goals simp
  · unfold State.planRemote
    split
    · split <;> simp [Plan.dropped]
    · simp

theorem State.planFits_iff {s : State} {h : Header} {p : Plan} (hf : s.planFits h p = true) :
    (∀ m ∈ p.copies, (s.link m).tx.hasRoom h.queueClass = true) ∧
      (p.deliver = some .inbound → s.inbound.length < 32 ∧ s.inboundCells + h.len.toNat ≤ 112) ∧
      (p.job.isSome = true → s.jobs.length < 4) := by
  simp only [State.planFits, Bool.and_eq_true, Bool.or_eq_true, List.all_eq_true, State.inboundRoom, State.jobRoom,
    Bool.not_eq_true', decide_eq_false_iff_not, Config.inboundEntries, Config.inboundCells,
    Config.responderJobs] at hf
  refine ⟨hf.1.1, fun h => ?_, fun h => ?_⟩
  · rcases hf.1.2 with h' | h'
    · exact absurd h h'
    · exact of_decide_eq_true h'
  · rcases hf.2 with h' | h'
    · rw [h] at h'; exact absurd h' (by decide)
    · exact of_decide_eq_true h'

theorem State.createJob_inbound (s : State) (x : Header) (k : Option JobKind) : (s.createJob x k).inbound = s.inbound := by
  cases k <;> rfl

/-- The whole effect of a head's dispatch, where it has room, is moves (R60). -/
theorem Evolves.applyPlan {s : State} {l : LinkId} {p : StoredPacket} (hp : p ∈ (s.link l).store.packets)
    (hq : p.cond = .queued) (hf : s.planFits p.hdr (s.plan l p.hdr) = true) :
    Evolves s (s.applyPlan l p (s.plan l p.hdr)) := by
  obtain ⟨hroom, hin, hjob⟩ := State.planFits_iff hf
  have hup := s.plan_isUp l p.hdr
  have hnd := s.plan_nodup l p.hdr
  generalize s.plan l p.hdr = pl at *
  have h1 : Evolves s (s.createJob p.hdr pl.job) := by
    cases hj : pl.job with
    | none => exact .refl s
    | some k => exact .pushJob s _ (hjob (by rw [hj]; rfl))
  have h2 : Evolves (s.createJob p.hdr pl.job) ((s.createJob p.hdr pl.job).deliver l p pl.deliver) := by
    rcases hd : pl.deliver with _ | _ | _ | _
    · exact .refl _
    · have := hin hd
      refine (Evolves.pushInbound _ _ ?_ ?_).trans (.latch _ _)
      · rw [State.createJob_inbound]; exact this.1
      · simp only [State.inboundCells, State.createJob_inbound, inboundOf]; exact this.2
    · exact .signal _ _
    · exact .takeReply _ _ _ _
  have h3 : Evolves ((s.createJob p.hdr pl.job).deliver l p pl.deliver)
      (((s.createJob p.hdr pl.job).deliver l p pl.deliver).recordDrop l p.hdr pl.drop) := by
    cases pl.drop
    · exact .refl _
    · exact .drop _ _ _ _
  have hlink : ∀ m, ((((s.createJob p.hdr pl.job).deliver l p pl.deliver).recordDrop l p.hdr pl.drop).link m) = s.link m :=
    fun m => by rw [State.recordDrop_link, State.deliver_link, State.createJob_link]
  refine ((h1.trans h2).trans h3).trans (Evolves.trans (.appendCopies _ rfl ?_ ?_ _ _ hnd fun m hm => ?_) (.modLink _ l _ ?_))
  · exact (Header.cells_bounds _).1
  · exact (Header.cells_bounds _).2
  · simp only [State.isUp, hlink]
    exact ⟨by simpa [State.isUp] using hup m hm, hroom m hm⟩
  · refine .single (.dispatched _ p _ ?_ hq)
    rw [State.appendCopies_store, hlink]
    exact hp

theorem JobKind.len_bounds (k : JobKind) : 1 ≤ 1 + k.len.toNat ∧ 1 + k.len.toNat ≤ 8 := by
  cases k <;> decide

theorem Evolves.dispatchJob {s : State} {j : Job} (hf : s.jobFits j = true) : Evolves s (s.dispatchJob j) := by
  unfold State.dispatchJob
  split
  · exact (Evolves.takeReply s _ _ _).trans (.freeJob _ _)
  · rename_i hl
    split
    · exact (Evolves.drop s _ _ _).trans (.freeJob _ _)
    · rename_i hn
      refine (Evolves.appendEntry s _ _ ?_ ?_ rfl (JobKind.len_bounds _).1 (JobKind.len_bounds _).2).trans (.markSent _ _)
      · unfold State.jobFailure at hn; grind
      · simp only [State.jobFits, hl, hn] at hf
        exact hf

theorem Evolves.dispatchSource {s : State} {r : RouteSource} (h : s.ready r = true) : Evolves s (s.dispatchSource r) := by
  cases r <;> simp only [State.ready] at h <;> split at h
  · cases h
  · rename_i hp
    have q := State.ingressHead_queued hp
    simp only [State.dispatchSource, hp]
    exact (Evolves.applyPlan q.1 q.2.1 h).trans (.setPosition _ _)
  · cases h
  · rename_i hj
    simp only [State.dispatchSource, hj]
    exact (Evolves.dispatchJob h).trans (.setPosition _ _)

/-! ### Lanes (R49, R82, R85) -/

theorem Evolves.decideStart (s : State) (l : LinkId) (hu : (s.link l).state = .up) (hb : (s.link l).tx.busy = false) :
    Evolves s (s.decideStart l) := by
  unfold State.decideStart State.startHead
  split
  · exact .refl s
  · rename_i x hx
    split
    · exact .refl s
    · rename_i e rest hq
      exact (Evolves.send s l _).trans (.modLink _ l _ (.single (.start _ x.1 x.2 e rest hu hb hx hq)))

theorem Evolves.boundary (s : State) (l : LinkId) (hu : (s.link l).state = .up) (hb : (s.link l).tx.busy = false) :
    Evolves s (s.boundary l) := by
  unfold State.boundary
  split
  · refine Evolves.trans (t := s.sendCredit l) ?_ (.decideStart _ l ?_ ?_)
    · exact (Evolves.send s l _).trans (.modLink _ l _ (.single (.returned _ hu)))
    · simp [State.sendCredit, hu]
    · simp [State.sendCredit, hb]
  · exact .decideStart s l hu hb

theorem Link.canAct_iff {n : Link} (h : n.canAct = true) : n.state = .up ∧ n.tx.busy = false := by
  simp only [Link.canAct, Bool.and_eq_true, decide_eq_true_eq, Bool.not_eq_true'] at h
  exact h.1

theorem Evolves.enterWaitPeer (s : State) (l : LinkId) (h : (s.link l).drained = true) : Evolves s (s.enterWaitPeer l) :=
  (Evolves.modLink s l _ (.single (.wait _ h))).trans (.send _ _ _)

/-- The rest of an event is moves (R20, R61, R83). -/
theorem Evolves.settle (s : State) : Evolves s (settle s) :=
  settle_induct (P := Evolves s) (fun _ _ hr h => h.trans (.dispatchSource hr))
    (fun t l hc h => h.trans (.boundary t l (Link.canAct_iff hc).1 (Link.canAct_iff hc).2))
    (fun t l hd h => h.trans (.enterWaitPeer t l hd)) (fun t h => h.trans (.bumpChoices t)) (.refl s)

/-! ### Teardown (R29) -/

theorem Evolves.ofLaneOnly {s t : State} (h : LaneOnly s t) : Evolves s t :=
  .same h.links h.reqs h.cq h.inbound h.jobs h.slots h.sync (by rw [h.port]; exact id) (by rw [h.port]; exact id)
    (by rw [h.events]; simp) h.pending

theorem Evolves.withdrawElsewhere (s : State) (n : LinkId) : Evolves s (s.withdrawElsewhere n) := by
  refine Evolves.foldl _ (fun t l => ?_) linkIds s
  split
  · exact .refl t
  · exact .modLink t l _ (.single (.withdraw _ _))

theorem Evolves.loseCopy (s : State) (e : EgressEntry) : Evolves s (s.loseCopy e) := by
  refine Evolves.trans (t := s.recordLoss e) ?_ (.endCopy _ _)
  unfold State.recordLoss
  split
  · exact .complete s _ _
  · split
    · exact .refl s
    · exact .drop s _ _ _

theorem Evolves.recordPurges (s : State) (n : LinkId) (ps : List StoredPacket) : Evolves s (s.recordPurges n ps) := by
  refine Evolves.foldl _ (fun t p => ?_) ps s
  unfold State.recordPurge
  split
  · exact .refl t
  · exact .drop t _ _ _

theorem Evolves.loseSent (s : State) (n : LinkId) : Evolves s (s.loseSent n) := by
  refine Evolves.foldl _ (fun t r => ?_) reqIxs s
  split
  · exact .complete t r _
  · exact .refl t

/-- A teardown is moves (R29). -/
theorem Evolves.teardown (s : State) (n : LinkId) (why : Cause) : Evolves s (s.teardown n why) := by
  have h1 := (Evolves.ofLaneOnly (s.cutTransmission_laneOnly n)).trans
    (.ofLaneOnly ((s.cutTransmission n).sendTeardown_laneOnly n why))
  have h2 := (h1.trans (.modLink _ n (fun k => k.torn why) (.single (.torn _ why)))).trans (.withdrawElsewhere _ n)
  exact (((h2.trans (.foldl _ Evolves.loseCopy (s.lostCopies n) _)).trans
    (.recordPurges _ n (s.link n).store.queuedPackets)).trans (.loseSent _ n)).trans (.latch _ .link)

/-! ### The commands -/

theorem State.freeSlot_none {s : State} {i : SlotIx} (h : s.freeSlot = some i) : s.slot i = none := by
  have := List.find?_some h
  simpa using this

theorem State.submitCheck_ok {s : State} {h : Header} {ms : List LinkId} (hk : s.submitCheck h = .ok ms) :
    (h.cls ≠ Class.rpy.code → 2 < s.freeSlots) ∧ s.submitTargets h = .ok ms ∧
      ∀ m ∈ ms, (s.link m).tx.hasRoom h.queueClass = true := by
  unfold State.submitCheck at hk
  split at hk
  · cases hk
  split at hk
  · cases hk
  split at hk
  · cases hk
  rename_i hslot
  split at hk
  · cases hk
  split at hk
  · cases hk
  rename_i ms' ht
  split at hk
  · rename_i hall
    cases hk
    refine ⟨fun hc => ?_, ht, fun m hm => List.all_eq_true.1 hall m hm⟩
    simp only [State.slotRefused, Bool.or_eq_true, Bool.and_eq_true, decide_eq_true_eq, not_or, not_and] at hslot
    exact Nat.lt_of_not_le (hslot.2 hc)
  · cases hk

theorem State.submitTargets_up {s : State} {h : Header} {ms : List LinkId} (hk : s.submitTargets h = .ok ms) :
    ms.Nodup ∧ ∀ m ∈ ms, s.isUp m = true := by
  have hl : linkIds.Nodup := by decide
  unfold State.submitTargets at hk
  split at hk
  · split at hk
    · cases hk
    · split at hk
      · cases hk
      · cases hk
        exact ⟨hl.filter _, fun m hm => by simp only [State.upMembers, List.mem_filter, Bool.and_eq_true] at hm; exact hm.2.2⟩
  · split at hk
    · cases hk
    · split at hk
      · cases hk
      · rename_i hup
        cases hk
        refine ⟨List.nodup_singleton _, fun m hm => ?_⟩
        rw [List.mem_singleton] at hm
        subst hm
        simpa using hup

theorem Evolves.takeSlot {s : State} {i : SlotIx} {h : Header} {req : Option ReqIx} {ms : List LinkId}
    (hi : s.slot i = none) (hc : h.cls ≠ Class.rpy.code → 2 < s.freeSlots) (hn : ms.Nodup)
    (hm : ∀ m ∈ ms, s.isUp m = true ∧ (s.link m).tx.hasRoom h.queueClass = true) : Evolves s (s.takeSlot i h req ms) := by
  refine Evolves.trans (t := s.setSlot i (some ⟨h, (composedCells s.port.compose).take h.len.toNat, ms.length, req⟩))
    { Evolves.refl s with slots := .single (.take _ i _ hi hc) } (.appendCopies _ rfl ?_ ?_ _ _ hn hm)
  · exact (Header.cells_bounds h).1
  · exact (Header.cells_bounds h).2

theorem Evolves.submit (s : State) : Evolves s s.submit := by
  unfold State.submit
  split
  · exact .setResult s _ _
  · rename_i ms hk
    refine Evolves.trans ?_ (.settle _)
    obtain ⟨hc, ht, hr⟩ := State.submitCheck_ok hk
    obtain ⟨hn, hu⟩ := State.submitTargets_up ht
    unfold State.submitAccepted
    split
    · exact .setResult s _ _
    · rename_i i hi
      have hfree := State.freeSlot_none hi
      split
      · split
        · rename_i r m rest hr' 
          have hfr : (s.entry r).state = .free := by
            have := List.find?_some hr'; simpa using this
          have h1 : Evolves s (s.setEntry r ((s.entry r).allocated s.composed m i)) :=
            .setEntry s r _ (.taken _ _ r _ hfr rfl rfl)
          unfold State.submitReq
          refine (h1.trans (.takeSlot (h := { s.composed with tag := (s.entry r).tag r }) (ms := [m]) hfree hc (List.nodup_singleton m) fun k hk => ?_)).trans
            (.setReqResult _ _ _)
          rw [List.mem_singleton] at hk
          subst hk
          exact ⟨hu _ (by simp), hr _ (by simp)⟩
        · exact .setResult s _ _
      · exact (Evolves.takeSlot hfree hc hn fun m hm => ⟨hu m hm, hr m hm⟩).trans (.setResult _ _ _)

theorem Evolves.rxPop (s : State) : Evolves s s.rxPop := by
  unfold State.rxPop
  split
  · exact .setResult s _ _
  · rename_i e rest h
    refine Evolves.trans (t := { s with inbound := rest }) ?_ ((Evolves.setResult _ _ _).trans (.settle _))
    exact { Evolves.refl s with inbound := by rw [h]; exact .single (.pop e rest) }

theorem Evolves.reqCancel (s : State) (n : BitVec 5) : Evolves s (s.reqCancel n) := by
  unfold State.reqCancel
  split
  · exact .setResult s _ _
  · rename_i r _
    unfold State.cancelEntry
    split
    · exact .setResult s _ _
    · rename_i hq
      refine Evolves.trans (t := s.cancelQueued r) ?_ ((Evolves.setResult _ _ _).trans (.settle _))
      unfold State.cancelQueued
      split
      · exact .complete s r _
      · split
        · exact .setEntry s r _ (.moved _ _ r _ hq (.inl hq) rfl)
        · refine Evolves.trans (t := s.withdrawReq (s.entry r).egress _) ?_ (.complete _ r _)
          exact (Evolves.modLink s _ _ (.single (.withdraw _ _))).trans (.endSlotCopy _ _)
    · exact (Evolves.complete s r _).trans (.setResult _ _ _)
    · exact .setResult s _ _

theorem Evolves.linkReset (s : State) (n : BitVec 5) : Evolves s (s.linkReset n) := by
  unfold State.linkReset
  split
  · exact .setResult s _ _
  · split
    · refine Evolves.trans ?_ ((Evolves.setResult _ _ _).trans (.settle _))
      unfold State.restartLink
      split
      · exact .teardown s _ _
      · exact .modLink s _ _ (.single (.hold _ ‹_›))
    · exact .setResult s _ _

theorem Evolves.dropClear (s : State) : Evolves s s.dropClear :=
  .same rfl rfl rfl rfl rfl rfl rfl id id (by simp [State.dropClear, State.setResult]) rfl

theorem Evolves.syncArm (s : State) (k : BitVec 5) (t : BitVec 8) : Evolves s (s.syncArm k t) := by
  unfold State.syncArm
  split
  · exact .setResult s _ _
  · split
    · exact .setResult s _ _
    · exact (Evolves.checkCounter s _ _ (.armed _ t ‹_›)).trans (.setResult _ _ _)

theorem Evolves.syncTake (s : State) (k : BitVec 5) : Evolves s (s.syncTake k) := by
  unfold State.syncTake
  split
  · exact .setResult s _ _
  · split
    · exact (Evolves.checkCounter s _ _ (.taken _)).trans (.setResult _ _ _)
    · exact .setResult s _ _

theorem Evolves.syncDisarm (s : State) (k : BitVec 5) : Evolves s (s.syncDisarm k) := by
  unfold State.syncDisarm
  split
  · exact .setResult s _ _
  · exact (Evolves.setCounter s _ _ (.disarmed _)).trans (.setResult _ _ _)

theorem Evolves.syncClear (s : State) (k : BitVec 5) : Evolves s (s.syncClear k) := by
  unfold State.syncClear
  split
  · exact .setResult s _ _
  · exact (Evolves.setCounter s _ _ (.cleared _)).trans (.setResult _ _ _)

theorem Evolves.nodeWrite (s : State) (w : Word) : Evolves s (s.nodeWrite w) := by
  unfold State.nodeWrite
  split
  · exact .same rfl rfl rfl rfl rfl rfl rfl id id (by simp) rfl
  · exact .rejectConfig s

theorem Evolves.ctrlWrite (s : State) (w : Word) : Evolves s (s.ctrlWrite w) := by
  unfold State.ctrlWrite
  split
  · exact .rejectConfig s
  · rename_i h
    simp only [ctrlAccepted, Bool.not_eq_true', decide_eq_false_iff_not, Decidable.not_not] at h
    have hs : Evolves s (s.storeCtrl w) :=
      .same rfl rfl rfl rfl rfl rfl rfl (fun _ => h.1) (fun _ => h.2) (by simp [State.storeCtrl]) rfl
    split
    · exact hs
    · exact hs.trans (.settle _)

theorem Evolves.lctrlWrite (s : State) (l : LinkId) (w : Word) : Evolves s (s.lctrlWrite l w) := by
  unfold State.lctrlWrite
  split
  · refine Evolves.trans ?_ (.settle _)
    refine (Evolves.modLink s l (fun n => { n with ctrl := n.ctrl.written w }) (.single (.ctrl _ w ‹_›))).trans ?_
    unfold State.applyEnable
    split
    · split
      · rename_i h
        refine .modLink _ l _ (.single (.hold _ ?_))
        simp only [Bool.and_eq_true, decide_eq_true_eq] at h
        rw [h.2]; decide
      · exact .refl _
    · split
      · exact .teardown _ _ _
      · exact .modLink _ l _ (.single (.off _ ‹_›))
  · exact .rejectConfig s

theorem Evolves.statusWrite (s : State) (w : Word) : Evolves s (s.statusWrite w) :=
  .same rfl rfl rfl rfl rfl rfl rfl id id (by simp [State.statusWrite]) rfl

theorem Evolves.eventEnWrite (s : State) (w : Word) : Evolves s (s.eventEnWrite w) :=
  .same rfl rfl rfl rfl rfl rfl rfl id id (by simp [State.eventEnWrite]) rfl

theorem Evolves.setRoute (s : State) (x : RouteUnit) : Evolves s { s with route := x } :=
  .same rfl rfl rfl rfl rfl rfl rfl id id (by simp) rfl

theorem Evolves.routeWrite (s : State) (w : Word) : Evolves s (s.routeWrite w) :=
  Evolves.trans (.setRoute s _) (.settle _)

theorem Evolves.groupWrite (s : State) (w : Word) : Evolves s (s.groupWrite w) :=
  Evolves.trans (.setRoute s _) (.settle _)

theorem Evolves.plainWrite (s : State) (a : BitVec 7) (w : Word) : Evolves s (s.plainWrite a w) := by
  unfold State.plainWrite
  repeat' split
  all_goals exact .same rfl rfl rfl rfl rfl rfl rfl id id (by simp) rfl

/-! ### Cells and timers -/

theorem Evolves.controlInUp {s t : State} (l : LinkId) (h : Evolves s t) : Evolves s (s.controlInUp l t) := by
  unfold State.controlInUp
  split
  · exact (Evolves.teardown s l _).trans (.settle _)
  · exact h

theorem Evolves.clearSeen (s : State) (l : LinkId) : Evolves s (s.clearSeen l) :=
  .modLink s l _ (.single (.note _ _ (s.link l).peer))

theorem Evolves.packetCell (s : State) (l : LinkId) (c : Cell) : Evolves s (s.packetCell l c) := by
  unfold State.packetCell
  split
  · exact .refl s
  · exact .refl s
  · exact .clearSeen s l
  · rename_i hu
    refine Evolves.trans ?_ (.settle _)
    unfold State.framedCell
    split
    · exact .modLink s l _ (.single (.cell _ c hu))
    · split
      · exact .modLink s l _ (.single (.opened _ _ hu ‹_› ‹_›))
      · exact .teardown s l _

theorem Evolves.creditReceived (s : State) (l : LinkId) (n : BitVec 7) (r : PerClass Bool) :
    Evolves s (s.creditReceived l n r) := by
  unfold State.creditReceived
  split
  · exact .refl s
  · exact .refl s
  · exact .clearSeen s l
  · rename_i hu
    refine .controlInUp l (Evolves.trans ?_ (.settle _))
    split
    · exact .teardown s l _
    · rename_i h
      exact .modLink s l _ (.single (.credit _ n r hu (Bool.eq_false_iff.2 h)))

theorem Evolves.teardownReceived (s : State) (l : LinkId) : Evolves s (s.teardownReceived l) := by
  unfold State.teardownReceived
  split
  · exact .controlInUp l ((Evolves.teardown s l _).trans (.settle _))
  · exact .refl s

theorem Evolves.unknownControl (s : State) (l : LinkId) : Evolves s (s.unknownControl l) := by
  unfold State.unknownControl
  split
  · exact (Evolves.teardown s l _).trans (.settle _)
  · exact .refl s

theorem Evolves.badCell (s : State) (l : LinkId) : Evolves s (s.badCell l) := by
  unfold State.badCell
  split
  · exact .refl s
  · exact .refl s
  · exact .clearSeen s l
  · exact (Evolves.teardown s l _).trans (.settle _)

theorem Evolves.carrierLoss (s : State) (l : LinkId) : Evolves s (s.carrierLoss l) := by
  unfold State.carrierLoss
  split
  · exact (Evolves.teardown s l _).trans (.settle _)
  · exact .refl s

/-- An INIT is moves, but for the one that brings the link UP (R23–R25, R28). -/
theorem Evolves.initReceived (s : State) (l : LinkId) (node : NodeId) (seen : Bool) : Evolves s (s.initReceived l node seen) ∨
    ((s.link l).state = .waitPeer ∧ node ≠ s.port.node ∧ seen = true ∧
      s.initReceived l node seen = Sys2Proof.Machine.settle (s.comeUp l node)) := by
  unfold State.initReceived
  split
  · exact .inl (.refl s)
  · exact .inl (.refl s)
  · rename_i hw
    unfold State.initInWaitPeer
    split
    · refine .inl (Evolves.trans (Evolves.trans ?_ (.teardown _ l _)) (.settle _))
      exact .modLink s l _ (.single (.note _ (s.link l).seen node))
    · split
      · exact .inr ⟨hw, ‹_›, ‹_›, rfl⟩
      · refine .inl (Evolves.trans (.modLink s l (fun n =>
          { n with peer := node, seen := true, initTimer := some Config.initInterval }) ?_) (.send _ _ _))
        exact (ReflTransGen.single (.note _ true node)).trans (.single (.initRestart { s.link l with seen := true, peer := node } hw))
  · refine .inl (.controlInUp l ?_)
    split
    · exact .refl s
    · exact (Evolves.teardown s l _).trans (.settle _)

theorem Evolves.holdExpiry (s : State) (l : LinkId) : Evolves s (s.holdExpiry l) := by
  unfold State.holdExpiry
  split
  · exact (Evolves.modLink s l _ (.single (.holdOut _))).trans (.settle _)
  · exact .refl s

theorem Evolves.initExpiry (s : State) (l : LinkId) : Evolves s (s.initExpiry l) := by
  unfold State.initExpiry
  split
  · rename_i h
    exact (Evolves.modLink s l _ (.single (.initRestart _ h.1))).trans (.send _ _ _)
  · exact .refl s

theorem Evolves.holdoffExpiry (s : State) (l : LinkId) : Evolves s (s.holdoffExpiry l) := by
  unfold State.holdoffExpiry
  split
  · exact (Evolves.modLink s l _ (.single (.elapsed _ ‹_›))).trans (.settle _)
  · exact .refl s

theorem Evolves.requestExpiry (s : State) (r : ReqIx) : Evolves s (s.requestExpiry r) := by
  unfold State.requestExpiry
  split
  · exact .complete s r _
  · exact .refl s

theorem Evolves.expire (s : State) (t : TimerId) : Evolves s (s.expire t) := by
  cases t
  · exact .holdExpiry s _
  · exact .initExpiry s _
  · exact .holdoffExpiry s _
  · exact .requestExpiry s _

theorem Evolves.expireAll : ∀ (n : Nat) (s : State), Evolves s (expireAll n s) := by
  intro n
  induction n with
  | zero => exact fun s => .refl s
  | succ n ih =>
    intro s
    unfold Sys2Proof.Machine.expireAll
    split
    · exact .refl s
    · exact (Evolves.expire s _).trans (ih _)
    · exact ((Evolves.bumpChoices s).trans (.expire _ _)).trans (ih _)

theorem State.countUnit_link (s : State) (l : LinkId) : s.countUnit.link l = (s.link l).unitEnd := by
  simp [State.countUnit, State.link]

/-- One reference clock period is moves (R166). -/
theorem Evolves.period (s : State) : Evolves s s.period := by
  unfold State.period
  split
  · refine Evolves.trans (t := { s.countUnit with divider := 0 }) ?_ (.expireAll _ _)
    refine { Evolves.refl s with links := fun l => ?_, table := ?_ }
    · rw [show ({ s.countUnit with divider := 0 } : State).link l = s.countUnit.link l from rfl, State.countUnit_link]
      exact .single (.unit _)
    · exact .single (.unit _ _)
  · exact .same rfl rfl rfl rfl rfl rfl rfl id id (by simp) rfl

theorem Evolves.tick (s : State) : Evolves s (tick s) := State.unlessReset_of (.refl s) (.period s)

/-! ### The part's own events -/

theorem Evolves.considerSource (s : State) (r : RouteSource) : Evolves s (s.considerSource r) := by
  unfold State.considerSource
  split
  · exact (Evolves.dispatchSource ‹_›).trans (.settle _)
  · exact .refl s

theorem Evolves.leaveHold (s : State) (l : LinkId) : Evolves s (s.leaveHold l) := by
  unfold State.leaveHold
  split
  · exact .enterWaitPeer s l ‹_›
  · exact .refl s

theorem Evolves.startWhere (s : State) (l : LinkId) : Evolves s (s.startWhere l) := by
  unfold State.startWhere
  split
  · rename_i h
    simp only [Link.canStart, Bool.and_eq_true, decide_eq_true_eq, Bool.not_eq_true'] at h
    exact .boundary s l h.1.1 h.1.2
  · exact .refl s

theorem Evolves.creditWhere (s : State) (l : LinkId) : Evolves s (s.creditWhere l) := by
  unfold State.creditWhere
  split
  · rename_i h
    simp only [Link.canCredit, Link.creditDue, Bool.and_eq_true, decide_eq_true_eq, Bool.not_eq_true'] at h
    exact .boundary s l h.1.1 h.2
  · exact .refl s

theorem Evolves.finishHead (s : State) (l : LinkId) (c : Class) (e : EgressEntry) (rest : List EgressEntry)
    (hc : (s.link l).tx.busyClass = some c) (hq : (s.link l).tx.queue c = e :: rest) :
    Evolves s (s.finishHead l c e rest) := by
  let f : Link → Link := fun n => { n with tx := { n.tx with queues := n.tx.queues.set c rest } }
  have h1 : Evolves s ((s.sendData l e.source).modLink l f) :=
    (Evolves.send s l (packetCells (s.sourceData e.source))).trans (.modLink _ l f (.single (.finish _ c e rest hc hq)))
  refine (h1.trans ?_).trans (.endCopy _ e.source)
  unfold State.copySent
  split
  · exact .refl _
  · exact .reqSent _ _

theorem Evolves.completeTransmission (s : State) (l : LinkId) : Evolves s (s.completeTransmission l) := by
  unfold State.completeTransmission
  split
  · exact .refl s
  · split
    · exact .refl s
    · exact .finishHead s l _ _ _ ‹_› ‹_›

theorem Evolves.finishWhere (s : State) (l : LinkId) : Evolves s (s.finishWhere l) := by
  unfold State.finishWhere
  split
  · exact (Evolves.completeTransmission s l).trans (.settle _)
  · exact .refl s

/-! ### Every command (R161) -/

/-- The commands that are not moves: what clears latched events, returns entries to FREE, resets, or brings a link UP. -/
inductive Turn (s : State) : State → Prop where
  | release : Turn s s.cqRelease
  | soft : Turn s s.softReset
  | power (asserted : Bool) : Turn s (s.powerOn asserted)
  | events (w : Word) : Turn s (s.eventWrite w)
  | up (l : LinkId) (node : NodeId) : (s.link l).state = .waitPeer → node ≠ s.port.node → Turn s (settle (s.comeUp l node))

theorem State.cmdWrite_cases (s : State) (w : Word) : Evolves s (s.cmdWrite w) ∨ Turn s (s.cmdWrite w) := by
  unfold State.cmdWrite
  repeat' split
  · exact .inl (.submit s)
  · exact .inl (.rxPop s)
  · exact .inr .release
  · exact .inl (.reqCancel s _)
  · exact .inl (.linkReset s _)
  · exact .inr .soft
  · exact .inl (.syncArm s _ _)
  · exact .inl (.syncTake s _)
  · exact .inl (.syncDisarm s _)
  · exact .inl (.syncClear s _)
  · exact .inl (.dropClear s)
  · exact .inl (.setResult s _ _)

/-- What holds of every host write's effect. -/
theorem hostWrite_of {P : State → Prop} {s : State} {a : BitVec 7} {w : Word} (h1 : P (s.nodeWrite w))
    (h3 : P (s.ctrlWrite w)) (h4 : P (s.statusWrite w)) (h6 : P (s.cmdWrite w)) (h8 : P (s.eventWrite w))
    (h9 : P (s.eventEnWrite w)) (hl : ∀ l, P (s.lctrlWrite l w)) (h41 : P (s.routeWrite w)) (h43 : P (s.groupWrite w))
    (hp : P (s.plainWrite a w)) : P (hostWrite s a w) := by
  unfold hostWrite
  by_cases h : a = 1
  · rw [if_pos h]; exact h1
  rw [if_neg h]
  clear h
  by_cases h : a = 3
  · rw [if_pos h]; exact h3
  rw [if_neg h]
  clear h
  by_cases h : a = 4
  · rw [if_pos h]; exact h4
  rw [if_neg h]
  clear h
  by_cases h : a = 6
  · rw [if_pos h]; exact h6
  rw [if_neg h]
  clear h
  by_cases h : a = 8
  · rw [if_pos h]; exact h8
  rw [if_neg h]
  clear h
  by_cases h : a = 9
  · rw [if_pos h]; exact h9
  rw [if_neg h]
  clear h
  by_cases h : a = 24
  · rw [if_pos h]; exact hl 0
  rw [if_neg h]
  clear h
  by_cases h : a = 25
  · rw [if_pos h]; exact hl 1
  rw [if_neg h]
  clear h
  by_cases h : a = 26
  · rw [if_pos h]; exact hl 2
  rw [if_neg h]
  clear h
  by_cases h : a = 27
  · rw [if_pos h]; exact hl 3
  rw [if_neg h]
  clear h
  by_cases h : a = 41
  · rw [if_pos h]; exact h41
  rw [if_neg h]
  clear h
  by_cases h : a = 43
  · rw [if_pos h]; exact h43
  rw [if_neg h]
  clear h
  exact hp

theorem hostWrite_cases (s : State) (a : BitVec 7) (w : Word) : Evolves s (hostWrite s a w) ∨ Turn s (hostWrite s a w) :=
  hostWrite_of (P := fun t => Evolves s t ∨ Turn s t) (.inl (.nodeWrite s w)) (.inl (.ctrlWrite s w))
    (.inl (.statusWrite s w)) (s.cmdWrite_cases w) (.inr (.events w)) (.inl (.eventEnWrite s w))
    (fun l => .inl (.lctrlWrite s l w)) (.inl (.routeWrite s w)) (.inl (.groupWrite s w)) (.inl (.plainWrite s a w))

/-- The meanings but POWER_ON_RESET's: moves or a turn, and nothing while RESET is asserted (R176). -/
theorem unlessReset_cases {s : State} {f : State → State} (h : Evolves s (f s) ∨ Turn s (f s)) :
    Evolves s (s.unlessReset f) ∨ Turn s (s.unlessReset f) :=
  State.unlessReset_of (P := fun t => Evolves s t ∨ Turn s t) (.inl (.refl s)) h

/-- Every command answers a next state, by moves or by one of five turns. -/
theorem exec_cases (c : Instr) (s : State) : ∃ t, exec c s = .next t ∧ (Evolves s t ∨ Turn s t) := by
  cases c with
  | submit => exact ⟨_, rfl, unlessReset_cases (.inl (.submit s))⟩
  | rxPop => exact ⟨_, rfl, unlessReset_cases (.inl (.rxPop s))⟩
  | cqRelease => exact ⟨_, rfl, unlessReset_cases (.inr .release)⟩
  | reqCancel n => exact ⟨_, rfl, unlessReset_cases (.inl (.reqCancel s n))⟩
  | linkReset n => exact ⟨_, rfl, unlessReset_cases (.inl (.linkReset s n))⟩
  | softReset => exact ⟨_, rfl, unlessReset_cases (.inr .soft)⟩
  | syncArm k t => exact ⟨_, rfl, unlessReset_cases (.inl (.syncArm s k t))⟩
  | syncTake k => exact ⟨_, rfl, unlessReset_cases (.inl (.syncTake s k))⟩
  | syncDisarm k => exact ⟨_, rfl, unlessReset_cases (.inl (.syncDisarm s k))⟩
  | syncClear k => exact ⟨_, rfl, unlessReset_cases (.inl (.syncClear s k))⟩
  | dropClear => exact ⟨_, rfl, unlessReset_cases (.inl (.dropClear s))⟩
  | badCommand w => exact ⟨_, rfl, unlessReset_cases (s.cmdWrite_cases _)⟩
  | nodeWrite w => exact ⟨_, rfl, unlessReset_cases (.inl (.nodeWrite s w))⟩
  | ctrlWrite w => exact ⟨_, rfl, unlessReset_cases (.inl (.ctrlWrite s w))⟩
  | lctrlWrite l w => exact ⟨_, rfl, unlessReset_cases (.inl (.lctrlWrite s l w))⟩
  | statusWrite w => exact ⟨_, rfl, unlessReset_cases (.inl (.statusWrite s w))⟩
  | eventWrite w => exact ⟨_, rfl, unlessReset_cases (.inr (.events w))⟩
  | eventEnWrite w => exact ⟨_, rfl, unlessReset_cases (.inl (.eventEnWrite s w))⟩
  | routeWrite w => exact ⟨_, rfl, unlessReset_cases (.inl (.routeWrite s w))⟩
  | groupWrite w => exact ⟨_, rfl, unlessReset_cases (.inl (.groupWrite s w))⟩
  | registerWrite a w => exact ⟨_, rfl, unlessReset_cases (hostWrite_cases s a w)⟩
  | powerOnReset => exact ⟨_, rfl, .inr (.power _)⟩
  | headerCellArrival l c => exact ⟨_, rfl, unlessReset_cases (.inl (.packetCell s l c))⟩
  | dataCellArrival l c => exact ⟨_, rfl, unlessReset_cases (.inl (.packetCell s l c))⟩
  | initReceived l node seen =>
    refine ⟨_, rfl, unlessReset_cases ?_⟩
    rcases Evolves.initReceived s l node seen with h | ⟨h1, h2, h3, h4⟩
    · exact .inl h
    · rw [h4]; exact .inr (.up l node h1 h2)
  | creditReceived l n r => exact ⟨_, rfl, unlessReset_cases (.inl (.creditReceived s l n r))⟩
  | teardownCellReceived l => exact ⟨_, rfl, unlessReset_cases (.inl (.teardownReceived s l))⟩
  | unknownControlCell l => exact ⟨_, rfl, unlessReset_cases (.inl (.unknownControl s l))⟩
  | badCell l => exact ⟨_, rfl, unlessReset_cases (.inl (.badCell s l))⟩
  | carrierLoss l => exact ⟨_, rfl, unlessReset_cases (.inl (.carrierLoss s l))⟩
  | holdTimerExpiry l => exact ⟨_, rfl, unlessReset_cases (.inl (.holdExpiry s l))⟩
  | waitPeerEntry l => exact ⟨_, rfl, unlessReset_cases (.inl (.leaveHold s l))⟩
  | initTimerExpiry l => exact ⟨_, rfl, unlessReset_cases (.inl (.initExpiry s l))⟩
  | creditHoldoffExpiry l => exact ⟨_, rfl, unlessReset_cases (.inl (.holdoffExpiry s l))⟩
  | requestTimerExpiry r => exact ⟨_, rfl, unlessReset_cases (.inl (.requestExpiry s r))⟩
  | dispatch l c => exact ⟨_, rfl, unlessReset_cases (.inl (.considerSource s _))⟩
  | responderDispatch => exact ⟨_, rfl, unlessReset_cases (.inl (.considerSource s _))⟩
  | transmissionStart l => exact ⟨_, rfl, unlessReset_cases (.inl (.startWhere s l))⟩
  | creditCellSend l => exact ⟨_, rfl, unlessReset_cases (.inl (.creditWhere s l))⟩
  | transmissionCompletion l => exact ⟨_, rfl, unlessReset_cases (.inl (.finishWhere s l))⟩
  | packetCellWhileNotUp l c => exact ⟨_, rfl, unlessReset_cases (.inl (.packetCell s l c))⟩

/-- The state a step runs its command from: the queue's front taken. -/
theorem step_cases {s t : State} (h : step s = .next t) : ∃ s₀ : State,
    s₀ = { s with pending := s₀.pending } ∧ (Evolves s₀ t ∨ Turn s₀ t) := by
  unfold step at h
  split at h
  · cases h
    exact ⟨s, rfl, .inl (.tick s)⟩
  · rename_i c rest _
    obtain ⟨u, hu, hc⟩ := exec_cases c { s with pending := rest }
    rw [hu] at h
    cases h
    exact ⟨_, rfl, hc⟩

/-! ### What every step keeps of the links -/

/-- What every move keeps, every chain of moves keeps. -/
theorem kept_of_moves {α : Type} {R : α → α → Prop} {Q : α → Prop} (h : ∀ a b, R a b → Q a → Q b) {a b : α} (r : ReflTransGen R a b) (q : Q a) : Q b := by
  induction r with
  | refl => exact q
  | tail _ k ih => exact h _ _ k ih

theorem State.softResetLane_laneOnly (s : State) (l : LinkId) : LaneOnly s (s.softResetLane l) := by
  unfold State.softResetLane
  split
  · exact (s.cutTransmission_laneOnly l).trans (State.sendTeardown_laneOnly _ l _)
  · exact .refl s

theorem State.softResetLanes_laneOnly (s : State) (ls : List LinkId) : LaneOnly s (ls.foldl State.softResetLane s) := by
  induction ls generalizing s with
  | nil => exact .refl s
  | cons l ls ih => exact (s.softResetLane_laneOnly l).trans (ih _)

/-- What soft reset makes of link `l` before the drained links leave HOLD. -/
theorem State.softResetCore_link (s : State) (l : LinkId) : s.softResetCore.link l = (s.link l).softReset := by
  have h := (s.softResetLanes_laneOnly linkIds).link l
  rw [← h]
  simp [State.softResetCore, State.link]

/-- The link of a handshake enters UP; no other is touched. -/
theorem State.comeUp_link (s : State) (l m : LinkId) (node : NodeId) : (s.comeUp l node).link m =
    if m = l then ({ s.link l with peer := node, seen := true } : Link).enterUp else s.link m := by
  unfold State.comeUp
  rw [State.latch_link, State.link_modLink]
  split <;> split <;> simp_all [State.sendInit]

/-- What every move of a link, its soft reset, its power-on state and its entry to UP keep, every step keeps. -/
theorem links_kept {Q : Link → Prop} (hm : ∀ n n', n.Move n' → Q n → Q n') (hr : ∀ n : Link, Q n → Q n.softReset)
    (hp : Q Link.powerOn) (hu : ∀ (n : Link) node, n.state = .waitPeer → Q n → Q ({ n with peer := node, seen := true } : Link).enterUp)
    {s t : State} (h : step s = .next t) (q : ∀ l, Q (s.link l)) : ∀ l, Q (t.link l) := by
  obtain ⟨s₀, e₀, hc⟩ := step_cases h
  have q₀ : ∀ l, Q (s₀.link l) := by rw [e₀]; exact q
  intro l
  rcases hc with hc | hc
  · exact kept_of_moves hm (hc.links l) (q₀ l)
  · cases hc with
    | release => have : s₀.cqRelease.link l = s₀.link l := by unfold State.cqRelease; split <;> rfl
                 rw [this]; exact q₀ l
    | soft => refine kept_of_moves hm ((Evolves.settle _).links l) ?_
              rw [State.softResetCore_link]; exact hr _ (q₀ l)
    | power b => have : (s₀.powerOn b).link l = Link.powerOn := by simp [State.powerOn, State.link, State.reset]
                 rw [this]; exact hp
    | events w => exact q₀ l
    | up k node hw hn =>
      refine kept_of_moves hm ((Evolves.settle _).links l) ?_
      rw [State.comeUp_link]
      split
      · exact hu _ _ hw (q₀ k)
      · exact q₀ l

end Sys2Proof.Machine
end

