-- ==== Sys2Proof/Laws/Accounts.lean ====
section
/-! SUPPORT. What keeps the account of copies (R45, R77, R97, R107, R141): one lemma for each thing that can happen to a
copy or to a source. -/

namespace Sys2Proof.Machine

/-! ### The account in terms of counts -/

/-- Whether the REQ queue of link `m` has an entry that names `src`. -/
def State.Queued (s : State) (m : LinkId) (src : Source) : Prop := ∃ e ∈ (s.link m).tx.queue .req, e.source = src

/-- The source law, by counts. -/
theorem State.sourceLaw_iff {s : State} : s.SourceLaw ↔ ∀ src, 0 < s.copiesOf src → (s.source src).isSome = true := by
  constructor
  · intro h src hp
    obtain ⟨e, he, rfl⟩ := State.copiesOf_pos.1 hp
    exact h e he
  · intro h e he
    exact h _ (State.copiesOf_pos.2 ⟨e, he, rfl⟩)

theorem State.CopiesLaw.intro {s : State} (h1 : ∀ src, 0 < s.copiesOf src → (s.source src).isSome = true)
    (h2 : s.CopyLaw) (h3 : s.SlotCopyLaw) (h4 : s.JobCopyLaw) (h5 : s.HostReqLaw) : s.CopiesLaw :=
  ⟨State.sourceLaw_iff.2 h1, h2, h3, h4, h5⟩

theorem State.copiesOf_congr {s t : State} (h : ∀ l, copiesAmong (t.link l).tx.entries = copiesAmong (s.link l).tx.entries)
    (src : Source) : t.copiesOf src = s.copiesOf src := by
  simp only [State.copiesOf_eq, h]

theorem Transmitter.entries_copies (t : Transmitter) (src : Source) : copiesAmong t.entries src =
    copiesAmong (t.queue .req) src + copiesAmong (t.queue .rpy) src + copiesAmong (t.queue .pst) src := by
  simp only [Transmitter.entries, copiesAmong_append]; rfl

theorem copiesAmong_map (es : List EgressEntry) (src : Source) :
    copiesAmong es src = (es.map EgressEntry.source).count src := by
  induction es with
  | nil => rfl
  | cons e es ih =>
    rw [copiesAmong_cons, ih, List.map_cons, List.count_cons]
    by_cases h : e.source = src <;> simp [h, Nat.add_comm]

/-- Two states with the same sources, copies and requests in QUEUED. -/
structure SameCopies (s t : State) : Prop where
  packets : ∀ l, (t.link l).store.packets = (s.link l).store.packets
  nextId  : ∀ l, (t.link l).store.nextId = (s.link l).store.nextId
  queues  : ∀ l c, ((t.link l).tx.queue c).map EgressEntry.source = ((s.link l).tx.queue c).map EgressEntry.source
  slots   : t.slots = s.slots
  jobs    : t.jobs = s.jobs
  nextJob : t.nextJob = s.nextJob
  entry   : ∀ r, ((t.entry r).state = .queued ↔ (s.entry r).state = .queued) ∧
              ((s.entry r).state = .queued → (t.entry r).slot = (s.entry r).slot ∧ (t.entry r).egress = (s.entry r).egress)

theorem SameCopies.refl (s : State) : SameCopies s s :=
  ⟨fun _ => rfl, fun _ => rfl, fun _ _ => rfl, rfl, rfl, rfl, fun _ => ⟨.rfl, fun _ => ⟨rfl, rfl⟩⟩⟩

theorem SameCopies.trans {s t u : State} (h : SameCopies s t) (k : SameCopies t u) : SameCopies s u where
  packets l := (k.packets l).trans (h.packets l)
  nextId l := (k.nextId l).trans (h.nextId l)
  queues l c := (k.queues l c).trans (h.queues l c)
  slots := k.slots.trans h.slots
  jobs := k.jobs.trans h.jobs
  nextJob := k.nextJob.trans h.nextJob
  entry r := by
    have a := h.entry r
    have b := k.entry r
    refine ⟨b.1.trans a.1, fun x => ?_⟩
    have := a.2 x
    have := b.2 (a.1.2 x)
    simp_all

theorem SameCopies.copiesOf {s t : State} (h : SameCopies s t) (src : Source) : t.copiesOf src = s.copiesOf src := by
  refine State.copiesOf_congr (fun l => funext fun x => ?_) src
  rw [Transmitter.entries_copies, Transmitter.entries_copies]
  simp only [copiesAmong_map, h.queues]

theorem SameCopies.source {s t : State} (h : SameCopies s t) (src : Source) : t.source src = s.source src := by
  rcases src with ⟨l, id⟩ | i | id
  · simp [State.source, Store.packet, h.packets]
  · simp [State.source, State.slot, h.slots]
  · simp [State.source, State.job, h.jobs]

theorem State.queued_iff {s : State} {m : LinkId} {src : Source} :
    s.Queued m src ↔ src ∈ ((s.link m).tx.queue .req).map EgressEntry.source := by
  simp [State.Queued]

theorem SameCopies.law {s t : State} (h : SameCopies s t) (k : s.CopiesLaw) : t.CopiesLaw := by
  obtain ⟨h1, h2, h3, h4, h5⟩ := k
  refine .intro (fun src hp => ?_) (fun l => ?_) (fun i x hx => ?_) ?_ ⟨fun i x hx r hr => ?_, fun r hr => ?_⟩
  · rw [h.copiesOf] at hp; rw [h.source]; exact State.sourceLaw_iff.1 h1 src hp
  · have := h2 l
    simp only [Store.NamesLaw, State.owedCopies, h.packets, h.nextId, h.copiesOf] at this ⊢
    exact this
  · rw [show t.slot i = s.slot i by simp [State.slot, h.slots]] at hx
    rw [h.copiesOf]; exact h3 i x hx
  · simp only [State.JobCopyLaw, h.jobs, h.nextJob, h.copiesOf]; exact h4
  · rw [show t.slot i = s.slot i by simp [State.slot, h.slots]] at hx
    have a := h5.1 i x hx r hr
    have b := h.entry r
    exact ⟨b.1.2 a.1, (b.2 a.1).1.trans a.2.1, a.2.2⟩
  · have b := h.entry r
    have hs := b.1.1 hr
    obtain ⟨i, hi, hk, e⟩ := h5.2 r hs
    refine ⟨i, (b.2 hs).1.trans hi, ?_, ?_⟩
    · rw [show t.slot i = s.slot i by simp [State.slot, h.slots]]; exact hk
    · rw [(b.2 hs).2]
      have : s.Queued (s.entry r).egress (.slot i) := e
      rw [State.queued_iff, ← h.queues, ← State.queued_iff] at this
      exact this

/-! ### Copies end (R45, R94, R107, R144) -/

/-- From `s` to `t`, `D src` copies of each source have ended, and some packets not yet dispatched have gone. -/
structure Ended (D : Source → Nat) (s t : State) : Prop where
  copies  : ∀ src, t.copiesOf src + D src = s.copiesOf src
  packets : ∀ l, ∃ keep : StoredPacket → Bool, (∀ p, keep p = false → p.cond ≠ .dispatched) ∧
              (t.link l).store.packets =
                ((s.link l).store.packets.filter keep).filterMap (fun p => p.less (D (.store l p.id)))
  nextId  : ∀ l, (t.link l).store.nextId = (s.link l).store.nextId
  slots   : ∀ i, t.slot i = (s.slot i).bind (fun k => k.less (D (.slot i)))
  jobs    : t.jobs = s.jobs.filter (fun j => D (.job j.id) = 0)
  nextJob : t.nextJob = s.nextJob
  entry   : ∀ r i, (s.entry r).state = .queued → (s.entry r).slot = some i → ((t.entry r).state = .queued ↔ D (.slot i) = 0) ∧
              ((t.entry r).state = .queued → (t.entry r).slot = (s.entry r).slot ∧ (t.entry r).egress = (s.entry r).egress)
  others  : ∀ r, (s.entry r).state ≠ .queued → (t.entry r).state ≠ .queued
  queued  : ∀ m src, D src = 0 → s.Queued m src → t.Queued m src

theorem Ended.law {D : Source → Nat} {s t : State} (h : Ended D s t) (k : s.CopiesLaw) : t.CopiesLaw := by
  have hdisp := @State.CopiesLaw.named_dispatched s k
  obtain ⟨h1, h2, h3, h4, h5⟩ := k
  have hD : ∀ src, D src ≤ s.copiesOf src := fun src => by have := h.copies src; omega
  refine .intro (fun src hp => ?_) (fun l => ?_) (fun i x hx => ?_) ?_ ⟨fun i x hx r hr => ?_, fun r hr => ?_⟩
  · have hc := h.copies src
    have hs := State.sourceLaw_iff.1 h1 src (by omega)
    rcases src with ⟨l, id⟩ | i | id <;> simp only [State.source, Option.isSome_map] at hs ⊢
    · obtain ⟨p, hq⟩ := Option.isSome_iff_exists.1 hs
      obtain ⟨hm, rfl⟩ := (Store.packet_iff (h2 l).1.1).1 hq
      have ho := ((h2 l).2 p hm).1
      simp only [State.owedCopies] at ho
      obtain ⟨keep, hk, e⟩ := h.packets l
      have hkp : keep p = true := by
        by_contra hn
        exact hk p (by simpa using hn) (hdisp hm (by omega))
      rw [Store.packet, List.find?_isSome, e]
      have hl : (p.less (D (.store l p.id))).isSome = true := by
        unfold StoredPacket.less
        split
        · rfl
        · rw [if_pos (by omega)]; rfl
      obtain ⟨q, hq⟩ := Option.isSome_iff_exists.1 hl
      exact ⟨q, List.mem_filterMap.2 ⟨p, List.mem_filter.2 ⟨hm, hkp⟩, hq⟩, by simp [(StoredPacket.less_kept hq).1]⟩
    · obtain ⟨x, hx⟩ := Option.isSome_iff_exists.1 hs
      have ho := (h3 i x (by simp [hx])).1
      rw [h.slots, hx, Option.bind_some, Slot.less]
      split
      · rfl
      · rw [if_pos (by omega)]; rfl
    · obtain ⟨j, hj⟩ := Option.isSome_iff_exists.1 hs
      have hid : j.id = id := by simpa using List.find?_some hj
      have hm := List.mem_of_find?_eq_some hj
      have ho := (h4.2 j hm).2.2
      rw [hid] at ho
      have hle : s.copiesOf (.job id) ≤ 1 := by rw [ho]; split <;> omega
      rw [State.job, h.jobs, List.find?_isSome]
      exact ⟨j, List.mem_filter.2 ⟨hm, by rw [hid]; simp; omega⟩, by simp [hid]⟩
  · obtain ⟨keep, hk, e⟩ := h.packets l
    refine ⟨⟨?_, fun p hp => ?_⟩, fun p hp => ?_⟩
    · rw [e]
      exact Store.less_names _ ((List.filter_sublist.map StoredPacket.id).nodup (h2 l).1.1)
    · rw [e] at hp
      obtain ⟨q, hq, hl⟩ := List.mem_filterMap.1 hp
      rw [(StoredPacket.less_kept hl).1, h.nextId]
      exact (h2 l).1.2 q (List.mem_filter.1 hq).1
    · rw [e] at hp
      obtain ⟨q, hq, hl⟩ := List.mem_filterMap.1 hp
      have hm := (List.mem_filter.1 hq).1
      obtain ⟨ho, hr, hw, hd⟩ := (h2 l).2 q hm
      have hkp := StoredPacket.less_kept hl
      have hc := h.copies (.store l q.id)
      simp only [State.owedCopies, hkp.1, hkp.2.2.2.2.1, hkp.2.2.2.2.2] at ho ⊢
      refine ⟨by omega, fun x => by have := hr x; omega, fun x => ?_, fun x => ?_⟩
      · have := hw x; simp only [x, if_true] at ho; omega
      · have := hd x
        unfold StoredPacket.less at hl
        split at hl
        · omega
        · split at hl
          · omega
          · cases hl
  · rw [h.slots] at hx
    rcases hy : s.slot i with _ | y
    · simp [hy] at hx
    · rw [hy, Option.bind_some, Slot.less] at hx
      have a := h3 i y (by simp [hy])
      have hc := h.copies (.slot i)
      split at hx
      · simp at hx; subst x; omega
      · split at hx
        · simp at hx; subst x; simp only; omega
        · simp at hx
  · refine ⟨?_, fun j hj => ?_⟩
    · rw [h.jobs]; exact (List.filter_sublist.map Job.id).nodup h4.1
    · rw [h.jobs] at hj
      obtain ⟨hm, h0⟩ := List.mem_filter.1 hj
      have a := h4.2 j hm
      have hc := h.copies (.job j.id)
      simp only [decide_eq_true_eq] at h0
      rw [h.nextJob]
      exact ⟨a.1, a.2.1, by rw [← a.2.2]; omega⟩
  · rw [h.slots] at hx
    rcases hy : s.slot i with _ | y
    · simp [hy] at hx
    · rw [hy, Option.bind_some, Slot.less] at hx
      split at hx
      · rename_i h0
        simp at hx; subst x
        have a := h5.1 i y (by simp [hy]) r hr
        have b := h.entry r i a.1 a.2.1
        have hq := b.1.2 h0
        exact ⟨hq, ((b.2 hq).1).trans a.2.1, a.2.2⟩
      · rename_i h0
        split at hx
        · rename_i h1
          simp at hx; subst x
          have a := h5.1 i y (by simp [hy]) r hr
          omega
        · simp at hx
  · have hs : (s.entry r).state = .queued := by
      by_contra hn; exact h.others r hn hr
    obtain ⟨i, hi, ⟨x, hx, hxr⟩, e⟩ := h5.2 r hs
    have b := h.entry r i hs hi
    have h0 := b.1.1 hr
    refine ⟨i, (b.2 hr).1.trans hi, ⟨x, ?_, hxr⟩, ?_⟩
    · have hx' : s.slot i = some x := by simpa using hx
      rw [h.slots, hx', Option.bind_some, h0, Slot.less_zero]; simp
    · rw [(b.2 hr).2]; exact h.queued _ _ h0 e

/-! ### What leaves the account as it is -/

theorem SameCopies.of {s t : State} (hl : t.links = s.links) (hs : t.slots = s.slots) (hj : t.jobs = s.jobs)
    (hn : t.nextJob = s.nextJob) (hr : t.reqs = s.reqs) : SameCopies s t where
  packets l := by simp only [State.link, hl]
  nextId l := by simp only [State.link, hl]
  queues l c := by simp only [State.link, hl]
  slots := hs
  jobs := hj
  nextJob := hn
  entry r := by simp [State.entry, hr]

theorem SameCopies.modLink (s : State) (l : LinkId) (f : Link → Link)
    (hp : (f (s.link l)).store.packets = (s.link l).store.packets) (hn : (f (s.link l)).store.nextId = (s.link l).store.nextId)
    (hq : ∀ c, ((f (s.link l)).tx.queue c).map EgressEntry.source = ((s.link l).tx.queue c).map EgressEntry.source) :
    SameCopies s (s.modLink l f) where
  packets m := by rw [State.link_modLink]; split <;> simp_all
  nextId m := by rw [State.link_modLink]; split <;> simp_all
  queues m c := by rw [State.link_modLink]; split <;> simp_all
  slots := rfl
  jobs := rfl
  nextJob := rfl
  entry _ := ⟨.rfl, fun _ => ⟨rfl, rfl⟩⟩

theorem SameCopies.setEntry (s : State) (r : ReqIx) (e : ReqEntry) (h1 : e.state = .queued ↔ (s.entry r).state = .queued)
    (h2 : (s.entry r).state = .queued → e.slot = (s.entry r).slot ∧ e.egress = (s.entry r).egress) :
    SameCopies s (s.setEntry r e) := by
  refine { SameCopies.refl s with entry := fun q => ?_ }
  rw [State.entry_setEntry]
  split
  · subst q; exact ⟨h1, h2⟩
  · exact ⟨.rfl, fun _ => ⟨rfl, rfl⟩⟩

theorem SameCopies.latch (s : State) (e : EventBit) : SameCopies s (s.latch e) := .of rfl rfl rfl rfl rfl

theorem SameCopies.drop (s : State) (r : DropReason) (o : Origin) (h : Header) : SameCopies s (s.drop r o h) :=
  .of rfl rfl rfl rfl rfl

theorem SameCopies.send (s : State) (l : LinkId) (cs : List LaneCell) : SameCopies s (s.send l cs) := .of rfl rfl rfl rfl rfl

theorem SameCopies.setResult (s : State) (c : BitVec 4) (r : ResultCode) : SameCopies s (s.setResult c r) :=
  .of rfl rfl rfl rfl rfl

theorem SameCopies.bumpChoices (s : State) : SameCopies s s.bumpChoices := .of rfl rfl rfl rfl rfl

theorem SameCopies.checkCounter (s : State) (k : Fin 8) (c : SyncCounter) : SameCopies s (s.checkCounter k c) := by
  unfold State.checkCounter; split <;> exact .of rfl rfl rfl rfl rfl

/-- A completion of an entry that is not in QUEUED (R115, R121). -/
theorem SameCopies.completeAs (s : State) (r : ReqIx) (e : ReqEntry) (h : (s.entry r).state ≠ .queued) (he : e.state = .done) :
    SameCopies s (s.completeAs r e) := by
  unfold State.completeAs
  split
  · refine ((SameCopies.setEntry s r e ?_ fun x => absurd x h).trans ?_).trans (.latch _ _)
    · simp [he, h]
    · exact .of rfl rfl rfl rfl rfl
  · exact .refl s

theorem SameCopies.takeReply (s : State) (x : Header) (d : List Cell) (o : Origin) : SameCopies s (s.takeReply x d o) := by
  unfold State.takeReply
  split
  · rename_i h
    have : (s.entry (replyEntry x)).state = .sent := by simp only [State.replyMatches, decide_eq_true_eq] at h; exact h.1
    exact .completeAs s _ _ (by rw [this]; decide) rfl
  · exact (SameCopies.drop s _ _ _).trans (.latch _ _)

theorem SameCopies.deliver (s : State) (l : LinkId) (p : StoredPacket) (d : Option Delivery) :
    SameCopies s (s.deliver l p d) := by
  rcases d with _ | _ | _ | _
  · exact .refl s
  · exact .of rfl rfl rfl rfl rfl
  · exact .checkCounter s _ _
  · exact .takeReply s _ _ _

theorem SameCopies.recordDrop (s : State) (l : LinkId) (h : Header) (r : Option DropReason) :
    SameCopies s (s.recordDrop l h r) := by
  cases r
  · exact .refl s
  · exact .drop s _ _ _

/-- A start marks an entry, and no more (R85). -/
theorem SameCopies.boundary (s : State) (l : LinkId) : SameCopies s (s.boundary l) := by
  have hd : ∀ t : State, SameCopies t (t.decideStart l) := fun t => by
    unfold State.decideStart State.startHead
    split
    · exact .refl t
    · rename_i x hx
      split
      · exact .refl t
      · rename_i e rest hq
        refine (SameCopies.send t l _).trans (.modLink _ l (fun n => { n with tx := n.tx.start x.1 x.2 e rest }) rfl rfl fun c => ?_)
        rw [State.send_link]
        simp only [Transmitter.queue, Transmitter.start, PerClass.get_set] at hq ⊢
        split
        · rename_i h; rw [h, hq]; rfl
        · rfl
  have hc : SameCopies s (s.sendCredit l) := (SameCopies.send s l _).trans (.modLink _ l _ rfl rfl fun _ => rfl)
  unfold State.boundary
  split
  · exact hc.trans (hd _)
  · exact hd s

theorem SameCopies.enterWaitPeer (s : State) (l : LinkId) : SameCopies s (s.enterWaitPeer l) :=
  (SameCopies.modLink s l _ rfl rfl fun _ => rfl).trans (.send _ _ _)

/-! ### What adds to the account -/

/-- A source in no table has no copies. -/
theorem State.CopiesLaw.copies_none {s : State} (h : s.CopiesLaw) {src : Source} (hs : s.source src = none) :
    s.copiesOf src = 0 := by
  by_contra hn
  have := State.sourceLaw_iff.1 h.1 src (by omega)
  rw [hs] at this; cases this

/-- A job joins under a fresh name (R141, R142). -/
theorem State.CopiesLaw.pushJob {s : State} (h : s.CopiesLaw) (j : Job) (hc : j.copies = 1) (hw : j.cond = .waiting) :
    (s.pushJob j).CopiesLaw := by
  obtain ⟨h1, h2, h3, h4, h5⟩ := h
  have hfresh : ∀ k ∈ s.jobs, k.id ≠ s.nextJob := fun k hk e => by have := (h4.2 k hk).1; omega
  have h0 : s.copiesOf (.job s.nextJob) = 0 := State.CopiesLaw.copies_none ⟨h1, h2, h3, h4, h5⟩ (by
    simp only [State.source, State.job, Option.map_eq_none_iff, List.find?_eq_none]
    intro k hk; simpa using hfresh k hk)
  refine .intro (fun src hp => ?_) h2 h3 ⟨?_, fun k hk => ?_⟩ h5
  · have := State.sourceLaw_iff.1 h1 src hp
    rcases src with ⟨l, id⟩ | i | id
    · exact this
    · exact this
    · simp only [State.source, State.job, State.pushJob, Option.isSome_map, List.find?_append] at this ⊢
      rw [Option.isSome_or, this]; rfl
  · simp only [State.pushJob, List.map_append, List.map_cons, List.map_nil]
    rw [List.nodup_append]
    refine ⟨h4.1, by simp, fun a ha b hb e => ?_⟩
    simp only [List.mem_singleton] at hb
    obtain ⟨k, hk, rfl⟩ := List.mem_map.1 ha
    exact hfresh k hk (e.trans hb)
  · simp only [State.pushJob, List.mem_append, List.mem_singleton] at hk ⊢
    have hcp : ∀ src, ({ s with jobs := s.jobs ++ [{ j with id := s.nextJob }], nextJob := s.nextJob + 1 } : State).copiesOf src =
      s.copiesOf src := fun _ => rfl
    rw [hcp]
    rcases hk with hk | rfl
    · have := h4.2 k hk; exact ⟨by omega, this.2⟩
    · refine ⟨by simp, hc, ?_⟩
      simp only [h0, hw]; rfl

theorem Transmitter.append_copies (t : Transmitter) (e : EgressEntry) (src : Source) :
    copiesAmong (t.append e).entries src = copiesAmong t.entries src + if e.source = src then 1 else 0 := by
  have h1 : copiesAmong [e] src = if e.source = src then 1 else 0 := by rw [copiesAmong_cons]; rfl
  simp only [Transmitter.entries_copies, Transmitter.append, Transmitter.queue]
  cases e.cls <;> simp [PerClass.get, PerClass.set, copiesAmong_append, h1] <;> omega

theorem State.appendEntry_copiesOf (s : State) (m : LinkId) (e : EgressEntry) (src : Source) :
    (s.appendEntry m e).copiesOf src = s.copiesOf src + if e.source = src then 1 else 0 := by
  simp only [State.copiesOf_eq, State.appendEntry, State.link_modLink]
  fin_cases m <;> simp [Transmitter.append_copies] <;> omega

/-- The copies of a plan or of a SUBMIT (R69, R72, R105). -/
theorem State.appendCopies_copiesOf (e : EgressEntry) (src : Source) : ∀ (ms : List LinkId) (s : State),
    (s.appendCopies ms e).copiesOf src = s.copiesOf src + if e.source = src then ms.length else 0 := by
  intro ms
  induction ms with
  | nil => intro s; simp [State.appendCopies]
  | cons m ms ih =>
    intro s
    have := ih (s.appendEntry m e)
    simp only [State.appendCopies, List.foldl_cons] at this ⊢
    rw [this, State.appendEntry_copiesOf]
    split <;> simp
    omega

theorem State.appendEntry_queued (s : State) (m k : LinkId) (e : EgressEntry) (src : Source)
    (h : s.Queued k src ∨ (k = m ∧ e.cls = .req ∧ e.source = src)) : (s.appendEntry m e).Queued k src := by
  unfold State.Queued at *
  rw [State.appendEntry, State.link_modLink]
  by_cases hk : k = m
  · subst hk
    simp only [if_true, Transmitter.append, Transmitter.queue, PerClass.get_set]
    rcases h with ⟨f, hf, hs⟩ | ⟨-, hc, hs⟩
    · refine ⟨f, ?_, hs⟩
      split
      · rename_i hc
        rw [← hc]; exact List.mem_append_left _ hf
      · exact hf
    · exact ⟨e, by simp [hc], hs⟩
  · rw [if_neg hk]
    rcases h with h | h
    · exact h
    · exact absurd h.1 hk

theorem State.appendCopies_queued (e : EgressEntry) (k : LinkId) (src : Source) : ∀ (ms : List LinkId) (s : State),
    s.Queued k src → (s.appendCopies ms e).Queued k src := by
  intro ms
  induction ms with
  | nil => exact fun s h => h
  | cons m ms ih => exact fun s h => ih _ (s.appendEntry_queued m k e src (.inl h))

/-- The store of link `l` becomes `k`, and copies of packets of it are added: each packet held for what then names it. -/
theorem State.CopiesLaw.restock {s t : State} {l : LinkId} (h : s.CopiesLaw)
    (hc : ∀ src, (∀ id, src ≠ .store l id) → t.copiesOf src = s.copiesOf src)
    (hm : ∀ m, m ≠ l → (t.link m).store.packets = (s.link m).store.packets ∧ (t.link m).store.nextId = (s.link m).store.nextId)
    (hs : t.slots = s.slots) (hj : t.jobs = s.jobs) (hn : t.nextJob = s.nextJob) (hr : t.reqs = s.reqs)
    (hq : ∀ m src, s.Queued m src → t.Queued m src) (hnames : (t.link l).store.NamesLaw)
    (hlive : ∀ id, 0 < t.copiesOf (.store l id) → ∃ p ∈ (t.link l).store.packets, p.id = id)
    (hlaw : ∀ p ∈ (t.link l).store.packets, p.copies = t.owedCopies l p ∧ (p.cond = .inReception → p.copies = 0) ∧
      (p.cond = .queued → p.copies = 1) ∧ (p.cond = .dispatched → 0 < p.copies)) : t.CopiesLaw := by
  obtain ⟨h1, h2, h3, h4, h5⟩ := h
  have hslot : ∀ i, t.slot i = s.slot i := fun i => by simp only [State.slot, hs]
  have hentry : ∀ r, t.entry r = s.entry r := fun r => by simp only [State.entry, hr]
  have hcm : ∀ m, m ≠ l → ∀ id, t.copiesOf (.store m id) = s.copiesOf (.store m id) := fun m hne id =>
    hc _ fun id' e => hne (by cases e; rfl)
  refine .intro (fun src hp => ?_) (fun m => ?_) (fun i x hx => ?_) ⟨by rw [hj]; exact h4.1, fun j hx => ?_⟩
    ⟨fun i x hx r hxr => ?_, fun r hx => ?_⟩
  · rcases src with ⟨m, id⟩ | i | id
    · by_cases e : m = l
      · subst e
        obtain ⟨p, hm, rfl⟩ := hlive id hp
        simp only [State.source, Option.isSome_map, Store.packet, List.find?_isSome]
        exact ⟨p, hm, by simp⟩
      · rw [hcm m e] at hp
        have := State.sourceLaw_iff.1 h1 _ hp
        simp only [State.source, Store.packet, (hm m e).1] at this ⊢
        exact this
    · rw [hc _ fun _ e => by cases e] at hp
      simpa only [State.source, hslot] using State.sourceLaw_iff.1 h1 _ hp
    · rw [hc _ fun _ e => by cases e] at hp
      simpa only [State.source, State.job, hj] using State.sourceLaw_iff.1 h1 _ hp
  · by_cases e : m = l
    · subst e; exact ⟨hnames, hlaw⟩
    · have := h2 m
      simp only [Store.NamesLaw, State.owedCopies, hm m e, hcm m e] at this ⊢
      exact this
  · rw [hslot] at hx
    rw [hc _ fun _ e => by cases e]; exact h3 i x hx
  · rw [hj] at hx
    rw [hn, hc (.job j.id) (fun _ e => by cases e)]; exact h4.2 j hx
  · rw [hslot] at hx; rw [hentry]; exact h5.1 i x hx r hxr
  · rw [hentry] at hx ⊢
    obtain ⟨i, hi, hk, e⟩ := h5.2 r hx
    exact ⟨i, hi, by rw [hslot]; exact hk, hq _ _ e⟩

/-- A change of a store's packets that keeps their names, and adds at most one without copies. -/
theorem State.CopiesLaw.modStore {s : State} (h : s.CopiesLaw) (l : LinkId) (f : Store → Store)
    (hnames : (f (s.link l).store).NamesLaw)
    (hlive : ∀ p ∈ (s.link l).store.packets, p.cond = .dispatched → ∃ q ∈ (f (s.link l).store).packets, q.id = p.id)
    (hlaw : ∀ p ∈ (f (s.link l).store).packets,
      p.copies = s.copiesOf (.store l p.id) + (if p.cond = .queued then 1 else 0) ∧ (p.cond = .inReception → p.copies = 0) ∧
      (p.cond = .queued → p.copies = 1) ∧ (p.cond = .dispatched → 0 < p.copies)) :
    (s.modLink l (fun n => { n with store := f n.store })).CopiesLaw := by
  have hc : ∀ src, (s.modLink l (fun n => { n with store := f n.store })).copiesOf src = s.copiesOf src :=
    State.copiesOf_congr fun m => by rw [State.link_modLink]; split <;> simp_all
  refine h.restock (l := l) (fun src _ => hc src) (fun m hm => ?_) rfl rfl rfl rfl (fun m src hq => ?_) ?_ (fun id hp => ?_)
    (fun p hp => ?_)
  · rw [State.link_modLink_ne _ _ hm]; exact ⟨rfl, rfl⟩
  · unfold State.Queued at *
    rw [State.link_modLink]; split <;> simp_all
  · simpa using hnames
  · rw [hc] at hp
    have hs := State.sourceLaw_iff.1 h.1 _ hp
    simp only [State.source, Option.isSome_map] at hs
    obtain ⟨p, hp'⟩ := Option.isSome_iff_exists.1 hs
    obtain ⟨hm, rfl⟩ := (Store.packet_iff (h.2.1 l).1.1).1 hp'
    have := hlive p hm (h.named_dispatched hm hp)
    simpa using this
  · simp only [State.owedCopies, hc]
    exact hlaw p (by simpa using hp)

theorem State.CopiesLaw.openPacket {s : State} (h : s.CopiesLaw) (l : LinkId) (x : Header) :
    (s.modLink l (fun n => { n with store := n.store.openPacket x })).CopiesLaw := by
  obtain ⟨hn, hl⟩ := h.2.1 l
  have h0 : s.copiesOf (.store l (s.link l).store.nextId) = 0 := h.copies_none (by
    simp only [State.source, Option.map_eq_none_iff, Store.packet, List.find?_eq_none]
    intro p hp; have := hn.2 p hp; simp; omega)
  refine h.modStore l (fun k => k.openPacket x) ⟨?_, fun p hp => ?_⟩ (fun p hp _ => ⟨p, by simp [Store.openPacket, hp], rfl⟩)
    fun p hp => ?_
  · simp only [Store.openPacket, List.map_append, List.map_cons, List.map_nil, List.nodup_append]
    refine ⟨hn.1, by simp, fun a ha b hb e => ?_⟩
    obtain ⟨p, hp, rfl⟩ := List.mem_map.1 ha
    have := hn.2 p hp
    simp [Store.newPacket] at hb; omega
  · simp only [Store.openPacket, List.mem_append, List.mem_singleton] at hp ⊢
    rcases hp with hp | rfl
    · have := hn.2 p hp; omega
    · simp [Store.newPacket]
  · simp only [Store.openPacket, List.mem_append, List.mem_singleton] at hp
    rcases hp with hp | rfl
    · exact hl p hp
    · simp only [Store.newPacket, h0]
      split <;> simp

theorem State.CopiesLaw.takeCell {s : State} (h : s.CopiesLaw) (l : LinkId) (c : Cell) :
    (s.modLink l (fun n => { n with store := n.store.takeCell c })).CopiesLaw := by
  obtain ⟨hn, hl⟩ := h.2.1 l
  have hid : ∀ p : StoredPacket, (if p.cond = .inReception then p.withCell c else p).id = p.id := fun p => by
    unfold StoredPacket.withCell; repeat' split
    all_goals rfl
  refine h.modStore l (fun k => k.takeCell c) ⟨?_, fun p hp => ?_⟩
    (fun p hp _ => ⟨_, List.mem_map.2 ⟨p, hp, rfl⟩, hid p⟩) fun p hp => ?_
  · rw [show ((s.link l).store.takeCell c).packets.map StoredPacket.id = (s.link l).store.packets.map StoredPacket.id by
      simp [Store.takeCell, hid]]
    exact hn.1
  · obtain ⟨q, hq, rfl⟩ := List.mem_map.1 hp
    rw [hid]; exact hn.2 q hq
  · obtain ⟨q, hq, rfl⟩ := List.mem_map.1 hp
    have a := hl q hq
    simp only [State.owedCopies] at a
    rw [hid]
    split
    · rename_i hc
      have a0 := a.2.1 hc
      have a1 := a.1
      simp only [hc, reduceCtorEq, if_false] at a1
      unfold StoredPacket.withCell
      split <;> simp [hc] <;> omega
    · exact a

/-! ### Dispatch (R60) -/

theorem Link.release_nextId (n : Link) (id : Nat) : (n.release id).store.nextId = n.store.nextId := by
  rcases h : n.store.packet id with _ | p
  · unfold Link.release; rw [h]
  · exact (Link.release_released h).nextId

theorem Link.dispatched_store (n : Link) (id k : Nat) : (n.dispatched id k).store.nextId = n.store.nextId ∧
    (n.dispatched id k).store.packets = if k = 0 then n.store.packets.filter (fun p => p.id ≠ id)
      else n.store.packets.map (fun p => if p.id = id then { p with cond := .dispatched, copies := k } else p) := by
  unfold Link.dispatched
  split
  · exact ⟨n.release_nextId id, n.release_packets id⟩
  · exact ⟨rfl, rfl⟩

/-- The copies of a queued packet, and its own change of condition (R44, R45). -/
theorem State.CopiesLaw.dispatched {s : State} (h : s.CopiesLaw) {l : LinkId} {p : StoredPacket} {ms : List LinkId}
    {e : EgressEntry} (hp : p ∈ (s.link l).store.packets) (hq : p.cond = .queued) (he : e.source = .store l p.id) :
    ((s.appendCopies ms e).modLink l (fun n => n.dispatched p.id ms.length)).CopiesLaw := by
  obtain ⟨hn, hl⟩ := h.2.1 l
  have h0 : s.copiesOf (.store l p.id) = 0 := by
    have a := hl p hp
    simp only [State.owedCopies, hq, if_true] at a
    have := a.2.2.1 trivial; omega
  have hst := s.appendCopies_store ms e
  have hf := State.appendCopies_fields e ms s
  obtain ⟨hnid, hpk⟩ := ((s.appendCopies ms e).link l).dispatched_store p.id ms.length
  rw [hst] at hnid hpk
  have htx := fun n : Link => (n.dispatched_words p.id ms.length).2.2.2.2.1
  have hcopies : ∀ src, ((s.appendCopies ms e).modLink l (fun n => n.dispatched p.id ms.length)).copiesOf src =
      s.copiesOf src + if src = .store l p.id then ms.length else 0 := fun src => by
    rw [State.copiesOf_congr (s := s.appendCopies ms e), State.appendCopies_copiesOf, he]
    · simp only [eq_comm]
    · intro m; rw [State.link_modLink]; split <;> simp_all
  have hps : ∀ q ∈ (((s.appendCopies ms e).modLink l (fun n => n.dispatched p.id ms.length)).link l).store.packets,
      (q ∈ (s.link l).store.packets ∧ q.id ≠ p.id) ∨
        (ms.length ≠ 0 ∧ q.id = p.id ∧ q.cond = .dispatched ∧ q.copies = ms.length) := by
    intro q hq'
    rw [State.link_modLink, if_pos rfl, hpk] at hq'
    split at hq'
    · exact .inl (by simpa using hq')
    · rename_i hne
      obtain ⟨r, hr, rfl⟩ := List.mem_map.1 hq'
      split
      · rename_i e'; exact .inr ⟨hne, e', rfl, rfl⟩
      · rename_i e'; exact .inl ⟨hr, e'⟩
  refine h.restock (l := l) (fun src hsrc => by rw [hcopies, if_neg (hsrc p.id)]; rfl) (fun m hm => ?_)
    hf.2.2.2.2.2.2.2.1 hf.1 hf.2.2.2.2.2.2.2.2.2.2 hf.2.2.1 (fun m src hq => ?_) ⟨?_, fun q hq' => ?_⟩ (fun id hp' => ?_)
    (fun q hq' => ?_)
  · rw [State.link_modLink_ne _ _ hm, hst]; exact ⟨rfl, rfl⟩
  · have hk := State.appendCopies_queued e m src ms s hq
    unfold State.Queued at *
    rw [State.link_modLink]; split <;> simp_all
  · rw [State.link_modLink, if_pos rfl, hpk]
    split
    · exact (List.filter_sublist.map StoredPacket.id).nodup hn.1
    · rw [List.map_map]
      convert hn.1 using 1
      refine List.map_congr_left fun q _ => ?_
      simp only [Function.comp]; split <;> rfl
  · have e' : ((s.appendCopies ms e).modLink l (fun n => n.dispatched p.id ms.length)).link l =
        ((s.appendCopies ms e).link l).dispatched p.id ms.length := by rw [State.link_modLink, if_pos rfl]
    rw [e', hnid]
    rcases hps q hq' with ⟨hm, _⟩ | ⟨_, hi, _⟩
    · exact hn.2 q hm
    · rw [hi]; exact hn.2 p hp
  · rw [hcopies] at hp'
    rw [State.link_modLink, if_pos rfl, hpk]
    by_cases hi : id = p.id
    · subst hi
      simp only [h0, if_true] at hp'
      rw [if_neg (by omega)]
      exact ⟨_, List.mem_map.2 ⟨p, hp, rfl⟩, by split <;> rfl⟩
    · rw [if_neg (by simpa using hi)] at hp'
      have hs := State.sourceLaw_iff.1 h.1 _ (show 0 < s.copiesOf (.store l id) by omega)
      simp only [State.source, Option.isSome_map] at hs
      obtain ⟨q, hq'⟩ := Option.isSome_iff_exists.1 hs
      obtain ⟨hm, rfl⟩ := (Store.packet_iff hn.1).1 hq'
      split
      · exact ⟨q, List.mem_filter.2 ⟨hm, by simpa using hi⟩, rfl⟩
      · exact ⟨_, List.mem_map.2 ⟨q, hm, rfl⟩, by split <;> rfl⟩
  · simp only [State.owedCopies, hcopies]
    rcases hps q hq' with ⟨hm, hi⟩ | ⟨hne, hi, hc, hk⟩
    · rw [if_neg (by simpa using hi)]; exact hl q hm
    · rw [hi, hc, hk, h0]; simp; omega

/-- The whole effect of an ingress head's dispatch (R60). -/
theorem State.CopiesLaw.applyPlan {s : State} (h : s.CopiesLaw) {l : LinkId} {p : StoredPacket} (pl : Plan)
    (hp : p ∈ (s.link l).store.packets) (hq : p.cond = .queued) : (s.applyPlan l p pl).CopiesLaw := by
  have h1 : (s.createJob p.hdr pl.job).CopiesLaw := by
    rcases pl.job with _ | k
    · exact h
    · exact h.pushJob _ rfl rfl
  have h2 := ((SameCopies.deliver _ l p pl.deliver).trans (SameCopies.recordDrop _ l p.hdr pl.drop)).law h1
  refine h2.dispatched (e := copyOf l p pl.hopsOut) ?_ hq rfl
  rw [State.recordDrop_link, State.deliver_link, State.createJob_link]
  exact hp

/-! ### Jobs (R74, R143, R144) -/

theorem State.jobHead_waiting {s : State} {j : Job} (h : s.jobHead = some j) : j ∈ s.jobs ∧ j.cond = .waiting :=
  ⟨List.mem_of_find?_eq_some h, by simpa using List.find?_some h⟩

/-- A waiting job that leaves (R74). -/
theorem State.CopiesLaw.freeJob {s : State} {j : Job} (h : s.CopiesLaw) (hj : j ∈ s.jobs) (hw : j.cond = .waiting) :
    (s.freeJob j.id).CopiesLaw := by
  obtain ⟨h1, h2, h3, h4, h5⟩ := h
  have h0 : s.copiesOf (.job j.id) = 0 := by have := (h4.2 j hj).2.2; rwa [hw] at this
  refine .intro (fun src hp => ?_) h2 h3 ⟨(List.filter_sublist.map Job.id).nodup h4.1, fun k hk => ?_⟩ h5
  · have hs := State.sourceLaw_iff.1 h1 src hp
    rcases src with ⟨l, id⟩ | i | id
    · exact hs
    · exact hs
    · have hne : id ≠ j.id := fun e => by
        rw [e] at hp
        exact absurd (show 0 < s.copiesOf (.job j.id) from hp) (by omega)
      simp only [State.source, Option.isSome_map, State.job, State.freeJob, State.setJobs, List.find?_isSome] at hs ⊢
      obtain ⟨k, hk, hi⟩ := hs
      refine ⟨k, List.mem_filter.2 ⟨hk, ?_⟩, hi⟩
      simp only [decide_eq_true_eq] at hi
      simp [hi, hne]
  · exact h4.2 k (List.mem_filter.1 hk).1

/-- A waiting job's copy is appended and it is sent (R74, R143). -/
theorem State.CopiesLaw.jobSent {s : State} (h : s.CopiesLaw) {j : Job} (hj : j ∈ s.jobs) (hw : j.cond = .waiting)
    (m : LinkId) (e : EgressEntry) (he : e.source = .job j.id) : ((s.appendEntry m e).markSent j.id).CopiesLaw := by
  obtain ⟨h1, h2, h3, h4, h5⟩ := h
  have h0 : s.copiesOf (.job j.id) = 0 := by have := (h4.2 j hj).2.2; rwa [hw] at this
  have hc : ∀ src, ((s.appendEntry m e).markSent j.id).copiesOf src = s.copiesOf src + if src = .job j.id then 1 else 0 :=
    fun src => by
      have := s.appendEntry_copiesOf m e src
      rw [he] at this
      simp only [eq_comm (a := src)]
      exact this
  have hst : ∀ l, (((s.appendEntry m e).markSent j.id).link l).store = (s.link l).store := fun l => s.appendCopies_store [m] e l
  refine .intro (fun src hp => ?_) (fun l => ?_) (fun i x hx => ?_) ⟨?_, fun k hk => ?_⟩ ⟨h5.1, fun r hr => ?_⟩
  · have key : ∀ src, (s.source src).isSome = true → (((s.appendEntry m e).markSent j.id).source src).isSome = true := by
      intro src hs
      rcases src with ⟨l, id⟩ | i | id
      · simp only [State.source, hst] at hs ⊢; exact hs
      · exact hs
      · simp only [State.source, Option.isSome_map, State.job, State.markSent, State.setJobs, List.find?_isSome] at hs ⊢
        obtain ⟨k, hk, hi⟩ := hs
        exact ⟨_, List.mem_map.2 ⟨k, hk, rfl⟩, by split <;> simpa using hi⟩
    refine key src ?_
    rw [hc] at hp
    split at hp
    · rename_i e'; subst e'
      simp only [State.source, Option.isSome_map, State.job, List.find?_isSome]
      exact ⟨j, hj, by simp⟩
    · exact State.sourceLaw_iff.1 h1 src hp
  · have := h2 l
    simp only [State.owedCopies, hst, hc, reduceCtorEq, if_false, Nat.add_zero] at this ⊢
    exact this
  · rw [hc]; exact h3 i x hx
  · simp only [State.markSent, State.setJobs, List.map_map]
    convert h4.1 using 1
    refine List.map_congr_left fun k _ => ?_
    simp only [Function.comp]; split <;> rfl
  · simp only [State.markSent, State.setJobs] at hk
    obtain ⟨q, hq, rfl⟩ := List.mem_map.1 hk
    have a := h4.2 q hq
    rw [hc]
    split
    · rename_i e'
      simp only [e', h0, if_true]
      rw [e'] at a
      exact ⟨a.1, a.2.1, by simp⟩
    · rename_i e'
      simp only [Source.job.injEq, e', if_false]
      exact a
  · obtain ⟨i, hi, hk, q⟩ := h5.2 r hr
    exact ⟨i, hi, hk, s.appendEntry_queued m _ e _ (.inl q)⟩

theorem State.CopiesLaw.dispatchSource {s : State} (h : s.CopiesLaw) (r : RouteSource) :
    (s.dispatchSource r).CopiesLaw := by
  have hpos : ∀ (t : State) (p : Fin 13), t.CopiesLaw → (t.setPosition p).CopiesLaw := fun t p =>
    (SameCopies.of (s := t) (t := t.setPosition p) rfl rfl rfl rfl rfl).law
  rcases r with ⟨l, c⟩ | _ <;> simp only [State.dispatchSource]
  · split
    · exact h
    · rename_i p hp
      have q := State.ingressHead_queued hp
      exact hpos _ _ (h.applyPlan _ q.1 q.2.1)
  · split
    · exact h
    · rename_i j hj
      obtain ⟨hm, hw⟩ := State.jobHead_waiting hj
      refine hpos _ _ ?_
      unfold State.dispatchJob
      split
      · refine State.CopiesLaw.freeJob ((SameCopies.takeReply s _ _ _).law h) ?_ hw
        rw [State.takeReply_jobs]; exact hm
      · split
        · exact State.CopiesLaw.freeJob ((SameCopies.drop s _ _ _).law h) hm hw
        · exact h.jobSent hm hw _ _ rfl

/-- The rest of an event keeps the account (R20, R61, R83). -/
theorem State.CopiesLaw.settle {s : State} (h : s.CopiesLaw) : (settle s).CopiesLaw :=
  settle_induct (P := State.CopiesLaw) (fun _ r _ h => h.dispatchSource r) (fun t l _ h => (SameCopies.boundary t l).law h)
    (fun t l _ h => (SameCopies.enterWaitPeer t l).law h) (fun t h => (SameCopies.bumpChoices t).law h) h

/-! ### SUBMIT (R105, R113) -/

/-- The slot and the copies of an accepted SUBMIT, its request entry with them. -/
theorem State.CopiesLaw.takeSlot {s t : State} (h : s.CopiesLaw) {i : SlotIx} {x : Header} {req : Option ReqIx}
    {ms : List LinkId} (hi : s.slot i = none) (hms : ms ≠ [])
    (hl : t.links = s.links) (hs : t.slots = s.slots) (hj : t.jobs = s.jobs) (hn : t.nextJob = s.nextJob)
    (hreq : ∀ r, t.entry r = s.entry r ∨ (req = some r ∧ (s.entry r).state = .free ∧ (t.entry r).state = .queued ∧
      (t.entry r).slot = some i ∧ ms = [(t.entry r).egress] ∧ x.queueClass = .req))
    (hr : ∀ r, req = some r → (t.entry r).state = .queued ∧ (t.entry r).slot = some i ∧ ms.length = 1) :
    (t.takeSlot i x req ms).CopiesLaw := by
  obtain ⟨h1, h2, h3, h4, h5⟩ := h
  have h0 : s.copiesOf (.slot i) = 0 :=
    State.CopiesLaw.copies_none ⟨h1, h2, h3, h4, h5⟩ (by simp [State.source, hi])
  let k : Slot := ⟨x, (composedCells t.port.compose).take x.len.toNat, ms.length, req⟩
  have hf := State.appendCopies_fields (hostCopy i x) ms (t.setSlot i (some k))
  have htl : ∀ l, t.link l = s.link l := fun l => by simp only [State.link, hl]
  have hlen : 0 < ms.length := List.length_pos_iff.2 hms
  have hslot : ∀ j, (t.takeSlot i x req ms).slot j = if j = i then some k else s.slot j := fun j => by
    have e : (t.takeSlot i x req ms).slot j = (t.setSlot i (some k)).slot j := by
      simp only [State.slot]; rw [← hf.2.2.2.2.2.2.2.1]; rfl
    rw [e, State.slot_setSlot]; simp only [State.slot, hs]
  have hentry : ∀ r, (t.takeSlot i x req ms).entry r = t.entry r := fun r => by
    change (((t.setSlot i (some k)).appendCopies ms (hostCopy i x)).reqs)[r] = t.reqs[r]
    rw [hf.2.2.1]; rfl
  have hjobs : (t.takeSlot i x req ms).jobs = s.jobs := hf.1.trans hj
  have hnext : (t.takeSlot i x req ms).nextJob = s.nextJob := hf.2.2.2.2.2.2.2.2.2.2.trans hn
  have hst : ∀ l, ((t.takeSlot i x req ms).link l).store = (s.link l).store := fun l => by
    rw [State.takeSlot, State.appendCopies_store, State.setSlot_link, htl]
  have hc : ∀ src, (t.takeSlot i x req ms).copiesOf src = s.copiesOf src + if src = .slot i then ms.length else 0 :=
    fun src => by
      rw [State.takeSlot, State.appendCopies_copiesOf]
      have : ((t.setSlot i (some ⟨x, (composedCells t.port.compose).take x.len.toNat, ms.length, req⟩)).copiesOf src) =
          s.copiesOf src := State.copiesOf_congr (fun l => by rw [State.setSlot_link, htl]) src
      rw [this]
      by_cases e : src = .slot i
      · simp [hostCopy, e]
      · rw [if_neg e, if_neg (fun e' => e e'.symm)]
  have hqk : ∀ m src, s.Queued m src → (t.takeSlot i x req ms).Queued m src := fun m src hq =>
    State.appendCopies_queued _ m src ms _ (by
      unfold State.Queued at *; rw [State.setSlot_link, htl]; exact hq)
  refine .intro (fun src hp => ?_) (fun l => ?_) (fun j y hy => ?_) ⟨by rw [hjobs]; exact h4.1, fun j hx => ?_⟩
    ⟨fun j y hy r hyr => ?_, fun r hx => ?_⟩
  · rw [hc] at hp
    rcases src with ⟨l, id⟩ | j | id
    · simp only [reduceCtorEq, if_false, Nat.add_zero] at hp
      simpa only [State.source, hst] using State.sourceLaw_iff.1 h1 _ hp
    · simp only [State.source, hslot, Option.isSome_map]
      split
      · rfl
      · rename_i hne
        simp only [Source.slot.injEq, hne, if_false, Nat.add_zero] at hp
        simpa only [State.source, Option.isSome_map] using State.sourceLaw_iff.1 h1 _ hp
    · simp only [reduceCtorEq, if_false, Nat.add_zero] at hp
      simpa only [State.source, State.job, hjobs] using State.sourceLaw_iff.1 h1 _ hp
  · have := h2 l
    simp only [State.owedCopies, hst, hc, reduceCtorEq, if_false, Nat.add_zero] at this ⊢
    exact this
  · rw [hslot] at hy
    rw [hc]
    split at hy
    · rename_i e; subst e
      simp only [Option.toList_some, List.mem_singleton] at hy
      subst hy
      simp only [h0, if_true, k]; omega
    · rename_i e
      simp only [Source.slot.injEq, e, if_false, Nat.add_zero]
      exact h3 j y hy
  · rw [hjobs] at hx
    rw [hnext, hc]
    simp only [reduceCtorEq, if_false, Nat.add_zero]
    exact h4.2 j hx
  · rw [hslot] at hy
    rw [hentry]
    split at hy
    · rename_i e; subst e
      simp only [Option.toList_some, List.mem_singleton] at hy
      subst hy
      exact hr r (by simpa using hyr)
    · have a := h5.1 j y hy r hyr
      rcases hreq r with e | ⟨_, e, _⟩
      · rw [e]; exact a
      · rw [a.1] at e; cases e
  · rw [hentry] at hx ⊢
    rcases hreq r with e | ⟨e1, e2, e3, e4, e5, e6⟩
    · rw [e] at hx ⊢
      obtain ⟨j, hj', hk, q⟩ := h5.2 r hx
      have hne : j ≠ i := fun e => by subst e; simp [hi] at hk
      exact ⟨j, hj', by rw [hslot, if_neg hne]; exact hk, hqk _ _ q⟩
    · refine ⟨i, e4, ⟨k, by simp [hslot], e1⟩, ?_⟩
      rw [e5]
      exact State.appendEntry_queued _ _ _ _ _ (.inr ⟨rfl, e6, rfl⟩)

theorem State.submitTargets_ne {s : State} {h : Header} {ms : List LinkId} (hk : s.submitTargets h = .ok ms) : ms ≠ [] ∧
    (h.grp = false → ms = [(s.routeFor h.dest).link]) := by
  unfold State.submitTargets at hk
  split at hk
  · rename_i hg
    split at hk
    · cases hk
    · split at hk
      · cases hk
      · rename_i he
        cases hk
        exact ⟨by simpa using he, fun e => by rw [e] at hg; cases hg⟩
  · split at hk
    · cases hk
    · split at hk
      · cases hk
      · cases hk
        exact ⟨by simp, fun _ => rfl⟩

theorem State.CopiesLaw.submitAccepted {s : State} (h : s.CopiesLaw) {ms : List LinkId} (hms : ms ≠ [])
    (hone : s.composed.cls = Class.req.code → ms.length = 1) : (s.submitAccepted ms).CopiesLaw := by
  have hres : ∀ (t : State) c e, t.CopiesLaw → (t.setResult c e).CopiesLaw := fun t c e => (SameCopies.setResult t c e).law
  unfold State.submitAccepted
  split
  · exact hres _ _ _ h
  · rename_i i hi
    have hfree := State.freeSlot_none hi
    split
    · rename_i hcls
      split
      · rename_i r m rest hr
        have hfr : (s.entry r).state = .free := by
          have := List.find?_some hr; simpa using this
        have he : ∀ q, (s.setEntry r ((s.entry r).allocated s.composed m i)).entry q =
            if q = r then (s.entry r).allocated s.composed m i else s.entry q := fun q => State.entry_setEntry _ _ _ _
        have := h.takeSlot (t := s.setEntry r ((s.entry r).allocated s.composed m i)) (i := i)
          (x := { s.composed with tag := (s.entry r).tag r }) (req := some r) (ms := [m]) hfree (by simp) rfl rfl rfl rfl
          (fun q => by
            rw [he]
            split
            · rename_i e; subst e
              refine .inr ⟨rfl, hfr, rfl, rfl, rfl, ?_⟩
              simp only [Header.queueClass, hcls]; rfl
            · exact .inl rfl)
          (fun q e => by cases e; rw [he, if_pos rfl]; exact ⟨rfl, rfl, rfl⟩)
        exact (SameCopies.of (t := (State.takeSlot _ _ _ _ _).setReqResult r ((s.entry r).tag r)) rfl rfl rfl rfl rfl).law this
      · exact hres _ _ _ h
    · exact hres _ _ _ (h.takeSlot (t := s) hfree hms rfl rfl rfl rfl (fun _ => .inl rfl) (fun _ e => by cases e))

theorem State.CopiesLaw.submit {s : State} (h : s.CopiesLaw) : s.submit.CopiesLaw := by
  unfold State.submit
  split
  · exact (SameCopies.setResult s _ _).law h
  · rename_i ms hk
    have ht := (State.submitCheck_ok hk).2.1
    refine (h.submitAccepted (State.submitTargets_ne ht).1 fun hc => ?_).settle
    rw [(State.submitTargets_ne ht).2]
    · rfl
    · unfold State.submitCheck at hk
      split at hk
      · cases hk
      · rename_i hm
        simp only [hostMayOriginate, hc] at hm
        cases hg : s.composed.grp
        · rfl
        · rw [hg] at hm
          simp [Class.code] at hm

/-! ### Copies end (R87, R92, R94) -/

theorem State.endCopy_fields (s : State) (x : Source) : (∀ r, (s.endCopy x).entry r = s.entry r) ∧
    ∀ l, ((s.endCopy x).link l).tx = (s.link l).tx ∧ ((s.endCopy x).link l).store.nextId = (s.link l).store.nextId := by
  have hn : ∀ (n : Link) id, (n.endCopy id).store.nextId = n.store.nextId := fun n id => by
    unfold Link.endCopy
    split
    · rfl
    · split
      · exact n.release_nextId id
      · rfl
  rcases x with ⟨m, id⟩ | i | id
  · refine ⟨fun _ => rfl, fun l => ?_⟩
    simp only [State.endCopy, State.link_modLink]
    split
    · rename_i e; subst e; exact ⟨(Link.endCopy_storeOnly _ _).tx, hn _ _⟩
    · exact ⟨rfl, rfl⟩
  · simp only [State.endCopy, State.endSlotCopy]
    split
    · exact ⟨fun _ => rfl, fun _ => ⟨rfl, rfl⟩⟩
    · split <;> exact ⟨fun _ => rfl, fun _ => ⟨rfl, rfl⟩⟩
  · exact ⟨fun _ => rfl, fun _ => ⟨rfl, rfl⟩⟩

/-- One copy of `x` has ended: its entry gone, its request entry no longer in QUEUED. -/
theorem Ended.one {s t : State} (h : s.CopiesLaw) (x : Source)
    (hst : ∀ l, (t.link l).store = (s.link l).store) (hs : t.slots = s.slots) (hj : t.jobs = s.jobs)
    (hn : t.nextJob = s.nextJob) (hcopies : ∀ src, t.copiesOf src + (if src = x then 1 else 0) = s.copiesOf src)
    (hq : ∀ m src, src ≠ x → s.Queued m src → t.Queued m src)
    (hentry : ∀ r, t.entry r = s.entry r ∨ (s.hostReq x = some r ∧ (t.entry r).state ≠ .queued))
    (hreq : ∀ r, s.hostReq x = some r → (t.entry r).state ≠ .queued) : (t.endCopy x).CopiesLaw := by
  obtain ⟨he, hl⟩ := t.endCopy_fields x
  have hlaw : Ended (fun src => if src = x then 1 else 0) s (t.endCopy x) := by
    refine ⟨fun src => ?_, fun l => ⟨fun _ => true, by simp, ?_⟩, fun l => ?_, fun i => ?_, ?_, ?_, fun r i hr hi => ?_,
      fun r hr => ?_, fun m src hd hq' => ?_⟩
    · rw [State.copiesOf_congr (s := t) (fun l => by rw [(hl l).1])]; exact hcopies src
    · rw [List.filter_eq_self.2 (by simp)]
      have hnd := (h.2.1 l).1.1
      rw [State.endCopy_link]
      rcases hx : x.idIn l with _ | y
      · have : ∀ id, Source.store l id ≠ x := fun id e => by rw [← e] at hx; simp [Source.idIn] at hx
        simp [this, StoredPacket.less_zero, hst]
      · rw [Source.idIn_eq] at hx
        subst hx
        simp only [Source.store.injEq, true_and]
        rw [← hst l] at hnd ⊢
        exact Link.endCopy_packets y hnd
    · rw [(hl l).2, hst]
    · rw [State.endCopy_slot]
      rw [show t.slot i = s.slot i by simp only [State.slot, hs]]
      by_cases e : x = .slot i
      · simp [e]
      · rw [if_neg e, if_neg (fun e' => e e'.symm)]
    · rw [(t.endCopy_jobs x).1, hj]
      refine List.filter_congr fun j _ => ?_
      by_cases e : Source.job j.id = x
      · simp [e]
      · simp [e, Ne.symm (Ne.intro e)]
    · rw [(t.endCopy_jobs x).2, hn]
    · rw [he]
      obtain ⟨i', hi', ⟨k, hk, hkr⟩, -⟩ := h.2.2.2.2.2 r hr
      rw [hi] at hi'; cases hi'
      have hk' : s.slot i = some k := by simpa using hk
      have hh : s.hostReq (.slot i) = some r := by simp [State.hostReq, hk', hkr]
      by_cases e : Source.slot i = x
      · subst e
        have := hreq r hh
        simp [this]
      · simp only [e, if_false, iff_true]
        rcases hentry r with e1 | ⟨e1, _⟩
        · rw [e1]; exact ⟨hr, fun _ => ⟨rfl, rfl⟩⟩
        · obtain ⟨i2, _, h1, _, _, _, _, h2, _⟩ := h.hostReq_slot e1
          rw [hi] at h2; cases h2
          exact absurd h1.symm e
    · rw [he]
      rcases hentry r with e1 | ⟨_, e1⟩
      · rw [e1]; exact hr
      · exact e1
    · have hne : src ≠ x := fun e => by simp [e] at hd
      have := hq m src hne hq'
      unfold State.Queued at *
      rw [(hl m).1]; exact this
  exact hlaw.law h

theorem Transmitter.rest_copies {t : Transmitter} {c : Class} {e : EgressEntry} {rest : List EgressEntry}
    (h : t.queue c = e :: rest) (src : Source) :
    copiesAmong ({ t with queues := t.queues.set c rest } : Transmitter).entries src + (if src = e.source then 1 else 0) =
      copiesAmong t.entries src := by
  have hc := copiesAmong_cons e rest src
  rw [← h, ite_congr (propext eq_comm) (fun _ => rfl) (fun _ => rfl)] at hc
  simp only [Transmitter.entries_copies, Transmitter.queue] at hc ⊢
  cases c <;> simp only [PerClass.get, PerClass.set] at hc ⊢ <;> omega

theorem State.reqSent_fields (s : State) (r : ReqIx) : (s.reqSent r).links = s.links ∧ (s.reqSent r).slots = s.slots ∧
    (s.reqSent r).jobs = s.jobs ∧ (s.reqSent r).nextJob = s.nextJob ∧ ((s.reqSent r).entry r).state ≠ .queued ∧
    ∀ q, q ≠ r → (s.reqSent r).entry q = s.entry q := by
  unfold State.reqSent
  split
  · rename_i hq
    split
    · unfold State.complete State.completeAs
      rw [if_pos (.inl hq)]
      refine ⟨rfl, rfl, rfl, rfl, ?_, fun q hne => ?_⟩
      · rw [State.latch_entry, State.pushCq_entry, State.entry_setEntry, if_pos rfl]; simp [ReqEntry.completed]
      · rw [State.latch_entry, State.pushCq_entry, State.entry_setEntry, if_neg hne]
    · refine ⟨rfl, rfl, rfl, rfl, ?_, fun q hne => ?_⟩
      · rw [State.entry_setEntry, if_pos rfl]; simp
      · rw [State.entry_setEntry, if_neg hne]
  · exact ⟨rfl, rfl, rfl, rfl, ‹_›, fun _ _ => rfl⟩

/-- The completion of a transmission (R87). -/
theorem State.CopiesLaw.finishHead {s : State} (h : s.CopiesLaw) {l : LinkId} {c : Class} {e : EgressEntry}
    {rest : List EgressEntry} (hq : (s.link l).tx.queue c = e :: rest) : (s.finishHead l c e rest).CopiesLaw := by
  let a := (s.sendData l e.source).modLink l (fun n => { n with tx := { n.tx with queues := n.tx.queues.set c rest } })
  have hal : ∀ m, a.link m = if m = l then
      { s.link l with tx := { (s.link l).tx with queues := (s.link l).tx.queues.set c rest } } else s.link m := fun m => by
    simp only [a, State.link_modLink]
    split
    · rename_i e'; subst e'; rfl
    · rfl
  have hb : ∃ b, b = a.copySent e.source ∧ b.links = a.links ∧ b.slots = a.slots ∧ b.jobs = a.jobs ∧ b.nextJob = a.nextJob ∧
      (∀ r, b.entry r = a.entry r ∨ (s.hostReq e.source = some r ∧ (b.entry r).state ≠ .queued)) ∧
      ∀ r, s.hostReq e.source = some r → (b.entry r).state ≠ .queued := by
    refine ⟨_, rfl, ?_⟩
    unfold State.copySent
    have hh : a.hostReq e.source = s.hostReq e.source := by cases e.source <;> rfl
    rw [hh]
    split
    · rename_i hn
      exact ⟨rfl, rfl, rfl, rfl, fun _ => .inl rfl, fun r e => by rw [hn] at e; cases e⟩
    · rename_i r hr
      obtain ⟨h1, h2, h3, h4, h5, h6⟩ := a.reqSent_fields r
      refine ⟨h1, h2, h3, h4, fun q => ?_, fun q e' => ?_⟩
      · by_cases e' : q = r
        · subst e'; exact .inr ⟨hr, h5⟩
        · exact .inl (h6 q e')
      · rw [hr] at e'; cases e'; exact h5
  obtain ⟨b, hbe, h1, h2, h3, h4, h5, h6⟩ := hb
  have hbl : ∀ m, b.link m = a.link m := fun m => by simp only [State.link, h1]
  change ((a.copySent e.source).endCopy e.source).CopiesLaw
  rw [← hbe]
  have hr := Transmitter.rest_copies hq
  refine Ended.one h e.source (fun m => ?_) h2 h3 h4 (fun src => ?_) (fun m src hne hqd => ?_) h5 h6
  · rw [hbl, hal]; split
    · rename_i e'; subst e'; rfl
    · rfl
  · have := hr src
    simp only [State.copiesOf_eq, hbl, hal]
    fin_cases l <;> simp at * <;> omega
  · unfold State.Queued at *
    rw [hbl, hal]
    split
    · rename_i e'; subst e'
      obtain ⟨f, hf, hs⟩ := hqd
      refine ⟨f, ?_, hs⟩
      simp only [Transmitter.queue, PerClass.get_set] at hq hf ⊢
      split
      · rename_i hc
        rw [hc, hq] at hf
        rcases List.mem_cons.1 hf with rfl | hf
        · exact absurd hs.symm hne
        · exact hf
      · exact hf
    · exact hqd

/-- The cancel of an entry in QUEUED (R92, R118). -/
theorem State.CopiesLaw.cancelQueued {s : State} (h : s.CopiesLaw) {r : ReqIx} (hr : (s.entry r).state = .queued) :
    (s.cancelQueued r).CopiesLaw := by
  obtain ⟨i, hi, ⟨k, hk, hkr⟩, f, hf, hfs⟩ := h.2.2.2.2.2 r hr
  unfold State.cancelQueued
  rw [hi]
  simp only
  split
  · exact (SameCopies.setEntry s r { s.entry r with cancelPending := true } .rfl fun _ => ⟨rfl, rfl⟩).law h
  · have hk' : s.slot i = some k := by simpa using hk
    have hreq : s.hostReq (.slot i) = some r := by simp [State.hostReq, hk', hkr]
    have h1 := (h.hostReq_slot hreq)
    obtain ⟨_, _, _, _, _, _, _, _, hone⟩ := h1
    generalize hm : (s.entry r).egress = m at *
    let a := s.modLink m (fun n => { n with tx := n.tx.withdraw (fun e => !e.namesSlot i) })
    let b := (a.setEntry r ((s.entry r).completed .cancelled))
    have hal : ∀ n, a.link n = if n = m then { s.link m with tx := (s.link m).tx.withdraw (fun e => !e.namesSlot i) }
        else s.link n := fun n => by
      simp only [a, State.link_modLink]
      split
      · rename_i e'; subst e'; rfl
      · rfl
    have hpos : 0 < copiesAmong (s.link m).tx.entries (.slot i) :=
      copiesAmong_pos.2 ⟨f, by simp only [Transmitter.entries, List.mem_append]; exact .inl (.inl hf), hfs⟩
    have hw : ∀ src, copiesAmong ((s.link m).tx.withdraw (fun e => !e.namesSlot i)).entries src +
        (if src = .slot i then copiesAmong (s.link m).tx.entries (.slot i) else 0) = copiesAmong (s.link m).tx.entries src := by
      intro src
      rw [Transmitter.withdraw_entries]
      have hs := copiesAmong_split (s.link m).tx.entries (fun e => e.namesSlot i) src
      have : copiesAmong ((s.link m).tx.entries.filter (fun e => e.namesSlot i)) src =
          if src = .slot i then copiesAmong (s.link m).tx.entries (.slot i) else 0 := by
        unfold copiesAmong
        rw [List.filter_filter]
        split
        · rename_i e; subst e
          exact congrArg List.length (List.filter_congr fun x _ => by simp [EgressEntry.namesSlot])
        · rename_i e
          rw [List.filter_eq_nil_iff.2]; rfl
          intro x _
          simp only [EgressEntry.namesSlot, Bool.and_eq_true, decide_eq_true_eq, not_and]
          intro e1 e2; exact e (e1.symm.trans e2)
      omega
    have hB : (b.endCopy (.slot i)).CopiesLaw := by
      refine Ended.one h (.slot i) (fun n => ?_) rfl rfl rfl (fun src => ?_) (fun n src hne hqd => ?_) (fun q => ?_)
        (fun q hq => ?_)
      · change (a.link n).store = _
        rw [hal]; split
        · rename_i e; subst e; rfl
        · rfl
      · have := hw src
        rw [State.copiesOf_eq] at hone
        change a.copiesOf src + _ = _
        simp only [State.copiesOf_eq, hal]
        by_cases e : src = .slot i
        · subst e
          fin_cases m <;> simp at * <;> omega
        · fin_cases m <;> simp [e] at * <;> omega
      · change a.Queued n src
        unfold State.Queued at *
        rw [hal]
        split
        · rename_i e; subst e
          obtain ⟨g, hg, hgs⟩ := hqd
          refine ⟨g, List.mem_filter.2 ⟨hg, ?_⟩, hgs⟩
          simp only [EgressEntry.namesSlot, Bool.not_eq_true', decide_eq_false_iff_not]
          intro e; exact hne (hgs.symm.trans e)
        · exact hqd
      · rw [State.entry_setEntry]
        split
        · rename_i e; subst e; exact .inr ⟨hreq, by simp [ReqEntry.completed]⟩
        · exact .inl rfl
      · rw [hreq] at hq; cases hq
        rw [State.entry_setEntry, if_pos rfl]; simp [ReqEntry.completed]
    have hw' : ∃ w, w = a.endSlotCopy i ∧ w.entry r = s.entry r ∧ w.reqs = s.reqs := by
      refine ⟨_, rfl, ?_⟩
      unfold State.endSlotCopy
      split
      · exact ⟨rfl, rfl⟩
      · split <;> exact ⟨rfl, rfl⟩
    obtain ⟨w, hw1, hw2, hw3⟩ := hw'
    change ((a.endSlotCopy i).complete r .cancelled).CopiesLaw
    refine (SameCopies.of (s := b.endCopy (.slot i)) ?_ ?_ ?_ ?_ ?_).law hB
    all_goals
      unfold State.complete State.completeAs
      rw [← hw1, hw2, if_pos (.inl hr), hw1]
      simp only [State.endCopy, State.endSlotCopy, b, State.setEntry_slot]
      split
      · rfl
      · split <;> rfl

/-- A teardown (R29, R94, R107, R144). -/
theorem State.CopiesLaw.teardown {s : State} (h : s.CopiesLaw) (n : LinkId) (why : Cause) :
    (s.teardown n why).CopiesLaw := by
  have T := s.teardown_tornDown n why
  have hnames := fun m => (h.2.1 m).1
  have hq : ∀ m src, copiesAmong (s.endedCopies n) src = 0 → s.Queued m src → (s.teardown n why).Queued m src := by
    rintro m src h0 ⟨f, hf, hs⟩
    have hfe : f ∈ (s.link m).tx.entries := by simp only [Transmitter.entries, List.mem_append]; exact .inl (.inl hf)
    by_cases e : m = n
    · subst e
      have := copiesAmong_pos.2 ⟨f, State.mem_endedCopies.2 (.inl hfe), hs⟩
      omega
    · unfold State.Queued
      rw [(T.others m e).2.2.2.2.2.2.2]
      refine ⟨f, List.mem_filter.2 ⟨hf, ?_⟩, hs⟩
      by_contra ho
      have := copiesAmong_pos.2 ⟨f, State.mem_endedCopies.2 (.inr ⟨m, e, hfe, by simpa using ho⟩), hs⟩
      omega
  have hlaw : Ended (copiesAmong (s.endedCopies n)) s (s.teardown n why) := by
    refine ⟨fun src => ?_, fun m => ?_, fun m => ?_, T.slots, T.jobs.1, T.jobs.2, fun r i hr hi => ?_, fun r hr => ?_, hq⟩
    · rw [State.copiesOf_ended (n := n) (by rw [T.tx]; rfl) (fun m hm => (T.others m hm).2.2.2.2.2.2.2) src]; omega
    · by_cases e : m = n
      · subst e
        exact ⟨fun p => decide (p.cond = .dispatched), by simp, T.store (hnames _)⟩
      · refine ⟨fun _ => true, by simp, ?_⟩
        rw [List.filter_eq_self.2 (by simp)]
        exact (T.stores m e (hnames m)).1
    · by_cases e : m = n
      · subst e; exact T.kept.2.2.2
      · exact (T.stores m e (hnames m)).2.nextId
    · obtain ⟨j, hj, ⟨k, hk, hkr⟩, f, hf, hfs⟩ := h.2.2.2.2.2 r hr
      rw [hi] at hj; cases hj
      have hk' : s.slot i = some k := by simpa using hk
      have hh : s.hostReq (.slot i) = some r := by simp [State.hostReq, hk', hkr]
      rw [T.entries h]
      by_cases e : (s.entry r).egress = n
      · rw [if_pos ⟨.inl hr, e⟩]
        have : 0 < copiesAmong (s.endedCopies n) (.slot i) := copiesAmong_pos.2 ⟨f, State.mem_endedCopies.2 (.inl (by
          simp only [Transmitter.entries, List.mem_append]; rw [← e]; exact .inl (.inl hf))), hfs⟩
        simp; omega
      · rw [if_neg (fun x => e x.2)]
        refine ⟨⟨fun _ => ?_, fun _ => hr⟩, fun _ => ⟨rfl, rfl⟩⟩
        by_contra h0
        obtain ⟨g, hg, hgs⟩ := copiesAmong_pos.1 (Nat.pos_of_ne_zero h0)
        have := (h.mem_losses n r).1 (List.mem_filterMap.2 ⟨g, hg, by rw [hgs]; exact hh⟩)
        exact e this.2
    · rw [T.entries h]
      split
      · simp
      · exact hr
  exact hlaw.law h

end Sys2Proof.Machine
end

