-- ==== Sys2Proof/Laws/Words.lean ====
section
/-! SUPPORT. What the fields of a word come to as a number, and the words of a cell. -/

namespace Sys2Proof.Machine

/-- A concatenation is its high part times the weight of its low part, plus the low part. -/
theorem toNat_concat {m n : Nat} (x : BitVec m) (y : BitVec n) : (x ++ y).toNat = x.toNat * 2 ^ n + y.toNat := by
  rw [BitVec.toNat_append, Nat.shiftLeft_eq, ← Nat.shiftLeft_eq, ← Nat.shiftLeft_add_eq_or_of_lt y.isLt]

/-- A flag as a field. -/
theorem ofBool_toNat (b : Bool) : (BitVec.ofBool b).toNat = b.toNat := by cases b <;> rfl

/-- A word of the window while RESET is not asserted. -/
theorem readWord_running (s : State) (h : s.inReset = false) (a : BitVec 7) : readWord s a = readWordNat s a.toNat := by
  simp [readWord, h]

/-- The two words of a cell put together are the cell (R126, R137). -/
theorem dataWord_pair (cells : List Cell) (j : Nat) :
    (dataWord cells (2 * j + 1) ++ dataWord cells (2 * j)).toNat = (cells.getD j 0).toNat := by
  have odd : (2 * j + 1) % 2 ≠ 0 := by omega
  have even : (2 * j) % 2 = 0 := by omega
  have e : (2 * j + 1) / 2 = j := by omega
  have o : (2 * j) / 2 = j := by omega
  rw [toNat_concat]
  simp only [dataWord, odd, even, e, o, if_true, if_false, lowWord, highWord, BitVec.extractLsb'_toNat,
    Nat.shiftRight_eq_div_pow]
  have := (cells.getD j 0).isLt
  omega

/-- Three class flags as a number. -/
theorem classFlags_toNat (p : PerClass Bool) :
    (classFlags p).toNat = p.req.toNat + 2 * p.rpy.toNat + 4 * p.pst.toNat := by
  rcases p with ⟨a, b, c⟩; revert a b c; decide

/-- Bit `k` of a byte of counter flags is counter `k`'s (R151). -/
theorem counterFlags_bit (s : State) (f : SyncCounter → Bool) (k : Fin 8) :
    (s.counterFlags f).getLsbD k.val = f (s.counter k) := by
  have key : ∀ a b c d e g h i : Bool, ∀ k : Fin 8, (BitVec.ofBool i ++ BitVec.ofBool h ++ BitVec.ofBool g ++
      BitVec.ofBool e ++ BitVec.ofBool d ++ BitVec.ofBool c ++ BitVec.ofBool b ++ BitVec.ofBool a).getLsbD k.val =
        [a, b, c, d, e, g, h, i].getD k.val false := by decide +revert
  rw [show (s.counterFlags f).getLsbD k.val = _ from key _ _ _ _ _ _ _ _ k]
  fin_cases k <;> rfl

/-- At most 8 slots are free. -/
theorem freeSlots_le (s : State) : s.freeSlots ≤ 8 := (List.length_filter_le _ _).trans (by decide)

/-- At most 16 entries are in use. -/
theorem entriesInUse_le (s : State) : s.entriesInUse ≤ 16 := (List.length_filter_le _ _).trans (by decide)

/-- A transmitter is busy exactly while an entry has started (R79, R179). -/
theorem Transmitter.busy_iff (t : Transmitter) (h : t.StartedLaw) :
    t.busy = true ↔ ∃ e ∈ t.entries, e.started = true := by
  have head : ∀ c, (t.startedHead c).isSome = true ↔ ∃ e ∈ (t.queue c).take 1, e.started = true := by
    intro c
    unfold Transmitter.startedHead
    cases t.queue c with
    | nil => simp
    | cons a r => by_cases ha : a.started = true <;> simp [ha]
  have late := h.1
  unfold Transmitter.busy Transmitter.inFlight Transmitter.entries
  rw [Option.isSome_or, Option.isSome_or, Bool.or_eq_true, Bool.or_eq_true, head, head, head]
  simp only [List.mem_append] at late ⊢
  have split : ∀ (q : List EgressEntry) e, e ∈ q ↔ e ∈ q.take 1 ∨ e ∈ q.drop 1 := fun q e => by
    rw [← List.mem_append, List.take_append_drop]
  simp only [split t.queues.req, split t.queues.rpy, split t.queues.pst]
  constructor
  · rintro (⟨e, he, hs⟩ | ⟨e, he, hs⟩ | ⟨e, he, hs⟩)
    exacts [⟨e, .inl (.inl (.inl he)), hs⟩, ⟨e, .inl (.inr (.inl he)), hs⟩, ⟨e, .inr (.inl he), hs⟩]
  · rintro ⟨e, ((he | he) | (he | he)) | (he | he), hs⟩
    · exact .inl ⟨e, he, hs⟩
    · simp [late e (.inl (.inl he))] at hs
    · exact .inr (.inl ⟨e, he, hs⟩)
    · simp [late e (.inl (.inr he))] at hs
    · exact .inr (.inr ⟨e, he, hs⟩)
    · simp [late e (.inr he)] at hs

end Sys2Proof.Machine
end

