-- ==== Sys2Proof/Tests/Slice0.lean ====
section
/-! SUPPORT. Tests of single commands against values the manual states (each names its source), the smoke test of
`Instr.wellFormed`, and the rows that windows and cells spell. -/

namespace Sys2Proof.Tests

open Sys2Proof.Machine

set_option maxRecDepth 20000

/-! ### Well-formedness and rows -/

/-- REGISTER_WRITE of a word that has a row of its own is ill-formed (11, register map). -/
theorem test_wellFormed_refuses_registerWrite_of_ctrl : (Instr.registerWrite 3 0).wellFormed = false := by decide

/-- BAD_COMMAND of a known code is ill-formed (11, "Codes"). -/
theorem test_wellFormed_refuses_badCommand_of_submit : (Instr.badCommand 1).wellFormed = false := by decide

/-- The codes and words at the edges of both checks are well-formed. -/
theorem test_wellFormed_accepts : (Instr.badCommand 0).wellFormed = true ∧ (Instr.badCommand 12).wellFormed = true ∧
    (Instr.registerWrite 48 0).wellFormed = true ∧ (Instr.registerWrite 7 0).wellFormed = true := by decide

/-- No row of the table has bits, so no word of it spells a command. -/
theorem test_decodeTableWord : decodeTableWord 32 1 = none := by decide

/-- CMD words with CODE in 3:0, N in 12:8 and T in 23:16 (11, "Commands, results and events" and "Codes"). -/
theorem test_cmdRow : cmdRow 0x00000001 = .submit ∧ cmdRow 0x00000302 = .rxPop ∧ cmdRow 0x00000003 = .cqRelease ∧
    cmdRow 0x00000F04 = .reqCancel 15 ∧ cmdRow 0x00000205 = .linkReset 2 ∧ cmdRow 0x00000006 = .softReset ∧
    cmdRow 0x00030507 = .syncArm 5 3 ∧ cmdRow 0x00000508 = .syncTake 5 ∧ cmdRow 0x00001F09 = .syncDisarm 31 ∧
    cmdRow 0x0000070A = .syncClear 7 ∧ cmdRow 0x0000000B = .dropClear ∧ cmdRow 0xFFFFFFFC = .badCommand 12 := by decide

/-- Window words by their addresses (11, register map). -/
theorem test_hostWriteRow : hostWriteRow 1 2 = .nodeWrite 2 ∧ hostWriteRow 26 0x10200403 = .lctrlWrite 2 0x10200403 ∧
    hostWriteRow 41 0x11 = .routeWrite 0x11 ∧ hostWriteRow 43 0x92 = .groupWrite 0x92 ∧
    hostWriteRow 50 7 = .registerWrite 50 7 := by decide

/-- Control cells written out from their layout (11, "Cells on the lane"). -/
theorem test_controlCellRow : controlCellRow 1 0x0000000000010201 = .initReceived 1 2 true ∧
    controlCellRow 0 0x0000000000021002 = .creditReceived 0 16 ⟨false, true, false⟩ ∧
    controlCellRow 3 0x0000000000000003 = .teardownCellReceived 3 ∧
    controlCellRow 3 0x0000000000000004 = .unknownControlCell 3 := by decide

/-- A header cell written out from its layout: REQ MSG from 0 to 2, TAG 1, LEN 1, HOPS 4, USER 0x50, POOL 0. -/
theorem test_headerCell : (⟨2, 0, 0, 0, false, 1, 1, 4, false, 0x50⟩ : Header).toCell = 0x0050040101000002 := by decide

/-- A received cell is a row by its marks and by the link's framing (R1). -/
theorem test_receivedCellRow : receivedCellRow 0 true true true false 5 = .headerCellArrival 0 5 ∧
    receivedCellRow 0 true false true false 5 = .dataCellArrival 0 5 ∧
    receivedCellRow 0 false true true false 5 = .packetCellWhileNotUp 0 5 ∧
    receivedCellRow 0 true true false true 3 = .badCell 0 := by decide

/-! ### The three-node line of chapter 12 -/

/-- The state a command leaves, or the state itself where it stops. -/
def after (c : Instr) (s : State) : State :=
  match exec c s with
  | .next t => t
  | .fault _ => s
  | .refused _ => s

/-- A link in a state with a peer, enabled with the line's LCTRLn (12), its store and queues empty. -/
def linkOf (x : LinkState) (peer : NodeId) : Link :=
  { Link.powerOn with
    state := x, peer := peer, seen := decide (x = .up), ctrl := ⟨true, true, false, 4, 8, 32, 16⟩
    initTimer := if x = .waitPeer then some 128 else none
    tx := if x = .up then ⟨PerClass.all [], 72, PerClass.all true, .req, 0⟩ else Transmitter.idle }

/-- Node 1 of the line: L0 UP toward node 0, L1 UP toward node 2 (12). -/
def node1 : State :=
  { State.reset with
    port := { Port.powerOn with node := 1, label := 0x317, rxEnable := true }
    links := #v[linkOf .up 0, linkOf .up 2, Link.powerOn, Link.powerOn]
    route := ⟨0, ((Vector.replicate 32 ⟨.discard, 0⟩).set 0 ⟨.toLink, 0⟩).set 2 ⟨.toLink, 1⟩, 0,
      (Vector.replicate 8 ⟨false, 0, false⟩).set 2 ⟨true, 3, true⟩, 11⟩ }

/-- Node 1 with a composed header. -/
def composing (hdr aux : Word) : State :=
  { node1 with port := { node1.port with compose := ((Vector.replicate 16 0).set 0 hdr).set 1 aux } }

/-- Node 1 with L0 in a state. -/
def withL0 (x : LinkState) : State := node1.setLink 0 (linkOf x 0)

/-- A packet of LEN 0 from node 0 as L0's store holds it. -/
def packet (dest : NodeId) (cls : BitVec 2) (kind : BitVec 3) (hops : BitVec 5) (cond : Condition) : StoredPacket :=
  ⟨0, ⟨dest, 0, cls, kind, false, 4, 0, hops, false, 0x100⟩, [], .shared, cond, 1⟩

/-- Node 1 with one packet in L0's store. -/
def holding (p : StoredPacket) : State :=
  node1.modLink 0 (fun n => { n with store := { n.store with packets := [p], nextId := 1 } })

/-- Node 1 with entry 0 in SENT to node 2, generation 0, 5 µs of its timer left. -/
def waitingReply : State :=
  node1.setEntry 0 { ReqEntry.free 0 with state := .sent, dest := 2, egress := 1, captured := 200, remaining := 5 }

/-- Node 1 with counter 5 as given. -/
def counting (c : SyncCounter) : State := node1.setCounter 5 c

/-- A copy of host slot 0 as an entry of the REQ queue. -/
def slotCopy (started : Bool) : EgressEntry := ⟨.slot 0, .req, 1, 4, false, started⟩

/-- Node 1 with a REQ in host slot 0, its entry 0 in QUEUED, its copy on L1. -/
def sending (started : Bool) : State :=
  (((node1.setSlot 0 (some ⟨⟨2, 1, 0, 0, false, 0, 0, 4, false, 0⟩, [], 1, some 0⟩)).setEntry 0
    { ReqEntry.free 0 with state := .queued, dest := 2, egress := 1, slot := some 0 }).modLink 1
    (fun n => { n with tx := n.tx.append (slotCopy started) }))

/-- A full egress queue. -/
def full : List EgressEntry := List.replicate 16 (slotCopy false)

/-- Node 1 with its RESET input asserted. -/
def inReset : State := after .powerOnReset node1

/-- A message of LEN 0 in the inbound queue. -/
def message : InboundEntry := ⟨0, 1, false, 0, 2, 0, 0, 0, 0, []⟩

/-- A job that answers node 0. -/
def job : Job := ⟨7, .refused, 0, 1, 4, 0x100, [], .waiting, 1⟩

/-! ### Host commands -/

/-- A REQ MSG to node 2 with LEN 1 and HOPS 4: slot 0, entry 0 QUEUED, and L1's shared credit falls from 72 to 70 as it
starts at once (12, "A request across two hops"). -/
theorem test_submit_request : ((after .submit (composing 0x08400002 0x50)).entry 0).state = .queued ∧
    ((after .submit (composing 0x08400002 0x50)).link 1).tx.shared = 70 ∧
    (after .submit (composing 0x08400002 0x50)).port.result = ⟨1, .ok, 0, 0⟩ := by decide

/-- A SUBMIT with HOPS 0 is refused with BAD_FIELD (R99). -/
theorem test_submit_bad_field : (after .submit (composing 2 0)).port.result = ⟨1, .badField, 0, 0⟩ := by decide

/-- RX_POP removes the head (R138). -/
theorem test_rxPop : (after .rxPop { node1 with inbound := [message] }).inbound = [] := by decide

/-- RX_POP of an empty queue is refused with EMPTY (R138). -/
theorem test_rxPop_empty : (after .rxPop node1).port.result = ⟨2, .empty, 0, 0⟩ := by decide

/-- CQ_RELEASE: entry 0 FREE, generation 1 (12). -/
theorem test_cqRelease : (after .cqRelease
    { node1.setEntry 0 { ReqEntry.free 0 with state := .done, status := some .ok } with cq := [0] }).entry 0 =
      ReqEntry.free 1 := by decide

/-- REQ_CANCEL of an entry in SENT completes it with CANCELLED (R118). -/
theorem test_reqCancel_sent : ((after (.reqCancel 0) waitingReply).entry 0).status = some .cancelled ∧
    (after (.reqCancel 0) waitingReply).cq = [0] := by decide

/-- REQ_CANCEL of a REQ in transmission marks it cancel-pending (R118). -/
theorem test_reqCancel_started : ((after (.reqCancel 0) (sending true)).entry 0).cancelPending = true ∧
    ((after (.reqCancel 0) (sending true)).entry 0).state = .queued := by decide

/-- LINK_RESET of a link in UP: HOST_RESET, HOLD for 256 µs, a TEARDOWN cell (R18, R29, 02). -/
theorem test_linkReset_up : ((after (.linkReset 0) node1).link 0).state = .hold ∧
    ((after (.linkReset 0) node1).link 0).cause = .hostReset ∧
    ((after (.linkReset 0) node1).link 0).holdTimer = some 256 ∧
    (after (.linkReset 0) node1).sent 0 = [⟨true, 3⟩] := by decide

/-- LINK_RESET of a link with ENABLE 0 is refused with NOT_ACTIVE (R18). -/
theorem test_linkReset_not_active : (after (.linkReset 2) node1).port.result = ⟨5, .notActive, 0, 0⟩ := by decide

/-- SOFT_RESET tears every UP link down with SOFT_RESET and leaves it in HOLD (R33). -/
theorem test_softReset : readWord (after .softReset node1) 28 = 0x00030005 ∧
    readWord (after .softReset node1) 7 = 0x00000006 := by decide

/-- SYNC_ARM 5,3 on a count of 0: ARMED (09, "Early arrivals"). -/
theorem test_syncArm : (after (.syncArm 5 3) node1).counter 5 = ⟨0, 3, true, false, false⟩ := by decide

/-- SYNC_ARM with target 0 is refused with BAD_FIELD (R155). -/
theorem test_syncArm_zero : (after (.syncArm 5 0) node1).port.result = ⟨7, .badField, 0, 0⟩ := by decide

/-- SYNC_TAKE 5 at 6: 6 − 3 = 3, armed; 3 ≥ 3, fires again (09, "Early arrivals"). -/
theorem test_syncTake_fires : (after (.syncTake 5) (counting ⟨6, 3, false, true, false⟩)).counter 5 =
      ⟨3, 3, false, true, false⟩ ∧
    (after (.syncTake 5) (counting ⟨6, 3, false, true, false⟩)).events.latch = 0x04 := by decide

/-- SYNC_TAKE 5 at 0 < 3: NOT_READY (09, "Early arrivals"). -/
theorem test_syncTake_not_ready :
    (after (.syncTake 5) (counting ⟨0, 3, true, false, false⟩)).port.result = ⟨8, .notReady, 0, 0⟩ := by decide

/-- SYNC_DISARM clears ARMED alone (R157). -/
theorem test_syncDisarm : (after (.syncDisarm 5) (counting ⟨2, 3, true, false, true⟩)).counter 5 =
    ⟨2, 3, false, false, true⟩ := by decide

/-- SYNC_CLEAR keeps the target (R158). -/
theorem test_syncClear : (after (.syncClear 5) (counting ⟨6, 3, false, true, true⟩)).counter 5 =
    ⟨0, 3, false, false, false⟩ := by decide

/-- DROP_CLEAR zeroes the count and frees the record; DROP stays latched (R174). -/
theorem test_dropClear : (after .dropClear { node1 with events := ⟨0x10, 0, 3, some ⟨.stale, .link 1, 0, 2, 1, 0, 0x10⟩⟩ }).events =
    ⟨0x10, 0, 0, none⟩ := by decide

/-- Code 12 is refused with BAD_COMMAND (R167). -/
theorem test_badCommand : readWord (after (.badCommand 12) node1) 7 = 0x0000001C := by decide

/-! ### Host writes and resets -/

/-- NODE is stored only while every link is in OFF (R163). -/
theorem test_nodeWrite : (after (.nodeWrite 2) State.reset).port.node = 2 ∧ (after (.nodeWrite 2) node1).port.node = 1 ∧
    (after (.nodeWrite 2) node1).port.cfgReject = true := by decide

/-- A CTRL write with TB_DIV 0 is refused whole (R164). -/
theorem test_ctrlWrite : readWord (after (.ctrlWrite 0x00001001) node1) 3 = 0x00321001 ∧
    readWord (after (.ctrlWrite 0x00320800) node1) 3 = 0x00320800 := by decide

/-- An enable from OFF enters HOLD for 256 µs (02, "Bring-up on the line"). -/
theorem test_lctrlWrite_enable : ((after (.lctrlWrite 1 0x10200403) State.reset).link 1).state = .hold ∧
    ((after (.lctrlWrite 1 0x10200403) State.reset).link 1).holdTimer = some 256 := by decide

/-- With TSEL 1 the write stores CR_HOLDOFF and keeps LINK_HOLD (R178). -/
theorem test_lctrlWrite_tsel : ((after (.lctrlWrite 1 0x10200983) node1).link 1).ctrl.crHoldoff = 9 ∧
    ((after (.lctrlWrite 1 0x10200983) node1).link 1).ctrl.linkHold = 4 := by decide

/-- STATUS bit 0 as 1 clears CFG_REJECT (R165). -/
theorem test_statusWrite :
    (after (.statusWrite 1) { node1 with port := { node1.port with cfgReject := true } }).port.cfgReject = false := by decide

/-- Each EVENT bit written as 1 is cleared (R169). -/
theorem test_eventWrite : (after (.eventWrite 0x11) { node1 with events := ⟨0x19, 0, 0, none⟩ }).events.latch = 0x08 := by
  decide

/-- INT follows the latch and the enables (R170). -/
theorem test_eventEnWrite :
    (after (.eventEnWrite 0x08) { node1 with events := ⟨0x08, 0, 0, none⟩ }).intAsserted = true := by decide

/-- A ROUTE write stores the selected entry; code 3 is stored as DISCARD (R57). -/
theorem test_routeWrite : (after (.routeWrite 0x11) State.reset).routeFor 0 = ⟨.toLink, 1⟩ ∧
    (after (.routeWrite 0x13) State.reset).routeFor 0 = ⟨.discard, 1⟩ := by decide

/-- GROUP 0x93: ENABLE, mask L0 and L1, LOCAL (12). -/
theorem test_groupWrite : (after (.groupWrite 0x93) State.reset).groupFor 0 = ⟨true, 3, true⟩ := by decide

/-- The compose window is stored as written; RESULT is read only (R96, R162). -/
theorem test_registerWrite : readWord (after (.registerWrite 63 0xDEADBEEF) node1) 63 = 0xDEADBEEF ∧
    after (.registerWrite 7 1) node1 = node1 := by decide

/-- CTRL, STATUS and LCTRL0 after power-on reset (11, register map). -/
theorem test_powerOnReset : readWord (after .powerOnReset inReset) 3 = 0x00321000 ∧
    readWord (after .powerOnReset inReset) 4 = 0x00000080 ∧
    readWord (after .powerOnReset inReset) 24 = 0x10200400 := by decide

/-- While RESET is asserted every word reads 0 and a write is ignored (R176). -/
theorem test_powerOnReset_held : readWord inReset 0 = 0 ∧ after (.registerWrite 2 7) inReset = inReset := by decide

/-! ### Received cells -/

/-- A header of LEN 1 sets its cells aside; the next cell is its data (R40, R41). -/
theorem test_headerCellArrival : ((after (.headerCellArrival 0 0x0000100102000002) node1).link 0).store.held = 2 ∧
    ((after (.headerCellArrival 0 0x0000100102000002) node1).link 0).store.receiving.isSome = true := by decide

/-- A header beyond the free shared cells is a CREDIT_OVERRUN (R40). -/
theorem test_headerCellArrival_overrun :
    ((after (.headerCellArrival 0 0x0000100102000002) (node1.modLink 0 (fun n =>
      { n with store := { n.store with awaitShared := 71 } }))).link 0).cause = .creditOverrun := by decide

/-- The LEN-th data cell is the arrival, and a MSG for this node joins the inbound queue (R41, R66). -/
theorem test_dataCellArrival : (after (.dataCellArrival 0 0xAB) (holding
    ⟨0, ⟨1, 0, 2, 0, false, 0, 1, 4, false, 0x50⟩, [], .shared, .inReception, 0⟩)).inbound =
      [⟨0, 1, false, 0, 2, 0, 0, 0x50, 1, [0xAB]⟩] := by decide

/-- An INIT of SEEN 0: the peer is recorded and answered with an INIT of SEEN 1 (02, "Bring-up on the line"). -/
theorem test_initReceived_answered : ((after (.initReceived 0 0 false) (withL0 .waitPeer)).link 0).seen = true ∧
    (after (.initReceived 0 0 false) (withL0 .waitPeer)).sent 0 = [⟨true, 0x10101⟩] := by decide

/-- An INIT of SEEN 1 brings the link UP with full credit: LSTAT0 reads UP, SEEN 1, peer 0 (12). -/
theorem test_initReceived_up : readWord (after (.initReceived 0 0 true) (withL0 .waitPeer)) 28 = 0x00000007 ∧
    ((after (.initReceived 0 0 true) (withL0 .waitPeer)).link 0).tx.shared = 72 := by decide

/-- CREDIT (shared 8) on a shared credit of 0 (03, "A jam of requests"). -/
theorem test_creditReceived : ((after (.creditReceived 0 8 (PerClass.all false)) (node1.modLink 0 (fun n =>
    { n with tx := { n.tx with shared := 0 } }))).link 0).tx.shared = 8 := by decide

/-- CREDIT past 72 is a CREDIT_RETURN_ERROR (R50). -/
theorem test_creditReceived_over :
    ((after (.creditReceived 0 1 (PerClass.all false)) node1).link 0).cause = .creditReturnError := by decide

/-- A TEARDOWN at a packet boundary: PEER_TEARDOWN, answered with a TEARDOWN (02, "A fault with a zombie"). -/
theorem test_teardownCellReceived : ((after (.teardownCellReceived 1) node1).link 1).cause = .peerTeardown ∧
    (after (.teardownCellReceived 1) node1).sent 1 = [⟨true, 3⟩] := by decide

/-- An unknown control cell is a CONTROL_ERROR in UP (R1, R180). -/
theorem test_unknownControlCell : ((after (.unknownControlCell 1) node1).link 1).cause = .controlError := by decide

/-- A bad cell is a CELL_ERROR in UP; the credit is zero after it (R29, R30). -/
theorem test_badCell : ((after (.badCell 0) node1).link 0).cause = .cellError ∧
    ((after (.badCell 0) node1).link 0).tx.shared = 0 := by decide

/-- A loss of carrier sends no TEARDOWN cell, and an entry in SENT over the link ends LINK_LOST (R29, R116). -/
theorem test_carrierLoss : (after (.carrierLoss 1) waitingReply).sent 1 = [] ∧
    ((after (.carrierLoss 1) waitingReply).entry 0).status = some .linkLost := by decide

/-- A packet cell in WAIT_PEER clears SEEN (R26). -/
theorem test_packetCellWhileNotUp : ((after (.packetCellWhileNotUp 0 5) ((withL0 .waitPeer).modLink 0 (fun n =>
    { n with seen := true }))).link 0).seen = false := by decide

/-! ### Timers -/

/-- The hold timer's expiry with an empty store: WAIT_PEER, INIT(1, SEEN 0) (12). -/
theorem test_holdTimerExpiry : ((after (.holdTimerExpiry 0) ((withL0 .hold).modLink 0 (fun n =>
      { n with holdTimer := some 1 }))).link 0).state = .waitPeer ∧
    (after (.holdTimerExpiry 0) ((withL0 .hold).modLink 0 (fun n => { n with holdTimer := some 1 }))).sent 0 =
      [⟨true, 0x101⟩] := by decide

/-- A link in HOLD with its timer expired and its store empty enters WAIT_PEER (R20). -/
theorem test_waitPeerEntry : ((after (.waitPeerEntry 0) (withL0 .hold)).link 0).initTimer = some 128 := by decide

/-- A teardown with LINK_HOLD 0 and an empty store goes on to WAIT_PEER inside the same event (R20). -/
theorem test_badCell_no_hold : ((after (.badCell 0) (node1.modLink 0 (fun n =>
    { n with ctrl := { n.ctrl with linkHold := 0 } }))).link 0).state = .waitPeer := by decide

/-- The INIT timer's expiry sends one INIT (R22). -/
theorem test_initTimerExpiry : (after (.initTimerExpiry 0) (withL0 .waitPeer)).sent 0 = [⟨true, 0x101⟩] := by decide

/-- The holdoff timer's expiry on an idle lane sends CREDIT(2) at once (12). -/
theorem test_creditHoldoffExpiry : (after (.creditHoldoffExpiry 0) (node1.modLink 0 (fun n =>
      { n with store := { n.store with awaitShared := 2, holdoff := some 1 } }))).sent 0 = [⟨true, 0x202⟩] := by decide

/-- A request timer's expiry: DONE, TIMEOUT (12). -/
theorem test_requestTimerExpiry : ((after (.requestTimerExpiry 0) waitingReply).entry 0).status = some .timeout ∧
    (after (.requestTimerExpiry 0) waitingReply).cq = [0] := by decide

/-- With no command waiting the 50th reference period ends a unit (R166). -/
theorem test_idle_step : (tick { waitingReply with divider := 49 }).entry 0 =
    { waitingReply.entry 0 with remaining := 4 } := by decide

/-! ### The part's own events -/

/-- HOPS 4 goes out as 3 in L1's REQ queue, and the copy starts: 72 to 71 for a packet of one cell (R69, 12). -/
theorem test_dispatch_forwards : ((after (.dispatch 0 .req) (holding (packet 2 0 0 4 .queued))).link 1).tx.queue .req =
      [⟨.store 0 0, .req, 1, 3, false, true⟩] ∧
    ((after (.dispatch 0 .req) (holding (packet 2 0 0 4 .queued))).link 1).tx.shared = 71 := by decide

/-- A remote REQ whose link is not UP: a LINK_DOWN drop and an UNREACHABLE reply to its SRC, from its DEST (R67, R68, 12). -/
theorem test_dispatch_unreachable : let t := after (.dispatch 0 .req) ((holding (packet 2 0 0 4 .queued)).setLink 1
      (linkOf .hold 2));
    t.events.dropCount = 1 ∧ t.jobs.map Job.kind = [.unreachable] ∧ t.jobs.map Job.addressed = [2] := by decide

/-- A REFUSED job to node 0 is sent on L0 with DEFAULT_HOPS 16 (R74, R144). -/
theorem test_responderDispatch : ((after .responderDispatch { node1 with jobs := [job] }).link 0).tx.queue .rpy =
    [⟨.job 7, .rpy, 1, 16, false, true⟩] := by decide

/-- The words of the PROBE answer of 08: node 1, 3 inbound entries, 2 entries in use, 6 free slots, counter 5 fired. -/
theorem test_probe_snapshot : ({ ((((counting ⟨1, 1, false, true, false⟩).setEntry 0
      { ReqEntry.free 0 with state := .sent }).setEntry 1 { ReqEntry.free 0 with state := .sent }).setSlot 0
        (some ⟨Header.zero, [], 1, none⟩)).setSlot 1 (some ⟨Header.zero, [], 1, none⟩) with
      inbound := [message, message, message] } : State).probeSnapshot = [0x00000B0300038101, 0x0020060200000317] := by decide

/-- A start spends the entry's cells of the shared credit and raises the run (R85). -/
theorem test_transmissionStart : ((after (.transmissionStart 1) (sending false)).link 1).tx.shared = 71 ∧
    ((after (.transmissionStart 1) (sending false)).link 1).tx.run = 1 := by decide

/-- A due CREDIT cell carries what awaits return: CREDIT (shared 0, RPY) (03, "A jam of requests"). -/
theorem test_creditCellSend : (after (.creditCellSend 0) (node1.modLink 0 (fun n =>
    { n with store := { n.store with awaitRes := ⟨false, true, false⟩ } }))).sent 0 = [⟨true, 0x20002⟩] := by decide

/-- The REQ's completion: slot 0 freed, TX_SPACE, entry 0 SENT with 1000 µs (12). -/
theorem test_transmissionCompletion : ((after (.transmissionCompletion 1) (sending true)).entry 0).remaining = 1000 ∧
    (after (.transmissionCompletion 1) (sending true)).slot 0 = none ∧
    (after (.transmissionCompletion 1) (sending true)).events.latch = 0x40 := by decide

/-! ### What meets the hypotheses of the statements

`witness_X` names a state and operands that meet the hypotheses of `Obligations.X` together; `witness_X_c` those of its
clause `c`, at a boundary of its range where it has one. -/

theorem witness_StepRunsFront : ({ node1 with pending := [.rxPop, .submit] } : State).pending = .rxPop :: [.submit] := by
  decide

theorem witness_IdleStepCountsTime_period : node1.inReset = false ∧ node1.pending = [] ∧
    ({ node1 with divider := 48 } : State).divider + 1 < node1.port.tbDiv.toNat := by decide

/-- A unit ends with a hold timer and a request timer at 2. -/
def unitEnds : State :=
  { (((withL0 .hold).modLink 0 (fun n => { n with holdTimer := some 2 })).setEntry 0
    { ReqEntry.free 0 with state := .sent, captured := 9, remaining := 2 }) with divider := 49 }

theorem witness_IdleStepCountsTime_unit : unitEnds.inReset = false ∧ unitEnds.pending = [] ∧
    unitEnds.port.tbDiv.toNat ≤ unitEnds.divider + 1 ∧
    (∀ l x, ((unitEnds.link l).holdTimer = some x ∨ (unitEnds.link l).initTimer = some x ∨
      (unitEnds.link l).store.holdoff = some x) → 2 ≤ x) ∧
    (∀ r, (unitEnds.entry r).timerRuns = true → 2 ≤ (unitEnds.entry r).remaining) := by
  refine ⟨rfl, by decide, by decide, fun l x h => ?_, by decide⟩
  have key : ∀ l, (unitEnds.link l).holdTimer.getD 2 = 2 ∧ (unitEnds.link l).initTimer = none ∧
    (unitEnds.link l).store.holdoff = none := by decide
  have k := key l
  rw [k.2.1, k.2.2] at h
  rcases h with h | h | h
  · rw [h] at k; exact k.1.symm.le
  · cases h
  · cases h

theorem witness_IdleStepCountsTime_expiries : unitEnds.inReset = false ∧ unitEnds.pending = [] ∧
    unitEnds.port.tbDiv.toNat ≤ unitEnds.divider + 1 ∧
    ∀ l, (unitEnds.link l).TimerLaw := by decide

theorem witness_ControlCellRoundTrip : controlType 0x100 = 0 ∧ 4 ≤ controlType 4 ∧ 4 ≤ controlType 0xFF := by decide

theorem witness_HostWriteHasItsRow : node1.inReset = false := by decide

theorem witness_PowerOnResetState : inReset.inReset = true ∧ Instr.submit ≠ .powerOnReset ∧ inReset.pending = [] := by
  decide

theorem witness_RegisterWrite : node1.inReset = false ∧ storedMask 2 ≠ 0 ∧ storedMask 5 ≠ 0 ∧ storedMask 40 ≠ 0 ∧
    storedMask 42 ≠ 0 ∧
    storedMask 48 ≠ 0 ∧ storedMask 63 ≠ 0 := by decide

theorem witness_RegisterWrite_ignored : node1.inReset = false ∧ ((Instr.registerWrite 0 1).wellFormed = true ∧
    storedMask 0 = 0) ∧
    ((Instr.registerWrite 44 1).wellFormed = true ∧ storedMask 44 = 0) ∧
    ((Instr.registerWrite 47 1).wellFormed = true ∧ storedMask 47 = 0) ∧
    ((Instr.registerWrite 64 1).wellFormed = true ∧ storedMask 64 = 0) ∧
    ((Instr.registerWrite 127 1).wellFormed = true ∧ storedMask 127 = 0) := by decide

theorem witness_StatusAndEventWrites : node1.inReset = false := by decide

theorem witness_NodeWrite : (State.reset.inReset = false ∧ ∀ l, (State.reset.link l).state = .off) ∧
    node1.inReset = false ∧
    ∃ l, (node1.link l).state ≠ .off := by decide

theorem witness_CtrlWrite_refused : node1.inReset = false ∧ (0x00320000 : Word).extractLsb' 8 5 = 0 ∧
    (0x00001001 : Word).extractLsb' 16 8 = 0 := by
  decide

theorem witness_CtrlWrite_stored : node1.inReset = false ∧ (0x00010100 : Word).extractLsb' 8 5 ≠ 0 ∧
    (0x00010100 : Word).extractLsb' 16 8 ≠ 0 ∧
    (0x00010101 : Word).getLsbD 0 = node1.port.rxEnable := by decide

theorem witness_TableWrites : node1.inReset = false := by decide

theorem witness_LinkControlStored_refused : node1.inReset = false ∧ (0x10070403 : Word).extractLsb' 16 8 < 8 ∧
    (0x00200403 : Word).extractLsb' 24 7 = 0 ∧ 72 < (0x49200403 : Word).extractLsb' 24 7 := by decide

/-- QUANTUM 8 and CR_THRESH 1; QUANTUM 255 and CR_THRESH 72. -/
theorem witness_LinkControlStored : node1.inReset = false ∧ (8 ≤ (0x01080403 : Word).extractLsb' 16 8 ∧
    (0x01080403 : Word).extractLsb' 24 7 ≠ 0 ∧
      (0x01080403 : Word).extractLsb' 24 7 ≤ 72 ∧ (0x01080403 : Word).getLsbD 7 = false) ∧
    (8 ≤ (0x48FF0483 : Word).extractLsb' 16 8 ∧ (0x48FF0483 : Word).extractLsb' 24 7 ≠ 0 ∧
      (0x48FF0483 : Word).extractLsb' 24 7 ≤ 72 ∧ (0x48FF0483 : Word).getLsbD 7 = true) := by decide

/-- Each word is accepted; ENABLE is bit 0. -/
theorem witness_LinkControlEnable : State.reset.inReset = false ∧ node1.inReset = false ∧
    (withL0 .hold).inReset = false ∧ (8 ≤ (0x01080402 : Word).extractLsb' 16 8 ∧
    (0x01080402 : Word).extractLsb' 24 7 ≠ 0 ∧
      (0x01080402 : Word).extractLsb' 24 7 ≤ 72) ∧
    ((0x01080403 : Word).getLsbD 0 = true ∧ (State.reset.link 0).ctrl.enable = false ∧ (State.reset.link 0).state = .off) ∧
    (node1.link 0).ctrl.enable = true ∧
    ((0x01080402 : Word).getLsbD 0 = false ∧ ((withL0 .hold).link 0).state ≠ .up) ∧ (node1.link 0).state = .up := by decide

/-- Node 1 with a message, a DONE entry at the head of the completion queue, and a drop captured. -/
def showing : State :=
  { (node1.setEntry 0 { ReqEntry.free 1 with state := .done, status := some .ok }).drop .stale .host Header.zero with
    cq := [0], inbound := [message] }

theorem witness_HostWords : (node1.inReset = false ∧ node1.inbound = [] ∧ node1.cq = [] ∧ node1.events.capture = none) ∧
    showing.inReset = false ∧ showing.inbound = message :: [] ∧ showing.cq = 0 :: [] ∧
    showing.events.capture = some ⟨.stale, .host, 0, 0, 0, 0, 0⟩ ∧ showing.entry 15 = ReqEntry.free 0 ∧
    showing.InboundLaw ∧ showing.JobLaw := by decide

/-- Full queues and 72 cells of credit. -/
theorem witness_LinkWords :
    let s := node1.modLink 0 (fun n => { n with tx := { n.tx with queues := ⟨full, full, full⟩ } });
    s.inReset = false ∧ (s.link 0).tx.shared = 72 ∧ (s.link 0).tx.CreditLaw ∧ (s.link 0).store.SharedLaw ∧
      (s.link 0).tx.QueueLaw ∧ (s.link 0).tx.StartedLaw := by decide

theorem witness_BadCommand : node1.inReset = false ∧ (Instr.badCommand 0).wellFormed = true ∧
    (Instr.badCommand 12).wellFormed = true ∧
    (Instr.badCommand 15).wellFormed = true := by decide

/-- Why a SUBMIT of `composing`'s header is refused, some of node 1 replaced and RESET not asserted. -/
def refusing (hdr : Word) (f : State → State) : Option ResultCode :=
  if (f (composing hdr 0)).inReset then none
  else (f (composing hdr 0)).refusal (composedHeader (f (composing hdr 0)).port.compose)

/-- Slot 5 held by a PST packet. -/
def held : Option Slot := some ⟨⟨0, 1, 2, 0, false, 0, 0, 4, false, 0⟩, [], 1, none⟩

/-- Each check of SUBMIT refuses somewhere: two free slots for a REQ, a table with no FREE entry, a full queue. -/
theorem witness_SubmitRefused : refusing 2 id = some .badField ∧ refusing 0x08000001 id = some .badDest ∧
    refusing 0x08000002 (fun s => { s with slots := #v[none, held, held, held, held, held, held, none] }) = some .noSlot ∧
    refusing 0x08000002 (fun s => { s with
      reqs := Vector.replicate 16 { ReqEntry.free 0 with state := .done } }) = some .tableFull ∧
    refusing 0x08000003 id = some .noRoute ∧ refusing 0x08008802 (fun s => s.setLink 0 (linkOf .hold 0)) = none ∧
    refusing 0x08008803 id = some .noRoute ∧ refusing 0x08000002 (fun s => s.setLink 1 (linkOf .hold 2)) = some .linkDown ∧
    refusing 0x08000002 (fun s => s.modLink 1 (fun n =>
      { n with tx := { n.tx with queues := ⟨full, [], []⟩ } })) = some .egressFull := by decide

theorem witness_SubmitRequest : (composing 0x08400002 0x50).inReset = false ∧
    (composing 0x08400002 0x50).refusal (composedHeader (composing 0x08400002 0x50).port.compose) =
      none ∧ (composedHeader (composing 0x08400002 0x50).port.compose).cls = 0 := by decide

/-- An RPY to node 0 with two free slots, and a PST MSG to group 2. -/
theorem witness_SubmitPacket : (composing 0x08008802 0).inReset = false ∧
    (refusing 0x08000400 (fun s => { s with slots := #v[none, held, held, held, held, held, held, none] }) = none ∧
      (composedHeader (composing 0x08000400 0).port.compose).cls = 1) ∧
    (refusing 0x08008802 id = none ∧ (composedHeader (composing 0x08008802 0).port.compose).cls = 2) := by decide

theorem witness_QueueHeadsRemoved : node1.inReset = false ∧ node1.inbound = [] ∧
    ({ node1 with inbound := [message] } : State).inbound = message :: [] ∧ node1.cq = [] ∧
    ({ node1 with cq := [0] } : State).cq = 0 :: [] := by decide

theorem witness_ReqCancel : node1.inReset = false ∧ waitingReply.inReset = false ∧ (sending true).inReset = false ∧
    (16 ≤ (16 : BitVec 5)) ∧ (15 : BitVec 5).toNat = (15 : ReqIx).val ∧
    (node1.entry 15).state = .free ∧ (waitingReply.entry 0).state = .sent ∧
    ((sending true).entry 0).state = .queued ∧ ((sending true).entry 0).slot = some 0 ∧
    (∃ e ∈ ((sending true).link ((sending true).entry 0).egress).tx.queue .req, e.source = .slot 0 ∧ e.started = true) := by
  decide

theorem witness_ReqCancel_withdrawn : (sending false).inReset = false ∧ ((sending false).entry 0).state = .queued ∧
    ((sending false).entry 0).slot = some 0 ∧
    (∀ e ∈ ((sending false).link ((sending false).entry 0).egress).tx.queue .req, e.source = .slot 0 → e.started = false) ∧
    ((sending false).slot 0).map Slot.copies = some 1 := by decide

theorem witness_LinkReset : node1.inReset = false ∧ (withL0 .hold).inReset = false ∧ (4 ≤ (4 : BitVec 5)) ∧
    (3 : BitVec 5).toNat = (3 : LinkId).val ∧
    (node1.link 3).ctrl.enable = false ∧ ((withL0 .hold).link 0).ctrl.enable = true ∧ ((withL0 .hold).link 0).state ≠ .up ∧
    (node1.link 0).ctrl.enable = true ∧ (node1.link 0).state = .up := by decide

theorem witness_SoftReset : node1.inReset = false := by decide

/-- Counter 7 is the last; a count one below its target, at it and beyond it. -/
theorem witness_SyncArmAndTake : (counting ⟨3, 3, false, true, false⟩).inReset = false ∧ (8 ≤ (8 : BitVec 5)) ∧
    (7 : BitVec 5).toNat = (7 : Fin 8).val ∧ (1 : BitVec 8) ≠ 0 ∧
    ((counting ⟨2, 3, true, false, false⟩).counter 5).count < ((counting ⟨2, 3, true, false, false⟩).counter 5).target ∧
    ((counting ⟨3, 3, false, true, false⟩).counter 5).target ≤ ((counting ⟨3, 3, false, true, false⟩).counter 5).count := by
  decide

theorem witness_SyncDisarmAndClear : node1.inReset = false ∧ (8 ≤ (8 : BitVec 5)) ∧
    (0 : BitVec 5).toNat = (0 : Fin 8).val := by decide

/-- The record filled, and left, by a drop. -/
theorem witness_DropClear : node1.inReset = false ∧ node1.events.capture = none ∧
    (node1.drop .stale .host Header.zero).events.capture = some ⟨.stale, .host, 0, 0, 0, 0, 0⟩ := by decide

theorem witness_DownLinkDiscards : State.reset.inReset = false ∧ (withL0 .hold).inReset = false ∧
    (withL0 .waitPeer).inReset = false ∧ (State.reset.link 0).state = .off ∧ ((withL0 .hold).link 0).state = .hold ∧
    ((withL0 .waitPeer).link 0).state = .waitPeer := by decide

theorem witness_Handshake : (withL0 .waitPeer).inReset = false ∧ ((withL0 .waitPeer).link 0).state = .waitPeer ∧
    (0 : NodeId) ≠ (withL0 .waitPeer).port.node := by
  decide

/-- Node 1 with L0 inside a packet of LEN 1. -/
def receiving : State := holding ⟨0, ⟨1, 0, 2, 0, false, 0, 1, 4, false, 0⟩, [], .shared, .inReception, 0⟩

/-- L0's store with the POOL 1 region of class REQ occupied. -/
def reservedHeld : State := holding { packet 1 0 0 4 .queued with region := .reserved }

/-- 71 shared cells await return: a header of LEN 1 is one cell too many. -/
def nearlyFull : State := node1.modLink 0 (fun n => { n with store := { n.store with awaitShared := 71 } })

theorem witness_LinkFaults : receiving.inReset = false ∧ node1.inReset = false ∧ (receiving.link 0).state = .up ∧
    (∃ p ∈ (receiving.link 0).store.packets, p.cond = .inReception) ∧ (node1.link 0).state = .up ∧
    (∀ p ∈ (node1.link 0).store.packets, p.cond ≠ .inReception) ∧ 72 < (node1.link 0).tx.shared + (1 : BitVec 7).toNat ∧
    (∃ c ∈ classes, (PerClass.all true).get c = true ∧ (node1.link 0).tx.reserved.get c = true) := by decide

/-- A header of LEN 1 and POOL 0, and one of a REQ with POOL 1. -/
theorem witness_LinkFaults_headers :
    (let h := Header.ofCell 0x0000040101020001;
      nearlyFull.inReset = false ∧ (nearlyFull.link 0).state = .up ∧
        (∀ p ∈ (nearlyFull.link 0).store.packets, p.cond ≠ .inReception) ∧ h.pool = false ∧
        72 < (nearlyFull.link 0).store.held + (nearlyFull.link 0).store.awaitShared + (1 + h.len.toNat)) ∧
    (let h := Header.ofCell 0x0000840001000001;
      reservedHeld.inReset = false ∧ (reservedHeld.link 0).state = .up ∧
        (∀ p ∈ (reservedHeld.link 0).store.packets, p.cond ≠ .inReception) ∧ h.pool = true ∧
        (reservedHeld.link 0).store.inRegion h.queueClass ≠ []) := by decide

/-- A count of 0 on full credit, and 72 with every reserved credit on none. -/
theorem witness_CreditAccepted : node1.inReset = false ∧ (∀ p ∈ (node1.link 0).store.packets, p.cond ≠ .inReception) ∧
    ((node1.link 0).state = .up ∧ (node1.link 0).tx.shared + (0 : BitVec 7).toNat ≤ 72 ∧
      (∀ c ∈ classes, (PerClass.all false).get c = true → (node1.link 0).tx.reserved.get c = false)) ∧
    (let n : Link := { node1.link 0 with tx := { (node1.link 0).tx with shared := 0, reserved := PerClass.all false } };
      n.state = .up ∧ n.tx.shared + (72 : BitVec 7).toNat ≤ 72 ∧
        ∀ c ∈ classes, (PerClass.all true).get c = true → n.tx.reserved.get c = false) := by decide

/-- A header of LEN 0 fills the last shared cell, and one of POOL 1 an empty region. -/
theorem witness_HeaderAdmitted : nearlyFull.inReset = false ∧ (nearlyFull.link 0).state = .up ∧
    (∀ p ∈ (nearlyFull.link 0).store.packets, p.cond ≠ .inReception) ∧
    (let h := Header.ofCell 0x0000040001020001;
      h.pool = false ∧ (nearlyFull.link 0).store.held + (nearlyFull.link 0).store.awaitShared + (1 + h.len.toNat) = 72) ∧
    (let h := Header.ofCell 0x0000840701020001;
      h.pool = true ∧ (nearlyFull.link 0).store.inRegion h.queueClass = [] ∧
        (nearlyFull.link 0).store.awaitRes.get h.queueClass = false) := by decide

theorem witness_HeaderAdmitted_data : receiving.inReset = false ∧ (receiving.link 0).state = .up ∧
    (receiving.link 0).store.packets =
      [] ++ (⟨0, ⟨1, 0, 2, 0, false, 0, 1, 4, false, 0⟩, [], .shared, .inReception, 0⟩ : StoredPacket) :: [] := by decide

theorem witness_HoldEnds : (withL0 .hold).inReset = false ∧ unitEnds.inReset = false ∧ node1.inReset = false ∧
    ((withL0 .hold).link 0).state = .hold ∧ ((withL0 .hold).link 0).store.packets = [] ∧
    ((withL0 .hold).link 0).holdTimer = none ∧ (unitEnds.link 0).state = .hold ∧ (unitEnds.link 0).store.packets = [] ∧
    (unitEnds.link 0).holdTimer ≠ none ∧ (node1.link 0).state ≠ .hold ∧ (node1.link 0).holdTimer = none := by decide

/-- L0 in HOLD with a zombie, its hold timer running. -/
def zombie : State :=
  ((holding (packet 2 0 0 4 .dispatched)).modLink 0 (fun n => { n with state := .hold, holdTimer := some 3 }))

theorem witness_HoldEnds_zombie : zombie.inReset = false ∧ (zombie.link 0).state = .hold ∧
    (zombie.link 0).store.packets ≠ [] ∧
    (zombie.link 0).holdTimer ≠ none := by decide

theorem witness_LinkTimersExpire : (withL0 .waitPeer).inReset = false ∧ node1.inReset = false ∧
    ((withL0 .waitPeer).link 0).state = .waitPeer ∧
    ((withL0 .waitPeer).link 0).initTimer ≠ none ∧ (node1.link 0).initTimer = none ∧ (node1.link 0).store.holdoff = none ∧
    ((node1.modLink 0 (fun n => { n with store := { n.store with holdoff := some 1 } })).link 0).store.holdoff ≠ none ∧
    ((node1.modLink 0 (fun n => { n with store := { n.store with elapsed := true } })).link 0).store.elapsed = true := by
  decide

theorem witness_LinkTimersExpire_request : waitingReply.inReset = false ∧ node1.inReset = false ∧
    (waitingReply.entry 0).state = .sent ∧ (waitingReply.entry 0).captured ≠ 0 ∧
    (node1.entry 0).state ≠ .sent ∧ (node1.entry 0).captured = 0 := by decide

/-- HOPS 2 is the least that is forwarded; 15 entries leave room for one, 16 for none. -/
theorem witness_DispatchForwards : (holding (packet 2 0 0 2 .queued)).inReset = false ∧
    (holding (packet 2 0 0 2 .queued)).forwards 0 .req (packet 2 0 0 2 .queued) 1 ∧
    (((holding (packet 2 0 0 2 .queued)).link 1).tx.queue .req).length < 16 ∧
    (List.replicate 15 (slotCopy false)).length < 16 := by decide

/-- `DispatchForwards` with a full queue. -/
theorem witness_DispatchForwards_waits : let s := (holding (packet 2 0 0 2 .queued)).modLink 1 (fun n =>
      { n with tx := { n.tx with queues := ⟨full, [], []⟩ } });
    s.inReset = false ∧ s.forwards 0 .req (packet 2 0 0 2 .queued) 1 ∧
    16 ≤ ((s.link 1).tx.queue .req).length := by decide

/-- Four jobs. -/
def fourJobs (s : State) : State := { s with jobs := [job, job, job, job] }

/-- A PST and a REQ of HOPS 1 to a link that is UP, a REQ to a node without a route, and the same with every job taken. -/
theorem witness_DispatchFailsRoute : (∀ p, (holding p).inReset = false ∧ (fourJobs (holding p)).inReset = false) ∧
    ((holding (packet 2 2 0 1 .queued)).failsRoute 0 .pst (packet 2 2 0 1 .queued) .hopLimit ∧
      (packet 2 2 0 1 .queued).hdr.cls ≠ 0) ∧
    ((holding (packet 3 0 0 4 .queued)).failsRoute 0 .req (packet 3 0 0 4 .queued) .noRoute ∧
      (holding (packet 3 0 0 4 .queued)).jobs.length < 4) ∧
    ((fourJobs (holding (packet 3 0 0 4 .queued))).failsRoute 0 .req (packet 3 0 0 4 .queued) .noRoute ∧
      4 ≤ (fourJobs (holding (packet 3 0 0 4 .queued))).jobs.length) := ⟨fun _ => ⟨rfl, rfl⟩, by decide⟩

/-- The queue takes the 32nd entry and no 33rd. -/
theorem witness_DispatchMessage : let s := holding (packet 1 2 0 4 .queued); let p := packet 1 2 0 4 .queued;
    (s.inReset = false ∧ s.localHead 0 .pst p ∧ p.hdr.cls ≠ 1 ∧ p.hdr.kind = 0 ∧ s.port.rxEnable = true) ∧
    ({ s with inbound := List.replicate 31 message } : State).inbound.length < 32 ∧
    ({ s with inbound := List.replicate 31 message } : State).inboundCells + p.hdr.len.toNat ≤ 112 ∧
    32 ≤ ({ s with inbound := List.replicate 32 message } : State).inbound.length := by decide

/-- Node 1 with RX_ENABLE clear. -/
def deaf (s : State) : State := { s with port := { s.port with rxEnable := false } }

theorem witness_DispatchAnswers : (∀ p, (holding p).inReset = false ∧ (deaf (holding p)).inReset = false ∧
      (fourJobs (holding p)).inReset = false) ∧
    ((deaf (holding (packet 1 2 0 4 .queued))).localHead 0 .pst (packet 1 2 0 4 .queued) ∧
      (deaf (holding (packet 1 2 0 4 .queued))).port.rxEnable = false) ∧
    (deaf (holding (packet 1 0 0 4 .queued))).localHead 0 .req (packet 1 0 0 4 .queued) ∧
    ((holding (packet 1 0 1 4 .queued)).localHead 0 .req (packet 1 0 1 4 .queued) ∧
      (holding (packet 1 0 1 4 .queued)).jobs.length < 4 ∧ (holding (packet 1 0 1 4 .queued)).inbound.length ≤ 32) ∧
    ((fourJobs (holding (packet 1 0 1 4 .queued))).localHead 0 .req (packet 1 0 1 4 .queued) ∧
      4 ≤ (fourJobs (holding (packet 1 0 1 4 .queued))).jobs.length) := ⟨fun _ => ⟨rfl, rfl, rfl⟩, by decide⟩

/-- A SIGNAL for counter 4. -/
theorem witness_DispatchSignal : (holding (packet 1 2 1 4 .queued)).inReset = false ∧
    (holding (packet 1 2 1 4 .queued)).localHead 0 .pst (packet 1 2 1 4 .queued) ∧
    (4 : Fin 8).val = (packet 1 2 1 4 .queued).hdr.tag.toNat % 8 := by decide

/-- A reply with TAG 4 reaches entry 4, which waits for node 0, or is FREE. -/
theorem witness_DispatchReply : (holding (packet 1 1 0 4 .queued)).inReset = false ∧
    (holding (packet 1 1 0 4 .queued)).localHead 0 .rpy (packet 1 1 0 4 .queued) ∧
    (4 : ReqIx).val = (packet 1 1 0 4 .queued).hdr.tag.toNat % 16 ∧
    ((holding (packet 1 1 0 4 .queued)).entry 4).state ≠ .sent ∧
    (let s := (holding (packet 1 1 0 4 .queued)).setEntry 4 { ReqEntry.free 0 with state := .sent, dest := 0 };
      s.inReset = false ∧ s.localHead 0 .rpy (packet 1 1 0 4 .queued) ∧ (s.entry 4).state = .sent ∧
      (s.entry 4).gen.toNat = (packet 1 1 0 4 .queued).hdr.tag.toNat / 16 ∧
      (s.entry 4).dest = (packet 1 1 0 4 .queued).hdr.src) := by decide

/-- CLASS 3; a group head of a group that is not enabled. -/
theorem witness_DispatchMalformed :
    ((holding (packet 1 3 0 4 .queued)).inReset = false ∧
    (holding (packet 1 3 0 4 .queued)).ingressHead 0 .pst = some (packet 1 3 0 4 .queued) ∧
      (packet 1 3 0 4 .queued).hdr.cls = 3) ∧
    (let p : StoredPacket := ⟨0, ⟨7, 0, 2, 0, true, 4, 0, 4, false, 0⟩, [], .shared, .queued, 1⟩;
      (holding p).inReset = false ∧ (holding p).ingressHead 0 .pst = some p ∧ p.hdr.malformed = false ∧
      p.hdr.grp = true ∧
        ((holding p).groupOf p.hdr).enable = false) := by decide

/-- A PST MSG to group 2, of which L0, L1 and node 1 are members, that arrived on L0: a copy on L1 and a message. -/
def groupHead : StoredPacket := ⟨0, ⟨2, 0, 2, 0, true, 4, 0, 2, false, 0⟩, [], .shared, .queued, 1⟩

theorem witness_DispatchGroup : (holding groupHead).inReset = false ∧
    (holding groupHead).ingressHead 0 .pst = some groupHead ∧ groupHead.hdr.malformed = false ∧
    groupHead.hdr.grp = true ∧ ((holding groupHead).groupOf groupHead.hdr).enable = true ∧
    [1] = (if groupHead.hdr.hops ≤ 1 then [] else linkIds.filter (fun m : LinkId =>
      ((holding groupHead).groupOf groupHead.hdr).mask.getLsbD m && (holding groupHead).isUp m && decide (m ≠ 0))) ∧
    true = (((holding groupHead).groupOf groupHead.hdr).member && decide (groupHead.hdr.kind = 0) &&
      (holding groupHead).port.rxEnable) ∧
    (∀ m ∈ [(1 : LinkId)], (((holding groupHead).link m).tx.queue .pst).length < 16) ∧
    (holding groupHead).inbound.length < 32 ∧ (holding groupHead).inboundCells + groupHead.hdr.len.toNat ≤ 112 ∧
    32 ≤ ({ holding groupHead with inbound := List.replicate 32 message } : State).inbound.length := by decide

/-- A job for node 0 over L0, one for node 1 itself, one without a route, one over a link that is not UP, a full queue. -/
theorem witness_ResponderDispatch : let s : State := { node1 with jobs := [job] };
    (s.inReset = false ∧ s.jobHead = some job ∧ (s.routeFor job.requester).action = .toLink ∧
    job.requester ≠ s.port.node ∧
      (s.link (s.routeFor job.requester).link).state = .up ∧
      ((s.link (s.routeFor job.requester).link).tx.queue .rpy).length < 16) ∧
    ({ job with requester := 1 } : Job).requester = s.port.node ∧ (s.routeFor 3).action = .discard ∧
    ((s.setLink 0 (linkOf .hold 0)).link 0).state ≠ .up ∧
    16 ≤ (((s.modLink 0 (fun n => { n with tx := { n.tx with queues := ⟨[], full, []⟩ } })).link 0).tx.queue .rpy).length := by
  decide

theorem witness_SchedulerDecides : ((sending false).link 1).tx.choose 32 = some (.req, 0) := by decide

/-- The shared credit covers the copy, or only the reserved credit does. -/
theorem witness_TransmissionStart : ((sending false).inReset = false ∧ ((sending false).link 1).state = .up ∧
    ((sending false).link 1).tx.busy = false ∧
      ((sending false).link 1).creditDue = false ∧
      ((sending false).link 1).tx.choose ((sending false).link 1).ctrl.quantum = some (.req, 0) ∧
      ((sending false).link 1).tx.queue .req = slotCopy false :: []) ∧
    (({ (sending false).link 1 with tx := { ((sending false).link 1).tx with shared := 0 } } : Link).tx.choose 32 =
      some (.req, 0)) := by decide

theorem witness_CreditCellSent : let s := node1.modLink 0 (fun n => { n with store := { n.store with awaitShared := 16 } });
    s.inReset = false ∧ (s.link 0).state = .up ∧ (s.link 0).tx.busy = false ∧ (s.link 0).creditDue = true ∧
      (s.link 0).tx.choose (s.link 0).ctrl.quantum = none := by decide

/-- The same with a head that starts behind the CREDIT cell. -/
theorem witness_CreditCellSent_start :
    let s := (sending false).modLink 1 (fun n => { n with store := { n.store with awaitShared := 16 } });
    s.inReset = false ∧ (s.link 1).state = .up ∧ (s.link 1).tx.busy = false ∧ (s.link 1).creditDue = true ∧
      (s.link 1).tx.choose (s.link 1).ctrl.quantum = some (.req, 0) ∧ (s.link 1).tx.queue .req = slotCopy false :: [] := by
  decide

/-- A REQ of the host in transmission with its entry in QUEUED. -/
theorem witness_TransmissionCompletes : (sending true).inReset = false ∧
    (after (.reqCancel 0) (sending true)).inReset = false ∧ ((sending true).link 1).tx.StartedLaw ∧
    ((sending true).link 1).tx.queue .req = slotCopy true :: [] ∧ (slotCopy true).started = true ∧
    (slotCopy true).source = .slot 0 ∧ ((sending true).slot 0).map Slot.req = some (some 0) ∧
    ((sending true).slot 0).map Slot.copies = some 1 ∧ ((sending true).entry 0).state = .queued ∧
    ((sending true).entry 0).cancelPending = false ∧ ((after (.reqCancel 0) (sending true)).entry 0).cancelPending = true ∧
    ((after (.reqCancel 0) (sending true)).entry 0).state = .queued := by decide

/-- Copies of a stored packet and of a job, and a group's slot with a copy to go, in transmission. -/
theorem witness_TransmissionCompletes_sources : node1.inReset = false ∧
    (let e : EgressEntry := ⟨.store 1 0, .pst, 1, 3, false, true⟩;
      (⟨⟨[], [], [e]⟩, 72, PerClass.all true, .pst, 1⟩ : Transmitter).StartedLaw ∧ e.source = .store 1 0) ∧
    (let e : EgressEntry := ⟨.job 7, .rpy, 1, 3, false, true⟩;
      (⟨⟨[], [e], []⟩, 72, PerClass.all true, .rpy, 1⟩ : Transmitter).StartedLaw ∧ e.source = .job 7) ∧
    (⟨Header.zero, [], 2, none⟩ : Slot).req = none ∧ 1 < (⟨Header.zero, [], 2, none⟩ : Slot).copies := by decide

/-- A packet with two copies, and with one, in a store on a link that is UP, nothing awaiting return, or 71 cells, with
CR_HOLDOFF 0 and not; and on a link in HOLD. -/
theorem witness_CopyEnds : let p := { packet 2 0 0 4 .dispatched with copies := 2 }; let q := packet 2 0 0 4 .dispatched;
    (((holding p).link 0).store.packet 0 = some p ∧ 1 < p.copies) ∧
    (((holding q).link 0).store.packet 0 = some q ∧ q.copies ≤ 1 ∧ ((holding q).link 0).state = .up ∧
      ((holding q).link 0).store.awaitShared = 0 ∧ ((holding q).link 0).store.awaitRes = ⟨false, false, false⟩ ∧
      ((holding q).link 0).ctrl.crHoldoff ≠ 0 ∧ (LinkCtrl.written ((holding q).link 0).ctrl 0x10200083).crHoldoff = 0) ∧
    ((zombie.link 0).store.packet 0 = some q ∧ (zombie.link 0).state ≠ .up) ∧
    ¬((nearlyFull.link 0).store.awaitShared = 0 ∧ (nearlyFull.link 0).store.awaitRes = ⟨false, false, false⟩) := by decide

/-- The REQ of `sending` in transmission, its completion waiting in the queue. -/
def completing : State := { sending true with pending := [.transmissionCompletion 1] }

theorem witness_StoreLawKept : (∀ l, (completing.link l).store.Lawful) ∧ ∃ t, step completing = .next t :=
  ⟨by decide, _, rfl⟩

theorem witness_LinkLawKept : (∀ l, (completing.link l).DownLaw ∧ (completing.link l).WaitLaw ∧ (completing.link l).TimerLaw) ∧
    ∃ t, step completing = .next t := ⟨by decide, _, rfl⟩

theorem witness_TransmitterLawKept : (∀ l, (completing.link l).tx.CreditLaw ∧ (completing.link l).tx.QueueLaw) ∧
    ∃ t, step completing = .next t := ⟨by decide, _, rfl⟩

theorem witness_SchedulerLawKept : (∀ l, (completing.link l).DownLaw ∧ (completing.link l).WaitLaw) ∧
    (∀ l, (completing.link l).tx.StartedLaw ∧ (completing.link l).tx.EntryLaw ∧ (completing.link l).tx.RunLaw) ∧
    ∃ t, step completing = .next t := ⟨by decide, by decide, _, rfl⟩

theorem witness_HostLawsKept : completing.InboundLaw ∧ completing.JobLaw ∧ completing.SlotLaw ∧
    (∀ k, (completing.counter k).Lawful) ∧ completing.ConfigLaw ∧ ∃ t, step completing = .next t :=
  ⟨by decide, by decide, by decide, by decide, by decide, _, rfl⟩

theorem witness_CompletionLawKept : completing.CompletionLaw ∧ (∃ t, step completing = .next t) ∧
    (∀ c ∈ completing.pending.head?, c.wellFormed = true ∧ c ≠ .cqRelease ∧ c ≠ .softReset ∧ c ≠ .powerOnReset) ∧
    completing.inReset = false ∧ ({ completing with pending := [.cqRelease] } : State).pending.head? = some .cqRelease ∧
    ({ completing with pending := [.softReset] } : State).pending.head? = some .softReset ∧
    ({ completing with pending := [.powerOnReset] } : State).pending.head? = some .powerOnReset :=
  ⟨by decide, ⟨_, rfl⟩, by decide, rfl, rfl, rfl, rfl⟩

theorem witness_CopyCountsKept : completing.CopiesLaw ∧ completing.CompletionLaw ∧ ∃ t, step completing = .next t :=
  ⟨⟨by decide, by decide, by decide, by decide, by decide, by decide⟩, by decide, _, rfl⟩

theorem witness_NothingLeftWaiting : completing.ConfigLaw ∧ (∀ l, (completing.link l).DownLaw) ∧ completing.Settled ∧
    ∃ t, step completing = .next t := ⟨by decide, by decide, by decide, _, rfl⟩

theorem witness_UpByHandshakeAlone :
    let s : State := { withL0 .waitPeer with pending := [.initReceived 0 0 true] };
    step s = .next (after (.initReceived 0 0 true) (withL0 .waitPeer)) ∧ (s.link 0).state ≠ .up ∧
      ((after (.initReceived 0 0 true) (withL0 .waitPeer)).link 0).state = .up := ⟨rfl, by decide, by decide⟩

theorem witness_GenerationAdvances :
    let s : State := { node1.setEntry 0 { ReqEntry.free 3 with state := .done } with cq := [0], pending := [.cqRelease] };
    s.CompletionLaw ∧ (∃ t, step s = .next t) ∧ s.pending.head? ≠ some .powerOnReset :=
  ⟨by decide, ⟨_, rfl⟩, by decide⟩

/-- DROP_CLEAR at the front of the queue, and the queue empty. -/
theorem witness_EventsStayLatched :
    (let s : State := { node1 with pending := [.dropClear] };
      (∃ t, step s = .next t) ∧ ∀ c ∈ s.pending.head?, c.wellFormed = true ∧ (∀ w, c ≠ .eventWrite w) ∧ c ≠ .softReset ∧
        c ≠ .powerOnReset) ∧ (∃ t, step node1 = .next t) ∧ node1.pending.head? = none :=
  ⟨⟨⟨_, rfl⟩, by simp [Instr.wellFormed]⟩, ⟨_, rfl⟩, rfl⟩

end Sys2Proof.Tests
end

section
/-! SUPPORT. The rows of link bring-up and teardown on a released part, and what each of their events does to the link
and leaves alone (R18–R27). -/

namespace Sys2Proof.Machine

/-! ### The rows while RESET is released (R176) -/

section Rows

variable {s : State} (h : s.inReset = false) (l : LinkId)
include h

theorem exec_linkReset (n : BitVec 5) : exec (.linkReset n) s = .next (s.linkReset n) :=
  congrArg _ (State.unlessReset_of_released _ h)

theorem exec_packetCellWhileNotUp (c : Cell) : exec (.packetCellWhileNotUp l c) s = .next (s.packetCell l c) :=
  congrArg _ (State.unlessReset_of_released _ h)

theorem exec_headerCellArrival (c : Cell) : exec (.headerCellArrival l c) s = .next (s.packetCell l c) :=
  congrArg _ (State.unlessReset_of_released _ h)

theorem exec_dataCellArrival (c : Cell) : exec (.dataCellArrival l c) s = .next (s.packetCell l c) :=
  congrArg _ (State.unlessReset_of_released _ h)

theorem exec_initReceived (node : NodeId) (seen : Bool) :
    exec (.initReceived l node seen) s = .next (s.initReceived l node seen) :=
  congrArg _ (State.unlessReset_of_released _ h)

theorem exec_creditReceived (count : BitVec 7) (res : PerClass Bool) :
    exec (.creditReceived l count res) s = .next (s.creditReceived l count res) :=
  congrArg _ (State.unlessReset_of_released _ h)

theorem exec_teardownCellReceived : exec (.teardownCellReceived l) s = .next (s.teardownReceived l) :=
  congrArg _ (State.unlessReset_of_released _ h)

theorem exec_unknownControlCell : exec (.unknownControlCell l) s = .next (s.unknownControl l) :=
  congrArg _ (State.unlessReset_of_released _ h)

theorem exec_badCell : exec (.badCell l) s = .next (s.badCell l) :=
  congrArg _ (State.unlessReset_of_released _ h)

theorem exec_carrierLoss : exec (.carrierLoss l) s = .next (s.carrierLoss l) :=
  congrArg _ (State.unlessReset_of_released _ h)

end Rows

/-! ### Cells on a link that is not UP (R19, R21, R26) -/

section Silent

variable {s : State} {l : LinkId} (h : (s.link l).state = .off ∨ (s.link l).state = .hold)
include h

theorem State.packetCell_of_silent (c : Cell) : s.packetCell l c = s := by
  rcases h with h | h <;> simp [State.packetCell, h]

theorem State.initReceived_of_silent (node : NodeId) (seen : Bool) : s.initReceived l node seen = s := by
  rcases h with h | h <;> simp [State.initReceived, h]

theorem State.creditReceived_of_silent (count : BitVec 7) (res : PerClass Bool) : s.creditReceived l count res = s := by
  rcases h with h | h <;> simp [State.creditReceived, h]

theorem State.badCell_of_silent : s.badCell l = s := by
  rcases h with h | h <;> simp [State.badCell, h]

theorem State.not_up_of_silent : (s.link l).state ≠ .up := by
  rcases h with h | h <;> simp [h]

end Silent

section NotUp

variable {s : State} {l : LinkId} (h : (s.link l).state ≠ .up)
include h

theorem State.teardownReceived_of_not_up : s.teardownReceived l = s := if_neg h

theorem State.unknownControl_of_not_up : s.unknownControl l = s := if_neg h

theorem State.carrierLoss_of_not_up : s.carrierLoss l = s := if_neg h

end NotUp

section WaitPeer

variable {s : State} {l : LinkId} (h : (s.link l).state = .waitPeer)
include h

theorem State.packetCell_of_waitPeer (c : Cell) : s.packetCell l c = s.clearSeen l := by
  simp [State.packetCell, h]

theorem State.creditReceived_of_waitPeer (count : BitVec 7) (res : PerClass Bool) :
    s.creditReceived l count res = s.clearSeen l := by
  simp [State.creditReceived, h]

theorem State.badCell_of_waitPeer : s.badCell l = s.clearSeen l := by
  simp [State.badCell, h]

theorem State.initReceived_ownId (seen : Bool) : s.initReceived l s.port.node seen =
    settle ((s.setLink l { s.link l with peer := s.port.node }).teardown l .sameId) := by
  simp [State.initReceived, h, State.initInWaitPeer, State.modLink]

theorem State.initReceived_unheard {node : NodeId} (hn : node ≠ s.port.node) :
    s.initReceived l node false = s.answerInit l node := by
  simp [State.initReceived, h, State.initInWaitPeer, hn]

theorem State.initReceived_heard {node : NodeId} (hn : node ≠ s.port.node) :
    s.initReceived l node true = settle (s.comeUp l node) := by
  simp [State.initReceived, h, State.initInWaitPeer, hn]

end WaitPeer

/-! ### The two answers of the handshake (R23, R24, R27) -/

theorem State.answerInit_link (s : State) (l m : LinkId) (node : NodeId) : (s.answerInit l node).link m =
    if m = l then { s.link m with peer := node, seen := true, initTimer := some Config.initInterval } else s.link m := by
  rw [State.answerInit, State.sendInit, State.send_link, State.link_modLink]

theorem State.answerInit_sent (s : State) (l m : LinkId) (node : NodeId) : (s.answerInit l node).sent m =
    if m = l then s.sent m ++ [⟨true, initCell s.port.node true⟩] else s.sent m :=
  State.sent_send _ l m _

theorem State.answerInit_frame (s : State) (l : LinkId) (node : NodeId) :
    { s.answerInit l node with links := s.links, lane := s.lane } = s := rfl

theorem State.comeUp_sent (s : State) (l m : LinkId) (node : NodeId) : (s.comeUp l node).sent m =
    if m = l then s.sent m ++ (if (s.link l).seen then [] else [⟨true, initCell s.port.node true⟩]) else s.sent m := by
  unfold State.comeUp
  split <;> simp [State.sendInit, State.sent_send]

theorem State.comeUp_events (s : State) (l : LinkId) (node : NodeId) :
    (s.comeUp l node).events = s.events.latched .link := by
  unfold State.comeUp
  split <;> rfl

theorem State.comeUp_frame (s : State) (l : LinkId) (node : NodeId) :
    { s.comeUp l node with links := s.links, lane := s.lane, events := s.events } = s := by
  unfold State.comeUp
  split <;> rfl

/-! ### LINK_RESET (R18) -/

theorem linkOperand_eq_none {n : BitVec 5} (h : 4 ≤ n) : linkOperand n = none :=
  dif_neg (by bv_omega)

theorem linkOperand_eq_some {n : BitVec 5} {l : LinkId} (h : n.toNat = l.val) : linkOperand n = some l := by
  simp [linkOperand, h]

theorem State.linkReset_badField {s : State} {n : BitVec 5} (h : 4 ≤ n) : s.linkReset n = s.setResult 5 .badField := by
  simp [State.linkReset, linkOperand_eq_none h]

theorem State.linkReset_of_operand {s : State} {n : BitVec 5} {l : LinkId} (h : n.toNat = l.val) : s.linkReset n =
    if (s.link l).ctrl.enable then settle ((s.restartLink l).setResult 5 .ok) else s.setResult 5 .notActive := by
  simp [State.linkReset, linkOperand_eq_some h]

theorem State.restartLink_of_up {s : State} {l : LinkId} (h : (s.link l).state = .up) :
    s.restartLink l = s.teardown l .hostReset := if_pos h

theorem State.restartLink_of_not_up {s : State} {l : LinkId} (h : (s.link l).state ≠ .up) :
    s.restartLink l = s.setLink l (s.link l).enterHold := if_neg h

end Sys2Proof.Machine
end

section
/-! The statements on link bring-up and teardown (spec 02). -/

namespace Sys2Proof.Machine

/-- Settles O23, by the cases of R18: the operand, ENABLE and whether the link is UP. -/
theorem linkReset : Obligations.LinkReset := by
  unfold Obligations.LinkReset
  refine ⟨fun n s hs hn => ?_, fun n l s hs hn => ?_⟩
  · rw [exec_linkReset hs, State.linkReset_badField hn]; rfl
  rw [exec_linkReset hs, State.linkReset_of_operand hn]
  refine ⟨fun he => ?_, fun he hu => ?_, fun he hu => ?_⟩
  · rw [he]; rfl
  · rw [if_pos he, State.restartLink_of_not_up hu]
    exact ⟨_, rfl, settle_endsAs _⟩
  · rw [if_pos he, State.restartLink_of_up hu]
    have torn := s.teardown_tornDown l .hostReset
    refine ⟨_, _, rfl, torn, ?_⟩
    rw [← torn.port]
    exact settle_endsAs _

/-- Settles O29: an INIT of another node is answered or brings the link UP, and one with the own ID ends in a teardown
whose OFF the rest of the event keeps, since that moves a link out of HOLD alone. -/
theorem handshake : Obligations.Handshake := by
  unfold Obligations.Handshake
  refine ⟨fun s l node hs hw hn => ⟨?_, ?_⟩, fun s l seen hs hw => ?_⟩
  · rw [exec_initReceived hs, State.initReceived_unheard hw hn]
    refine ⟨_, rfl, ?_, fun m hm => ?_, ?_, fun m hm => ?_, s.answerInit_frame l node⟩
    · rw [State.answerInit_link, if_pos rfl]; rfl
    · rw [State.answerInit_link, if_neg hm]
    · rw [State.answerInit_sent, if_pos rfl]
    · rw [State.answerInit_sent, if_neg hm]
  · rw [exec_initReceived hs, State.initReceived_heard hw hn]
    refine ⟨_, _, rfl, settle_endsAs _, ?_, fun m hm => ?_, ?_, fun m hm => ?_, s.comeUp_events l node,
      s.comeUp_frame l node⟩
    · rw [State.comeUp_link, if_pos rfl]; rfl
    · rw [State.comeUp_link, if_neg hm]
    · rw [State.comeUp_sent, if_pos rfl]
    · rw [State.comeUp_sent, if_neg hm]
  · rw [exec_initReceived hs, State.initReceived_ownId hw]
    have torn := (s.setLink l { s.link l with peer := s.port.node }).teardown_tornDown l .sameId
    obtain ⟨after, settled⟩ := settle_endsAs ((s.setLink l { s.link l with peer := s.port.node }).teardown l .sameId)
    obtain ⟨-, hpeer, -, -⟩ := torn.kept
    have hoff := torn.state
    rw [if_pos (.inr rfl)] at hoff
    refine ⟨_, _, rfl, torn, ⟨after, settled⟩, ?_, ?_, ?_⟩
    · rcases after.state l with h | ⟨h, -⟩
      · exact h.trans hoff
      · cases hoff.symm.trans h
    · rw [after.peer, hpeer, State.link_setLink_self]
    · rw [after.cause, torn.cause]

/-- Settles O28: the table of R26 row by row, and the silence of OFF and HOLD. -/
theorem downLinkDiscards : Obligations.DownLinkDiscards := by
  unfold Obligations.DownLinkDiscards
  refine ⟨fun s l hs h => ?_, fun s l hs h => ?_⟩
  · have hup := State.not_up_of_silent h
    refine ⟨fun cell => ?_, fun node seen => ?_, fun count res => ?_, ?_, ?_, ?_, ?_⟩
    · rw [exec_packetCellWhileNotUp hs, exec_headerCellArrival hs, exec_dataCellArrival hs, State.packetCell_of_silent h]
      exact ⟨rfl, rfl, rfl⟩
    · rw [exec_initReceived hs, State.initReceived_of_silent h]
    · rw [exec_creditReceived hs, State.creditReceived_of_silent h]
    · rw [exec_teardownCellReceived hs, State.teardownReceived_of_not_up hup]
    · rw [exec_unknownControlCell hs, State.unknownControl_of_not_up hup]
    · rw [exec_badCell hs, State.badCell_of_silent h]
    · rw [exec_carrierLoss hs, State.carrierLoss_of_not_up hup]
  · have hup : (s.link l).state ≠ .up := by simp [h]
    refine ⟨fun cell => ?_, fun count res => ?_, ?_, ?_, ?_, ?_⟩
    · rw [exec_packetCellWhileNotUp hs, State.packetCell_of_waitPeer h]
      exact ⟨_, rfl, rfl⟩
    · rw [exec_creditReceived hs, State.creditReceived_of_waitPeer h]
      exact ⟨_, rfl, rfl⟩
    · rw [exec_badCell hs, State.badCell_of_waitPeer h]
      exact ⟨_, rfl, rfl⟩
    · rw [exec_teardownCellReceived hs, State.teardownReceived_of_not_up hup]
    · rw [exec_unknownControlCell hs, State.unknownControl_of_not_up hup]
    · rw [exec_carrierLoss hs, State.carrierLoss_of_not_up hup]

end Sys2Proof.Machine
end

section
/-! SUPPORT. The receive store as an account: what is held of the shared cells or of a reserved region, and what of it
awaits return (R36, R37, R40, R46). -/

namespace Sys2Proof.Machine

/-! ### The account of a receive store (R36, R37) -/

/-- The four spaces a store's packets lie in: the shared cells, and the reserved region of each class. -/
inductive Space where
  | shared
  | reserved (c : Class)

/-- How much of a space there is: 72 cells, and room for one packet. -/
def Space.limit : Space → Nat
  | .shared => Config.sharedCells
  | .reserved _ => 1

/-- What a stored packet takes of a space. -/
def StoredPacket.takes (p : StoredPacket) : Space → Nat
  | .shared => if p.region = .shared then p.cells else 0
  | .reserved c => if p.region = .reserved ∧ p.cls = c then 1 else 0

/-- What of a space is held by the packets of a store. -/
def Store.heldOf (k : Store) (x : Space) : Nat := (k.packets.map (·.takes x)).sum

/-- What of a space awaits return. -/
def Store.owed (k : Store) : Space → Nat
  | .shared => k.awaitShared
  | .reserved c => (k.awaitRes.get c).toNat

theorem Store.heldOf_shared (k : Store) : k.heldOf .shared = k.held := by
  unfold Store.heldOf Store.held
  induction k.packets with
  | nil => rfl
  | cons p ps ih =>
    rw [List.map_cons, List.sum_cons, ih]
    by_cases h : p.region = .shared <;> simp [StoredPacket.takes, h]

theorem Store.heldOf_reserved (k : Store) (c : Class) : k.heldOf (.reserved c) = (k.inRegion c).length := by
  unfold Store.heldOf Store.inRegion
  induction k.packets with
  | nil => rfl
  | cons p ps ih =>
    rw [List.map_cons, List.sum_cons, ih]
    by_cases h : p.region = .reserved ∧ p.cls = c <;> simp [StoredPacket.takes, h, Nat.add_comm]

theorem Store.regionLaw_iff (k : Store) (c : Class) :
    k.RegionLaw c ↔ (k.inRegion c).length + (k.awaitRes.get c).toNat ≤ 1 := by
  rw [Store.RegionLaw, ← List.length_eq_zero_iff]
  cases k.awaitRes.get c with
  | false => simp
  | true => simp only [Bool.toNat_true, forall_const]; omega

/-- The law of R36 and R37: of no space is more held and awaiting return than there is. -/
theorem Store.lawful_iff (k : Store) : k.Lawful ↔ ∀ x : Space, k.heldOf x + k.owed x ≤ x.limit := by
  have hshared : k.SharedLaw ↔ k.heldOf .shared + k.owed .shared ≤ Space.shared.limit := by
    rw [Store.heldOf_shared]; rfl
  have hregion (c : Class) : k.RegionLaw c ↔ k.heldOf (.reserved c) + k.owed (.reserved c) ≤ (Space.reserved c).limit := by
    rw [Store.regionLaw_iff, Store.heldOf_reserved]; rfl
  rw [Store.Lawful, hshared, hregion, hregion, hregion]
  constructor
  · rintro ⟨h, hreq, hrpy, hpst⟩ (_ | (_ | _ | _))
    exacts [h, hreq, hrpy, hpst]
  · exact fun h => ⟨h _, h _, h _, h _⟩

/-! ### What frees space, and what moves it from held to awaiting return (R41, R44–R47) -/

/-- Of no space is more held or awaiting return in `k'` than in `k`. -/
def Store.UsesNoMore (k' k : Store) : Prop := ∀ x, k'.heldOf x + k'.owed x ≤ k.heldOf x + k.owed x

theorem Store.UsesNoMore.refl (k : Store) : k.UsesNoMore k := fun _ => Nat.le_refl _

theorem Store.UsesNoMore.lawful {k k' : Store} (h : k'.UsesNoMore k) (hk : k.Lawful) : k'.Lawful :=
  k'.lawful_iff.2 fun x => (h x).trans (k.lawful_iff.1 hk x)

theorem StoredPacket.takes_of_space {p q : StoredPacket} (h : q.space = p.space) (x : Space) : q.takes x = p.takes x := by
  obtain ⟨hregion, hhdr⟩ := Prod.mk.inj h
  obtain ⟨⟩ := p
  obtain ⟨⟩ := q
  cases hregion
  cases hhdr
  cases x <;> rfl

theorem Store.heldOf_le_of_sublist {k k' : Store} (h : k'.packets.Sublist k.packets) (x : Space) :
    k'.heldOf x ≤ k.heldOf x :=
  (h.map (StoredPacket.takes · x)).sum_le_sum fun _ _ => Nat.zero_le _

/-- What changes no packet's region and header changes no use. -/
theorem Store.UsesNoMore.map (k : Store) {f : StoredPacket → StoredPacket} (hf : ∀ p, (f p).space = p.space) :
    Store.UsesNoMore { k with packets := k.packets.map f } k := by
  intro x
  have hheld : Store.heldOf { k with packets := k.packets.map f } x = k.heldOf x := by
    simp only [Store.heldOf, List.map_map]
    exact congrArg List.sum (List.map_congr_left fun p _ => StoredPacket.takes_of_space (hf p) x)
  exact Nat.le_of_eq (congrArg (· + k.owed x) hheld)

theorem StoredPacket.withCell_space (p : StoredPacket) (c : Cell) : (p.withCell c).space = p.space := by
  unfold StoredPacket.withCell
  split <;> rfl

theorem Store.takeCell_usesNoMore (k : Store) (c : Cell) : (k.takeCell c).UsesNoMore k :=
  .map k fun p => by
    split
    · exact p.withCell_space c
    · rfl

theorem Store.modPacket_usesNoMore (k : Store) (id : Nat) {f : StoredPacket → StoredPacket}
    (hf : ∀ p, (f p).space = p.space) : (k.modPacket id f).UsesNoMore k :=
  .map k fun p => by
    split
    · exact hf p
    · rfl

theorem Store.owed_clearReturn (k : Store) (x : Space) : k.clearReturn.owed x = 0 := by
  cases x <;> simp [Store.owed, Store.clearReturn]

theorem Store.clearReturn_usesNoMore (k : Store) : k.clearReturn.UsesNoMore k := fun x => by
  rw [k.owed_clearReturn]
  exact Nat.add_le_add_left (Nat.zero_le _) _

/-- A teardown keeps some of the packets, and nothing awaits return (R29). -/
theorem Store.torn_usesNoMore (k : Store) : k.torn.UsesNoMore k := fun x => by
  have howed : k.torn.owed x = 0 := k.owed_clearReturn x
  have hheld : k.torn.heldOf x ≤ k.heldOf x := Store.heldOf_le_of_sublist List.filter_sublist x
  omega

/-- The packets that stay after a removal, with the removed one, were all there before. -/
theorem Store.heldOf_remove {k : Store} {p : StoredPacket} {id : Nat} (hp : k.packet id = some p) (x : Space) :
    (k.remove id).heldOf x + p.takes x ≤ k.heldOf x := by
  have hmem : p ∈ k.packets := List.mem_of_find?_eq_some hp
  have hid : p.id = id := by simpa using List.find?_some hp
  obtain ⟨qs, hperm, hsub⟩ : (p :: (k.remove id).packets).Subperm k.packets :=
    List.cons_subperm_of_not_mem_of_mem (by simp [Store.remove, hid]) hmem List.filter_sublist.subperm
  have hsum := (hsub.map (StoredPacket.takes · x)).sum_le_sum fun _ _ => Nat.zero_le _
  rwa [(hperm.map (StoredPacket.takes · x)).sum_eq, List.map_cons, List.sum_cons, Nat.add_comm] at hsum

/-- A release makes no more await return than the packet took (R46, R47, R52). -/
theorem Released.owed_le {up : Bool} {d : BitVec 8} {p : StoredPacket} {k k' : Store} (h : Released up d [p] k k')
    (x : Space) : k'.owed x ≤ k.owed x + p.takes x := by
  cases x with
  | shared =>
    simp only [Store.owed, StoredPacket.takes, h.shared]
    cases up <;> by_cases hr : p.region = .shared <;> simp [hr, StoredPacket.cells, Header.cells]
  | reserved c =>
    by_cases hr : p.region = .reserved ∧ p.cls = c
    · have hbit : (k'.awaitRes.get c).toNat ≤ 1 := Bool.toNat_le _
      simp only [Store.owed, StoredPacket.takes, if_pos hr]
      omega
    · have hsame : k'.awaitRes.get c = k.awaitRes.get c := by
        rw [h.reserved]
        simpa using fun _ hregion hcls => absurd ⟨hregion, hcls⟩ hr
      simp [Store.owed, hsame]

/-- The space of a released packet awaits return or is free (R46, R52). -/
theorem Link.release_usesNoMore (n : Link) (id : Nat) : (n.release id).store.UsesNoMore n.store := by
  rcases hp : n.store.packet id with _ | p
  · have hsame : n.release id = n := by unfold Link.release; rw [hp]
    rw [hsame]; exact .refl _
  · intro x
    have hheld : (n.release id).store.heldOf x = (n.store.remove id).heldOf x := by
      simp only [Store.heldOf, Link.release_packets]; rfl
    have hremove := Store.heldOf_remove hp x
    have howed := (Link.release_released hp).owed_le x
    omega

theorem Link.endCopy_usesNoMore (n : Link) (id : Nat) : (n.endCopy id).store.UsesNoMore n.store := by
  unfold Link.endCopy
  split
  · exact .refl _
  · split
    · exact n.release_usesNoMore id
    · exact n.store.modPacket_usesNoMore id fun _ => rfl

theorem Link.dispatched_usesNoMore (n : Link) (id copies : Nat) : (n.dispatched id copies).store.UsesNoMore n.store := by
  unfold Link.dispatched
  split
  · exact n.release_usesNoMore id
  · exact n.store.modPacket_usesNoMore id fun _ => rfl

theorem Link.moveTo_store (n : Link) (x : LinkState) : (n.moveTo x).store = n.store := by
  unfold Link.moveTo
  split <;> rfl

/-! ### What takes space (R40) -/

theorem Store.regionHeld_eq_false {k : Store} {c : Class} (h : k.regionHeld c = false) : k.inRegion c = [] := by
  simpa [Store.regionHeld, Store.inRegion, List.filter_eq_nil_iff] using h

/-- A header cell with POOL 0 is admitted only where its cells are free (R40). -/
theorem Store.admits_shared {k : Store} {h : Header} (ha : k.admits h = true) (hpool : h.pool = false) :
    k.held + k.awaitShared + h.cells ≤ 72 := by
  have hfree : h.cells ≤ k.free := by simpa [Store.admits, hpool] using ha
  have hlimit : k.free = 72 - k.held - k.awaitShared := rfl
  have hpos : 1 ≤ h.cells := h.cells_bounds.1
  omega

/-- A header cell with POOL 1 is admitted only where its class's region is empty and owes no return (R40). -/
theorem Store.admits_reserved {k : Store} {h : Header} (ha : k.admits h = true) (hpool : h.pool = true) :
    k.inRegion h.queueClass = [] ∧ k.awaitRes.get h.queueClass = false := by
  have hboth : k.regionHeld h.queueClass = false ∧ k.awaitRes.get h.queueClass = false := by
    simpa [Store.admits, hpool] using ha
  exact ⟨Store.regionHeld_eq_false hboth.1, hboth.2⟩

theorem Store.newPacket_takes_shared (k : Store) (h : Header) :
    (k.newPacket h).takes .shared = if h.pool then 0 else h.cells := by
  cases hpool : h.pool <;> simp [StoredPacket.takes, StoredPacket.cells, Store.newPacket, hpool]

theorem Store.newPacket_takes_reserved (k : Store) (h : Header) (c : Class) :
    (k.newPacket h).takes (.reserved c) = if h.pool = true ∧ h.queueClass = c then 1 else 0 := by
  cases hpool : h.pool <;> simp [StoredPacket.takes, StoredPacket.cls, Store.newPacket, hpool]

/-- A header that passes the check finds the space its packet takes (R40). -/
theorem Store.admits_room {k : Store} {h : Header} (ha : k.admits h = true) (x : Space)
    (hk : k.heldOf x + k.owed x ≤ x.limit) : k.heldOf x + k.owed x + (k.newPacket h).takes x ≤ x.limit := by
  cases x with
  | shared =>
    rw [Store.newPacket_takes_shared]
    split
    · exact hk
    · rename_i hpool
      rw [Store.heldOf_shared]
      exact Store.admits_shared ha (by simpa using hpool)
  | reserved c =>
    rw [Store.newPacket_takes_reserved]
    split
    · rename_i hres
      obtain ⟨hpool, rfl⟩ := hres
      obtain ⟨hempty, hreturned⟩ := Store.admits_reserved ha hpool
      simp [Store.heldOf_reserved, Store.owed, Space.limit, hempty, hreturned]
    · exact hk

/-- An admitted header cell keeps the law of its store (R36, R37, R40). -/
theorem Store.openPacket_lawful {k : Store} {h : Header} (ha : k.admits h = true) (hk : k.Lawful) :
    (k.openPacket h).Lawful := by
  rw [Store.lawful_iff] at hk ⊢
  intro x
  have hroom := Store.admits_room ha x (hk x)
  have hheld : (k.openPacket h).heldOf x = k.heldOf x + (k.newPacket h).takes x := by
    simp [Store.heldOf, Store.openPacket]
  have howed : (k.openPacket h).owed x = k.owed x := by cases x <;> rfl
  omega

/-- Only a header cell the store admits takes space: every other move of a link leaves its store's use or lessens it. -/
theorem Link.Move.store_cases {n n' : Link} (m : n.Move n') : n'.store.UsesNoMore n.store ∨
    ∃ h, n.store.admits h = true ∧ n'.store = n.store.openPacket h := by
  cases m with
  | torn why =>
    refine .inl ?_
    rw [Link.torn, Link.moveTo_store]
    exact n.store.torn_usesNoMore
  | returned => exact .inl n.store.clearReturn_usesNoMore
  | endCopy id => exact .inl (n.endCopy_usesNoMore id)
  | dispatched p copies => exact .inl (n.dispatched_usesNoMore p.id copies)
  | opened h _ _ ha => exact .inr ⟨h, ha, rfl⟩
  | cell c => exact .inl (n.store.takeCell_usesNoMore c)
  | _ => exact .inl (.refl n.store)

/-- Each move of a link keeps the law of its store (R36, R37). -/
theorem Link.Move.store_lawful {n n' : Link} (m : n.Move n') (h : n.store.Lawful) : n'.store.Lawful := by
  rcases m.store_cases with hless | ⟨hdr, ha, hopen⟩
  · exact hless.lawful h
  · exact hopen ▸ Store.openPacket_lawful ha h

theorem Store.lawful_of_empty {k : Store} (hp : k.packets = []) (hs : k.awaitShared = 0)
    (hr : k.awaitRes = PerClass.all false) : k.Lawful := by
  refine k.lawful_iff.2 fun x => ?_
  cases x <;> simp [Store.heldOf, Store.owed, hp, hs, hr]

end Sys2Proof.Machine
end

section
/-! The statement on receive stores and credit flow (spec 03). -/

namespace Sys2Proof.Machine

/-- Settles O50: a link's moves keep the law, soft reset and power-on leave an empty store, and the entry to UP leaves
the store as it is. -/
theorem storeLawKept : Obligations.StoreLawKept := by
  unfold Obligations.StoreLawKept
  intro s t hs hstep
  refine links_kept (Q := fun n => n.store.Lawful) (fun _ _ m => m.store_lawful) (fun n _ => ?_) ?_ (fun _ _ _ h => h)
    hstep hs
  · rw [Link.softReset, Link.moveTo_store]
    exact Store.lawful_of_empty rfl rfl rfl
  · exact Store.lawful_of_empty rfl rfl rfl

end Sys2Proof.Machine
end

section
/-! SUPPORT. DISPATCH of an ingress head on a released part: it goes with its whole plan or waits, and what the plan of a
remote unicast head that fails its route is (R60, R61, R67, R68). -/

namespace Sys2Proof.Machine

/-! ### The row DISPATCH (R60, R61) -/

section Row

variable {s : State} {l : LinkId} {c : Class} {p : StoredPacket}

theorem exec_dispatch (h : s.inReset = false) (l : LinkId) (c : Class) :
    exec (.dispatch l c) s = .next (s.considerSource (.ingress l c)) :=
  congrArg _ (State.unlessReset_of_released _ h)

theorem State.ready_ingress (hp : s.ingressHead l c = some p) :
    s.ready (.ingress l c) = s.planFits p.hdr (s.plan l p.hdr) := by
  simp [State.ready, hp]

theorem State.dispatchSource_ingress (hp : s.ingressHead l c = some p) : s.dispatchSource (.ingress l c) =
    (s.applyPlan l p (s.plan l p.hdr)).setPosition (RouteSource.ingress l c).number := by
  simp [State.dispatchSource, hp]

/-- A head whose every target has room goes, and the event ends from there (R60, R62). -/
theorem exec_dispatch_fits (h : s.inReset = false) (hp : s.ingressHead l c = some p)
    (hf : s.planFits p.hdr (s.plan l p.hdr) = true) : ∃ t, exec (.dispatch l c) s = .next t ∧
      EndsAs ((s.applyPlan l p (s.plan l p.hdr)).setPosition (RouteSource.ingress l c).number) t := by
  rw [exec_dispatch h, State.considerSource, if_pos ((State.ready_ingress hp).trans hf), State.dispatchSource_ingress hp]
  exact ⟨_, rfl, settle_endsAs _⟩

/-- A head some target of which has no room waits, and its consideration leaves no trace (R61). -/
theorem exec_dispatch_waits (h : s.inReset = false) (hp : s.ingressHead l c = some p)
    (hf : s.planFits p.hdr (s.plan l p.hdr) = false) : exec (.dispatch l c) s = .next s := by
  rw [exec_dispatch h, State.considerSource, State.ready_ingress hp, hf]
  rfl

/-- A plan without link copies releases the packet at its dispatch (R44). -/
theorem State.applyPlan_letGo (s : State) (l : LinkId) (c : Class) (p : StoredPacket) {pl : Plan} (h : pl.copies = []) :
    (s.applyPlan l p pl).setPosition (RouteSource.ingress l c).number =
      (((s.createJob p.hdr pl.job).deliver l p pl.deliver).recordDrop l p.hdr pl.drop).letGo l c p := by
  rw [State.applyPlan, h]
  rfl

end Row

/-! ### Room for a plan that makes no copy (R61, R141) -/

theorem State.jobRoom_eq_true {s : State} : s.jobRoom = true ↔ s.jobs.length < 4 := decide_eq_true_iff

theorem State.jobRoom_eq_false {s : State} : s.jobRoom = false ↔ 4 ≤ s.jobs.length :=
  decide_eq_false_iff_not.trans Nat.not_lt

theorem State.planFits_dropped (s : State) (h : Header) (why : DropReason) : s.planFits h (Plan.dropped why) = true := rfl

/-- A plan of a job and a drop waits for the job alone. -/
theorem State.planFits_job (s : State) (h : Header) (k : JobKind) (why : Option DropReason) :
    s.planFits h { job := some k, drop := why } = s.jobRoom := by
  simp [State.planFits]

/-! ### A head that fails its route (R67, R68) -/

section FailsRoute

variable {s : State} {l : LinkId} {c : Class} {p : StoredPacket} {why : DropReason} (h : s.failsRoute l c p why)
include h

theorem State.failsRoute.not_local : s.isLocal p.hdr.dest = false := by
  obtain ⟨-, -, -, hnode, ⟨hact, -⟩ | ⟨hact, -⟩⟩ := h <;> simp [State.isLocal, hnode, hact]

/-- The reason is the first condition of R67 that fails. -/
theorem State.failsRoute.routeFailure_eq : s.routeFailure p.hdr = some why := by
  obtain ⟨-, -, -, -, ⟨hact, rfl⟩ | ⟨hact, ⟨hdown, rfl⟩ | ⟨hup, hhops, rfl⟩⟩⟩ := h
  · simp [State.routeFailure, hact]
  · simp [State.routeFailure, State.isUp, hact, hdown]
  · simpa [State.routeFailure, State.isUp, hact, hup] using hhops

theorem State.failsRoute.plan_eq : s.plan l p.hdr = if p.hdr.cls = Class.req.code then
    { job := some .unreachable, drop := some why } else Plan.dropped why := by
  have hlocal := h.not_local
  have hfail := h.routeFailure_eq
  obtain ⟨-, hmal, hgrp, -⟩ := h
  simp [State.plan, State.planRemote, hmal, hgrp, hlocal, hfail]

theorem State.failsRoute.plan_of_req (hreq : p.hdr.cls = 0) :
    s.plan l p.hdr = { job := some .unreachable, drop := some why } :=
  h.plan_eq.trans (if_pos hreq)

theorem State.failsRoute.plan_of_not_req (hreq : p.hdr.cls ≠ 0) : s.plan l p.hdr = Plan.dropped why :=
  h.plan_eq.trans (if_neg hreq)

end FailsRoute

end Sys2Proof.Machine
end

section
/-! The statement on the route unit's failed routes (spec 04). -/

namespace Sys2Proof.Machine

/-- Settles O36: the head's plan is the drop alone, which always fits, or for a REQ the drop with its job, which fits
where a job is free. -/
theorem dispatchFailsRoute : Obligations.DispatchFailsRoute := by
  unfold Obligations.DispatchFailsRoute
  intro s l c p why hs h
  have hp : s.ingressHead l c = some p := h.1
  refine ⟨fun hreq => ?_, fun hreq hjobs => ?_, fun hreq hjobs => ?_⟩
  · have hplan := h.plan_of_not_req hreq
    have hgo := exec_dispatch_fits hs hp (hplan ▸ s.planFits_dropped p.hdr why)
    rwa [hplan, State.applyPlan_letGo s l c p rfl] at hgo
  · have hplan := h.plan_of_req hreq
    have hroom := (s.planFits_job p.hdr .unreachable (some why)).trans (State.jobRoom_eq_true.2 hjobs)
    have hgo := exec_dispatch_fits hs hp (hplan ▸ hroom)
    rwa [hplan, State.applyPlan_letGo s l c p rfl] at hgo
  · have hplan := h.plan_of_req hreq
    have hfull := (s.planFits_job p.hdr .unreachable (some why)).trans (State.jobRoom_eq_false.2 hjobs)
    exact exec_dispatch_waits hs hp (hplan ▸ hfull)

end Sys2Proof.Machine
end

section
/-! SUPPORT. SUBMIT on a released part: each of the seven checks as a condition on the composed header and the state, and
the checks in order as the first refusal (R98–R104). -/

namespace Sys2Proof.Machine

/-! ### RESULT alone (R98, R168) -/

/-- RESULT is read at word 7 alone. -/
theorem State.setResult_window (s : State) (c : BitVec 4) (r : ResultCode) : SameWindowBut s (s.setResult c r) [7] := by
  intro a ha
  have hne : a.toNat ≠ 7 := fun e => ha (List.mem_singleton.2 (BitVec.eq_of_toNat_eq e))
  simp only [readWord, readWordNat, if_neg hne]
  rfl

/-! ### The row SUBMIT (R98) -/

theorem exec_submit {s : State} (h : s.inReset = false) : exec .submit s = .next s.submit :=
  congrArg _ (State.unlessReset_of_released _ h)

/-! ### The checks one by one (R99, R101–R104) -/

/-- Check 1 (R99). -/
theorem hostMayOriginate_eq_false {h : Header} : hostMayOriginate h = false ↔ h.badFields := by
  have hkind : ¬ h.kind ≤ 1 ↔ 2 ≤ h.kind := by bv_omega
  have hdest : ¬ h.dest ≤ 7 ↔ 8 ≤ h.dest := by bv_omega
  simp only [hostMayOriginate, Header.badFields, Bool.and_eq_false_iff, Bool.or_eq_false_iff, Bool.not_eq_false',
    Bool.and_eq_true, decide_eq_false_iff_not, decide_eq_true_eq, not_not, hkind, hdest, or_assoc, and_assoc]
  rfl

/-- Check 3 (R101). -/
theorem State.slotRefused_iff {s : State} {h : Header} :
    s.slotRefused h = true ↔ s.freeSlots = 0 ∨ (h.cls ≠ 1 ∧ s.freeSlots ≤ 2) := by
  simp only [State.slotRefused, Bool.or_eq_true, Bool.and_eq_true, decide_eq_true_eq]
  rfl

theorem mem_reqIxs : ∀ r : ReqIx, r ∈ reqIxs := by decide

/-- The table of check 4 (R102). -/
theorem State.freeEntry_isNone {s : State} : s.freeEntry.isNone = true ↔ ∀ r, (s.entry r).state ≠ .free := by
  simp [State.freeEntry, mem_reqIxs]

/-- Checks 5 and 6: of a unicast its route (R103), of a group packet its group entry (R104). -/
theorem State.submitTargets_eq (s : State) (h : Header) : s.submitTargets h =
    if h.grp = false ∧ (s.routeFor h.dest).action ≠ .toLink then .error .noRoute
    else if h.grp = true ∧ (s.groupOf h).enable = false then .error .noRoute
    else if h.grp = false ∧ (s.link (s.routeFor h.dest).link).state ≠ .up then .error .linkDown
    else if h.grp = true ∧ s.targets h = [] then .error .linkDown
    else .ok (s.targets h) := by
  cases hgrp : h.grp <;> simp [State.submitTargets, State.targets, State.upMembers, State.isUp, hgrp]

/-- Check 7 (R103, R104). -/
theorem State.all_hasRoom_iff {s : State} {ms : List LinkId} {c : Class} :
    ms.all (fun m => (s.link m).tx.hasRoom c) = true ↔ ¬ ∃ m ∈ ms, 16 ≤ ((s.link m).tx.queue c).length := by
  simp only [List.all_eq_true, Transmitter.hasRoom, decide_eq_true_eq, not_exists, not_and, not_le]
  rfl

/-! ### The checks in order (R98) -/

/-- SUBMIT's checks answer the first refusal in the order of R98, or the targets. -/
theorem State.submitCheck_eq (s : State) (h : Header) :
    s.submitCheck h = (s.refusal h).elim (.ok (s.targets h)) .error := by
  have hnode : (!h.grp && decide (h.dest = s.port.node)) = true ↔ h.grp = false ∧ h.dest = s.port.node := by simp
  have htable : (decide (h.cls = Class.req.code) && s.freeEntry.isNone) = true ↔
      h.cls = 0 ∧ ∀ r, (s.entry r).state ≠ .free := by
    rw [Bool.and_eq_true, decide_eq_true_eq, State.freeEntry_isNone]; rfl
  simp only [State.submitCheck, State.refusal, Bool.not_eq_true', hostMayOriginate_eq_false, hnode, htable,
    State.slotRefused_iff, apply_ite (Option.elim · (Except.ok (s.targets h)) Except.error), Option.elim_some]
  iterate 4 refine if_congr Iff.rfl rfl ?_
  rw [State.submitTargets_eq]
  split_ifs with hroute hgroup hdown hempty hfull
  · rfl
  · rfl
  · rfl
  · rfl
  · exact if_neg fun hroom => State.all_hasRoom_iff.1 hroom hfull
  · exact if_pos (State.all_hasRoom_iff.2 hfull)

/-! ### A refused SUBMIT (R98) -/

/-- The checks read no SRC, so a refusal is that of the header as composed (R105). -/
theorem State.submit_refused {s : State} {e : ResultCode} (h : s.refusal (composedHeader s.port.compose) = some e) :
    s.submit = s.setResult 1 e := by
  have hsrc : s.refusal s.composed = s.refusal (composedHeader s.port.compose) := rfl
  have hcheck : s.submitCheck s.composed = .error e := by rw [State.submitCheck_eq, hsrc, h]; rfl
  rw [State.submit, hcheck]

end Sys2Proof.Machine
end

section
/-! The statement on the host transmit path's refusals (spec 06). -/

namespace Sys2Proof.Machine

/-- Settles O18: the checks answer the first refusal, and SUBMIT then writes RESULT, which word 7 alone reads. -/
theorem submitRefused : Obligations.SubmitRefused := by
  unfold Obligations.SubmitRefused
  intro s e hs href
  rw [exec_submit hs, State.submit_refused href]
  exact ⟨_, rfl, s.setResult_result 1 e, s.setResult_window 1 e, rfl⟩

end Sys2Proof.Machine
end

section
/-! SUPPORT. Which commands make which turns: every other command, and every other host write, is moves
(R161, R162, R167). -/

namespace Sys2Proof.Machine

/-! ### Writes without a command of their own (R162, R167) -/

/-- A word without a row of its own is none of the twelve that have one (R162). -/
theorem hostWrite_plain (s : State) {a : BitVec 7} (w : Word) (h : hasOwnRow a = false) :
    hostWrite s a w = s.plainWrite a w := by
  have ne (b : BitVec 7) (hb : hasOwnRow b = true) : a ≠ b := by
    rintro rfl
    exact Bool.false_ne_true (h.symm.trans hb)
  simp only [hostWrite, if_neg (ne 1 rfl), if_neg (ne 3 rfl), if_neg (ne 4 rfl), if_neg (ne 6 rfl), if_neg (ne 8 rfl),
    if_neg (ne 9 rfl), if_neg (ne 24 rfl), if_neg (ne 25 rfl), if_neg (ne 26 rfl), if_neg (ne 27 rfl),
    if_neg (ne 41 rfl), if_neg (ne 43 rfl)]

/-- An unknown code changes RESULT alone (R167). -/
theorem State.cmdWrite_unknown (s : State) {w : Word} (h : isKnownCode (cmdCode w) = false) :
    s.cmdWrite w = s.setResult (cmdCode w) .badCommand := by
  have ne (b : BitVec 4) (hb : isKnownCode b = true) : cmdCode w ≠ b := fun e =>
    Bool.false_ne_true (h.symm.trans ((congrArg isKnownCode e).trans hb))
  simp only [State.cmdWrite, if_neg (ne 1 rfl), if_neg (ne 2 rfl), if_neg (ne 3 rfl), if_neg (ne 4 rfl),
    if_neg (ne 5 rfl), if_neg (ne 6 rfl), if_neg (ne 7 rfl), if_neg (ne 8 rfl), if_neg (ne 9 rfl), if_neg (ne 10 rfl),
    if_neg (ne 11 rfl)]

theorem cmdCode_setWidth : ∀ code : BitVec 4, cmdCode (code.setWidth 32) = code := by decide

/-! ### Every command's turn (R161) -/

/-- The five turns, each with the commands that make it: its own row, and for three of them the ill-formed terms that
mean the same host write (log 2). -/
inductive TurnOf (s : State) : Instr → State → Prop where
  | release {c : Instr} : c = .cqRelease ∨ c.wellFormed = false → TurnOf s c s.cqRelease
  | soft {c : Instr} : c = .softReset ∨ c.wellFormed = false → TurnOf s c s.softReset
  | power : TurnOf s .powerOnReset s.resetInput
  | events {c : Instr} (w : Word) : c = .eventWrite w ∨ c.wellFormed = false → TurnOf s c (s.eventWrite w)
  | up (l : LinkId) (node : NodeId) : (s.link l).state = .waitPeer → node ≠ s.port.node →
      TurnOf s (.initReceived l node true) (settle (s.comeUp l node))

/-- What holds after all moves, CQ_RELEASE and SOFT_RESET holds after every CMD write (R167). -/
theorem State.cmdWrite_of {P : State → Prop} {s : State} (w : Word) (hmoves : ∀ t, Evolves s t → P t)
    (hrelease : P s.cqRelease) (hsoft : P s.softReset) : P (s.cmdWrite w) := by
  have moves {p : Prop} {t : State} (ht : Evolves s t) : p → P t := fun _ => hmoves t ht
  unfold State.cmdWrite
  refine iteInduction (moves (.submit s)) fun _ => ?_
  refine iteInduction (moves (.rxPop s)) fun _ => ?_
  refine iteInduction (fun _ => hrelease) fun _ => ?_
  refine iteInduction (moves (.reqCancel s _)) fun _ => ?_
  refine iteInduction (moves (.linkReset s _)) fun _ => ?_
  refine iteInduction (fun _ => hsoft) fun _ => ?_
  refine iteInduction (moves (.syncArm s _ _)) fun _ => ?_
  refine iteInduction (moves (.syncTake s _)) fun _ => ?_
  refine iteInduction (moves (.syncDisarm s _)) fun _ => ?_
  refine iteInduction (moves (.syncClear s _)) fun _ => ?_
  exact iteInduction (moves (.dropClear s)) (moves (.setResult s _ _))

theorem State.cmdWrite_turnOf (s : State) (w : Word) {c : Instr} (h : c.wellFormed = false) :
    Evolves s (s.cmdWrite w) ∨ TurnOf s c (s.cmdWrite w) :=
  State.cmdWrite_of (P := fun t => Evolves s t ∨ TurnOf s c t) w (fun _ => .inl) (.inr (.release (.inr h)))
    (.inr (.soft (.inr h)))

theorem State.registerWrite_turnOf (s : State) (a : BitVec 7) (w : Word) :
    Evolves s (hostWrite s a w) ∨ TurnOf s (.registerWrite a w) (hostWrite s a w) := by
  cases hrow : hasOwnRow a with
  | false => rw [hostWrite_plain s w hrow]; exact .inl (.plainWrite s a w)
  | true =>
    have hill : (Instr.registerWrite a w).wellFormed = false := congrArg Bool.not hrow
    exact hostWrite_of (P := fun t => Evolves s t ∨ TurnOf s (.registerWrite a w) t) (.inl (.nodeWrite s w))
      (.inl (.ctrlWrite s w)) (.inl (.statusWrite s w)) (s.cmdWrite_turnOf w hill) (.inr (.events w (.inr hill)))
      (.inl (.eventEnWrite s w)) (fun l => .inl (.lctrlWrite s l w)) (.inl (.routeWrite s w)) (.inl (.groupWrite s w))
      (.inl (.plainWrite s a w))

theorem State.badCommand_turnOf (s : State) (code : BitVec 4) :
    Evolves s (s.cmdWrite (code.setWidth 32)) ∨ TurnOf s (.badCommand code) (s.cmdWrite (code.setWidth 32)) := by
  cases hknown : isKnownCode code with
  | false =>
    rw [s.cmdWrite_unknown (by rw [cmdCode_setWidth, hknown])]
    exact .inl (.setResult s _ _)
  | true => exact s.cmdWrite_turnOf _ (congrArg Bool.not hknown)

/-- A command that makes a turn or is moves while RESET is released does as much whatever the RESET input: while it is
asserted nothing happens (R176). -/
theorem unlessReset_turnOf {s : State} {f : State → State} {c : Instr} (h : Evolves s (f s) ∨ TurnOf s c (f s)) :
    Evolves s (s.unlessReset f) ∨ TurnOf s c (s.unlessReset f) :=
  State.unlessReset_of (P := fun t => Evolves s t ∨ TurnOf s c t) (.inl (.refl s)) h

/-- Every command answers a next state, by moves or by a turn that is its own. -/
theorem exec_turnOf (c : Instr) (s : State) : ∃ t, exec c s = .next t ∧ (Evolves s t ∨ TurnOf s c t) := by
  have moves {f : State → State} (h : Evolves s (f s)) : Evolves s (s.unlessReset f) ∨ TurnOf s c (s.unlessReset f) :=
    unlessReset_turnOf (.inl h)
  cases c with
  | submit => exact ⟨_, rfl, moves (.submit s)⟩
  | rxPop => exact ⟨_, rfl, moves (.rxPop s)⟩
  | cqRelease => exact ⟨_, rfl, unlessReset_turnOf (.inr (.release (.inl rfl)))⟩
  | reqCancel n => exact ⟨_, rfl, moves (.reqCancel s n)⟩
  | linkReset n => exact ⟨_, rfl, moves (.linkReset s n)⟩
  | softReset => exact ⟨_, rfl, unlessReset_turnOf (.inr (.soft (.inl rfl)))⟩
  | syncArm k t => exact ⟨_, rfl, moves (.syncArm s k t)⟩
  | syncTake k => exact ⟨_, rfl, moves (.syncTake s k)⟩
  | syncDisarm k => exact ⟨_, rfl, moves (.syncDisarm s k)⟩
  | syncClear k => exact ⟨_, rfl, moves (.syncClear s k)⟩
  | dropClear => exact ⟨_, rfl, moves (.dropClear s)⟩
  | badCommand code => exact ⟨_, rfl, unlessReset_turnOf (s.badCommand_turnOf code)⟩
  | nodeWrite w => exact ⟨_, rfl, moves (.nodeWrite s w)⟩
  | ctrlWrite w => exact ⟨_, rfl, moves (.ctrlWrite s w)⟩
  | lctrlWrite l w => exact ⟨_, rfl, moves (.lctrlWrite s l w)⟩
  | statusWrite w => exact ⟨_, rfl, moves (.statusWrite s w)⟩
  | eventWrite w => exact ⟨_, rfl, unlessReset_turnOf (.inr (.events w (.inl rfl)))⟩
  | eventEnWrite w => exact ⟨_, rfl, moves (.eventEnWrite s w)⟩
  | routeWrite w => exact ⟨_, rfl, moves (.routeWrite s w)⟩
  | groupWrite w => exact ⟨_, rfl, moves (.groupWrite s w)⟩
  | registerWrite a w => exact ⟨_, rfl, unlessReset_turnOf (s.registerWrite_turnOf a w)⟩
  | powerOnReset => exact ⟨_, rfl, .inr .power⟩
  | headerCellArrival l x => exact ⟨_, rfl, moves (.packetCell s l x)⟩
  | dataCellArrival l x => exact ⟨_, rfl, moves (.packetCell s l x)⟩
  | initReceived l node seen =>
    refine ⟨_, rfl, unlessReset_turnOf ?_⟩
    rcases Evolves.initReceived s l node seen with hmoves | ⟨hwait, hnode, hseen, hup⟩
    · exact .inl hmoves
    · subst hseen
      rw [hup]
      exact .inr (.up l node hwait hnode)
  | creditReceived l n res => exact ⟨_, rfl, moves (.creditReceived s l n res)⟩
  | teardownCellReceived l => exact ⟨_, rfl, moves (.teardownReceived s l)⟩
  | unknownControlCell l => exact ⟨_, rfl, moves (.unknownControl s l)⟩
  | badCell l => exact ⟨_, rfl, moves (.badCell s l)⟩
  | carrierLoss l => exact ⟨_, rfl, moves (.carrierLoss s l)⟩
  | holdTimerExpiry l => exact ⟨_, rfl, moves (.holdExpiry s l)⟩
  | waitPeerEntry l => exact ⟨_, rfl, moves (.leaveHold s l)⟩
  | initTimerExpiry l => exact ⟨_, rfl, moves (.initExpiry s l)⟩
  | creditHoldoffExpiry l => exact ⟨_, rfl, moves (.holdoffExpiry s l)⟩
  | requestTimerExpiry r => exact ⟨_, rfl, moves (.requestExpiry s r)⟩
  | dispatch l cls => exact ⟨_, rfl, moves (.considerSource s _)⟩
  | responderDispatch => exact ⟨_, rfl, moves (.considerSource s _)⟩
  | transmissionStart l => exact ⟨_, rfl, moves (.startWhere s l)⟩
  | creditCellSend l => exact ⟨_, rfl, moves (.creditWhere s l)⟩
  | transmissionCompletion l => exact ⟨_, rfl, moves (.finishWhere s l)⟩
  | packetCellWhileNotUp l x => exact ⟨_, rfl, moves (.packetCell s l x)⟩

theorem step_of_front {s : State} {c : Instr} (h : s.pending.head? = some c) :
    step s = exec c { s with pending := s.pending.tail } := by
  rw [step, List.eq_cons_of_mem_head? h]
  rfl

/-- A step is moves, or the turn of the command at the queue's front, run on the state with the queue's rest. -/
theorem step_turnOf {s t : State} (h : step s = .next t) : ∃ s₀ : State, s₀ = { s with pending := s₀.pending } ∧
    (Evolves s₀ t ∨ ∃ c, s.pending.head? = some c ∧ TurnOf s₀ c t) := by
  cases hfront : s.pending.head? with
  | none =>
    rw [step, List.head?_eq_none_iff.1 hfront] at h
    cases h
    exact ⟨s, rfl, .inl (.tick s)⟩
  | some c =>
    rw [step_of_front hfront] at h
    obtain ⟨u, hu, hcases⟩ := exec_turnOf c { s with pending := s.pending.tail }
    cases hu.symm.trans h
    exact ⟨_, rfl, hcases.imp_right fun turn => ⟨c, rfl, turn⟩⟩

end Sys2Proof.Machine
end

section
/-! SUPPORT. The request table with its completion queue: what the moves and the turns keep of it (R112, R125). -/

namespace Sys2Proof.Machine

/-! ### The rows while RESET is released (R176) -/

section Rows

variable {s : State} (h : s.inReset = false)
include h

theorem exec_rxPop : exec .rxPop s = .next s.rxPop :=
  congrArg _ (State.unlessReset_of_released _ h)

theorem exec_cqRelease : exec .cqRelease s = .next s.cqRelease :=
  congrArg _ (State.unlessReset_of_released _ h)

theorem exec_reqCancel (n : BitVec 5) : exec (.reqCancel n) s = .next (s.reqCancel n) :=
  congrArg _ (State.unlessReset_of_released _ h)

theorem exec_softReset : exec .softReset s = .next s.softReset :=
  congrArg Host.Outcome.next (State.unlessReset_of_released State.softReset h)

end Rows

/-! ### What the moves of the table keep -/

/-- The queue holds exactly the table's DONE entries, each once (R125). -/
def TableLaw (x : Vector ReqEntry 16 × List ReqIx) : Prop := x.2.Nodup ∧ ∀ r : ReqIx, r ∈ x.2 ↔ x.1[r].state = .done

theorem State.completionLaw_iff (s : State) : s.CompletionLaw ↔ TableLaw (s.reqs, s.cq) := Iff.rfl

/-- An entry of the table after one entry is written. -/
theorem entry_set (v : Vector ReqEntry 16) (r q : ReqIx) (e : ReqEntry) : (v.set r e)[q] = if q = r then e else v[q] := by
  by_cases h : q = r
  · subst h; simp
  · have hval : r.val ≠ q.val := fun hv => h (Fin.ext hv.symm)
    simp [h, hval]

theorem unitEnd_entry (v : Vector ReqEntry 16) (q : ReqIx) :
    (Vector.ofFn (fun r : ReqIx => v[r].unitEnd))[q] = v[q].unitEnd := by simp

theorem ReqEntry.unitEnd_state (e : ReqEntry) : e.unitEnd.state = e.state := by
  unfold ReqEntry.unitEnd; split <;> rfl

theorem ReqEntry.unitEnd_gen (e : ReqEntry) : e.unitEnd.gen = e.gen := by
  unfold ReqEntry.unitEnd; split <;> rfl

/-- Writing an entry that neither was nor is DONE keeps the law. -/
theorem TableLaw.set {v : Vector ReqEntry 16} {q : List ReqIx} (h : TableLaw (v, q)) {r : ReqIx} {e : ReqEntry}
    (hwas : v[r].state ≠ .done) (his : e.state ≠ .done) : TableLaw (v.set r e, q) := by
  obtain ⟨hnodup, hmem⟩ := h
  refine ⟨hnodup, fun p => ?_⟩
  rw [entry_set]
  split
  · rename_i hp
    subst hp
    exact iff_of_false (fun hq => hwas ((hmem p).1 hq)) his
  · exact hmem p

/-- An entry that becomes DONE joins the tail of the queue (R124, R125). -/
theorem TableLaw.done {v : Vector ReqEntry 16} {q : List ReqIx} (h : TableLaw (v, q)) {r : ReqIx} {e : ReqEntry}
    (hwas : v[r].state ≠ .done) (his : e.state = .done) : TableLaw (v.set r e, q ++ [r]) := by
  obtain ⟨hnodup, hmem⟩ := h
  have hout : r ∉ q := fun hq => hwas ((hmem r).1 hq)
  refine ⟨hnodup.append (List.nodup_singleton r) (List.disjoint_singleton.2 hout), fun p => ?_⟩
  rw [entry_set, List.mem_append, List.mem_singleton]
  split
  · rename_i hp
    exact iff_of_true (.inr hp) his
  · rename_i hp
    rw [or_iff_left hp]
    exact hmem p

/-- The head of the queue returns to FREE (R127). -/
theorem TableLaw.release {v : Vector ReqEntry 16} {q : List ReqIx} {r : ReqIx} (h : TableLaw (v, r :: q)) (g : BitVec 2) :
    TableLaw (v.set r (ReqEntry.free g), q) := by
  obtain ⟨hnodup, hmem⟩ := h
  obtain ⟨hout, hrest⟩ := List.nodup_cons.1 hnodup
  refine ⟨hrest, fun p => ?_⟩
  rw [entry_set]
  split
  · rename_i hp
    subst hp
    exact iff_of_false hout (by simp [ReqEntry.free])
  · rename_i hp
    exact (List.mem_cons.trans (or_iff_right hp)).symm.trans (hmem p)

/-- An empty queue over a table of FREE entries (R130, R176). -/
theorem TableLaw.of_free {v : Vector ReqEntry 16} (h : ∀ r : ReqIx, v[r].state = .free) : TableLaw (v, []) :=
  ⟨List.nodup_nil, fun r => iff_of_false List.not_mem_nil ((h r).trans_ne (by decide))⟩

theorem TableMove.law {x y : Vector ReqEntry 16 × List ReqIx} (m : TableMove x y) (h : TableLaw x) : TableLaw y := by
  cases m with
  | done v q r e hwas his _ => exact h.done (hwas.elim (·.trans_ne (by decide)) (·.trans_ne (by decide))) his
  | moved v q r e hwas his _ => 
    exact h.set (hwas.trans_ne (by decide)) (his.elim (·.trans_ne (by decide)) (·.trans_ne (by decide)))
  | taken v q r e hwas his _ => exact h.set (hwas.trans_ne (by decide)) (his.trans_ne (by decide))
  | unit v q =>
    obtain ⟨hnodup, hmem⟩ := h
    refine ⟨hnodup, fun r => ?_⟩
    rw [unitEnd_entry, ReqEntry.unitEnd_state]
    exact hmem r

/-- No move takes an entry out of the completion queue (R125). -/
theorem TableMove.queue_prefix {x y : Vector ReqEntry 16 × List ReqIx} (m : TableMove x y) : x.2 <+: y.2 := by
  cases m with
  | done v q r e => exact List.prefix_append q [r]
  | _ => exact List.prefix_rfl

/-- Entry `e'` is of the generation of `e`, and FREE only if `e` was: what each move keeps of an entry (R112). -/
def ReqEntry.SameUse (e e' : ReqEntry) : Prop := e'.gen = e.gen ∧ (e'.state = .free → e.state = .free)

theorem ReqEntry.SameUse.refl (e : ReqEntry) : e.SameUse e := ⟨rfl, id⟩

theorem ReqEntry.SameUse.trans {e f g : ReqEntry} (h : e.SameUse f) (k : f.SameUse g) : e.SameUse g :=
  ⟨k.1.trans h.1, h.2 ∘ k.2⟩

/-- A written entry that is not FREE and keeps its generation, and every other entry, stays in its use. -/
theorem sameUse_set {v : Vector ReqEntry 16} {r : ReqIx} {e : ReqEntry} (hg : e.gen = v[r].gen) (hs : e.state ≠ .free)
    (p : ReqIx) : v[p].SameUse (v.set r e)[p] := by
  rw [entry_set]
  split
  · rename_i hp
    subst hp
    exact ⟨hg, fun hfree => absurd hfree hs⟩
  · exact .refl _

/-- No move returns an entry to FREE or changes a generation (R112). -/
theorem TableMove.sameUse {x y : Vector ReqEntry 16 × List ReqIx} (m : TableMove x y) (p : ReqIx) :
    x.1[p].SameUse y.1[p] := by
  cases m with
  | done v q r e _ his hg => exact sameUse_set hg (his.trans_ne (by decide)) p
  | moved v q r e _ his hg => exact sameUse_set hg (his.elim (·.trans_ne (by decide)) (·.trans_ne (by decide))) p
  | taken v q r e _ his hg => exact sameUse_set hg (his.trans_ne (by decide)) p
  | unit v q =>
    simp only [unitEnd_entry]
    exact ⟨v[p].unitEnd_gen, fun hfree => v[p].unitEnd_state.symm.trans hfree⟩

/-! ### What a chain of moves keeps -/

theorem Evolves.completionLaw {s t : State} (h : Evolves s t) (hs : s.CompletionLaw) : t.CompletionLaw :=
  kept_of_moves (Q := TableLaw) (fun _ _ m => m.law) h.table hs

theorem Evolves.cq_prefix {s t : State} (h : Evolves s t) : s.cq <+: t.cq :=
  kept_of_moves (Q := fun x => s.cq <+: x.2) (fun _ _ m hq => hq.trans m.queue_prefix) h.table List.prefix_rfl

theorem Evolves.sameUse {s t : State} (h : Evolves s t) (r : ReqIx) : (s.entry r).SameUse (t.entry r) :=
  kept_of_moves (Q := fun x => (s.entry r).SameUse x.1[r]) (fun _ _ m hq => hq.trans (m.sameUse r)) h.table (.refl _)

/-! ### CQ_RELEASE (R127) -/

theorem State.cqRelease_of_empty {s : State} (h : s.cq = []) : s.cqRelease = s.setResult 3 .empty := by
  rw [State.cqRelease, h]

theorem State.cqRelease_of_cons {s : State} {r : ReqIx} {rest : List ReqIx} (h : s.cq = r :: rest) : s.cqRelease =
    ({ s with cq := rest }.setEntry r (ReqEntry.free ((s.entry r).gen + 1))).setResult 3 .ok := by
  rw [State.cqRelease, h]

theorem State.cqRelease_cq (s : State) : s.cqRelease.cq = s.cq.tail := by
  cases hcq : s.cq with
  | nil => rw [State.cqRelease_of_empty hcq]; exact hcq
  | cons r rest => rw [State.cqRelease_of_cons hcq]; rfl

theorem State.cqRelease_completionLaw {s : State} (h : s.CompletionLaw) : s.cqRelease.CompletionLaw := by
  cases hcq : s.cq with
  | nil => rw [State.cqRelease_of_empty hcq]; exact h
  | cons r rest =>
    rw [State.completionLaw_iff, hcq] at h
    rw [State.cqRelease_of_cons hcq]
    exact h.release _

/-! ### SOFT_RESET (R130, R175) -/

theorem State.softResetCore_entry (s : State) (r : ReqIx) : s.softResetCore.entry r = (s.entry r).softReset := by
  have hreqs := (s.softResetLanes_laneOnly linkIds).reqs
  simp [State.softResetCore, State.entry, hreqs]

theorem State.softResetCore_free (s : State) (r : ReqIx) : (s.softResetCore.entry r).state = .free := by
  rw [State.softResetCore_entry]; rfl

/-- No entry is in SENT after the reset, so that the rest of its event leaves the table alone. -/
theorem State.softReset_entry (s : State) (r : ReqIx) : s.softReset.entry r = (s.entry r).softReset := by
  have hsent : (s.softResetCore.entry r).state ≠ .sent := by rw [s.softResetCore_free r]; decide
  exact ((settle_aftermath s.softResetCore).entry r hsent).trans (s.softResetCore_entry r)

theorem State.softReset_completionLaw (s : State) : s.softReset.CompletionLaw :=
  (Evolves.settle s.softResetCore).completionLaw (TableLaw.of_free s.softResetCore_free)

theorem State.softReset_cq (s : State) : s.softReset.cq = [] := by
  refine List.eq_nil_iff_forall_not_mem.2 fun r hr => ?_
  have hdone := (s.softReset_completionLaw.2 r).1 hr
  rw [s.softReset_entry r] at hdone
  cases hdone

/-! ### Power-on reset (R176) -/

theorem State.resetInput_cq (s : State) : s.resetInput.cq = [] := rfl

theorem State.resetInput_completionLaw (s : State) : s.resetInput.CompletionLaw :=
  TableLaw.of_free fun r => by simp [State.resetInput, State.powerOn, State.reset, ReqEntry.free]

/-! ### The entry of a link to UP (R27) -/

theorem State.comeUp_reqs (s : State) (l : LinkId) (node : NodeId) : (s.comeUp l node).reqs = s.reqs := by
  rw [← congrArg State.reqs (s.comeUp_frame l node)]

theorem State.comeUp_cq (s : State) (l : LinkId) (node : NodeId) : (s.comeUp l node).cq = s.cq := by
  rw [← congrArg State.cq (s.comeUp_frame l node)]

/-- The table's part of the law reads the table and the queue alone. -/
theorem State.CompletionLaw.congr {s t : State} (h : s.CompletionLaw) (hreqs : t.reqs = s.reqs) (hcq : t.cq = s.cq) :
    t.CompletionLaw := by
  rw [State.completionLaw_iff] at h ⊢
  rwa [hreqs, hcq]

/-! ### Every turn -/

theorem TurnOf.completionLaw {s t : State} {c : Instr} (turn : TurnOf s c t) (h : s.CompletionLaw) : t.CompletionLaw := by
  cases turn with
  | release => exact State.cqRelease_completionLaw h
  | soft => exact s.softReset_completionLaw
  | power => exact s.resetInput_completionLaw
  | events w => exact h
  | up l node =>
    exact (Evolves.settle _).completionLaw (State.CompletionLaw.congr h (s.comeUp_reqs l node) (s.comeUp_cq l node))

/-- Entries leave the queue at CQ_RELEASE and at the resets alone (R125). -/
theorem TurnOf.cq_prefix {s t : State} {c : Instr} (turn : TurnOf s c t) (hwf : c.wellFormed = true)
    (hrelease : c ≠ .cqRelease) (hsoft : c ≠ .softReset) (hpower : c ≠ .powerOnReset) : s.cq <+: t.cq := by
  have hwell : c.wellFormed ≠ false := hwf.trans_ne (by decide)
  cases turn with
  | release hc => exact (hc.elim hrelease hwell).elim
  | soft hc => exact (hc.elim hsoft hwell).elim
  | power => exact absurd rfl hpower
  | events w => exact List.prefix_rfl
  | up l node =>
    rw [← s.comeUp_cq l node]
    exact (Evolves.settle _).cq_prefix

/-! ### Generations (R112) -/

/-- A tag is its entry's index plus 16 times its generation (R112). -/
theorem ReqEntry.tag_toNat (e : ReqEntry) (r : ReqIx) : (e.tag r).toNat = r.val + 16 * e.gen.toNat := by
  rw [ReqEntry.tag, toNat_concat]
  change e.gen.toNat * 16 + r.val = r.val + 16 * e.gen.toNat
  omega

/-- The generation advances by one where the entry returns to FREE, and stands otherwise (R112). -/
def ReqEntry.Advances (e e' : ReqEntry) : Prop :=
  if e.state ≠ .free ∧ e'.state = .free then e'.gen = e.gen + 1 else e'.gen = e.gen

theorem ReqEntry.SameUse.advances {e e' : ReqEntry} (h : e.SameUse e') : e.Advances e' := by
  obtain ⟨hgen, hfree⟩ := h
  rw [ReqEntry.Advances, if_neg fun returns => returns.1 (hfree returns.2)]
  exact hgen

theorem ReqEntry.advances_release {e : ReqEntry} (h : e.state ≠ .free) : e.Advances (ReqEntry.free (e.gen + 1)) := by
  rw [ReqEntry.Advances, if_pos ⟨h, rfl⟩]
  rfl

theorem ReqEntry.advances_softReset (e : ReqEntry) : e.Advances e.softReset := by
  by_cases h : e.state = .free
  · rw [ReqEntry.Advances, if_neg fun returns => returns.1 h, ReqEntry.softReset, if_pos h]
    rfl
  · rw [ReqEntry.softReset, if_neg h]
    exact ReqEntry.advances_release h

/-- CQ_RELEASE returns the head, a DONE entry, to FREE, and no other (R127). -/
theorem State.cqRelease_advances {s : State} (h : s.CompletionLaw) (r : ReqIx) :
    (s.entry r).Advances (s.cqRelease.entry r) := by
  obtain ⟨-, hmem⟩ := h
  cases hcq : s.cq with
  | nil =>
    rw [State.cqRelease_of_empty hcq]
    exact (ReqEntry.SameUse.refl _).advances
  | cons q rest =>
    rw [State.cqRelease_of_cons hcq, State.setResult_entry, State.entry_setEntry]
    split
    · rename_i hr
      subst hr
      have hdone : (s.entry r).state = .done := (hmem r).1 (hcq ▸ List.mem_cons_self)
      exact ReqEntry.advances_release (hdone.trans_ne (by decide))
    · exact (ReqEntry.SameUse.refl _).advances

theorem TurnOf.advances {s t : State} {c : Instr} (turn : TurnOf s c t) (hs : s.CompletionLaw) (hpower : c ≠ .powerOnReset)
    (r : ReqIx) : (s.entry r).Advances (t.entry r) := by
  cases turn with
  | release => exact State.cqRelease_advances hs r
  | soft => rw [s.softReset_entry r]; exact (s.entry r).advances_softReset
  | power => exact absurd rfl hpower
  | events w => exact (ReqEntry.SameUse.refl _).advances
  | up l node =>
    have hup : (s.comeUp l node).entry r = s.entry r := congrArg (·[r]) (s.comeUp_reqs l node)
    rw [← hup]
    exact ((Evolves.settle _).sameUse r).advances

end Sys2Proof.Machine
end

section
/-! SUPPORT. The commands of the request table on a released part, case by case: an accepted SUBMIT of a REQ, REQ_CANCEL,
RX_POP, and a local RPY (R105, R113, R118, R120, R121, R138). -/

namespace Sys2Proof.Machine

/-! ### RX_POP (R138) -/

theorem State.rxPop_of_empty {s : State} (h : s.inbound = []) : s.rxPop = s.setResult 2 .empty := by
  rw [State.rxPop, h]

theorem State.rxPop_of_cons {s : State} {e : InboundEntry} {rest : List InboundEntry} (h : s.inbound = e :: rest) :
    s.rxPop = settle ({ s with inbound := rest }.setResult 2 .ok) := by
  rw [State.rxPop, h]

/-! ### The lowest free slot and the lowest FREE entry (R105, R113) -/

/-- In a list of indexes in order, the one found is the lowest. -/
theorem find?_finRange_lowest {n : Nat} {p : Fin n → Bool} {i : Fin n} (h : (List.finRange n).find? p = some i) :
    ∀ j < i, p j = false := by
  obtain ⟨-, k, hk, hi, hbefore⟩ := List.find?_eq_some_iff_getElem.1 h
  intro j hj
  have hlt : j.val < k := by
    rw [← hi] at hj
    simpa [Fin.lt_def] using hj
  simpa using hbefore j.val hlt

theorem State.freeSlot_lowest {s : State} {i : SlotIx} (h : s.freeSlot = some i) : ∀ j < i, s.slot j ≠ none := by
  have hrange : slotIxs = List.finRange 8 := by decide
  rw [State.freeSlot, hrange] at h
  intro j hj hnone
  have hheld := find?_finRange_lowest h j hj
  rw [hnone] at hheld
  cases hheld

theorem State.freeEntry_free {s : State} {r : ReqIx} (h : s.freeEntry = some r) : (s.entry r).state = .free := by
  simpa using List.find?_some h

theorem State.freeEntry_lowest {s : State} {r : ReqIx} (h : s.freeEntry = some r) : ∀ q < r, (s.entry q).state ≠ .free := by
  have hrange : reqIxs = List.finRange 16 := by decide
  rw [State.freeEntry, hrange] at h
  intro q hq
  simpa using find?_finRange_lowest h q hq

theorem State.freeSlot_isSome {s : State} (h : s.freeSlots ≠ 0) : ∃ i, s.freeSlot = some i := by
  obtain ⟨i, hi⟩ := List.exists_mem_of_length_pos (Nat.pos_of_ne_zero h)
  obtain ⟨hmem, hfree⟩ := List.mem_filter.1 hi
  exact Option.isSome_iff_exists.1 (List.find?_isSome.2 ⟨i, hmem, hfree⟩)

theorem State.freeEntry_isSome {s : State} (h : ¬ ∀ r, (s.entry r).state ≠ .free) : ∃ r, s.freeEntry = some r :=
  Option.ne_none_iff_exists'.1 fun hnone => h (State.freeEntry_isNone.1 (Option.isNone_iff_eq_none.2 hnone))

/-! ### An accepted SUBMIT of a REQ (R105, R113) -/

/-- Where no refusal follows from a check and those after it, the check is passed and they refuse nothing (R98). -/
theorem check_passed {fails : Prop} [Decidable fails] {e : ResultCode} {later : Option ResultCode}
    (h : (if fails then some e else later) = none) : ¬ fails ∧ later = none := by
  split at h
  · cases h
  · exact ⟨‹_›, h⟩

/-- What an accepted SUBMIT has passed of the checks 1, 3 and 4 (R99, R101, R102). -/
theorem State.accepted_checks {s : State} {h : Header} (ha : s.refusal h = none) : ¬ h.badFields ∧
    ¬ (s.freeSlots = 0 ∨ (h.cls ≠ 1 ∧ s.freeSlots ≤ 2)) ∧ ¬ (h.cls = 0 ∧ ∀ r, (s.entry r).state ≠ .free) := by
  unfold State.refusal at ha
  obtain ⟨hgood, ha⟩ := check_passed ha
  obtain ⟨-, ha⟩ := check_passed ha
  obtain ⟨hslots, ha⟩ := check_passed ha
  obtain ⟨htable, -⟩ := check_passed ha
  exact ⟨hgood, hslots, htable⟩

/-- The checks read no SRC, so what is accepted is the header as composed (R105). -/
theorem State.submit_accepted {s : State} (h : s.refusal (composedHeader s.port.compose) = none) :
    s.submit = settle (s.submitAccepted (s.targets (composedHeader s.port.compose))) := by
  have hsrc : s.refusal s.composed = s.refusal (composedHeader s.port.compose) := rfl
  have hcheck : s.submitCheck s.composed = .ok (s.targets (composedHeader s.port.compose)) := by
    rw [State.submitCheck_eq, hsrc, h]; rfl
  rw [State.submit, hcheck]

theorem State.submitAccepted_req {s : State} {i : SlotIx} {r : ReqIx} (m : LinkId) (hi : s.freeSlot = some i)
    (hcls : s.composed.cls = 0) (hr : s.freeEntry = some r) : s.submitAccepted [m] = s.submitReq i r s.composed m := by
  have hreq : s.composed.cls = Class.req.code := hcls
  simp only [State.submitAccepted, hi, hr, if_pos hreq]

/-- The one copy of a REQ (R77). -/
theorem hostCopy_req (i : SlotIx) {h : Header} (hcls : h.cls = 0) (hgrp : h.grp = false) :
    hostCopy i h = ⟨.slot i, .req, 1 + h.len.toNat, h.hops, false, false⟩ := by
  have hqueue : h.queueClass = .req := by rw [Header.queueClass, hcls]; rfl
  rw [hostCopy, hqueue, hgrp]
  rfl

/-- A REQ that passes check 1 is no group packet (R99). -/
theorem Header.unicast_of_req {h : Header} (hgood : ¬ h.badFields) (hcls : h.cls = 0) : h.grp = false := by
  by_contra hgrp
  have hpst : h.cls ≠ 2 := hcls.trans_ne (by decide)
  exact hgood (.inr (.inr (.inl ⟨Bool.eq_true_of_not_eq_false hgrp, hpst⟩)))

theorem State.targets_unicast (s : State) {h : Header} (hgrp : h.grp = false) :
    s.targets h = [(s.routeFor h.dest).link] := by
  simp [State.targets, hgrp]

/-- The slot, the entry, the copy and RESULT of an accepted REQ, field by field (R105, R113, R168). -/
theorem State.submitReq_unicast {s : State} (i : SlotIx) (r : ReqIx) {h : Header} (m : LinkId) (hcls : h.cls = 0)
    (hgrp : h.grp = false) : s.submitReq i r h m =
      { ((s.setEntry r { ReqEntry.free (s.entry r).gen with
          state := .queued, dest := h.dest, egress := m, slot := some i, user := h.user }).setSlot i
          (some ⟨{ h with tag := (s.entry r).tag r }, (composedCells s.port.compose).take h.len.toNat, 1, some r⟩)).appendEntry
          m ⟨.slot i, .req, 1 + h.len.toNat, h.hops, false, false⟩ with
        port := { s.port with result := ⟨1, .ok, BitVec.ofFin (w := 4) r, (s.entry r).tag r⟩ } } := by
  have hcopy : hostCopy i { h with tag := (s.entry r).tag r } = ⟨.slot i, .req, 1 + h.len.toNat, h.hops, false, false⟩ :=
    hostCopy_req i hcls hgrp
  rw [State.submitReq, State.takeSlot, hcopy]
  rfl

/-! ### REQ_CANCEL (R118) -/

theorem entryOperand_eq_none {n : BitVec 5} (h : 16 ≤ n) : entryOperand n = none :=
  dif_neg (by bv_omega)

theorem entryOperand_eq_some {n : BitVec 5} {r : ReqIx} (h : n.toNat = r.val) : entryOperand n = some r := by
  simp [entryOperand, h]

theorem State.reqCancel_badField {s : State} {n : BitVec 5} (h : 16 ≤ n) : s.reqCancel n = s.setResult 4 .badField := by
  rw [State.reqCancel, entryOperand_eq_none h]

theorem State.reqCancel_of_operand {s : State} {n : BitVec 5} {r : ReqIx} (h : n.toNat = r.val) :
    s.reqCancel n = s.cancelEntry r := by
  rw [State.reqCancel, entryOperand_eq_some h]

/-- An entry in QUEUED or SENT completes (R124). -/
theorem State.completeAs_active {s : State} {r : ReqIx} (e : ReqEntry)
    (h : (s.entry r).state = .queued ∨ (s.entry r).state = .sent) :
    s.completeAs r e = ((s.setEntry r e).pushCq r).latch .completion := if_pos h

section Cancel

variable {s : State} {r : ReqIx}

theorem State.cancelEntry_idle (h : (s.entry r).state = .free ∨ (s.entry r).state = .done) :
    s.cancelEntry r = s.setResult 4 .notActive := by
  rcases h with h | h <;> rw [State.cancelEntry, h]

theorem State.cancelEntry_sent (h : (s.entry r).state = .sent) : s.cancelEntry r =
    (((s.setEntry r ((s.entry r).completed .cancelled)).pushCq r).latch .completion).setResult 4 .ok := by
  rw [State.cancelEntry, h]
  exact congrArg (·.setResult 4 .ok) (State.completeAs_active _ (.inr h))

theorem State.cancelEntry_queued (h : (s.entry r).state = .queued) :
    s.cancelEntry r = settle ((s.cancelQueued r).setResult 4 .ok) := by
  rw [State.cancelEntry, h]

/-- The REQ in a slot is in transmission where a copy of the slot has started (R92). -/
theorem State.slotStarted_iff {l : LinkId} {i : SlotIx} : s.slotStarted l i = true ↔
    ∃ e ∈ (s.link l).tx.queue .req, e.source = .slot i ∧ e.started = true := by
  simp [State.slotStarted, EgressEntry.namesSlot]

theorem State.cancelQueued_started {i : SlotIx} (hslot : (s.entry r).slot = some i)
    (h : s.slotStarted (s.entry r).egress i = true) :
    s.cancelQueued r = s.setEntry r { s.entry r with cancelPending := true } := by
  rw [State.cancelQueued, hslot]
  exact if_pos h

/-- The withdrawal of a slot's one copy frees the slot (R92, R107). -/
theorem State.withdrawReq_last (l : LinkId) {i : SlotIx} {k : Slot} (hk : s.slot i = some k) (hone : k.copies = 1) :
    s.withdrawReq l i = ((s.modLink l (fun n =>
      { n with tx := n.tx.withdraw (fun e => !e.namesSlot i) })).setSlot i none).latch .txSpace := by
  rw [State.withdrawReq, State.endSlotCopy, State.modLink_slot, hk]
  exact if_pos (Nat.le_of_eq hone)

theorem State.cancelQueued_withdrawn {i : SlotIx} {k : Slot} (hq : (s.entry r).state = .queued)
    (hslot : (s.entry r).slot = some i) (h : s.slotStarted (s.entry r).egress i = false) (hk : s.slot i = some k)
    (hone : k.copies = 1) : s.cancelQueued r = ((((((s.modLink (s.entry r).egress (fun n =>
        { n with tx := n.tx.withdraw (fun e => !e.namesSlot i) })).setSlot i none).latch .txSpace).setEntry r
      ((s.entry r).completed .cancelled)).pushCq r).latch .completion) := by
  rw [State.cancelQueued, hslot]
  change (if s.slotStarted (s.entry r).egress i then _ else _) = _
  rw [h, State.withdrawReq_last _ hk hone]
  exact State.completeAs_active _ (.inl hq)

end Cancel

/-! ### A local RPY (R64, R120, R121, R123) -/

section Reply

variable {s : State}

theorem State.localHead.plan_eq {l : LinkId} {c : Class} {p : StoredPacket} (h : s.localHead l c p) :
    s.plan l p.hdr = s.planLocal p.hdr := by
  obtain ⟨-, hmal, hgrp, hlocal⟩ := h
  have hnode : s.isLocal p.hdr.dest = true := by simpa [State.isLocal] using hlocal
  simp [State.plan, hmal, hgrp, hnode]

/-- A local RPY goes to the request table (R64). -/
theorem State.planLocal_rpy {h : Header} (hcls : h.cls = 1) : s.planLocal h = { deliver := some .reply } := if_pos hcls

/-- The request table takes every reply (R64). -/
theorem State.planFits_reply (h : Header) : s.planFits h { deliver := some .reply } = true := rfl

theorem replyEntry_eq {h : Header} {r : ReqIx} (hr : r.val = h.tag.toNat % 16) : replyEntry h = r := by
  refine Fin.ext ?_
  rw [hr]
  simp [replyEntry]

/-- The three conditions of R120. -/
theorem State.replyMatches_iff {h : Header} {r : ReqIx} (hr : r.val = h.tag.toNat % 16) : s.replyMatches h = true ↔
    (s.entry r).state = .sent ∧ (s.entry r).gen.toNat = h.tag.toNat / 16 ∧ (s.entry r).dest = h.src := by
  have hgen : (s.entry r).gen = h.tag.extractLsb' 4 2 ↔ (s.entry r).gen.toNat = h.tag.toNat / 16 := by
    have := h.tag.isLt
    rw [← BitVec.toNat_inj, BitVec.extractLsb'_toNat, Nat.shiftRight_eq_div_pow]
    omega
  rw [State.replyMatches, replyEntry_eq hr, decide_eq_true_iff, hgen]

theorem State.takeReply_matching {h : Header} {r : ReqIx} (data : List Cell) (o : Origin) (hr : r.val = h.tag.toNat % 16)
    (hm : (s.entry r).state = .sent ∧ (s.entry r).gen.toNat = h.tag.toNat / 16 ∧ (s.entry r).dest = h.src) :
    s.takeReply h data o = ((s.setEntry r { (s.entry r).completed (replyStatus h.kind) with
      replyKind := some h.kind, replyUser := h.user, replySrc := h.src, replyLen := h.len
      replyData := replySlot (data.take h.len.toNat) }).pushCq r).latch .completion := by
  rw [State.takeReply, if_pos ((State.replyMatches_iff hr).2 hm), replyEntry_eq hr]
  exact State.completeAs_active _ (.inr hm.1)

theorem State.takeReply_stale {h : Header} {r : ReqIx} (data : List Cell) (o : Origin) (hr : r.val = h.tag.toNat % 16)
    (hm : ¬ ((s.entry r).state = .sent ∧ (s.entry r).gen.toNat = h.tag.toNat / 16 ∧ (s.entry r).dest = h.src)) :
    s.takeReply h data o = (s.drop .stale o h).latch .stale := by
  rw [State.takeReply, if_neg (mt (State.replyMatches_iff hr).1 hm)]

/-- A local RPY at the head of its queue is taken by the request table at once (R60, R64). -/
theorem exec_dispatch_reply {l : LinkId} {c : Class} {p : StoredPacket} (hs : s.inReset = false) (h : s.localHead l c p)
    (hcls : p.hdr.cls = 1) : ∃ t, exec (.dispatch l c) s = .next t ∧
      EndsAs ((s.takeReply p.hdr p.data (.link l)).letGo l c p) t := by
  have hplan : s.plan l p.hdr = { deliver := some .reply } := h.plan_eq.trans (State.planLocal_rpy hcls)
  have hgo := exec_dispatch_fits hs h.1 (hplan ▸ State.planFits_reply p.hdr)
  rwa [hplan, State.applyPlan_letGo s l c p rfl] at hgo

theorem replySlot_entry (data : List Cell) (j : Fin 7) : (replySlot data)[j] = data.getD j 0 := by
  simp [replySlot]

end Reply

end Sys2Proof.Machine
end

section
/-! The statements on the request table and its completions (spec 07). -/

namespace Sys2Proof.Machine

/-- Settles O55: each move of the table keeps the law and the queue's entries; CQ_RELEASE takes the head, and the resets
leave a table of FREE entries. -/
theorem completionLawKept : Obligations.CompletionLawKept := by
  unfold Obligations.CompletionLawKept
  intro s t hs hstep
  obtain ⟨s₀, e₀, hcases⟩ := step_turnOf hstep
  have hs₀ : s₀.CompletionLaw := by rw [e₀]; exact hs
  have hcq₀ : s₀.cq = s.cq := by rw [e₀]
  have hlaw : t.CompletionLaw := by
    rcases hcases with moves | ⟨c, -, turn⟩
    exacts [moves.completionLaw hs₀, turn.completionLaw hs₀]
  have hrun {c : Instr} (hc : s.pending.head? = some c) : exec c { s with pending := s.pending.tail } = .next t :=
    (step_of_front hc).symm.trans hstep
  refine ⟨hlaw, hlaw.1.length_le_card, fun hreset hc => ?_, fun hreset hc => ?_, fun hc => ?_, fun hkeeps => ?_⟩
  · rw [← Host.Outcome.next.inj ((exec_cqRelease (s := { s with pending := s.pending.tail }) hreset).symm.trans (hrun hc))]
    exact State.cqRelease_cq _
  · rw [← Host.Outcome.next.inj ((exec_softReset (s := { s with pending := s.pending.tail }) hreset).symm.trans (hrun hc))]
    exact State.softReset_cq _
  · cases hrun hc
    exact State.resetInput_cq _
  · rw [← hcq₀]
    rcases hcases with moves | ⟨c, hc, turn⟩
    · exact moves.cq_prefix
    · obtain ⟨hwf, hrelease, hsoft, hpower⟩ := hkeeps c hc
      exact turn.cq_prefix hwf hrelease hsoft hpower

/-- Settles O59: moves never return an entry to FREE; CQ_RELEASE and SOFT_RESET do, each with the next generation. -/
theorem generationAdvances : Obligations.GenerationAdvances := by
  unfold Obligations.GenerationAdvances
  refine ⟨ReqEntry.tag_toNat, fun s t r hs hstep hpower => ?_⟩
  obtain ⟨s₀, e₀, hcases⟩ := step_turnOf hstep
  have hs₀ : s₀.CompletionLaw := by rw [e₀]; exact hs
  have hentry : s₀.entry r = s.entry r := by rw [e₀]; rfl
  rw [← hentry]
  rcases hcases with moves | ⟨c, hc, turn⟩
  · exact (moves.sameUse r).advances
  · exact turn.advances hs₀ (fun e => hpower (e ▸ hc)) r

/-- Settles O19: the checks passed leave a free slot and a FREE entry, of which the lowest are taken, and a unicast with
one target. -/
theorem submitRequest : Obligations.SubmitRequest := by
  unfold Obligations.SubmitRequest
  rintro s h hs rfl ha hcls
  obtain ⟨hgood, hslots, htable⟩ := State.accepted_checks ha
  have hgrp := Header.unicast_of_req hgood hcls
  have htargets := State.targets_unicast s hgrp
  obtain ⟨i, hi⟩ := State.freeSlot_isSome (fun hnone => hslots (.inl hnone))
  obtain ⟨r, hr⟩ := State.freeEntry_isSome (fun hnone => htable ⟨hcls, hnone⟩)
  rw [exec_submit hs, State.submit_accepted ha, htargets, State.submitAccepted_req _ hi hcls hr,
    State.submitReq_unicast (h := s.composed) i r _ hcls hgrp]
  exact ⟨_, i, r, rfl, State.freeSlot_none hi, State.freeSlot_lowest hi, State.freeEntry_free hr,
    State.freeEntry_lowest hr, settle_endsAs _⟩

/-- Settles O22: the operand's range, then the states of R118's table; in QUEUED whether the packet has started. -/
theorem reqCancel : Obligations.ReqCancel := by
  unfold Obligations.ReqCancel
  refine ⟨fun n s hs hn => ?_, fun n r s hs hn => ?_⟩
  · rw [exec_reqCancel hs, State.reqCancel_badField hn]; rfl
  rw [exec_reqCancel hs, State.reqCancel_of_operand hn]
  refine ⟨fun hidle => ?_, fun hsent => ?_, fun i hqueued hslot => ⟨fun hstarted => ?_, fun hwaits k hk hone => ?_⟩⟩
  · rw [State.cancelEntry_idle hidle]; rfl
  · rw [State.cancelEntry_sent hsent]
    refine ⟨_, rfl, ?_, fun q hq => ?_, rfl, rfl, rfl, rfl⟩
    · exact (State.entry_setEntry s r r _).trans (if_pos rfl)
    · exact (State.entry_setEntry s r q _).trans (if_neg hq)
  · rw [State.cancelEntry_queued hqueued, State.cancelQueued_started hslot (State.slotStarted_iff.2 hstarted)]
    exact ⟨_, rfl, settle_endsAs _⟩
  · have hnot : s.slotStarted (s.entry r).egress i = false := by
      refine Bool.eq_false_iff.2 fun hstarted => ?_
      obtain ⟨e, he, hnames, hgone⟩ := State.slotStarted_iff.1 hstarted
      exact Bool.false_ne_true ((hwaits e he hnames).symm.trans hgone)
    rw [State.cancelEntry_queued hqueued, State.cancelQueued_withdrawn hqueued hslot hnot hk hone]
    exact ⟨_, rfl, settle_endsAs _⟩

/-- Settles O40: the request table takes the reply at its dispatch, and R120's conditions decide between completion and
the drop. -/
theorem dispatchReply : Obligations.DispatchReply := by
  unfold Obligations.DispatchReply
  intro s l c p r hs h hcls hr
  have hgo := exec_dispatch_reply hs h hcls
  refine ⟨fun hmatch => ?_, fun hstale => ?_⟩
  · rw [State.takeReply_matching _ _ hr hmatch] at hgo
    obtain ⟨t, ht, hends⟩ := hgo
    exact ⟨replySlot (p.data.take p.hdr.len.toNat), t, ht, replySlot_entry _, hends⟩
  · rwa [State.takeReply_stale _ _ hr hstale] at hgo

/-- Settles O21: on each queue the two cases of its command. -/
theorem queueHeadsRemoved : Obligations.QueueHeadsRemoved := by
  unfold Obligations.QueueHeadsRemoved
  refine ⟨fun s hs => ⟨fun hempty => ?_, fun e rest hcons => ?_⟩, fun s hs => ⟨fun hempty => ?_, fun r rest hcons => ?_⟩⟩
  · rw [exec_rxPop hs, State.rxPop_of_empty hempty]; rfl
  · rw [exec_rxPop hs, State.rxPop_of_cons hcons]
    exact ⟨_, rfl, settle_endsAs _⟩
  · rw [exec_cqRelease hs, State.cqRelease_of_empty hempty]; rfl
  · rw [exec_cqRelease hs, State.cqRelease_of_cons hcons]
    refine ⟨_, rfl, rfl, ?_, fun q hq => ?_, rfl, rfl⟩
    · exact (State.entry_setEntry _ r r _).trans (if_pos rfl)
    · exact (State.entry_setEntry _ r q _).trans (if_neg hq)

end Sys2Proof.Machine
end

section
/-! SUPPORT. The commands of the sync counters on a released part: the operand's range, the firing check of a counter that
was just armed, and what a command changes beside its counter (R153–R158). -/

namespace Sys2Proof.Machine

theorem counterOperand_eq_none {k : BitVec 5} (h : 8 ≤ k) : counterOperand k = none :=
  dif_neg (Nat.not_lt.2 (BitVec.le_def.1 h))

theorem counterOperand_eq_some {k : BitVec 5} {j : Fin 8} (h : k.toNat = j.val) : counterOperand k = some j := by
  simp [counterOperand, h]

/-! ### The rows while RESET is released (R176) -/

section Rows

variable {s : State} (h : s.inReset = false)
include h

theorem exec_syncArm (k : BitVec 5) (x : BitVec 8) : exec (.syncArm k x) s = .next (s.syncArm k x) :=
  congrArg _ (State.unlessReset_of_released _ h)

theorem exec_syncTake (k : BitVec 5) : exec (.syncTake k) s = .next (s.syncTake k) :=
  congrArg _ (State.unlessReset_of_released _ h)

theorem exec_syncDisarm (k : BitVec 5) : exec (.syncDisarm k) s = .next (s.syncDisarm k) :=
  congrArg _ (State.unlessReset_of_released _ h)

theorem exec_syncClear (k : BitVec 5) : exec (.syncClear k) s = .next (s.syncClear k) :=
  congrArg _ (State.unlessReset_of_released _ h)

end Rows

/-! ### The cases of each command (R154–R158) -/

section Cases

variable {s : State} {k : BitVec 5} {j : Fin 8}

theorem State.syncArm_badField {x : BitVec 8} (h : 8 ≤ k ∨ x = 0) : s.syncArm k x = s.setResult 7 .badField := by
  obtain hk | rfl := h
  · rw [State.syncArm, counterOperand_eq_none hk]
  · cases hi : counterOperand k <;> simp [State.syncArm, hi]

theorem State.syncArm_of_target {x : BitVec 8} (hk : k.toNat = j.val) (hx : x ≠ 0) :
    s.syncArm k x = (s.armCounter j x).setResult 7 .ok := by
  rw [State.syncArm, counterOperand_eq_some hk]
  exact if_neg hx

theorem State.syncTake_badField (h : 8 ≤ k) : s.syncTake k = s.setResult 8 .badField := by
  rw [State.syncTake, counterOperand_eq_none h]

theorem State.syncTake_notReady (hk : k.toNat = j.val) (h : (s.counter j).count < (s.counter j).target) :
    s.syncTake k = s.setResult 8 .notReady := by
  rw [State.syncTake, counterOperand_eq_some hk]
  exact if_neg (BitVec.not_le.2 h)

theorem State.syncTake_ready (hk : k.toNat = j.val) (h : (s.counter j).target ≤ (s.counter j).count) :
    s.syncTake k = (s.takeRound j).setResult 8 .ok := by
  rw [State.syncTake, counterOperand_eq_some hk]
  exact if_pos h

theorem State.syncDisarm_badField (h : 8 ≤ k) : s.syncDisarm k = s.setResult 9 .badField := by
  rw [State.syncDisarm, counterOperand_eq_none h]

theorem State.syncDisarm_of_operand (hk : k.toNat = j.val) :
    s.syncDisarm k = (s.setCounter j { s.counter j with armed := false }).setResult 9 .ok := by
  rw [State.syncDisarm, counterOperand_eq_some hk]

theorem State.syncClear_badField (h : 8 ≤ k) : s.syncClear k = s.setResult 10 .badField := by
  rw [State.syncClear, counterOperand_eq_none h]

theorem State.syncClear_of_operand (hk : k.toNat = j.val) :
    s.syncClear k = (s.setCounter j ⟨0, (s.counter j).target, false, false, false⟩).setResult 10 .ok := by
  rw [State.syncClear, counterOperand_eq_some hk]

end Cases

/-! ### The firing check (R153) -/

theorem SyncCounter.fires_armed (n x : BitVec 8) (f o : Bool) : SyncCounter.fires ⟨n, x, true, f, o⟩ = decide (x ≤ n) := by
  simp [SyncCounter.fires]

/-- A counter just armed is left armed below its target and fired from its target on. -/
theorem SyncCounter.check_armed (n x : BitVec 8) (o : Bool) :
    SyncCounter.check ⟨n, x, true, false, o⟩ = ⟨n, x, decide (n < x), decide (x ≤ n), o⟩ := by
  by_cases h : x ≤ n
  · simp [SyncCounter.check, h, BitVec.not_lt.2 h]
  · simp [SyncCounter.check, h, BitVec.not_le.1 h]

theorem SyncCounter.check_of_not_fires {c : SyncCounter} (h : c.fires = false) : c.check = c :=
  if_neg (of_decide_eq_false h)

/-- The firing check touches the counter and, where it fires, the event latch. -/
theorem State.checkCounter_eq (s : State) (j : Fin 8) (c : SyncCounter) : s.checkCounter j c =
    { s.setCounter j c.check with events := if c.fires then s.events.latched .sync else s.events } := by
  unfold State.checkCounter
  split
  · rfl
  next h => rw [SyncCounter.check_of_not_fires (Bool.eq_false_iff.2 h)]; rfl

/-! ### What a command changes beside its counter -/

theorem State.setCounter_setResult_effect (s : State) (j : Fin 8) (c : SyncCounter) (cmd : BitVec 4) (r : ResultCode) :
    ((s.setCounter j c).setResult cmd r).counter j = c ∧
    (∀ i, i ≠ j → ((s.setCounter j c).setResult cmd r).counter i = s.counter i) ∧
    ((s.setCounter j c).setResult cmd r).port = { s.port with result := ⟨cmd, r, 0, 0⟩ } ∧
    { (s.setCounter j c).setResult cmd r with sync := s.sync, port := s.port } = s :=
  ⟨(s.counter_setCounter j j c).trans (if_pos rfl), fun i hi => (s.counter_setCounter j i c).trans (if_neg hi), rfl, rfl⟩

/-- What SYNC_ARM and SYNC_TAKE share (R155, R156): counter `j` is armed with count `n` and target `x`, and checked. -/
theorem State.checkCounter_armed_effect (s : State) (j : Fin 8) (n x : BitVec 8) (o : Bool) (cmd : BitVec 4)
    (r : ResultCode) : ∃ t, (s.checkCounter j ⟨n, x, true, false, o⟩).setResult cmd r = t ∧
    t.counter j = ⟨n, x, decide (n < x), decide (x ≤ n), o⟩ ∧
    (∀ i, i ≠ j → t.counter i = s.counter i) ∧
    t.events = { s.events with latch := if x ≤ n then s.events.latch ||| 0x04 else s.events.latch } ∧
    t.port = { s.port with result := ⟨cmd, r, 0, 0⟩ } ∧
    { t with sync := s.sync, events := s.events, port := s.port } = s := by
  rw [State.checkCounter_eq, SyncCounter.check_armed, SyncCounter.fires_armed]
  obtain ⟨hcounter, hothers, -, -⟩ := s.setCounter_setResult_effect j ⟨n, x, decide (n < x), decide (x ≤ n), o⟩ cmd r
  refine ⟨_, rfl, hcounter, hothers, ?_, rfl, rfl⟩
  by_cases h : x ≤ n <;> simp [h, EventUnit.latched, EventBit.mask]

end Sys2Proof.Machine
end

section
/-! The statements on the sync counter commands (spec 09). -/

namespace Sys2Proof.Machine

/-- Settles O25: the refusals by operand and count; else both commands arm the counter and make the firing check. -/
theorem syncArmAndTake : Obligations.SyncArmAndTake := by
  unfold Obligations.SyncArmAndTake
  refine ⟨fun k x s hs hbad => ?_, fun k j x s hs hk hx => ?_, fun k s hs hk => ?_, fun k j s hs hk hbelow => ?_,
    fun k j s left hs hk hready hleft => ?_⟩
  · rw [exec_syncArm hs, State.syncArm_badField hbad]; rfl
  · rw [exec_syncArm hs, State.syncArm_of_target hk hx]
    obtain ⟨t, ht, effect⟩ := s.checkCounter_armed_effect j (s.counter j).count x (s.counter j).overflow 7 .ok
    exact ⟨t, congrArg _ ht, effect⟩
  · rw [exec_syncTake hs, State.syncTake_badField hk]; rfl
  · rw [exec_syncTake hs, State.syncTake_notReady hk hbelow]; rfl
  · rw [exec_syncTake hs, State.syncTake_ready hk hready]
    subst hleft
    obtain ⟨t, ht, effect⟩ := s.checkCounter_armed_effect j ((s.counter j).count - (s.counter j).target)
      (s.counter j).target (s.counter j).overflow 8 .ok
    exact ⟨t, congrArg _ ht, effect⟩

/-- Settles O26: the operand's range; else one counter is replaced, and no firing check is made. -/
theorem syncDisarmAndClear : Obligations.SyncDisarmAndClear := by
  unfold Obligations.SyncDisarmAndClear
  refine ⟨fun k s hs hk => ⟨?_, ?_⟩, fun k j s hs hk => ⟨?_, ?_⟩⟩
  · rw [exec_syncDisarm hs, State.syncDisarm_badField hk]; rfl
  · rw [exec_syncClear hs, State.syncClear_badField hk]; rfl
  · rw [exec_syncDisarm hs, State.syncDisarm_of_operand hk]
    exact ⟨_, rfl, s.setCounter_setResult_effect j _ 9 .ok⟩
  · rw [exec_syncClear hs, State.syncClear_of_operand hk]
    exact ⟨_, rfl, s.setCounter_setResult_effect j _ 10 .ok⟩

end Sys2Proof.Machine
end

section
/-! SUPPORT. A drop at the event unit and DROP_CLEAR; the rest of an event that leaves no head to dispatch and no link UP;
SOFT_RESET's effect on the part, its links and its lanes (R20, R33, R171–R175). -/

namespace Sys2Proof.Machine

/-! ### The rows while RESET is released (R176) -/

theorem exec_dropClear {s : State} (h : s.inReset = false) : exec .dropClear s = .next s.dropClear :=
  congrArg _ (State.unlessReset_of_released _ h)

/-! ### The event latch and the capture record (R170, R172, R174) -/

/-- A part with nothing latched deasserts INT (R170). -/
theorem State.intAsserted_of_none_latched {s : State} (h : s.events.latch = 0) : s.intAsserted = false := by
  simp [State.intAsserted, h]

theorem State.drop_capture (s : State) (why : DropReason) (origin : Origin) (h : Header) :
    (s.drop why origin h).events.capture = s.events.capture.or (some (DropRecord.of why origin h)) := rfl

/-- A free record and a zero count read 0 (R172). -/
theorem State.dropClear_reads {s : State} (h : s.inReset = false) :
    readWord s.dropClear 10 = 0 ∧ readWord s.dropClear 11 = 0 ∧ readWord s.dropClear 12 = 0 := by
  have released : s.dropClear.inReset = false := h
  refine ⟨?_, ?_, ?_⟩ <;> rw [readWord, released] <;> rfl

/-- RESULT, the capture record and DROP_COUNT are read at their own words alone. -/
theorem State.dropClear_window (s : State) : SameWindowBut s s.dropClear [7, 10, 11, 12] := by
  intro a ha
  have hne : ∀ b ∈ [7, 10, 11, 12], a.toNat ≠ BitVec.toNat b := fun b hb e => ha (BitVec.eq_of_toNat_eq e ▸ hb)
  have h7 : a.toNat ≠ 7 := hne 7 (by decide)
  have h10 : a.toNat ≠ 10 := hne 10 (by decide)
  have h11 : a.toNat ≠ 11 := hne 11 (by decide)
  have h12 : a.toNat ≠ 12 := hne 12 (by decide)
  simp only [readWord, readWordNat, if_neg h7, if_neg h10, if_neg h11, if_neg h12]
  rfl

/-! ### The drained links leave HOLD (R20) -/

theorem State.leaveHold_link (s : State) (l m : LinkId) : (s.leaveHold l).link m =
    if m = l ∧ (s.link m).drained = true then (s.link m).enterWaitPeer else s.link m := by
  unfold State.leaveHold
  by_cases hm : m = l
  · subst hm
    split <;> simp_all [State.enterWaitPeer, State.sendInit]
  · split <;> simp [State.enterWaitPeer, State.sendInit, State.link_modLink, hm]

theorem State.leaveHolds_link (s : State) (l : LinkId) : s.leaveHolds.link l =
    if (s.link l).drained = true then (s.link l).enterWaitPeer else s.link l := by
  simp only [State.leaveHolds, linkIds, List.foldl_cons, List.foldl_nil, State.leaveHold_link]
  fin_cases l <;> simp

theorem State.leaveHolds_frame (s : State) : { s.leaveHolds with links := s.links, lane := s.lane } = s :=
  leaveHolds_induct (P := fun t => { t with links := s.links, lane := s.lane } = s) (fun _ _ _ h => h) rfl

theorem State.leaveHolds_of_none_drained {s : State} (h : ∀ l, (s.link l).drained = false) : s.leaveHolds = s := by
  simp [State.leaveHolds, State.leaveHold, linkIds, h]

/-! ### An event that leaves no head to dispatch and no link UP (R20, R61, R83) -/

theorem State.nextReady_of_empty {s : State} (hstore : ∀ l, (s.link l).store.packets = []) (hjobs : s.jobs = []) :
    s.nextReady = none := by
  refine List.find?_eq_none.2 fun r _ => ?_
  cases r with
  | ingress l c => simp [State.ready, State.ingressHead, Store.queue, hstore]
  | responder => simp [State.ready, State.jobHead, hjobs]

theorem Link.canAct_of_not_up {n : Link} (h : n.state ≠ .up) : n.canAct = false := by
  simp [Link.canAct, h]

/-- All that is left to happen is that the drained links leave HOLD. -/
theorem settle_eq_leaveHolds {s : State} (hready : s.nextReady = none) (hdown : ∀ l, (s.link l).state ≠ .up) :
    settle s = s.leaveHolds := by
  have settled : s.leaveHolds.Settled := by
    refine ⟨s.leaveHolds_sameRoom.nextReady.trans hready, fun l => ⟨s.leaveHolds_drained l, Link.canAct_of_not_up ?_⟩⟩
    rw [State.leaveHolds_link]
    split
    · nofun
    · exact hdown l
  calc settle s = settle s.leaveHolds := by
        rw [settle, settle, State.leaveHolds_of_none_drained s.leaveHolds_drained]
    _ = s.leaveHolds := settle_of_settled settled

/-! ### A link at SOFT_RESET (R33, R54, R95) -/

theorem Link.softReset_words (n : Link) :
    n.softReset.state = (if n.ctrl.enable then .hold else .off) ∧
    n.softReset.holdTimer = (if n.ctrl.enable then holdStart n.ctrl.linkHold else none) ∧
    n.softReset.tx = Transmitter.idle ∧ n.softReset.store = { Store.empty with nextId := n.store.nextId } ∧
    n.softReset.ctrl = n.ctrl ∧ n.softReset.peer = n.peer ∧ n.softReset.seen = n.seen ∧
    n.softReset.cause = (if n.state = .up then .softReset else n.cause) := by
  cases he : n.ctrl.enable <;> simp [Link.softReset, Link.moveTo, Link.enterHold, Link.enterOff, he]

theorem Link.softReset_not_up (n : Link) : n.softReset.state ≠ .up := by
  rw [n.softReset_words.1]; split <;> nofun

/-- The emptied store of a link in HOLD waits for the hold timer alone, and LINK_HOLD 0 starts none (R19, R20). -/
theorem Link.softReset_drained (n : Link) :
    n.softReset.drained = true ↔ n.ctrl.enable = true ∧ n.ctrl.linkHold = 0 := by
  obtain ⟨hstate, hhold, -, hstore, -⟩ := n.softReset_words
  rw [Link.drained, hstate, hhold, hstore]
  cases n.ctrl.enable <;> by_cases h0 : n.ctrl.linkHold = 0 <;> simp [holdStart, Store.empty, h0]

/-! ### What SOFT_RESET sends (R33, R89) -/

theorem State.softResetLane_sent (s : State) (l m : LinkId) : ∃ cells, (s.softResetLane l).sent m = s.sent m ++ cells ∧
    (m = l → (s.link m).state = .up → ⟨true, teardownCell⟩ ∈ cells) := by
  unfold State.softResetLane
  split
  · obtain ⟨ds, hcut, -⟩ := s.cutTransmission_sent l
    by_cases hm : m = l
    · refine ⟨packetCells ds ++ [⟨true, teardownCell⟩], ?_, fun _ _ => by simp⟩
      simp [State.sendTeardown, State.sent_send, hcut, hm]
    · refine ⟨[], ?_, fun e => absurd e hm⟩
      simp [State.sendTeardown, State.sent_send, hcut, hm]
  next hdown => exact ⟨[], by simp, fun e hup => absurd (e ▸ hup) hdown⟩

theorem State.softResetLanes_sent (m : LinkId) : ∀ (ls : List LinkId) (s : State), ∃ cells,
    (ls.foldl State.softResetLane s).sent m = s.sent m ++ cells ∧
    (m ∈ ls → (s.link m).state = .up → ⟨true, teardownCell⟩ ∈ cells) := by
  intro ls
  induction ls with
  | nil => exact fun s => ⟨[], by simp, by simp⟩
  | cons l ls ih =>
    intro s
    obtain ⟨first, hfirst, htorn⟩ := s.softResetLane_sent l m
    obtain ⟨rest, hrest, htorn'⟩ := ih (s.softResetLane l)
    rw [(s.softResetLane_laneOnly l).link m] at htorn'
    refine ⟨first ++ rest, by rw [List.foldl_cons, hrest, hfirst, List.append_assoc], fun hm hup => ?_⟩
    rcases List.mem_cons.1 hm with e | hm
    · exact List.mem_append_left _ (htorn e hup)
    · exact List.mem_append_right _ (htorn' hm hup)

/-! ### SOFT_RESET on the part (R175) -/

theorem State.softReset_eq (s : State) : s.softReset = s.softResetCore.leaveHolds := by
  refine settle_eq_leaveHolds (State.nextReady_of_empty (fun l => ?_) rfl) fun l => ?_
  · obtain ⟨-, -, -, hstore, -⟩ := (s.link l).softReset_words
    rw [s.softResetCore_link l, hstore]; rfl
  · rw [s.softResetCore_link l]; exact (s.link l).softReset_not_up

/-- The links that leave HOLD change nothing but themselves and their lanes. -/
theorem State.softReset_frame (s : State) :
    { s.softReset with links := s.softResetCore.links, lane := s.softResetCore.lane } = s.softResetCore := by
  rw [s.softReset_eq]; exact s.softResetCore.leaveHolds_frame

theorem State.softReset_link (s : State) (l : LinkId) : s.softReset.link l =
    if (s.link l).ctrl.enable = true ∧ (s.link l).ctrl.linkHold = 0 then (s.link l).softReset.enterWaitPeer
    else (s.link l).softReset := by
  rw [s.softReset_eq, State.leaveHolds_link, s.softResetCore_link]
  exact if_congr (s.link l).softReset_drained rfl rfl

theorem State.softResetCore_sent (s : State) (l : LinkId) :
    s.softResetCore.sent l = (linkIds.foldl State.softResetLane s).sent l := by
  rw [State.softResetCore, State.sent, State.sent]

theorem State.softReset_sent (s : State) (l : LinkId) : ∃ cells, s.softReset.sent l = s.sent l ++ cells ∧
    ((s.link l).state = .up → ⟨true, teardownCell⟩ ∈ cells) := by
  obtain ⟨cells, hcells, htorn⟩ := State.softResetLanes_sent l linkIds s
  obtain ⟨inits, hinits⟩ := (settle_aftermath s.softResetCore).sent l
  refine ⟨cells ++ inits, ?_, fun hup => List.mem_append_left _ (htorn (by fin_cases l <;> decide) hup)⟩
  rw [State.softReset, ← hinits, s.softResetCore_sent, hcells, List.append_assoc]

/-- What SOFT_RESET makes of everything but the links, their lanes and the request table. -/
theorem State.softReset_fields (s : State) :
    s.softReset.port = { s.port with cfgReject := false, compose := Vector.replicate 16 0, result := ⟨6, .ok, 0, 0⟩ } ∧
    s.softReset.events = ⟨0, s.events.enable, 0, none⟩ ∧ s.softReset.route = { s.route with position := 11 } ∧
    s.softReset.divider = s.divider ∧ s.softReset.inbound = [] ∧ s.softReset.jobs = [] ∧
    s.softReset.slots = Vector.replicate 8 none ∧ s.softReset.sync = Vector.replicate 8 SyncCounter.initial := by
  have lanes := s.softResetLanes_laneOnly linkIds
  have frame := s.softReset_frame
  simp only [State.mk.injEq, State.softResetCore, lanes.port, lanes.events, lanes.route, lanes.divider] at frame
  obtain ⟨-, hport, hevents, hroute, -, hslots, -, -, hinbound, hjobs, -, hsync, hdivider, -⟩ := frame
  exact ⟨hport, hevents, hroute, hdivider, hinbound, hjobs, hslots, hsync⟩

/-- A link's own words after SOFT_RESET (R20, R33, R54, R95). -/
theorem State.softReset_link_words (s : State) (l : LinkId) :
    (s.softReset.link l).ctrl = (s.link l).ctrl ∧ (s.softReset.link l).peer = (s.link l).peer ∧
    (s.softReset.link l).cause = (if (s.link l).state = .up then .softReset else (s.link l).cause) ∧
    (s.softReset.link l).store = { Store.empty with nextId := (s.link l).store.nextId } ∧
    (s.softReset.link l).tx = Transmitter.idle ∧
    (s.softReset.link l).state = (if (s.link l).ctrl.enable = false then .off
      else if (s.link l).ctrl.linkHold = 0 then .waitPeer else .hold) ∧
    ((s.softReset.link l).state ≠ .waitPeer → (s.softReset.link l).seen = (s.link l).seen) ∧
    (s.softReset.link l).holdTimer = (if (s.link l).ctrl.enable = false ∨ (s.link l).ctrl.linkHold = 0 then none
      else some ((s.link l).ctrl.linkHold.toNat * 64)) := by
  obtain ⟨hstate, hhold, htx, hstore, hctrl, hpeer, hseen, hcause⟩ := (s.link l).softReset_words
  rw [s.softReset_link l]
  cases henable : (s.link l).ctrl.enable with
  | false =>
    rw [if_neg (by simp)]
    exact ⟨hctrl, hpeer, hcause, hstore, htx, by simp [hstate, henable], fun _ => hseen, by simp [hhold, henable]⟩
  | true =>
    by_cases hzero : (s.link l).ctrl.linkHold = 0
    · rw [if_pos ⟨rfl, hzero⟩]
      refine ⟨hctrl, hpeer, hcause, hstore, htx, ?_, fun hne => absurd rfl hne, hhold.trans ?_⟩
      · simp [Link.enterWaitPeer, hzero]
      · simp [holdStart, hzero]
    · rw [if_neg fun leaves => hzero leaves.2]
      refine ⟨hctrl, hpeer, hcause, hstore, htx, ?_, fun _ => hseen, hhold.trans ?_⟩
      · simpa [hstate, henable] using hzero
      · simp [holdStart, Config.holdUnit, henable]

end Sys2Proof.Machine
end

section
/-! The statements on host events, drop capture and SOFT_RESET (spec 10). -/

namespace Sys2Proof.Machine

/-- Settles O27: a drop is one drop noted at the event unit, and DROP_CLEAR writes the count, the record and RESULT alone. -/
theorem dropClear : Obligations.DropClear := by
  unfold Obligations.DropClear
  refine ⟨fun s why origin h => ⟨?_, fun hfree => ?_, fun d hd => ?_, rfl, rfl, rfl⟩, fun s hs => ?_⟩
  · exact (Noted.drop s why origin h).count
  · rw [State.drop_capture, hfree]; rfl
  · rw [State.drop_capture, hd]; rfl
  · obtain ⟨hinfo, hhdr, hcount⟩ := State.dropClear_reads hs
    exact ⟨_, exec_dropClear hs, hinfo, hhdr, hcount, rfl, s.dropClear_window, rfl⟩

/-- Settles O24: SOFT_RESET empties the part, and as that leaves no head and no link UP, all that follows in its event is
that the links without a hold timer leave HOLD. -/
theorem softReset : Obligations.SoftReset := by
  unfold Obligations.SoftReset
  intro s hs
  obtain ⟨hport, hevents, hroute, hdivider, hinbound, hjobs, hslots, hsync⟩ := s.softReset_fields
  have hint : s.softReset.intAsserted = false := State.intAsserted_of_none_latched (congrArg EventUnit.latch hevents)
  refine ⟨_, exec_softReset hs, hport, hevents, hint, hroute, hdivider, s.softReset_cq, hinbound, hjobs, fun i => ?_,
    s.softReset_entry, fun k => ?_, fun l => ?_⟩
  · simp [State.slot, hslots]
  · simp [State.counter, hsync, SyncCounter.initial]
  · obtain ⟨hctrl, hpeer, hcause, hstore, htx, hstate, hseen, hhold⟩ := s.softReset_link_words l
    obtain ⟨cells, hsent, htorn⟩ := s.softReset_sent l
    refine ⟨hctrl, hpeer, hcause, hstore, htx, hstate, hseen, hhold, ⟨cells, hsent.symm⟩, fun hup => ?_⟩
    rw [hsent, List.drop_left]
    exact htorn hup

end Sys2Proof.Machine
end

section
/-! SUPPORT. The laws of a link that is not UP and of the link timers: what each move of a link keeps of them
(R19–R22, R27, R29, R38, R52, R78). -/

namespace Sys2Proof.Machine

/-! ### A link that is not UP -/

/-- What the law asks of a link that is not UP: no credit, empty egress queues, nothing awaiting return, and only
dispatched packets in its store (R29, R38, R52, R78). -/
def Link.AtRest (n : Link) : Prop :=
  n.tx.shared = 0 ∧ n.tx.reserved = PerClass.all false ∧ n.tx.queues = PerClass.all [] ∧ n.store.awaitShared = 0 ∧
    n.store.awaitRes = PerClass.all false ∧ n.store.holdoff = none ∧ n.store.elapsed = false ∧
    ∀ p ∈ n.store.packets, p.cond = .dispatched

theorem Link.downLaw_iff (n : Link) : n.DownLaw ↔ (n.state ≠ .up → n.AtRest) := Iff.rfl

/-- A link at rest has nothing to send. -/
theorem Link.AtRest.queue_eq {n : Link} (h : n.AtRest) (c : Class) : n.tx.queue c = [] := by
  obtain ⟨-, -, hqueues, -⟩ := h
  rw [Transmitter.queue, hqueues, PerClass.get_all]

theorem Link.AtRest.holdoff_none {n : Link} (h : n.AtRest) : n.store.holdoff = none := by
  obtain ⟨-, -, -, -, -, hnone, -⟩ := h
  exact hnone

theorem Link.AtRest.dispatched {n : Link} (h : n.AtRest) : ∀ p ∈ n.store.packets, p.cond = .dispatched := by
  obtain ⟨-, -, -, -, -, -, -, hpackets⟩ := h
  exact hpackets

/-- The end of a copy returns no credit on a link that is not UP, and leaves its packets dispatched (R45, R52). -/
theorem Link.AtRest.endCopy {n : Link} (h : n.AtRest) (hdown : n.state ≠ .up) (id : Nat) : (n.endCopy id).AtRest := by
  have only := n.endCopy_storeOnly id
  obtain ⟨hshared, hres, hhold, helapsed⟩ := only.returns hdown
  rw [Link.AtRest, only.tx, hshared, hres, hhold, helapsed]
  obtain ⟨h1, h2, h3, h4, h5, h6, h7, hpackets⟩ := h
  refine ⟨h1, h2, h3, h4, h5, h6, h7, fun p hp => ?_⟩
  obtain ⟨q, hq, -, -, -, -, hcond⟩ := only.packets p hp
  exact hcond ▸ hpackets q hq

/-- A teardown leaves its link at rest (R29, R42, R51). -/
theorem Link.torn_atRest (n : Link) (why : Cause) : (n.torn why).AtRest := by
  have key (k : Link) (hs : k.store = n.store.torn) (ht : k.tx = n.tx.torn) : k.AtRest := by
    rw [Link.AtRest, hs, ht]
    exact ⟨rfl, rfl, rfl, rfl, rfl, rfl, rfl, fun p hp => by simpa using (List.mem_filter.1 hp).2⟩
  unfold Link.torn Link.moveTo
  split <;> exact key _ rfl rfl

/-- Each move of a link keeps the law of a link that is not UP: those that give credit, queue, store or make anything
await return are moves of a link in UP, and a teardown leaves the link at rest. -/
theorem Link.Move.downLaw {n n' : Link} (m : n.Move n') (h : n.DownLaw) : n'.DownLaw := by
  cases m with
  | hold hdown | off hdown => exact fun _ => h hdown
  | wait hd => exact fun _ => h (by rw [Link.drained_hold hd]; decide)
  | torn why => exact fun _ => n.torn_atRest why
  | append e hup | start _ _ _ _ hup | credit _ _ hup | returned hup | opened _ hup | cell _ hup =>
    exact fun hdown => absurd hup hdown
  | withdraw keep =>
    intro hdown
    obtain ⟨h1, h2, h3, hstore⟩ := h hdown
    refine ⟨h1, h2, ?_, hstore⟩
    simp only [Transmitter.withdraw, h3]
    rfl
  | finish c e rest _ hq =>
    intro hdown
    rw [Link.AtRest.queue_eq (h hdown) c] at hq
    cases hq
  | endCopy id =>
    intro hdown
    rw [(n.endCopy_storeOnly id).state] at hdown
    exact Link.AtRest.endCopy (h hdown) hdown id
  | dispatched p copies hp hq =>
    intro hdown
    obtain ⟨-, -, -, hstate, -⟩ := n.dispatched_words p.id copies
    rw [hstate] at hdown
    rw [Link.AtRest.dispatched (h hdown) p hp] at hq
    cases hq
  | elapsed hruns =>
    intro hdown
    rw [Link.AtRest.holdoff_none (h hdown)] at hruns
    cases hruns
  | unit =>
    intro hdown
    obtain ⟨h1, h2, h3, h4, h5, h6, hrest⟩ := h hdown
    exact ⟨h1, h2, h3, h4, h5, congrArg (Option.map _) h6, hrest⟩
  | note | ctrl | holdOut | initRestart => exact h

/-! ### The store of a link in WAIT_PEER, and the timers (R19–R22, R27) -/

/-- The laws of a link together: what it holds while it is not UP, and which of its timers runs. -/
def Link.RestLaw (n : Link) : Prop := n.DownLaw ∧ n.WaitLaw ∧ n.TimerLaw

theorem Link.moveTo_timerLaw (n : Link) {x : LinkState} (h : x = .hold ∨ x = .off) :
    (n.moveTo x).WaitLaw ∧ (n.moveTo x).TimerLaw := by
  rcases h with rfl | rfl <;> simp [Link.moveTo, Link.WaitLaw, Link.TimerLaw, Link.enterHold, Link.enterOff]

/-- What leaves a link's state, packets and timers alone leaves the two laws. -/
theorem Link.WaitLaw.congr {n n' : Link} (h : n.WaitLaw) (hs : n'.state = n.state)
    (hp : n.store.packets = [] → n'.store.packets = []) : n'.WaitLaw := fun hw => hp (h (hs ▸ hw))

theorem Link.TimerLaw.congr {n n' : Link} (h : n.TimerLaw) (hs : n'.state = n.state)
    (hi : n'.initTimer.isSome = n.initTimer.isSome) (hh : n'.holdTimer.isSome = true → n.holdTimer.isSome = true) :
    n'.TimerLaw := by
  rw [Link.TimerLaw, hs, hi]
  exact ⟨h.1, fun hr => h.2 (hh hr)⟩

theorem StoreOnly.packets_nil {n k : Link} (h : StoreOnly n k) (hn : n.store.packets = []) : k.store.packets = [] := by
  refine List.eq_nil_iff_forall_not_mem.2 fun p hp => ?_
  obtain ⟨q, hq, -⟩ := h.packets p hp
  rw [hn] at hq
  cases hq

theorem StoreOnly.waitLaw {n k : Link} (h : StoreOnly n k) (hn : n.WaitLaw) : k.WaitLaw :=
  Link.WaitLaw.congr hn h.state h.packets_nil

theorem StoreOnly.timerLaw {n k : Link} (h : StoreOnly n k) (hn : n.TimerLaw) : k.TimerLaw :=
  Link.TimerLaw.congr hn h.state (by rw [h.initTimer]) (by rw [h.holdTimer]; exact id)

theorem Link.dispatched_waitLaw {n : Link} (h : n.WaitLaw) (id copies : Nat) : (n.dispatched id copies).WaitLaw := by
  obtain ⟨-, -, -, hstate, -⟩ := n.dispatched_words id copies
  refine Link.WaitLaw.congr h hstate fun hnil => ?_
  rw [(n.dispatched_store id copies).2, hnil]
  exact ite_self []

theorem Link.dispatched_timerLaw {n : Link} (h : n.TimerLaw) (id copies : Nat) : (n.dispatched id copies).TimerLaw := by
  obtain ⟨-, -, -, hstate, -, -, hinit, hhold⟩ := n.dispatched_words id copies
  exact Link.TimerLaw.congr h hstate (by rw [hinit]) (by rw [hhold]; exact fun hr => hr)

/-- A link leaves HOLD with an empty store, and takes packets while it is UP alone (R20, R40). -/
theorem Link.Move.waitLaw {n n' : Link} (m : n.Move n') (h : n.WaitLaw) : n'.WaitLaw := by
  cases m with
  | hold | off => nofun
  | wait hd =>
    intro _
    simp only [Link.drained, Bool.and_eq_true] at hd
    exact List.isEmpty_iff.1 hd.2
  | torn why => exact (Link.moveTo_timerLaw _ (teardownTarget_cases why n.ctrl.auto)).1
  | endCopy id => exact (n.endCopy_storeOnly id).waitLaw h
  | dispatched p copies => exact Link.dispatched_waitLaw h p.id copies
  | opened _ hup | cell _ hup => exact fun hw => by cases hup.symm.trans hw
  | note | ctrl | append | withdraw | start | finish | credit | returned | elapsed | holdOut | initRestart | unit =>
    exact h

/-- The INIT timer starts with WAIT_PEER, the hold timer with HOLD, and each stops when the link leaves (R19–R22). -/
theorem Link.Move.timerLaw {n n' : Link} (m : n.Move n') (h : n.TimerLaw) : n'.TimerLaw := by
  cases m with
  | hold | off => simp [Link.TimerLaw, Link.enterHold, Link.enterOff]
  | wait hd =>
    simp only [Link.drained, Bool.and_eq_true, Option.isNone_iff_eq_none] at hd
    simp [Link.TimerLaw, Link.enterWaitPeer, hd.1.2]
  | torn why => exact (Link.moveTo_timerLaw _ (teardownTarget_cases why n.ctrl.auto)).2
  | endCopy id => exact (n.endCopy_storeOnly id).timerLaw h
  | dispatched p copies => exact Link.dispatched_timerLaw h p.id copies
  | holdOut => exact Link.TimerLaw.congr h rfl rfl nofun
  | initRestart hw => exact Link.TimerLaw.congr h rfl (h.1.2 hw).symm id
  | unit => exact Link.TimerLaw.congr h rfl Option.isSome_map (by simp [Link.unitEnd])
  | note | ctrl | append | withdraw | start | finish | credit | returned | opened | cell | elapsed => exact h

theorem Link.Move.restLaw {n n' : Link} (m : n.Move n') (h : n.RestLaw) : n'.RestLaw :=
  ⟨m.downLaw h.1, m.waitLaw h.2.1, m.timerLaw h.2.2⟩

/-- Soft reset leaves an empty link in HOLD or OFF (R33). -/
theorem Link.softReset_restLaw (n : Link) : n.softReset.RestLaw := by
  obtain ⟨-, -, htx, hstore, -⟩ := n.softReset_words
  have htimers := Link.moveTo_timerLaw { n with
      cause := if n.state = .up then .softReset else n.cause
      store := { Store.empty with nextId := n.store.nextId }
      tx := Transmitter.idle } (x := if n.ctrl.enable then .hold else .off) (by split <;> simp)
  refine ⟨fun _ => ?_, htimers⟩
  rw [htx, hstore]
  exact ⟨rfl, rfl, rfl, rfl, rfl, rfl, rfl, nofun⟩

theorem Link.powerOn_restLaw : Link.powerOn.RestLaw := by
  unfold Link.RestLaw
  decide

/-- The entry to UP stops the INIT timer; the hold timer of a link in WAIT_PEER has run out before (R20, R27). -/
theorem Link.enterUp_restLaw {n : Link} (hw : n.state = .waitPeer) (h : n.RestLaw) : n.enterUp.RestLaw := by
  obtain ⟨-, -, -, hhold⟩ := h
  have hnot : ¬ n.holdTimer.isSome = true := fun hr => by cases hw.symm.trans (hhold hr)
  exact ⟨fun hdown => absurd rfl hdown, nofun, ⟨nofun, nofun⟩, fun hr => absurd hr hnot⟩

end Sys2Proof.Machine
end

section
/-! The statement on links that are not UP and the link timers (spec 02). -/

namespace Sys2Proof.Machine

/-- Settles O51: a link's moves keep the three laws, soft reset and power-on leave an empty link, and the entry to UP
leaves a link whose timers are stopped. -/
theorem linkLawKept : Obligations.LinkLawKept := by
  unfold Obligations.LinkLawKept
  intro s t hs hstep
  exact links_kept (Q := Link.RestLaw) (fun _ _ m => m.restLaw) (fun n _ => n.softReset_restLaw) Link.powerOn_restLaw
    (fun n node hw h => Link.enterUp_restLaw (n := { n with peer := node, seen := true }) hw h) hstep hs

end Sys2Proof.Machine
end

section
/-! SUPPORT. The laws of a transmitter: what each move of a link keeps of its credit, its queues, the packet in transmission
and the run count (R38, R77–R82, R85, R179). -/

namespace Sys2Proof.Machine

/-! ### Credit and queue lengths (R38, R77) -/

theorem Transmitter.queueLaw_iff (t : Transmitter) : t.QueueLaw ↔ ∀ c, (t.queue c).length ≤ 16 := by
  constructor
  · rintro ⟨hreq, hrpy, hpst⟩ (_ | _ | _)
    exacts [hreq, hrpy, hpst]
  · exact fun h => ⟨h _, h _, h _⟩

/-- The two bounds of a transmitter together. -/
def Transmitter.Bounded (t : Transmitter) : Prop := t.CreditLaw ∧ t.QueueLaw

/-- No more credit and no longer queues. -/
theorem Transmitter.Bounded.of_le {t u : Transmitter} (h : t.Bounded) (hs : u.shared ≤ t.shared)
    (hq : ∀ c, (u.queue c).length ≤ (t.queue c).length) : u.Bounded :=
  ⟨hs.trans h.1, u.queueLaw_iff.2 fun c => (hq c).trans (t.queueLaw_iff.1 h.2 c)⟩

theorem Transmitter.append_queue (t : Transmitter) (e : EgressEntry) (c : Class) :
    (t.append e).queue c = if c = e.cls then t.queue c ++ [e] else t.queue c := by
  simp only [Transmitter.append, Transmitter.queue, PerClass.get_set]
  split
  · subst c; rfl
  · rfl

theorem Transmitter.withdraw_queue (t : Transmitter) (keep : EgressEntry → Bool) (c : Class) :
    (t.withdraw keep).queue c = (t.queue c).filter keep := PerClass.get_map _ _ c

theorem Transmitter.start_queue (t : Transmitter) (c d : Class) (run : Nat) (e : EgressEntry) (rest : List EgressEntry) :
    (t.start c run e rest).queue d = if d = c then { e with started := true } :: rest else t.queue d :=
  PerClass.get_set _ c d _

theorem Transmitter.rest_queue (t : Transmitter) (c d : Class) (rest : List EgressEntry) :
    ({ t with queues := t.queues.set c rest } : Transmitter).queue d = if d = c then rest else t.queue d :=
  PerClass.get_set _ c d _

theorem Transmitter.idle_queue (c : Class) : Transmitter.idle.queue c = [] := PerClass.get_all c []

theorem Transmitter.torn_queue (t : Transmitter) (c : Class) : t.torn.queue c = [] := PerClass.get_all c []

theorem Link.torn_tx (n : Link) (why : Cause) : (n.torn why).tx = n.tx.torn := by
  unfold Link.torn Link.moveTo
  split <;> rfl

/-- An entry joins a queue only where there is room (R77, R78). -/
theorem Transmitter.Bounded.append {t : Transmitter} (h : t.Bounded) {e : EgressEntry} (hroom : t.hasRoom e.cls = true) :
    (t.append e).Bounded := by
  refine ⟨h.1, (t.append e).queueLaw_iff.2 fun c => ?_⟩
  rw [Transmitter.append_queue]
  split
  · rename_i hc
    have hlt : (t.queue e.cls).length < 16 := of_decide_eq_true hroom
    rw [hc, List.length_append]
    exact hlt
  · exact t.queueLaw_iff.1 h.2 c

/-- A CREDIT cell adds credit only where that does not overfill the transmitter (R50). -/
theorem Transmitter.Bounded.credited {t : Transmitter} (h : t.Bounded) {count : BitVec 7} {res : PerClass Bool}
    (hfits : t.overfilled count res = false) : (t.credited count res).Bounded := by
  simp only [Transmitter.overfilled, Bool.or_eq_false_iff, decide_eq_false_iff_not, not_lt] at hfits
  obtain ⟨⟨⟨hshared, -⟩, -⟩, -⟩ := hfits
  exact ⟨hshared, h.2⟩

theorem Link.Move.bounded {n n' : Link} (m : n.Move n') (h : n.tx.Bounded) : n'.tx.Bounded := by
  cases m with
  | torn why =>
    rw [Link.torn_tx]
    exact h.of_le (Nat.zero_le _) fun c => by rw [Transmitter.torn_queue]; exact Nat.zero_le _
  | append e _ hroom => exact h.append hroom
  | withdraw keep =>
    refine h.of_le (Nat.le_refl _) fun c => ?_
    rw [Transmitter.withdraw_queue]
    exact List.length_filter_le _ _
  | start c run e rest _ _ _ hq =>
    refine h.of_le ?_ fun d => Nat.le_of_eq (Transmitter.start_length _ _ _ _ _ _ hq)
    simp only [Transmitter.start]
    split <;> omega
  | finish c e rest _ hq =>
    refine h.of_le (Nat.le_refl _) fun d => ?_
    rw [Transmitter.rest_queue]
    split
    · rename_i hd
      rw [hd, hq, List.length_cons]
      exact Nat.le_succ _
    · exact Nat.le_refl _
  | credit count res _ hfits => exact h.credited hfits
  | endCopy id => rw [(n.endCopy_storeOnly id).tx]; exact h
  | dispatched p copies =>
    obtain ⟨-, -, -, -, htx, -⟩ := n.dispatched_words p.id copies
    rw [htx]; exact h
  | note | ctrl | hold | off | wait | returned | opened | cell | elapsed | holdOut | initRestart | unit => exact h

theorem Transmitter.idle_bounded : Transmitter.idle.Bounded := by
  unfold Transmitter.Bounded
  decide

/-! ### The packet in transmission (R79, R82, R85) -/

/-- Where started entries may stand: at the head of a queue, and only of the current class's. -/
theorem Transmitter.startedLaw_iff (t : Transmitter) : t.StartedLaw ↔
    ∀ c, (∀ e ∈ (t.queue c).drop 1, e.started = false) ∧ (∀ e ∈ (t.queue c).head?, e.started = true → c = t.cur) := by
  have hhead (c : Class) : (t.startedHead c).isSome = true ↔ ∃ e ∈ (t.queue c).head?, e.started = true := by
    unfold Transmitter.startedHead
    cases t.queue c with
    | nil => simp
    | cons e rest => by_cases he : e.started = true <;> simp [he]
  have hclasses (c : Class) : c ∈ classes := by cases c <;> decide
  simp only [Transmitter.StartedLaw, List.mem_append, hhead]
  constructor
  · rintro ⟨hlate, hcur⟩ c
    refine ⟨fun e he => hlate e ?_, fun e he hs => hcur c (hclasses c) ⟨e, he, hs⟩⟩
    cases c
    exacts [.inl (.inl he), .inl (.inr he), .inr he]
  · refine fun h => ⟨?_, fun c _ ⟨e, he, hs⟩ => (h c).2 e he hs⟩
    rintro e ((he | he) | he)
    exacts [(h .req).1 e he, (h .rpy).1 e he, (h .pst).1 e he]

theorem Transmitter.mem_entries {t : Transmitter} {e : EgressEntry} : e ∈ t.entries ↔ ∃ c, e ∈ t.queue c := by
  simp only [Transmitter.entries, List.mem_append, Transmitter.queue]
  constructor
  · rintro ((h | h) | h)
    exacts [⟨.req, h⟩, ⟨.rpy, h⟩, ⟨.pst, h⟩]
  · rintro ⟨_ | _ | _, h⟩
    exacts [.inl (.inl h), .inl (.inr h), .inr h]

/-- On an idle lane no entry has started (R79). -/
theorem Transmitter.StartedLaw.none_started {t : Transmitter} (h : t.StartedLaw) (hidle : t.busy = false) (c : Class) :
    ∀ e ∈ t.queue c, e.started = false := by
  refine fun e he => Bool.eq_false_iff.2 fun hs => Bool.false_ne_true (hidle.symm.trans ((t.busy_iff h).2 ⟨e, ?_, hs⟩))
  exact Transmitter.mem_entries.2 ⟨c, he⟩

/-- Queues whose entries have not started are lawful whatever class is current. -/
theorem Transmitter.startedLaw_of_none {t : Transmitter} (h : ∀ c, ∀ e ∈ t.queue c, e.started = false) : t.StartedLaw := by
  refine t.startedLaw_iff.2 fun c => ⟨fun e he => h c e (List.mem_of_mem_drop he), fun e he hs => ?_⟩
  rw [h c e (List.mem_of_mem_head? he)] at hs
  cases hs

/-- The queues of `u` are those of `t`, each without its head or changed so that no later entry and no new head has
started. -/
theorem Transmitter.StartedLaw.of_queues {t u : Transmitter} (h : t.StartedLaw) (hcur : u.cur = t.cur)
    (hq : ∀ c, (∀ e ∈ (u.queue c).drop 1, e.started = true → e ∈ (t.queue c).drop 1) ∧
      (∀ e ∈ (u.queue c).head?, e.started = true → e ∈ (t.queue c).head? ∨ e ∈ (t.queue c).drop 1)) : u.StartedLaw := by
  rw [Transmitter.startedLaw_iff] at h ⊢
  intro c
  obtain ⟨hlate, hhead⟩ := h c
  obtain ⟨hlate', hhead'⟩ := hq c
  refine ⟨fun e he => Bool.eq_false_iff.2 fun hs => ?_, fun e he hs => ?_⟩
  · exact Bool.false_ne_true ((hlate e (hlate' e he hs)).symm.trans hs)
  · rw [hcur]
    rcases hhead' e he hs with he | he
    · exact hhead e he hs
    · exact absurd hs (Bool.eq_false_iff.1 (hlate e he))

/-- An entry that has not started joins a tail (R78). -/
theorem Transmitter.StartedLaw.append {t : Transmitter} (h : t.StartedLaw) {e : EgressEntry} (hs : e.started = false) :
    (t.append e).StartedLaw := by
  refine h.of_queues rfl fun c => ?_
  rw [Transmitter.append_queue]
  split
  · cases t.queue c with
    | nil => simp [hs]
    | cons d rest => simp +contextual [or_imp, hs]
  · exact ⟨fun _ he _ => he, fun _ he _ => .inl he⟩

/-- Entries are withdrawn, and the rest close up in order (R79, R90–R92). -/
theorem Transmitter.StartedLaw.withdraw {t : Transmitter} (h : t.StartedLaw) (keep : EgressEntry → Bool) :
    (t.withdraw keep).StartedLaw := by
  refine h.of_queues rfl fun c => ?_
  rw [Transmitter.withdraw_queue]
  cases t.queue c with
  | nil => simp
  | cons d rest =>
    cases hd : keep d with
    | true => simp +contextual [hd]
    | false =>
      simp only [List.filter_cons, hd, Bool.false_eq_true, if_false, List.drop_one, List.tail_cons]
      exact ⟨fun e he _ => (List.mem_filter.1 (List.mem_of_mem_tail he)).1,
        fun e he _ => .inr (List.mem_filter.1 (List.mem_of_mem_head? he)).1⟩

/-- The head whose last cell has gone leaves its queue (R87). -/
theorem Transmitter.StartedLaw.finish {t : Transmitter} (h : t.StartedLaw) {c : Class} {e : EgressEntry}
    {rest : List EgressEntry} (hq : t.queue c = e :: rest) :
    ({ t with queues := t.queues.set c rest } : Transmitter).StartedLaw := by
  refine h.of_queues rfl fun d => ?_
  rw [Transmitter.rest_queue]
  split
  · rename_i hd
    rw [hd, hq]
    exact ⟨fun _ he _ => List.mem_of_mem_drop he, fun _ he _ => .inr (List.mem_of_mem_head? he)⟩
  · exact ⟨fun _ he _ => he, fun _ he _ => .inl he⟩

/-- The head that starts on an idle lane is the one started entry, and its class becomes current (R82, R85). -/
theorem Transmitter.StartedLaw.start {t : Transmitter} (h : t.StartedLaw) (hidle : t.busy = false) {c : Class} (run : Nat)
    {e : EgressEntry} {rest : List EgressEntry} (hq : t.queue c = e :: rest) : (t.start c run e rest).StartedLaw := by
  have hnone := h.none_started hidle
  refine (Transmitter.startedLaw_iff _).2 fun d => ?_
  rw [Transmitter.start_queue]
  split
  · rename_i hd
    exact ⟨fun f hf => hnone c f (hq ▸ List.mem_cons_of_mem e hf), fun _ _ _ => hd⟩
  · exact ⟨fun f hf => hnone d f (List.mem_of_mem_drop hf),
      fun f hf hs => absurd hs (Bool.eq_false_iff.1 (hnone d f (List.mem_of_mem_head? hf)))⟩

/-! ### Entries and the run count (R77, R81, R82) -/

/-- Every entry of `u` is an entry of `t`'s queue of the class, its Started flag aside, or is itself lawful there. -/
theorem Transmitter.EntryLaw.of_queues {t u : Transmitter} (h : t.EntryLaw) (hq : ∀ c, ∀ e ∈ u.queue c,
      (∃ f ∈ t.queue c, e.cls = f.cls ∧ e.length = f.length) ∨ (e.cls = c ∧ 1 ≤ e.length ∧ e.length ≤ 8)) :
    u.EntryLaw := by
  intro c hc e he
  rcases hq c e he with ⟨f, hf, hcls, hlen⟩ | hlaw
  · rw [hcls, hlen]
    exact h c hc f hf
  · exact hlaw

/-- What the scheduler keeps to: one packet in transmission, whole packets, and a bounded run (R77, R79, R81). -/
def Transmitter.Scheduled (t : Transmitter) : Prop := t.StartedLaw ∧ t.EntryLaw ∧ t.RunLaw

/-- The run count of a start: below the quantum where it continues a run, else 0 (R82). -/
theorem Transmitter.choose_run {t : Transmitter} {quantum : BitVec 8} {c : Class} {run : Nat}
    (h : t.choose quantum = some (c, run)) : run ≤ 254 := by
  have hquantum := quantum.isLt
  unfold Transmitter.choose at h
  grind

theorem Transmitter.Scheduled.start {t : Transmitter} (h : t.Scheduled) (hidle : t.busy = false) {quantum : BitVec 8}
    {c : Class} {run : Nat} {e : EgressEntry} {rest : List EgressEntry} (hchosen : t.choose quantum = some (c, run))
    (hq : t.queue c = e :: rest) : (t.start c run e rest).Scheduled := by
  obtain ⟨hstarted, hentries, -⟩ := h
  refine ⟨hstarted.start hidle run hq, hentries.of_queues fun d f hf => .inl ?_, ?_⟩
  · rw [Transmitter.start_queue] at hf
    split at hf
    · rename_i hd
      rw [hd, hq]
      rcases List.mem_cons.1 hf with rfl | hf
      · exact ⟨e, List.mem_cons_self, rfl, rfl⟩
      · exact ⟨f, List.mem_cons_of_mem e hf, rfl, rfl⟩
    · exact ⟨f, hf, rfl, rfl⟩
  · have hclass : c ∈ classes := by cases c <;> decide
    obtain ⟨-, -, hlength⟩ := hentries c hclass e (hq ▸ List.mem_cons_self)
    have hrun := Transmitter.choose_run hchosen
    change run + e.length ≤ 262
    omega

/-- A transmitter with empty queues whose run is bounded. -/
theorem Transmitter.scheduled_of_empty {t : Transmitter} (hq : ∀ c, t.queue c = []) (hrun : t.RunLaw) : t.Scheduled :=
  have hnone (c : Class) (e : EgressEntry) : e ∉ t.queue c := hq c ▸ List.not_mem_nil
  ⟨Transmitter.startedLaw_of_none fun c e he => absurd he (hnone c e), fun c _ e he => absurd he (hnone c e), hrun⟩

/-- Each move of a link keeps what its scheduler keeps to. -/
theorem Link.Move.scheduled {n n' : Link} (m : n.Move n') (h : n.tx.Scheduled) : n'.tx.Scheduled := by
  obtain ⟨hstarted, hentries, hrun⟩ := h
  cases m with
  | torn why =>
    rw [Link.torn_tx]
    exact Transmitter.scheduled_of_empty n.tx.torn_queue hrun
  | append e _ _ hs h1 h8 =>
    refine ⟨hstarted.append hs, hentries.of_queues fun c f hf => ?_, hrun⟩
    rw [Transmitter.append_queue] at hf
    split at hf
    · rename_i hc
      rcases List.mem_append.1 hf with hf | hf
      · exact .inl ⟨f, hf, rfl, rfl⟩
      · rw [List.mem_singleton.1 hf]
        exact .inr ⟨hc.symm, h1, h8⟩
    · exact .inl ⟨f, hf, rfl, rfl⟩
  | withdraw keep =>
    refine ⟨hstarted.withdraw keep, hentries.of_queues fun c f hf => .inl ⟨f, ?_, rfl, rfl⟩, hrun⟩
    rw [Transmitter.withdraw_queue] at hf
    exact (List.mem_filter.1 hf).1
  | start c run e rest _ hidle hchosen hq => exact Transmitter.Scheduled.start ⟨hstarted, hentries, hrun⟩ hidle hchosen hq
  | finish c e rest _ hq =>
    refine ⟨hstarted.finish hq, hentries.of_queues fun d f hf => .inl ⟨f, ?_, rfl, rfl⟩, hrun⟩
    rw [Transmitter.rest_queue] at hf
    split at hf
    · rename_i hd
      rw [hd, hq]
      exact List.mem_cons_of_mem e hf
    · exact hf
  | endCopy id => rw [(n.endCopy_storeOnly id).tx]; exact ⟨hstarted, hentries, hrun⟩
  | dispatched p copies =>
    obtain ⟨-, -, -, -, htx, -⟩ := n.dispatched_words p.id copies
    rw [htx]; exact ⟨hstarted, hentries, hrun⟩
  | note | ctrl | hold | off | wait | credit | returned | opened | cell | elapsed | holdOut | initRestart | unit =>
    exact ⟨hstarted, hentries, hrun⟩

end Sys2Proof.Machine
end

section
/-! The statements on credit, egress queues and link scheduling (specs 03 and 05). -/

namespace Sys2Proof.Machine

/-- Settles O52: an entry joins a queue only where there is room, and credit only where it does not overfill; the entry to
UP sets it to 72. -/
theorem transmitterLawKept : Obligations.TransmitterLawKept := by
  unfold Obligations.TransmitterLawKept
  intro s t hs hstep
  refine links_kept (Q := fun n => n.tx.Bounded) (fun _ _ m => m.bounded) (fun n _ => ?_) Transmitter.idle_bounded
    (fun n node _ h => ⟨Nat.le_refl 72, h.2⟩) hstep hs
  obtain ⟨-, -, htx, -⟩ := n.softReset_words
  rw [htx]
  exact Transmitter.idle_bounded

/-- Settles O53: a start needs an idle lane and makes its class current; the entry to UP, which makes REQ current, finds
the queues of a link that was not UP empty. -/
theorem schedulerLawKept : Obligations.SchedulerLawKept := by
  unfold Obligations.SchedulerLawKept
  intro s t hdown hs hstep
  have idle : Transmitter.idle.Scheduled := Transmitter.scheduled_of_empty Transmitter.idle_queue (Nat.zero_le _)
  have kept := links_kept (Q := fun n => n.DownLaw ∧ n.tx.Scheduled) (fun _ _ m h => ⟨m.downLaw h.1, m.scheduled h.2⟩)
    (fun n _ => ?_) ⟨Link.powerOn_restLaw.1, idle⟩ (fun n node hw h => ⟨fun hne => absurd rfl hne, ?_⟩) hstep
    (fun l => ⟨(hdown l).1, hs l⟩)
  · exact fun l => (kept l).2
  · obtain ⟨-, -, htx, -⟩ := n.softReset_words
    exact ⟨n.softReset_restLaw.1, htx ▸ idle⟩
  · have hrest : n.AtRest := h.1 (hw.trans_ne (by decide))
    exact Transmitter.scheduled_of_empty hrest.queue_eq (Nat.zero_le _)

end Sys2Proof.Machine
end

section
/-! SUPPORT. What every step keeps, from what moves and turns keep: host-side queues, counters, slots and configuration
(R17, R101, R132, R141, R151, R153, R164). -/

namespace Sys2Proof.Machine

/-! ### What every step keeps -/

/-- What moves and each turn's own effect keep, and the queue of waiting commands has no part in, every step keeps. -/
theorem step_keeps {P : State → Prop} (moves : ∀ u v, Evolves u v → P u → P v) (queue : ∀ s q, P s → P { s with pending := q })
    (release : ∀ s, P s → P s.cqRelease) (soft : ∀ s, P s → P s.softResetCore) (power : ∀ (s : State) b, P (s.powerOn b))
    (events : ∀ s w, P s → P (s.eventWrite w)) (up : ∀ s l node, P s → P (s.comeUp l node)) {s t : State}
    (hs : P s) (h : step s = .next t) : P t := by
  obtain ⟨s₀, e₀, hcases⟩ := step_cases h
  have hs₀ : P s₀ := e₀ ▸ queue s s₀.pending hs
  rcases hcases with hmoves | turn
  · exact moves s₀ t hmoves hs₀
  · cases turn with
    | release => exact release s₀ hs₀
    | soft => exact moves _ _ (.settle _) (soft s₀ hs₀)
    | power b => exact power s₀ b
    | events w => exact events s₀ w hs₀
    | up l node => exact moves _ _ (.settle _) (up s₀ l node hs₀)

/-! ### The turns on the host's side -/

/-- CQ_RELEASE changes the request table, its queue and RESULT alone (R127). -/
theorem State.cqRelease_frame (s : State) : { s.cqRelease with reqs := s.reqs, cq := s.cq, port := s.port } = s ∧
    s.cqRelease.port = { s.port with result := s.cqRelease.port.result } := by
  cases hcq : s.cq with
  | nil => rw [State.cqRelease_of_empty hcq, ← hcq]; exact ⟨rfl, rfl⟩
  | cons r rest => rw [State.cqRelease_of_cons hcq, ← hcq]; exact ⟨rfl, rfl⟩

theorem State.cqRelease_fields (s : State) : s.cqRelease.inbound = s.inbound ∧ s.cqRelease.jobs = s.jobs ∧
    s.cqRelease.slots = s.slots ∧ s.cqRelease.sync = s.sync ∧ s.cqRelease.links = s.links ∧
    s.cqRelease.events = s.events ∧ s.cqRelease.pending = s.pending := by
  have frame := s.cqRelease_frame.1
  rw [State.mk.injEq] at frame
  obtain ⟨-, -, hevents, -, hlinks, hslots, -, -, hinbound, hjobs, -, hsync, -, -, -, hpending⟩ := frame
  exact ⟨hinbound, hjobs, hslots, hsync, hlinks, hevents, hpending⟩

theorem State.comeUp_fields (s : State) (l : LinkId) (node : NodeId) : (s.comeUp l node).inbound = s.inbound ∧
    (s.comeUp l node).jobs = s.jobs ∧ (s.comeUp l node).slots = s.slots ∧ (s.comeUp l node).sync = s.sync ∧
    (s.comeUp l node).port = s.port ∧ (s.comeUp l node).pending = s.pending := by
  have frame := s.comeUp_frame l node
  rw [State.mk.injEq] at frame
  obtain ⟨-, hport, -, -, -, hslots, -, -, hinbound, hjobs, -, hsync, -, -, -, hpending⟩ := frame
  exact ⟨hinbound, hjobs, hslots, hsync, hport, hpending⟩

/-! ### The inbound queue and the responder's jobs (R132, R141) -/

/-- The two bounds of an inbound queue (R132). -/
def InboundBounds (q : List InboundEntry) : Prop := q.length ≤ 32 ∧ (q.map (fun e => e.len.toNat)).sum ≤ 112

theorem InboundBounds.empty : InboundBounds [] := by unfold InboundBounds; decide

theorem InboundMove.bounds {q q' : List InboundEntry} (m : InboundMove q q') (h : InboundBounds q) : InboundBounds q' := by
  obtain ⟨hlen, hcells⟩ := h
  cases m with
  | push _ e hroom hfits => exact ⟨by simpa using hroom, by simpa using hfits⟩
  | pop e =>
    simp only [List.length_cons, List.map_cons, List.sum_cons] at hlen hcells
    exact ⟨by omega, by omega⟩

theorem JobsMove.bound {js ks : List Job} (m : JobsMove js ks) (h : js.length ≤ 4) : ks.length ≤ 4 := by
  cases m with
  | push j hroom => simpa using hroom
  | less _ hless => exact hless.trans h

/-! ### The host slots (R101) -/

/-- The slots of a table that hold REQ or PST packets. -/
def reqPstHeld (v : Vector (Option Slot) 8) : List SlotIx := slotIxs.filter (fun i => holdsReqOrPst v[i])

theorem slot_set (v : Vector (Option Slot) 8) (i j : SlotIx) (x : Option Slot) :
    (v.set i x)[j] = if j = i then x else v[j] :=
  State.slot_setSlot { State.reset with slots := v } i j x

theorem reqPstHeld_empty : (reqPstHeld (Vector.replicate 8 none)).length ≤ 6 := by decide

/-- No slot holds a packet and is free. -/
theorem reqPstHeld_add_free_le (v : Vector (Option Slot) 8) :
    (reqPstHeld v).length + (slotIxs.filter (fun i => v[i].isNone)).length ≤ 8 := by
  have hsplit := List.length_eq_length_filter_add (l := slotIxs) (fun i => holdsReqOrPst v[i])
  have hfree : List.Sublist (slotIxs.filter (fun i => v[i].isNone)) (slotIxs.filter (fun i => !holdsReqOrPst v[i])) :=
    List.monotone_filter_right _ fun i hi => by
      rw [Option.isNone_iff_eq_none.1 hi]
      rfl
  have hlen : slotIxs.length = 8 := rfl
  have hle := hfree.length_le
  unfold reqPstHeld
  omega

/-- Filling one slot adds at most that one. -/
theorem reqPstHeld_set_subset (v : Vector (Option Slot) 8) (i : SlotIx) (x : Option Slot) :
    reqPstHeld (v.set i x) ⊆ i :: reqPstHeld v := by
  intro j hj
  obtain ⟨hmem, hholds⟩ := List.mem_filter.1 hj
  rw [slot_set] at hholds
  split at hholds
  · rename_i e; exact e ▸ List.mem_cons_self
  · exact List.mem_cons_of_mem _ (List.mem_filter.2 ⟨hmem, hholds⟩)

/-- A slot that comes to hold no REQ or PST packet, or held one already, adds none. -/
theorem reqPstHeld_set_le (v : Vector (Option Slot) 8) (i : SlotIx) (x : Option Slot)
    (h : holdsReqOrPst x = true → holdsReqOrPst v[i] = true) : (reqPstHeld (v.set i x)).length ≤ (reqPstHeld v).length := by
  refine (List.monotone_filter_right _ fun j hj => ?_).length_le
  rw [slot_set] at hj
  split at hj
  · rename_i e; exact e ▸ h hj
  · exact hj

/-- The last two free slots are taken for RPY alone (R101). -/
theorem SlotsMove.bound {v w : Vector (Option Slot) 8} (m : SlotsMove v w) (h : (reqPstHeld v).length ≤ 6) :
    (reqPstHeld w).length ≤ 6 := by
  cases m with
  | take i k _ hfree =>
    by_cases hrpy : k.hdr.cls = Class.rpy.code
    · refine (reqPstHeld_set_le v i (some k) fun hx => ?_).trans h
      simp [holdsReqOrPst, hrpy] at hx
    · have hnodup : (reqPstHeld (v.set i (some k))).Nodup := List.Nodup.filter _ (by decide)
      have hadd := (List.subperm_of_subset hnodup (reqPstHeld_set_subset v i (some k))).length_le
      have hroom := reqPstHeld_add_free_le v
      have htwo := hfree hrpy
      rw [List.length_cons] at hadd
      omega
  | free i => exact (reqPstHeld_set_le v i none nofun).trans h
  | fewer i k n hk => exact (reqPstHeld_set_le v i _ fun hx => by rw [hk]; exact hx).trans h

/-! ### The sync counters (R151–R153) -/

/-- The firing check leaves a counter with a target lawful, if ARMED and FIRED were not both set (R153). -/
theorem SyncCounter.check_lawful {c : SyncCounter} (hboth : ¬ (c.armed = true ∧ c.fired = true)) (ht : c.target ≠ 0) :
    c.check.Lawful := by
  unfold SyncCounter.check
  split
  · exact ⟨nofun, nofun, ht⟩
  · rename_i hwaits
    exact ⟨hboth, fun harmed => BitVec.not_le.1 fun hle => hwaits ⟨harmed, hle⟩, ht⟩

theorem CounterMove.lawful {c c' : SyncCounter} (m : CounterMove c c') (h : c.Lawful) : c'.Lawful := by
  obtain ⟨hboth, hbelow, ht⟩ := h
  cases m with
  | counted =>
    refine SyncCounter.check_lawful ?_ ?_ <;> unfold SyncCounter.counted <;> split
    exacts [hboth, hboth, ht, ht]
  | armed x hx => exact SyncCounter.check_lawful nofun hx
  | taken => exact SyncCounter.check_lawful nofun ht
  | disarmed => exact ⟨nofun, nofun, ht⟩
  | cleared => exact ⟨nofun, nofun, ht⟩

theorem SyncCounter.initial_lawful : SyncCounter.initial.Lawful := by decide

/-! ### The configuration (R17, R164) -/

/-- The fields of LCTRLn a write of it checks hold values the link can use (R17). -/
def LinkCtrl.Usable (k : LinkCtrl) : Prop := 8 ≤ k.quantum ∧ 1 ≤ k.crThresh ∧ k.crThresh ≤ 72

/-- Only an accepted LCTRLn write changes a link's configuration. -/
theorem Link.Move.ctrl_eq {n n' : Link} (m : n.Move n') :
    n'.ctrl = n.ctrl ∨ ∃ w, lctrlAccepted w = true ∧ n'.ctrl = n.ctrl.written w := by
  cases m with
  | ctrl w hw => exact .inr ⟨w, hw, rfl⟩
  | torn why => left; unfold Link.torn Link.moveTo; split <;> rfl
  | endCopy id => exact .inl (n.endCopy_storeOnly id).ctrl
  | dispatched p copies => exact .inl (n.dispatched_words p.id copies).1
  | _ => exact .inl rfl

theorem Link.Move.usable {n n' : Link} (m : n.Move n') (h : n.ctrl.Usable) : n'.ctrl.Usable := by
  rcases m.ctrl_eq with he | ⟨w, hw, he⟩
  · exact he ▸ h
  · rw [lctrlAccepted, decide_eq_true_iff] at hw
    exact he ▸ hw

/-! ### The laws of the host's side -/

theorem step_inboundLaw {s t : State} (h : step s = .next t) (hs : s.InboundLaw) : t.InboundLaw :=
  step_keeps (P := fun s => InboundBounds s.inbound) (fun _ _ e => kept_of_moves (fun _ _ m => m.bounds) e.inbound)
    (fun _ _ => id) (fun s hs => by rwa [s.cqRelease_fields.1]) (fun _ _ => .empty) (fun _ _ => .empty)
    (fun _ _ => id) (fun s l node hs => by rwa [(s.comeUp_fields l node).1]) hs h

theorem step_jobLaw {s t : State} (h : step s = .next t) (hs : s.JobLaw) : t.JobLaw :=
  step_keeps (P := State.JobLaw) (fun _ _ e => kept_of_moves (Q := fun js => js.length ≤ 4) (fun _ _ m => m.bound) e.jobs)
    (fun _ _ => id) (fun s hs => by
      obtain ⟨-, hjobs, -⟩ := s.cqRelease_fields
      rwa [State.JobLaw, hjobs])
    (fun _ _ => Nat.zero_le 4) (fun _ _ => Nat.zero_le 4) (fun _ _ => id) (fun s l node hs => by
      obtain ⟨-, hjobs, -⟩ := s.comeUp_fields l node
      rwa [State.JobLaw, hjobs]) hs h

theorem step_slotLaw {s t : State} (h : step s = .next t) (hs : s.SlotLaw) : t.SlotLaw :=
  step_keeps (P := fun s => (reqPstHeld s.slots).length ≤ 6) (fun _ _ e => kept_of_moves (fun _ _ m => m.bound) e.slots)
    (fun _ _ => id) (fun s hs => by
      obtain ⟨-, -, hslots, -⟩ := s.cqRelease_fields
      rwa [hslots])
    (fun _ _ => reqPstHeld_empty) (fun _ _ => reqPstHeld_empty) (fun _ _ => id) (fun s l node hs => by
      obtain ⟨-, -, hslots, -⟩ := s.comeUp_fields l node
      rwa [hslots]) hs h

theorem step_counterLaw {s t : State} (h : step s = .next t) (hs : ∀ k, (s.counter k).Lawful) :
    ∀ k, (t.counter k).Lawful :=
  step_keeps (P := fun s => ∀ k, (s.counter k).Lawful) (fun _ _ e hs k => kept_of_moves (fun _ _ m => m.lawful) (e.sync k) (hs k))
    (fun _ _ => id) (fun s hs k => by
      obtain ⟨-, -, -, hsync, -⟩ := s.cqRelease_fields
      rw [State.counter, hsync]
      exact hs k)
    (fun s _ k => by
      have hk : s.softResetCore.counter k = SyncCounter.initial := by simp [State.softResetCore, State.counter]
      exact hk ▸ SyncCounter.initial_lawful)
    (fun s b k => by
      have hk : (s.powerOn b).counter k = SyncCounter.initial := by simp [State.powerOn, State.reset, State.counter]
      exact hk ▸ SyncCounter.initial_lawful)
    (fun _ _ => id) (fun s l node hs k => by
      obtain ⟨-, -, -, hsync, -⟩ := s.comeUp_fields l node
      rw [State.counter, hsync]
      exact hs k) hs h

theorem State.softResetCore_port (s : State) : s.softResetCore.port =
    { s.port with cfgReject := false, compose := Vector.replicate 16 0, result := ⟨6, .ok, 0, 0⟩ } := by
  rw [← (s.softResetLanes_laneOnly linkIds).port]
  rfl

theorem step_configLaw {s t : State} (h : step s = .next t) (hs : s.ConfigLaw) : t.ConfigLaw := by
  have links : ∀ l, (t.link l).ctrl.Usable := links_kept (Q := fun n => n.ctrl.Usable) (fun _ _ m => m.usable)
    (fun n hn => by
      obtain ⟨-, -, -, -, hctrl, -⟩ := n.softReset_words
      rwa [hctrl])
    (by unfold LinkCtrl.Usable; decide) (fun _ _ _ hn => hn) h hs.2.2
  have powerOn : Port.powerOn.defaultHops ≠ 0 ∧ Port.powerOn.tbDiv ≠ 0 := by decide
  have port : t.port.defaultHops ≠ 0 ∧ t.port.tbDiv ≠ 0 :=
    step_keeps (P := fun s => s.port.defaultHops ≠ 0 ∧ s.port.tbDiv ≠ 0) (fun _ _ e hs => ⟨e.hops hs.1, e.tbDiv hs.2⟩)
      (fun _ _ => id) (fun s hs => by rw [s.cqRelease_frame.2]; exact hs) (fun s hs => by rw [s.softResetCore_port]; exact hs)
      (fun _ _ => powerOn) (fun _ _ => id) (fun s l node hs => by
        obtain ⟨-, -, -, -, hport, -⟩ := s.comeUp_fields l node
        rwa [hport]) ⟨hs.1, hs.2.1⟩ h
  exact ⟨port.1, port.2, links⟩

end Sys2Proof.Machine
end

section
/-! The statement on the laws of the host's side (specs 02, 06, 08, 09 and 10). -/

namespace Sys2Proof.Machine

/-- Settles O54: each law is kept by the moves of its own part, and the turns empty the part or leave it as it is. -/
theorem hostLawsKept : Obligations.HostLawsKept := by
  unfold Obligations.HostLawsKept
  exact fun s t h => ⟨step_inboundLaw h, step_jobLaw h, step_slotLaw h, step_counterLaw h, step_configLaw h⟩

end Sys2Proof.Machine
end

section
/-! SUPPORT. What a step can do to a link's state, to the event latch and to the queue of commands (R24, R27, R34, R167,
R169). -/

namespace Sys2Proof.Machine

/-! ### The entry to UP (R24, R27) -/

/-- No move brings a link UP. -/
theorem Link.Move.not_up {n n' : Link} (m : n.Move n') (h : n.state ≠ .up) : n'.state ≠ .up := by
  cases m with
  | hold | off | wait => nofun
  | torn why =>
    obtain ⟨hstate, -⟩ := Link.moveTo_words _ _ (teardownTarget_cases why n.ctrl.auto)
    exact hstate.trans_ne (teardownTarget_ne_up why n.ctrl.auto)
  | endCopy id => exact (n.endCopy_storeOnly id).state.trans_ne h
  | dispatched p copies =>
    obtain ⟨-, -, -, hstate, -⟩ := n.dispatched_words p.id copies
    exact hstate.trans_ne h
  | note | ctrl | append | withdraw | start | finish | credit | returned | opened | cell | elapsed | holdOut
  | initRestart | unit => exact h

theorem Evolves.not_up {s t : State} (h : Evolves s t) {l : LinkId} (hl : (s.link l).state ≠ .up) :
    (t.link l).state ≠ .up :=
  kept_of_moves (Q := fun n => n.state ≠ .up) (fun _ _ m => m.not_up) (h.links l) hl

/-- A turn that brings a link UP is the handshake's, on that link. -/
theorem TurnOf.up_cases {s t : State} {c : Instr} (turn : TurnOf s c t) {l : LinkId} (hl : (s.link l).state ≠ .up)
    (hup : (t.link l).state = .up) : (s.link l).state = .waitPeer ∧
      ∃ node, c = .initReceived l node true ∧ node ≠ s.port.node ∧ t = settle (s.comeUp l node) := by
  cases turn with
  | release =>
    obtain ⟨-, -, -, -, hlinks, -⟩ := s.cqRelease_fields
    exact absurd hup (by rwa [State.link, hlinks])
  | soft =>
    refine absurd hup ((Evolves.settle s.softResetCore).not_up ?_)
    rw [s.softResetCore_link]
    exact (s.link l).softReset_not_up
  | power =>
    have hoff : (s.resetInput.link l).state = .off := by
      simp [State.resetInput, State.powerOn, State.reset, State.link, Link.powerOn]
    cases hoff.symm.trans hup
  | events w => exact absurd hup hl
  | up k node hwait hnode =>
    by_cases hk : l = k
    · subst hk; exact ⟨hwait, node, rfl, hnode, rfl⟩
    · refine absurd hup ((Evolves.settle _).not_up ?_)
      rwa [State.comeUp_link, if_neg hk]

/-! ### The event latch (R169) -/

theorem State.comeUp_latch (s : State) (l : LinkId) (node : NodeId) :
    (s.comeUp l node).events.latch = s.events.latch ||| EventBit.link.mask := by
  rw [s.comeUp_events]
  rfl

/-- A bit latched before moves is latched after them. -/
theorem latched_of_subset {u v m : BitVec 7} (h : u &&& v = u) (hm : u &&& m ≠ 0) : v &&& m ≠ 0 := by
  intro hv
  rw [← h, BitVec.and_assoc, hv] at hm
  exact hm BitVec.and_zero

theorem latch_and_or (x m : BitVec 7) : x &&& (x ||| m) = x := by
  ext i hi
  simp
  grind

/-- LINK is latched at the entry to UP, and stays so through the rest of the event (R34). -/
theorem State.comeUp_settle_link (s : State) (l : LinkId) (node : NodeId) :
    (settle (s.comeUp l node)).events.latch &&& 0x08 ≠ 0 := by
  refine latched_of_subset (Evolves.settle (s.comeUp l node)).latched ?_
  rw [s.comeUp_latch]
  generalize s.events.latch = x
  revert x
  decide

/-- EVENT writes and the resets aside, no turn clears a latched bit. -/
theorem TurnOf.latched {s t : State} {c : Instr} (turn : TurnOf s c t) (hwf : c.wellFormed = true)
    (hevent : ∀ w, c ≠ .eventWrite w) (hsoft : c ≠ .softReset) (hpower : c ≠ .powerOnReset) :
    s.events.latch &&& t.events.latch = s.events.latch := by
  have hwell : c.wellFormed ≠ false := hwf.trans_ne (by decide)
  cases turn with
  | release =>
    obtain ⟨-, -, -, -, -, hevents, -⟩ := s.cqRelease_fields
    rw [hevents, BitVec.and_self]
  | soft hc => exact (hc.elim hsoft hwell).elim
  | power => exact absurd rfl hpower
  | events w hc => exact (hc.elim (hevent w) hwell).elim
  | up l node =>
    have hkept := (Evolves.settle (s.comeUp l node)).latched
    have hset := latch_and_or s.events.latch EventBit.link.mask
    rw [s.comeUp_latch] at hkept
    calc s.events.latch &&& (settle (s.comeUp l node)).events.latch
        = s.events.latch &&& ((s.events.latch ||| EventBit.link.mask) &&& (settle (s.comeUp l node)).events.latch) := by
          rw [← BitVec.and_assoc, hset]
      _ = s.events.latch := by rw [hkept, hset]

/-! ### The queue of commands (R167) -/

theorem State.softResetCore_pending (s : State) : s.softResetCore.pending = s.pending := by
  simp only [State.softResetCore, (s.softResetLanes_laneOnly linkIds).pending]

theorem Turn.pending {s t : State} (turn : Turn s t) : t.pending = s.pending := by
  cases turn with
  | release =>
    obtain ⟨-, -, -, -, -, -, hpending⟩ := s.cqRelease_fields
    exact hpending
  | soft => exact (Evolves.settle s.softResetCore).pending.trans s.softResetCore_pending
  | power | events => rfl
  | up l node =>
    obtain ⟨-, -, -, -, -, hpending⟩ := s.comeUp_fields l node
    exact (Evolves.settle _).pending.trans hpending

/-! ### The laws at reset (R176) -/

theorem State.reset_link (l : LinkId) : State.reset.link l = Link.powerOn := by
  simp [State.link, State.reset]

theorem State.reset_slot (i : SlotIx) : State.reset.slot i = none := by
  simp [State.slot, State.reset]

theorem State.reset_entry (r : ReqIx) : State.reset.entry r = ReqEntry.free 0 := by
  simp [State.entry, State.reset]

theorem State.reset_counter (k : Fin 8) : State.reset.counter k = SyncCounter.initial := by
  simp [State.counter, State.reset]

/-- A part that holds no packet and no job has an account. -/
theorem State.CopiesLaw.of_empty {s : State} (hpackets : ∀ l, (s.link l).store.packets = [])
    (hqueue : ∀ l c, (s.link l).tx.queue c = []) (hslot : ∀ i, s.slot i = none) (hjobs : s.jobs = [])
    (hentry : ∀ r, (s.entry r).state ≠ .queued) : s.CopiesLaw := by
  have hnone : ∀ e, e ∉ s.allEntries := fun e he => by
    obtain ⟨m, hm⟩ := State.mem_allEntries.1 he
    obtain ⟨c, hc⟩ := Transmitter.mem_entries.1 hm
    rw [hqueue] at hc
    cases hc
  refine ⟨fun e he => absurd he (hnone e), fun l => ?_, fun i k hk => ?_, ?_, fun i k hk => ?_, fun r hr => absurd hr (hentry r)⟩
  · rw [Store.NamesLaw, hpackets]
    exact ⟨⟨List.nodup_nil, nofun⟩, nofun⟩
  · rw [hslot] at hk; cases hk
  · rw [State.JobCopyLaw, hjobs]
    exact ⟨List.nodup_nil, nofun⟩
  · rw [hslot] at hk; cases hk

/-- Right after reset no copy exists and nothing is held for one. -/
theorem State.reset_copiesLaw : State.reset.CopiesLaw := by
  refine .of_empty (fun l => ?_) (fun l c => ?_) State.reset_slot rfl (fun r => ?_)
  · rw [State.reset_link]; rfl
  · rw [State.reset_link]; exact Transmitter.idle_queue c
  · rw [State.reset_entry]; nofun

theorem State.reset_completionLaw : State.reset.CompletionLaw := by
  refine ⟨List.nodup_nil, fun r => ?_⟩
  rw [State.reset_entry]
  exact ⟨nofun, nofun⟩

/-- Right after reset no store holds a packet, no job waits and every link is in OFF. -/
theorem State.reset_settled : State.reset.Settled := by
  refine ⟨State.nextReady_of_empty (fun l => ?_) rfl, fun l => ?_⟩
  · rw [State.reset_link]; rfl
  · rw [State.reset_link]; exact ⟨rfl, rfl⟩

theorem State.reset_slotLaw : State.reset.SlotLaw := by decide

theorem State.reset_configLaw : State.reset.ConfigLaw := by
  refine ⟨by decide, by decide, fun l => ?_⟩
  rw [State.reset_link]
  decide

end Sys2Proof.Machine
end

section
/-! The statements on a step, on the entry to UP, on the event latch and on reset (specs 02 and 10). -/

namespace Sys2Proof.Machine

/-- Settles O58: no move and no turn but the handshake's brings a link UP, and that one latches LINK. -/
theorem upByHandshakeAlone : Obligations.UpByHandshakeAlone := by
  unfold Obligations.UpByHandshakeAlone
  intro s t l hstep hdown hup
  obtain ⟨s₀, e₀, hcases⟩ := step_turnOf hstep
  have hlink : s₀.link l = s.link l := by rw [e₀]; rfl
  have hport : s₀.port = s.port := by rw [e₀]
  rw [← hlink] at hdown
  rcases hcases with hmoves | ⟨c, hfront, turn⟩
  · exact absurd hup (hmoves.not_up hdown)
  · obtain ⟨hwait, node, rfl, hnode, ht⟩ := turn.up_cases hdown hup
    rw [hport] at hnode
    rw [hlink] at hwait
    exact ⟨⟨node, hfront, hnode⟩, hwait, ht ▸ s₀.comeUp_settle_link l node⟩

/-- Settles O60: moves clear no bit, and of the turns an EVENT write and the resets alone do. -/
theorem eventsStayLatched : Obligations.EventsStayLatched := by
  unfold Obligations.EventsStayLatched
  intro s t hstep hkeeps
  obtain ⟨s₀, e₀, hcases⟩ := step_turnOf hstep
  have hlatch : s₀.events = s.events := by rw [e₀]
  rw [← hlatch]
  rcases hcases with hmoves | ⟨c, hfront, turn⟩
  · exact hmoves.latched
  · obtain ⟨hwf, hevent, hsoft, hpower⟩ := hkeeps c hfront
    exact turn.latched hwf hevent hsoft hpower

/-- Settles O2: neither moves nor turns touch the queue. -/
theorem commandsKeepQueue : Obligations.CommandsKeepQueue := by
  unfold Obligations.CommandsKeepQueue
  intro c s
  obtain ⟨t, ht, hmoves | turn⟩ := exec_cases c s
  exacts [⟨t, ht, hmoves.pending⟩, ⟨t, ht, turn.pending⟩]

/-- Settles O1. -/
theorem stepRunsFront : Obligations.StepRunsFront := by
  unfold Obligations.StepRunsFront
  intro c rest s h
  rw [step_of_front (c := c) (by rw [h]; rfl), h]
  rfl

/-- Settles O49: every link is as power-on leaves it, and nothing is held, queued or waiting. -/
theorem lawsHoldAtReset : Obligations.LawsHoldAtReset := by
  unfold Obligations.LawsHoldAtReset
  refine ⟨fun l => ?_, InboundBounds.empty, Nat.zero_le 4, State.reset_slotLaw, State.reset_completionLaw,
    State.reset_configLaw, State.reset_copiesLaw, State.reset_settled, fun k => ?_⟩
  · rw [State.reset_link]
    decide
  · rw [State.reset_counter]
    exact SyncCounter.initial_lawful

end Sys2Proof.Machine
end

section
/-! SUPPORT. What a command does, in two parts: its own effect, and the rest of the event where it has one (R20, R61,
R83). A command without one leaves everything the rest of an event reads as it was, or changes it as few named moves do. -/

namespace Sys2Proof.Machine

/-- The own effect of a command whose event has a rest (log 1). -/
inductive Own (s : State) : State → Prop where
  | popped (rest : List InboundEntry) : Own s ({ s with inbound := rest }.setResult 2 .ok)
  | cancelled (r : ReqIx) : (s.entry r).state = .queued → Own s ((s.cancelQueued r).setResult 4 .ok)
  | restarted (l : LinkId) : Own s ((s.restartLink l).setResult 5 .ok)
  | emptied : Own s s.softResetCore
  | controlled (w : Word) : Own s (s.storeCtrl w)
  | enabled (l : LinkId) (w : Word) :
      Own s ((s.modLink l (fun n => { n with ctrl := n.ctrl.written w })).applyEnable l (s.link l).ctrl.enable)
  | tables (x : RouteUnit) : Own s { s with route := x }
  | framed (l : LinkId) (c : Cell) : Own s (s.framedCell l c)
  | torn (l : LinkId) (why : Cause) : Own s (s.teardown l why)
  | sameId (l : LinkId) (node : NodeId) : Own s ((s.modLink l (fun n => { n with peer := node })).teardown l .sameId)
  | up (l : LinkId) (node : NodeId) : Own s (s.comeUp l node)
  | credited (l : LinkId) (count : BitVec 7) (res : PerClass Bool) :
      Own s (s.modLink l (fun n => { n with tx := n.tx.credited count res }))
  | holdOut (l : LinkId) : Own s (s.modLink l (fun n => { n with holdTimer := none }))
  | holdoffOut (l : LinkId) :
      Own s (s.modLink l (fun n => { n with store := { n.store with holdoff := none, elapsed := true } }))
  | dispatched (r : RouteSource) : Own s (s.dispatchSource r)
  | finished (l : LinkId) : Own s (s.completeTransmission l)

/-- What a command's event makes of `s`. -/
inductive Effect (s : State) : State → Prop where
  | settled {u : State} : Own s u → Effect s (settle u)
  | submit : Effect s s.submit
  | words (p : Port) (u : EventUnit) (v : Vector SyncCounter 8) (d : Nat) :
      p.node = s.port.node → p.rxEnable = s.port.rxEnable → Effect s { s with port := p, events := u, sync := v, divider := d }
  | select (x : RouteUnit) : x.routes = s.route.routes → x.groups = s.route.groups → x.position = s.route.position →
      Effect s { s with route := x }
  | node (n : NodeId) : (∀ l, (s.link l).state = .off) → Effect s { s with port := { s.port with node := n } }
  | release : Effect s s.cqRelease
  | cancelled (r : ReqIx) : (s.entry r).state = .sent → Effect s ((s.complete r .cancelled).setResult 4 .ok)
  | timedOut (r : ReqIx) : (s.entry r).state = .sent → Effect s (s.complete r .timeout)
  | clearSeen (l : LinkId) : Effect s (s.clearSeen l)
  | answered (l : LinkId) (node : NodeId) : Effect s (s.answerInit l node)
  | initOut (l : LinkId) : Effect s
      ((s.modLink l (fun n => { n with initTimer := some Config.initInterval })).sendInit l (s.link l).seen)
  | leaveHold (l : LinkId) : Effect s (s.leaveHold l)
  | start (l : LinkId) : Effect s (s.startWhere l)
  | credit (l : LinkId) : Effect s (s.creditWhere l)
  | power (asserted : Bool) : Effect s (s.powerOn asserted)

theorem mem_linkIds : ∀ l : LinkId, l ∈ linkIds := by decide

namespace Effect

variable (s : State)

theorem same : Effect s s := .words s.port s.events s.sync s.divider rfl rfl

theorem setResult (c : BitVec 4) (r : ResultCode) : Effect s (s.setResult c r) :=
  .words (s.setResult c r).port s.events s.sync s.divider rfl rfl

theorem rejectConfig : Effect s s.rejectConfig := .words s.rejectConfig.port s.events s.sync s.divider rfl rfl

/-! ### The host's commands -/

theorem rxPop : Effect s s.rxPop := by
  unfold State.rxPop
  split
  · exact setResult s _ _
  · exact .settled (.popped _)

theorem reqCancel (n : BitVec 5) : Effect s (s.reqCancel n) := by
  unfold State.reqCancel
  split
  · exact setResult s _ _
  next r _ =>
    unfold State.cancelEntry
    split
    · exact setResult s _ _
    · exact .settled (.cancelled r ‹_›)
    · exact .cancelled r ‹_›
    · exact setResult s _ _

theorem linkReset (n : BitVec 5) : Effect s (s.linkReset n) := by
  unfold State.linkReset
  split
  · exact setResult s _ _
  · split
    · exact .settled (.restarted _)
    · exact setResult s _ _

theorem counterSet (k : Fin 8) (c : SyncCounter) (cmd : BitVec 4) (r : ResultCode) :
    Effect s ((s.setCounter k c).setResult cmd r) :=
  .words (s.setResult cmd r).port s.events (s.setCounter k c).sync s.divider rfl rfl

theorem counterChecked (k : Fin 8) (c : SyncCounter) (cmd : BitVec 4) (r : ResultCode) :
    Effect s ((s.checkCounter k c).setResult cmd r) := by
  rw [State.checkCounter_eq]
  exact .words (s.setResult cmd r).port _ (s.setCounter k c.check).sync s.divider rfl rfl

theorem syncArm (k : BitVec 5) (x : BitVec 8) : Effect s (s.syncArm k x) := by
  unfold State.syncArm
  split
  · exact setResult s _ _
  · split
    · exact setResult s _ _
    · exact counterChecked s _ _ _ _

theorem syncTake (k : BitVec 5) : Effect s (s.syncTake k) := by
  unfold State.syncTake
  split
  · exact setResult s _ _
  · split
    · exact counterChecked s _ _ _ _
    · exact setResult s _ _

theorem syncDisarm (k : BitVec 5) : Effect s (s.syncDisarm k) := by
  unfold State.syncDisarm
  split
  · exact setResult s _ _
  · exact counterSet s _ _ _ _

theorem syncClear (k : BitVec 5) : Effect s (s.syncClear k) := by
  unfold State.syncClear
  split
  · exact setResult s _ _
  · exact counterSet s _ _ _ _

theorem cmdWrite (w : Word) : Effect s (s.cmdWrite w) := by
  unfold State.cmdWrite
  repeat' split
  · exact .submit
  · exact rxPop s
  · exact .release
  · exact reqCancel s _
  · exact linkReset s _
  · exact .settled .emptied
  · exact syncArm s _ _
  · exact syncTake s _
  · exact syncDisarm s _
  · exact syncClear s _
  · exact .words s.dropClear.port s.dropClear.events s.sync s.divider rfl rfl
  · exact setResult s _ _

/-! ### Register writes -/

theorem nodeWrite (w : Word) : Effect s (s.nodeWrite w) := by
  unfold State.nodeWrite
  split
  next h => exact .node _ fun l => by simpa using List.all_eq_true.1 h l (mem_linkIds l)
  next => exact rejectConfig s

theorem ctrlWrite (w : Word) : Effect s (s.ctrlWrite w) := by
  unfold State.ctrlWrite
  split
  · exact rejectConfig s
  · split
    next h => exact .words (s.storeCtrl w).port s.events s.sync (s.storeCtrl w).divider rfl h
    next => exact .settled (.controlled w)

theorem lctrlWrite (l : LinkId) (w : Word) : Effect s (s.lctrlWrite l w) := by
  unfold State.lctrlWrite
  split
  · exact .settled (.enabled l w)
  · exact rejectConfig s

theorem plainWrite (a : BitVec 7) (w : Word) : Effect s (s.plainWrite a w) := by
  unfold State.plainWrite
  repeat' split
  · exact .words { s.port with label := w } s.events s.sync s.divider rfl rfl
  · exact .words { s.port with reqTimeout := w.extractLsb' 0 16 } s.events s.sync s.divider rfl rfl
  · exact .select { s.route with routeSel := w.extractLsb' 0 5 } rfl rfl rfl
  · exact .select { s.route with groupSel := w.extractLsb' 0 3 } rfl rfl rfl
  · exact .words { s.port with compose := _ } s.events s.sync s.divider rfl rfl
  · exact same s

theorem statusWrite (w : Word) : Effect s (s.statusWrite w) :=
  .words (s.statusWrite w).port s.events s.sync s.divider rfl rfl

theorem eventWrite (w : Word) : Effect s (s.eventWrite w) := .words s.port (s.eventWrite w).events s.sync s.divider rfl rfl

theorem eventEnWrite (w : Word) : Effect s (s.eventEnWrite w) :=
  .words s.port (s.eventEnWrite w).events s.sync s.divider rfl rfl

theorem hostWrite (a : BitVec 7) (w : Word) : Effect s (hostWrite s a w) :=
  hostWrite_of (nodeWrite s w) (ctrlWrite s w) (statusWrite s w) (cmdWrite s w) (eventWrite s w) (eventEnWrite s w)
    (fun l => lctrlWrite s l w) (.settled (.tables _)) (.settled (.tables _)) (plainWrite s a w)

/-! ### Cells on a link -/

theorem packetCell (l : LinkId) (c : Cell) : Effect s (s.packetCell l c) := by
  unfold State.packetCell
  split
  · exact same s
  · exact same s
  · exact .clearSeen l
  · exact .settled (.framed l c)

theorem controlInUp {s t : State} (l : LinkId) (h : Effect s t) : Effect s (s.controlInUp l t) := by
  unfold State.controlInUp
  split
  · exact .settled (.torn l _)
  · exact h

theorem initReceived (l : LinkId) (node : NodeId) (seen : Bool) : Effect s (s.initReceived l node seen) := by
  unfold State.initReceived
  split
  · exact same s
  · exact same s
  · unfold State.initInWaitPeer
    split
    · exact .settled (.sameId l node)
    · split
      · exact .settled (.up l node)
      · exact .answered l node
  · refine controlInUp l ?_
    split
    · exact same s
    · exact .settled (.torn l _)

theorem creditReceived (l : LinkId) (count : BitVec 7) (res : PerClass Bool) : Effect s (s.creditReceived l count res) := by
  unfold State.creditReceived
  split
  · exact same s
  · exact same s
  · exact .clearSeen l
  · refine controlInUp l ?_
    unfold State.creditInUp
    split
    · exact .settled (.torn l _)
    · exact .settled (.credited l count res)

theorem teardownReceived (l : LinkId) : Effect s (s.teardownReceived l) := by
  unfold State.teardownReceived
  split
  · exact controlInUp l (.settled (.torn l _))
  · exact same s

theorem unknownControl (l : LinkId) : Effect s (s.unknownControl l) := by
  unfold State.unknownControl
  split
  · exact .settled (.torn l _)
  · exact same s

theorem badCell (l : LinkId) : Effect s (s.badCell l) := by
  unfold State.badCell
  split
  · exact same s
  · exact same s
  · exact .clearSeen l
  · exact .settled (.torn l _)

theorem carrierLoss (l : LinkId) : Effect s (s.carrierLoss l) := by
  unfold State.carrierLoss
  split
  · exact .settled (.torn l _)
  · exact same s

/-! ### The part's own events -/

theorem holdExpiry (l : LinkId) : Effect s (s.holdExpiry l) := by
  unfold State.holdExpiry
  split
  · exact .settled (.holdOut l)
  · exact same s

theorem initExpiry (l : LinkId) : Effect s (s.initExpiry l) := by
  unfold State.initExpiry
  split
  · exact .initOut l
  · exact same s

theorem holdoffExpiry (l : LinkId) : Effect s (s.holdoffExpiry l) := by
  unfold State.holdoffExpiry
  split
  · exact .settled (.holdoffOut l)
  · exact same s

theorem requestExpiry (r : ReqIx) : Effect s (s.requestExpiry r) := by
  unfold State.requestExpiry
  split
  next h =>
    obtain ⟨hsent, -⟩ := of_decide_eq_true h
    exact .timedOut r hsent
  next => exact same s

theorem expire (x : TimerId) : Effect s (s.expire x) := by
  cases x with
  | hold l => exact holdExpiry s l
  | init l => exact initExpiry s l
  | holdoff l => exact holdoffExpiry s l
  | request r => exact requestExpiry s r

theorem considerSource (r : RouteSource) : Effect s (s.considerSource r) := by
  unfold State.considerSource
  split
  · exact .settled (.dispatched r)
  · exact same s

theorem finishWhere (l : LinkId) : Effect s (s.finishWhere l) := by
  unfold State.finishWhere
  split
  · exact .settled (.finished l)
  · exact same s

/-- While RESET is asserted nothing happens (R176). -/
theorem unlessReset {s : State} {f : State → State} (h : Effect s (f s)) : Effect s (s.unlessReset f) :=
  State.unlessReset_of (same s) h

end Effect

/-- Every command has an effect. -/
theorem exec_effect (c : Instr) (s : State) : ∃ t, exec c s = .next t ∧ Effect s t := by
  cases c with
  | submit => exact ⟨_, rfl, .unlessReset .submit⟩
  | rxPop => exact ⟨_, rfl, .unlessReset (.rxPop s)⟩
  | cqRelease => exact ⟨_, rfl, .unlessReset .release⟩
  | reqCancel n => exact ⟨_, rfl, .unlessReset (.reqCancel s n)⟩
  | linkReset n => exact ⟨_, rfl, .unlessReset (.linkReset s n)⟩
  | softReset => exact ⟨_, rfl, .unlessReset (.settled .emptied)⟩
  | syncArm k x => exact ⟨_, rfl, .unlessReset (.syncArm s k x)⟩
  | syncTake k => exact ⟨_, rfl, .unlessReset (.syncTake s k)⟩
  | syncDisarm k => exact ⟨_, rfl, .unlessReset (.syncDisarm s k)⟩
  | syncClear k => exact ⟨_, rfl, .unlessReset (.syncClear s k)⟩
  | dropClear => exact ⟨_, rfl, .unlessReset (.words s.dropClear.port s.dropClear.events s.sync s.divider rfl rfl)⟩
  | badCommand code => exact ⟨_, rfl, .unlessReset (.cmdWrite s _)⟩
  | nodeWrite w => exact ⟨_, rfl, .unlessReset (.nodeWrite s w)⟩
  | ctrlWrite w => exact ⟨_, rfl, .unlessReset (.ctrlWrite s w)⟩
  | lctrlWrite l w => exact ⟨_, rfl, .unlessReset (.lctrlWrite s l w)⟩
  | statusWrite w => exact ⟨_, rfl, .unlessReset (.statusWrite s w)⟩
  | eventWrite w => exact ⟨_, rfl, .unlessReset (.eventWrite s w)⟩
  | eventEnWrite w => exact ⟨_, rfl, .unlessReset (.eventEnWrite s w)⟩
  | routeWrite w => exact ⟨_, rfl, .unlessReset (.settled (.tables _))⟩
  | groupWrite w => exact ⟨_, rfl, .unlessReset (.settled (.tables _))⟩
  | registerWrite a w => exact ⟨_, rfl, .unlessReset (.hostWrite s a w)⟩
  | powerOnReset => exact ⟨_, rfl, .power _⟩
  | headerCellArrival l c => exact ⟨_, rfl, .unlessReset (.packetCell s l c)⟩
  | dataCellArrival l c => exact ⟨_, rfl, .unlessReset (.packetCell s l c)⟩
  | packetCellWhileNotUp l c => exact ⟨_, rfl, .unlessReset (.packetCell s l c)⟩
  | initReceived l node seen => exact ⟨_, rfl, .unlessReset (.initReceived s l node seen)⟩
  | creditReceived l count res => exact ⟨_, rfl, .unlessReset (.creditReceived s l count res)⟩
  | teardownCellReceived l => exact ⟨_, rfl, .unlessReset (.teardownReceived s l)⟩
  | unknownControlCell l => exact ⟨_, rfl, .unlessReset (.unknownControl s l)⟩
  | badCell l => exact ⟨_, rfl, .unlessReset (.badCell s l)⟩
  | carrierLoss l => exact ⟨_, rfl, .unlessReset (.carrierLoss s l)⟩
  | holdTimerExpiry l => exact ⟨_, rfl, .unlessReset (.holdExpiry s l)⟩
  | waitPeerEntry l => exact ⟨_, rfl, .unlessReset (.leaveHold l)⟩
  | initTimerExpiry l => exact ⟨_, rfl, .unlessReset (.initExpiry s l)⟩
  | creditHoldoffExpiry l => exact ⟨_, rfl, .unlessReset (.holdoffExpiry s l)⟩
  | requestTimerExpiry r => exact ⟨_, rfl, .unlessReset (.requestExpiry s r)⟩
  | dispatch l c => exact ⟨_, rfl, .unlessReset (.considerSource s _)⟩
  | responderDispatch => exact ⟨_, rfl, .unlessReset (.considerSource s _)⟩
  | transmissionStart l => exact ⟨_, rfl, .unlessReset (.start l)⟩
  | creditCellSend l => exact ⟨_, rfl, .unlessReset (.credit l)⟩
  | transmissionCompletion l => exact ⟨_, rfl, .unlessReset (.finishWhere s l)⟩

/-! ### A period of time (R166) -/

/-- What every expiry and every reading of a free value keep, the expiries of one unit's end keep. -/
theorem expireAll_induct {P : State → Prop} (expires : ∀ s x, P s → P (s.expire x)) (bumps : ∀ s, P s → P s.bumpChoices) :
    ∀ (n : Nat) (s : State), P s → P (expireAll n s) := by
  intro n
  induction n with
  | zero => exact fun s h => h
  | succ n ih =>
    intro s h
    unfold expireAll
    split
    · exact h
    · exact ih _ (expires _ _ h)
    · exact ih _ (expires _ _ (bumps _ h))

theorem tick_induct {P : State → Prop} (expires : ∀ s x, P s → P (s.expire x)) (bumps : ∀ s, P s → P s.bumpChoices)
    {s : State} (unit : P { s.countUnit with divider := 0 }) (counts : P { s with divider := s.divider + 1 }) (idle : P s) :
    P (tick s) := by
  refine State.unlessReset_of idle ?_
  unfold State.period
  split
  · exact expireAll_induct expires bumps _ _ unit
  · exact counts

theorem State.countUnit_entry (s : State) (r : ReqIx) : s.countUnit.entry r = (s.entry r).unitEnd := by
  simp [State.countUnit, State.entry]

end Sys2Proof.Machine
end

section
/-! SUPPORT. The account of copies through every effect (R45, R97, R113, R141). -/

namespace Sys2Proof.Machine

theorem State.softResetCore_copiesLaw (s : State) : s.softResetCore.CopiesLaw := by
  refine .of_empty (fun l => ?_) (fun l c => ?_) (fun i => ?_) rfl (fun r => ?_)
  · obtain ⟨-, -, -, hstore, -⟩ := (s.link l).softReset_words
    rw [State.softResetCore_link, hstore]
    rfl
  · obtain ⟨-, -, htx, -⟩ := (s.link l).softReset_words
    rw [State.softResetCore_link, htx]
    exact Transmitter.idle_queue c
  · simp [State.slot, State.softResetCore]
  · rw [s.softResetCore_free r]; nofun

theorem State.powerOn_copiesLaw (s : State) (b : Bool) : (s.powerOn b).CopiesLaw :=
  (SameCopies.of (s := State.reset) rfl rfl rfl rfl rfl).law State.reset_copiesLaw

/-- A change of a link's own words, its store and its queues as they were. -/
theorem State.CopiesLaw.words {s : State} (h : s.CopiesLaw) (l : LinkId) (f : Link → Link)
    (hpackets : (f (s.link l)).store.packets = (s.link l).store.packets)
    (hnext : (f (s.link l)).store.nextId = (s.link l).store.nextId)
    (hqueue : ∀ c, (f (s.link l)).tx.queue c = (s.link l).tx.queue c) : (s.modLink l f).CopiesLaw :=
  (SameCopies.modLink s l f hpackets hnext fun c => congrArg _ (hqueue c)).law h

theorem State.CopiesLaw.setResult {s : State} (h : s.CopiesLaw) (c : BitVec 4) (r : ResultCode) :
    (s.setResult c r).CopiesLaw := (SameCopies.setResult s c r).law h

theorem State.CopiesLaw.enterHold {s : State} (h : s.CopiesLaw) (l : LinkId) : (s.modLink l Link.enterHold).CopiesLaw :=
  h.words l Link.enterHold rfl rfl fun _ => rfl

theorem State.CopiesLaw.restartLink {s : State} (h : s.CopiesLaw) (l : LinkId) : (s.restartLink l).CopiesLaw := by
  unfold State.restartLink
  split
  · exact h.teardown l _
  · exact h.enterHold l

theorem State.CopiesLaw.applyEnable {s : State} (h : s.CopiesLaw) (l : LinkId) (was : Bool) :
    (s.applyEnable l was).CopiesLaw := by
  unfold State.applyEnable
  split
  · split
    · exact h.enterHold l
    · exact h
  · split
    · exact h.teardown l _
    · exact h.words l Link.enterOff rfl rfl fun _ => rfl

theorem State.CopiesLaw.framedCell {s : State} (h : s.CopiesLaw) (l : LinkId) (c : Cell) : (s.framedCell l c).CopiesLaw := by
  unfold State.framedCell
  split
  · exact h.takeCell l c
  · split
    · exact h.openPacket l _
    · exact h.teardown l _

theorem State.CopiesLaw.comeUp {s : State} (h : s.CopiesLaw) (l : LinkId) (node : NodeId) : (s.comeUp l node).CopiesLaw := by
  have hsent : (if (s.link l).seen then s else s.sendInit l true).CopiesLaw := by
    split
    · exact h
    · exact (SameCopies.send s l _).law h
  exact (SameCopies.latch _ _).law (hsent.words l _ rfl rfl fun _ => rfl)

theorem State.CopiesLaw.completeTransmission {s : State} (h : s.CopiesLaw) (l : LinkId) :
    (s.completeTransmission l).CopiesLaw := by
  unfold State.completeTransmission
  split
  · exact h
  · split
    · exact h
    · exact h.finishHead ‹_›

/-- CQ_RELEASE frees an entry in DONE, which no account speaks of (R127). -/
theorem State.CopiesLaw.cqRelease {s : State} (h : s.CopiesLaw) (hc : s.CompletionLaw) : s.cqRelease.CopiesLaw := by
  cases hcq : s.cq with
  | nil => rw [State.cqRelease_of_empty hcq]; exact h.setResult _ _
  | cons r rest =>
    rw [State.cqRelease_of_cons hcq]
    have hdone : (s.entry r).state = .done := (hc.2 r).1 (hcq ▸ List.mem_cons_self)
    have hrest : ({ s with cq := rest } : State).CopiesLaw := (SameCopies.of rfl rfl rfl rfl rfl).law h
    refine State.CopiesLaw.setResult ((SameCopies.setEntry _ r _ ?_ ?_).law hrest) _ _
    · rw [show ({ s with cq := rest } : State).entry r = s.entry r from rfl, hdone]; exact ⟨nofun, nofun⟩
    · rw [show ({ s with cq := rest } : State).entry r = s.entry r from rfl, hdone]; exact nofun

theorem State.CopiesLaw.complete_sent {s : State} (h : s.CopiesLaw) {r : ReqIx} (hr : (s.entry r).state = .sent)
    (st : Status) : (s.complete r st).CopiesLaw :=
  (SameCopies.completeAs s r _ (by rw [hr]; nofun) rfl).law h

theorem Own.copiesLaw {s u : State} (own : Own s u) (h : s.CopiesLaw) : u.CopiesLaw := by
  cases own with
  | popped rest => exact (SameCopies.of rfl rfl rfl rfl rfl).law h
  | cancelled r hr => exact (h.cancelQueued hr).setResult _ _
  | restarted l => exact (h.restartLink l).setResult _ _
  | emptied => exact s.softResetCore_copiesLaw
  | controlled w => exact (SameCopies.of rfl rfl rfl rfl rfl).law h
  | enabled l w => exact (h.words l _ rfl rfl fun _ => rfl).applyEnable l _
  | tables x => exact (SameCopies.of rfl rfl rfl rfl rfl).law h
  | framed l c => exact h.framedCell l c
  | torn l why => exact h.teardown l why
  | sameId l node => exact (h.words l _ rfl rfl fun _ => rfl).teardown l _
  | up l node => exact h.comeUp l node
  | credited l count res => exact h.words l _ rfl rfl fun _ => rfl
  | holdOut l => exact h.words l _ rfl rfl fun _ => rfl
  | holdoffOut l => exact h.words l _ rfl rfl fun _ => rfl
  | dispatched r => exact h.dispatchSource r
  | finished l => exact h.completeTransmission l

theorem Effect.copiesLaw {s t : State} (effect : Effect s t) (h : s.CopiesLaw) (hc : s.CompletionLaw) : t.CopiesLaw := by
  cases effect with
  | settled own => exact (own.copiesLaw h).settle
  | submit => exact h.submit
  | words | select | node => exact (SameCopies.of rfl rfl rfl rfl rfl).law h
  | release => exact h.cqRelease hc
  | cancelled r hr => exact (h.complete_sent hr _).setResult _ _
  | timedOut r hr => exact h.complete_sent hr _
  | clearSeen l => exact h.words l _ rfl rfl fun _ => rfl
  | answered l node => exact (SameCopies.send _ l _).law (h.words l _ rfl rfl fun _ => rfl)
  | initOut l => exact (SameCopies.send _ l _).law (h.words l _ rfl rfl fun _ => rfl)
  | leaveHold l =>
    unfold State.leaveHold
    split
    · exact (SameCopies.enterWaitPeer s l).law h
    · exact h
  | start l =>
    unfold State.startWhere
    split
    · exact (SameCopies.boundary s l).law h
    · exact h
  | credit l =>
    unfold State.creditWhere
    split
    · exact (SameCopies.boundary s l).law h
    · exact h
  | power b => exact s.powerOn_copiesLaw b

/-- The unit's end counts timers down and no copy (R166). -/
theorem State.countUnit_sameCopies (s : State) : SameCopies s s.countUnit where
  packets l := by rw [s.countUnit_link]; rfl
  nextId l := by rw [s.countUnit_link]; rfl
  queues l c := by rw [s.countUnit_link]; rfl
  slots := rfl
  jobs := rfl
  nextJob := rfl
  entry r := by
    rw [s.countUnit_entry, ReqEntry.unitEnd]
    split <;> exact ⟨.rfl, fun _ => ⟨rfl, rfl⟩⟩

/-- The account of copies with the completion law it leans on, through one period. -/
theorem tick_copiesLaw {s : State} (h : s.CopiesLaw) (hc : s.CompletionLaw) : (tick s).CopiesLaw := by
  refine (tick_induct (P := fun t => t.CopiesLaw ∧ t.CompletionLaw) (fun u x hu => ?_) (fun u hu => ?_) ⟨?_, ?_⟩ ⟨?_, hc⟩
    ⟨h, hc⟩).1
  · exact ⟨(Effect.expire u x).copiesLaw hu.1 hu.2, (Evolves.expire u x).completionLaw hu.2⟩
  · exact ⟨(SameCopies.bumpChoices u).law hu.1, hu.2⟩
  · exact (SameCopies.of rfl rfl rfl rfl rfl).law (s.countUnit_sameCopies.law h)
  · refine ⟨hc.1, fun r => (hc.2 r).trans ?_⟩
    rw [show ({ s.countUnit with divider := 0 } : State).entry r = s.countUnit.entry r from rfl, s.countUnit_entry,
      ReqEntry.unitEnd_state]
  · exact (SameCopies.of rfl rfl rfl rfl rfl).law h

end Sys2Proof.Machine
end

section
/-! The statement on the account of copies (specs 03, 05, 06, 07, 08). -/

namespace Sys2Proof.Machine

/-- Settles O56: the account is kept by every effect of a command, and by the expiries of a period. -/
theorem copyCountsKept : Obligations.CopyCountsKept := by
  unfold Obligations.CopyCountsKept
  intro s t h hc hstep
  cases hpending : s.pending with
  | nil =>
    rw [step, hpending] at hstep
    cases hstep
    exact tick_copiesLaw h hc
  | cons c rest =>
    rw [step, hpending] at hstep
    obtain ⟨u, hu, effect⟩ := exec_effect c { s with pending := rest }
    cases hu.symm.trans hstep
    exact effect.copiesLaw ((SameCopies.of (t := { s with pending := rest }) rfl rfl rfl rfl rfl).law h) hc

end Sys2Proof.Machine
end

section
/-! SUPPORT. What leaves no head, link or lane waiting (R20, R61, R83). -/

namespace Sys2Proof.Machine

/-! ### What the route unit reads of the host's words (R11, R60) -/

/-- Two states between which the route unit cannot tell, whatever host words it does not read. -/
structure SameRoute (s t : State) : Prop where
  node     : t.port.node = s.port.node
  rxEnable : t.port.rxEnable = s.port.rxEnable
  routes   : t.route.routes = s.route.routes
  groups   : t.route.groups = s.route.groups
  position : t.route.position = s.route.position
  links    : t.links = s.links
  inbound  : t.inbound = s.inbound
  jobs     : t.jobs = s.jobs

namespace SameRoute

variable {s t : State} (same : SameRoute s t)
include same

theorem link (l : LinkId) : t.link l = s.link l := by rw [State.link, State.link, same.links]

theorem isUp (l : LinkId) : t.isUp l = s.isUp l := by rw [State.isUp, State.isUp, same.link]

theorem routeFor (n : NodeId) : t.routeFor n = s.routeFor n := by rw [State.routeFor, State.routeFor, same.routes]

theorem groupOf (h : Header) : t.groupOf h = s.groupOf h := by
  rw [State.groupOf, State.groupOf, State.groupFor, State.groupFor, same.groups]

theorem isLocal (n : NodeId) : t.isLocal n = s.isLocal n := by
  rw [State.isLocal, State.isLocal, same.node, same.routeFor]

theorem plan (l : LinkId) (h : Header) : t.plan l h = s.plan l h := by
  simp only [State.plan, State.planGroup, State.planLocal, State.planRemote, State.groupDelivery, State.routeFailure,
    State.upMembers, same.groupOf, same.isUp, same.isLocal, same.rxEnable, same.routeFor]

theorem inboundRoom (len : BitVec 3) : t.inboundRoom len = s.inboundRoom len := by
  rw [State.inboundRoom, State.inboundRoom, State.inboundCells, State.inboundCells, same.inbound]

theorem planFits (h : Header) (p : Plan) : t.planFits h p = s.planFits h p := by
  simp only [State.planFits, State.jobRoom, same.link, same.inboundRoom, same.jobs]

theorem jobFits (j : Job) : t.jobFits j = s.jobFits j := by
  simp only [State.jobFits, State.jobFailure, same.isLocal, same.routeFor, same.isUp, same.link]

theorem ready (r : RouteSource) : t.ready r = s.ready r := by
  cases r with
  | ingress l c => simp only [State.ready, State.ingressHead, same.link, same.plan, same.planFits]
  | responder => simp only [State.ready, State.jobHead, same.jobs, same.jobFits]

theorem nextReady : t.nextReady = s.nextReady := by
  simp only [State.nextReady, same.position, same.ready]

end SameRoute

/-! ### The rest of an event leaves nothing to do again -/

theorem mem_passOrder : ∀ (position : Fin 13) (r : RouteSource), r ∈ passOrder position := by
  intro position r
  rw [passOrder, List.mem_append, or_comm, ← List.mem_append, List.take_append_drop]
  cases r with
  | ingress l c => cases c <;> revert l <;> decide
  | responder => decide

theorem State.nextReady_eq_none_iff {s : State} : s.nextReady = none ↔ ∀ r, s.ready r = false := by
  refine List.find?_eq_none.trans ⟨fun h r => ?_, fun h r _ => ?_⟩
  · exact Bool.eq_false_iff.2 (h r (mem_passOrder _ r))
  · exact Bool.eq_false_iff.1 (h r)

theorem State.Settled.of_sameRoute {s t : State} (h : s.Settled) (same : SameRoute s t) : t.Settled := by
  refine ⟨same.nextReady.trans h.1, fun l => ?_⟩
  rw [same.link]
  exact h.2 l

/-- What a link's own words but its timers do not touch. -/
theorem State.Settled.modLink {s : State} (h : s.Settled) (l : LinkId) (f : Link → Link)
    (hstate : (f (s.link l)).state = (s.link l).state) (hhold : (f (s.link l)).holdTimer = (s.link l).holdTimer)
    (hctrl : (f (s.link l)).ctrl = (s.link l).ctrl) (hstore : (f (s.link l)).store = (s.link l).store)
    (htx : (f (s.link l)).tx = (s.link l).tx) : (s.modLink l f).Settled := by
  have hlink : ∀ m, ((s.modLink l f).link m).state = (s.link m).state ∧
      ((s.modLink l f).link m).holdTimer = (s.link m).holdTimer ∧ ((s.modLink l f).link m).ctrl = (s.link m).ctrl ∧
      ((s.modLink l f).link m).store = (s.link m).store ∧ ((s.modLink l f).link m).tx = (s.link m).tx := fun m => by
    rw [State.link_modLink]
    split
    · subst m; exact ⟨hstate, hhold, hctrl, hstore, htx⟩
    · exact ⟨rfl, rfl, rfl, rfl, rfl⟩
  refine ⟨?_, fun m => ?_⟩
  · refine (SameHeads.nextReady (s := s) (t := s.modLink l f) ⟨rfl, rfl, rfl, rfl, fun m => ?_, fun m => ?_, fun m c => ?_⟩).trans h.1
    · exact (hlink m).1
    · rw [(hlink m).2.2.2.1]
    · rw [(hlink m).2.2.2.2]
  · obtain ⟨hstate, hhold, hctrl, hstore, htx⟩ := hlink m
    simp only [Link.drained, Link.canAct, Link.creditDue, hstate, hhold, hctrl, hstore, htx]
    exact h.2 m

theorem State.Settled.send {s : State} (h : s.Settled) (l : LinkId) (cells : List LaneCell) : (s.send l cells).Settled :=
  h.of_sameRoute ⟨rfl, rfl, rfl, rfl, rfl, rfl, rfl, rfl⟩

theorem State.Settled.setResult {s : State} (h : s.Settled) (c : BitVec 4) (r : ResultCode) : (s.setResult c r).Settled :=
  h.of_sameRoute ⟨rfl, rfl, rfl, rfl, rfl, rfl, rfl, rfl⟩

theorem State.Settled.complete {s : State} (h : s.Settled) {r : ReqIx} (hr : (s.entry r).state = .sent) (st : Status) :
    (s.complete r st).Settled := by
  rw [State.complete, State.completeAs_active _ (.inr hr)]
  exact h.of_sameRoute ⟨rfl, rfl, rfl, rfl, rfl, rfl, rfl, rfl⟩

theorem State.Settled.cqRelease {s : State} (h : s.Settled) : s.cqRelease.Settled := by
  cases hcq : s.cq with
  | nil => rw [State.cqRelease_of_empty hcq]; exact h.setResult _ _
  | cons r rest =>
    rw [State.cqRelease_of_cons hcq]
    exact h.of_sameRoute ⟨rfl, rfl, rfl, rfl, rfl, rfl, rfl, rfl⟩

/-- A link with something to start, or a CREDIT cell to send, could act (R83). -/
theorem Link.canAct_of_canStart {n : Link} (h : n.canStart = true) : n.canAct = true := by
  simp only [Link.canStart, Link.canAct, Bool.and_eq_true] at h ⊢
  exact ⟨h.1, Bool.or_eq_true_iff.2 (.inr h.2)⟩

theorem Link.canAct_of_canCredit {n : Link} (h : n.canCredit = true) : n.canAct = true := by
  simp only [Link.canCredit, Link.canAct, Bool.and_eq_true] at h ⊢
  obtain ⟨hdue, hidle⟩ := h
  have hup : decide (n.state = .up) = true := by
    simp only [Link.creditDue, Bool.and_eq_true] at hdue
    exact hdue.1
  exact ⟨⟨hup, hidle⟩, Bool.or_eq_true_iff.2 (.inl hdue)⟩

/-! ### A NODE write (R163) -/

/-- With every link in OFF no ingress queue has a head. -/
theorem State.ingressHead_of_off {s : State} (hoff : ∀ l, (s.link l).state = .off) (hdown : ∀ l, (s.link l).DownLaw)
    (l : LinkId) (c : Class) : s.ingressHead l c = none := by
  have hrest : (s.link l).AtRest := hdown l ((hoff l).trans_ne (by decide))
  refine List.head?_eq_none_iff.2 (List.filter_eq_nil_iff.2 fun p hp => ?_)
  simp [hrest.dispatched p hp]

/-- With every link in OFF any job is dispatched when considered: its reply is local, or has no route (R74). -/
theorem State.jobFits_of_off {s : State} (hoff : ∀ l, (s.link l).state = .off) (j : Job) : s.jobFits j = true := by
  have hfails : (s.jobFailure j).isSome = true := by
    simp only [State.jobFailure, State.isUp, hoff]
    split <;> rfl
  simp [State.jobFits, hfails]

theorem State.Settled.nodeWrite {s : State} (h : s.Settled) (hdown : ∀ l, (s.link l).DownLaw)
    (hoff : ∀ l, (s.link l).state = .off) (n : NodeId) :
    ({ s with port := { s.port with node := n } } : State).Settled := by
  refine ⟨State.nextReady_eq_none_iff.2 fun r => ?_, h.2⟩
  cases r with
  | ingress l c =>
    have hnone : ({ s with port := { s.port with node := n } } : State).ingressHead l c = none :=
      State.ingressHead_of_off hoff hdown l c
    rw [State.ready, hnone]
  | responder =>
    have hidle : s.jobHead = none := by
      have hwaits := State.nextReady_eq_none_iff.1 h.1 .responder
      rw [State.ready] at hwaits
      cases hj : s.jobHead with
      | none => rfl
      | some j => rw [hj] at hwaits; exact absurd (State.jobFits_of_off hoff j) (Bool.eq_false_iff.1 hwaits)
    have hnone : ({ s with port := { s.port with node := n } } : State).jobHead = none := hidle
    rw [State.ready, hnone]

/-! ### Every effect -/

theorem State.powerOn_link (s : State) (b : Bool) (l : LinkId) : (s.powerOn b).link l = Link.powerOn := State.reset_link l

theorem State.powerOn_settled (s : State) (b : Bool) : (s.powerOn b).Settled :=
  State.reset_settled.of_sameRoute ⟨rfl, rfl, rfl, rfl, rfl, rfl, rfl, rfl⟩

/-- An event that has a rest ends settled where the part it leaves has usable thresholds (R48). -/
theorem settle_settled_of_end {u : State} (h : ∀ l, 1 ≤ ((settle u).link l).ctrl.crThresh) : (settle u).Settled :=
  settle_settled fun l => by rw [← (settle_aftermath u).ctrl l]; exact h l

theorem State.Settled.submit {s : State} (h : s.Settled) (hend : ∀ l, 1 ≤ (s.submit.link l).ctrl.crThresh) :
    s.submit.Settled := by
  cases hcheck : s.submitCheck s.composed with
  | error e =>
    rw [State.submit, hcheck]
    exact h.setResult 1 e
  | ok ms =>
    have haccepted : s.submit = settle (s.submitAccepted ms) := by rw [State.submit, hcheck]
    rw [haccepted] at hend ⊢
    exact settle_settled_of_end hend

theorem Effect.settled_of {s t : State} (effect : Effect s t) (h : s.Settled) (hdown : ∀ l, (s.link l).DownLaw)
    (hend : ∀ l, 1 ≤ (t.link l).ctrl.crThresh) : t.Settled := by
  cases effect with
  | settled own => exact settle_settled_of_end hend
  | submit => exact h.submit hend
  | words p u v d hnode hrx => exact h.of_sameRoute ⟨hnode, hrx, rfl, rfl, rfl, rfl, rfl, rfl⟩
  | select x hroutes hgroups hposition => exact h.of_sameRoute ⟨rfl, rfl, hroutes, hgroups, hposition, rfl, rfl, rfl⟩
  | node n hoff => exact h.nodeWrite hdown hoff n
  | release => exact h.cqRelease
  | cancelled r hr => exact (h.complete hr _).setResult _ _
  | timedOut r hr => exact h.complete hr _
  | clearSeen l => exact h.modLink l _ rfl rfl rfl rfl rfl
  | answered l node => exact (h.modLink l _ rfl rfl rfl rfl rfl).send l _
  | initOut l => exact (h.modLink l _ rfl rfl rfl rfl rfl).send l _
  | leaveHold l => rw [State.leaveHold, (h.2 l).1]; exact h
  | start l =>
    unfold State.startWhere
    split
    next hstart => exact absurd (Link.canAct_of_canStart hstart) (Bool.eq_false_iff.1 (h.2 l).2)
    next => exact h
  | credit l =>
    unfold State.creditWhere
    split
    next hcredit => exact absurd (Link.canAct_of_canCredit hcredit) (Bool.eq_false_iff.1 (h.2 l).2)
    next => exact h
  | power b => exact s.powerOn_settled b

/-! ### A period of time (R166) -/

theorem Link.unitEnd_acts (n : Link) : n.unitEnd.drained = n.drained ∧ n.unitEnd.canAct = n.canAct := by
  refine ⟨?_, rfl⟩
  cases hhold : n.holdTimer <;> simp [Link.drained, Link.unitEnd, hhold]

/-- A unit's end counts timers that run, and stops none. -/
theorem State.Settled.countUnit {s : State} (h : s.Settled) : s.countUnit.Settled := by
  refine ⟨?_, fun l => ?_⟩
  · refine (SameHeads.nextReady (s := s) (t := s.countUnit) ⟨rfl, rfl, rfl, rfl, fun l => ?_, fun l => ?_, fun l c => ?_⟩).trans h.1 <;>
      rw [s.countUnit_link] <;> rfl
  · rw [s.countUnit_link, (s.link l).unitEnd_acts.1, (s.link l).unitEnd_acts.2]
    exact h.2 l

/-- What keeps `Settled` through expiries: the laws of the links and their usable fields. -/
def State.Quiet (s : State) : Prop := s.Settled ∧ ∀ l, (s.link l).DownLaw ∧ (s.link l).ctrl.Usable

theorem Evolves.linkLaws {s t : State} (h : Evolves s t) (hs : ∀ l, (s.link l).DownLaw ∧ (s.link l).ctrl.Usable) (l : LinkId) :
    (t.link l).DownLaw ∧ (t.link l).ctrl.Usable :=
  kept_of_moves (Q := fun n => n.DownLaw ∧ n.ctrl.Usable) (fun _ _ m k => ⟨m.downLaw k.1, m.usable k.2⟩) (h.links l) (hs l)

theorem State.Quiet.expire {s : State} (h : s.Quiet) (x : TimerId) : (s.expire x).Quiet := by
  have hlaws := (Evolves.expire s x).linkLaws h.2
  exact ⟨(Effect.expire s x).settled_of h.1 (fun l => (h.2 l).1) fun l => (hlaws l).2.2.1, hlaws⟩

theorem State.Quiet.tick {s : State} (h : s.Quiet) : (tick s).Quiet := by
  have counted : ({ s.countUnit with divider := 0 } : State).Quiet := by
    refine ⟨h.1.countUnit.of_sameRoute ⟨rfl, rfl, rfl, rfl, rfl, rfl, rfl, rfl⟩, fun l => ?_⟩
    show (s.countUnit.link l).DownLaw ∧ (s.countUnit.link l).ctrl.Usable
    rw [s.countUnit_link]
    exact ⟨Link.Move.downLaw (.unit _) (h.2 l).1, (h.2 l).2⟩
  exact tick_induct (P := State.Quiet) (fun _ x hu => hu.expire x)
    (fun _ hu => ⟨hu.1.of_sameRoute ⟨rfl, rfl, rfl, rfl, rfl, rfl, rfl, rfl⟩, hu.2⟩) counted
    ⟨h.1.of_sameRoute ⟨rfl, rfl, rfl, rfl, rfl, rfl, rfl, rfl⟩, h.2⟩ h

end Sys2Proof.Machine
end

section
/-! The statement on what is left waiting between events (specs 02, 04, 05). -/

namespace Sys2Proof.Machine

/-- Settles O57: what an event's rest leaves is settled, and a command without one leaves a settled part as it was to the
route unit, the link controllers and the lanes. -/
theorem nothingLeftWaiting : Obligations.NothingLeftWaiting := by
  unfold Obligations.NothingLeftWaiting
  intro s t hconfig hdown h hstep
  have husable : t.ConfigLaw := step_configLaw hstep hconfig
  cases hpending : s.pending with
  | nil =>
    rw [step, hpending] at hstep
    cases hstep
    exact (State.Quiet.tick ⟨h, fun l => ⟨hdown l, hconfig.2.2 l⟩⟩).1
  | cons c rest =>
    rw [step, hpending] at hstep
    obtain ⟨u, hu, effect⟩ := exec_effect c { s with pending := rest }
    cases hu.symm.trans hstep
    exact effect.settled_of (h.of_sameRoute ⟨rfl, rfl, rfl, rfl, rfl, rfl, rfl, rfl⟩) hdown fun l => (husable.2.2 l).2.1

end Sys2Proof.Machine
end

section
/-! SUPPORT. The cells a part builds and what it reads of the cells it receives (R3, R180). -/

namespace Sys2Proof.Machine

/-! ### Fields of a word, by its value -/

theorem extract_eq_of_toNat {m n : Nat} {x : BitVec m} {y : BitVec n} {k : Nat} (h : x.toNat / 2 ^ k % 2 ^ n = y.toNat) :
    x.extractLsb' k n = y := by
  refine BitVec.eq_of_toNat_eq ?_
  rw [BitVec.extractLsb'_toNat, Nat.shiftRight_eq_div_pow, h]

theorem bit_eq_of_toNat {m : Nat} {x : BitVec m} {b : Bool} {k : Nat} (h : x.toNat / 2 ^ k % 2 = b.toNat) :
    x.getLsbD k = b := by
  rw [BitVec.getLsbD, Nat.testBit_eq_decide_div_mod_eq, h]
  cases b <;> rfl

/-- Noise in positions a field does not have is not read. -/
theorem extract_or_noise {a noise mask : Cell} {k n : Nat} (h : mask.extractLsb' k n = 0) :
    (a ||| (noise &&& mask)).extractLsb' k n = a.extractLsb' k n := by
  rw [BitVec.extractLsb'_or, BitVec.extractLsb'_and, h]
  simp

theorem bit_or_noise {a noise mask : Cell} {k : Nat} (h : mask.getLsbD k = false) :
    (a ||| (noise &&& mask)).getLsbD k = a.getLsbD k := by
  rw [BitVec.getLsbD_or, BitVec.getLsbD_and, h, Bool.and_false, Bool.or_false]

/-! ### Header cells (R3) -/

theorem Header.toCell_toNat (h : Header) : h.toCell.toNat = h.dest.toNat + 2 ^ 8 * h.src.toNat + 2 ^ 16 * h.cls.toNat +
    2 ^ 20 * h.kind.toNat + 2 ^ 23 * h.grp.toNat + 2 ^ 24 * h.tag.toNat + 2 ^ 32 * h.len.toNat + 2 ^ 40 * h.hops.toNat +
    2 ^ 47 * h.pool.toNat + 2 ^ 48 * h.user.toNat := by
  simp only [Header.toCell, toNat_concat, ofBool_toNat, BitVec.toNat_ofNat]
  omega

theorem Header.ofCell_toCell (h : Header) : Header.ofCell h.toCell = h := by
  have value := h.toCell_toNat
  have hgrp := h.grp.toNat_lt
  have hpool := h.pool.toNat_lt
  rw [Header.ofCell, Header.mk.injEq]
  refine ⟨extract_eq_of_toNat ?_, extract_eq_of_toNat ?_, extract_eq_of_toNat ?_, extract_eq_of_toNat ?_, bit_eq_of_toNat ?_,
    extract_eq_of_toNat ?_, extract_eq_of_toNat ?_, extract_eq_of_toNat ?_, bit_eq_of_toNat ?_, extract_eq_of_toNat ?_⟩ <;> omega

/-- Bit by bit, the assigned positions are those of `headerMask`. -/
theorem Header.toCell_ofCell (c : Cell) : (Header.ofCell c).toCell = c &&& headerMask := by
  refine BitVec.eq_of_getLsbD_eq fun i hi => ?_
  simp only [Header.ofCell, Header.toCell, BitVec.getLsbD_append]
  interval_cases i <;> simp [headerMask]

/-! ### Control cells (R180) -/

theorem initCell_toNat (node : NodeId) (seen : Bool) :
    (initCell node seen).toNat = 1 + 2 ^ 8 * node.toNat + 2 ^ 16 * seen.toNat := by
  simp only [initCell, toNat_concat, ofBool_toNat, BitVec.toNat_ofNat]
  omega

theorem creditCell_toNat (count : BitVec 7) (res : PerClass Bool) : (creditCell count res).toNat =
    2 + 2 ^ 8 * count.toNat + 2 ^ 16 * res.req.toNat + 2 ^ 17 * res.rpy.toNat + 2 ^ 18 * res.pst.toNat := by
  simp only [creditCell, toNat_concat, ofBool_toNat, BitVec.toNat_ofNat]
  omega

theorem controlCellRow_init {l : LinkId} {cell : Cell} (h : controlType cell = 1) :
    controlCellRow l cell = .initReceived l (cell.extractLsb' 8 5) (cell.getLsbD 16) := if_pos h

theorem controlCellRow_credit {l : LinkId} {cell : Cell} (h : controlType cell = 2) : controlCellRow l cell =
    .creditReceived l (cell.extractLsb' 8 7) ⟨cell.getLsbD 16, cell.getLsbD 17, cell.getLsbD 18⟩ := by
  rw [controlCellRow, h]; rfl

theorem controlCellRow_teardown {l : LinkId} {cell : Cell} (h : controlType cell = 3) :
    controlCellRow l cell = .teardownCellReceived l := by
  rw [controlCellRow, h]; rfl

theorem controlCellRow_unknown {l : LinkId} {cell : Cell} (h : controlType cell = 0 ∨ 4 ≤ controlType cell) :
    controlCellRow l cell = .unknownControlCell l := by
  have h1 : controlType cell ≠ 1 := by bv_omega
  have h2 : controlType cell ≠ 2 := by bv_omega
  have h3 : controlType cell ≠ 3 := by bv_omega
  rw [controlCellRow, if_neg h1, if_neg h2, if_neg h3]

end Sys2Proof.Machine
end

section
/-! The statements on cells (spec 11). -/

namespace Sys2Proof.Machine

/-- Settles O4: field by field one way, bit by bit the other. -/
theorem headerCellRoundTrip : Obligations.HeaderCellRoundTrip := by
  unfold Obligations.HeaderCellRoundTrip
  exact ⟨Header.ofCell_toCell, Header.toCell_ofCell⟩

/-- Settles O5: noise in unassigned positions changes neither the type byte nor a field. -/
theorem controlCellRoundTrip : Obligations.ControlCellRoundTrip := by
  unfold Obligations.ControlCellRoundTrip
  refine ⟨fun l node seen noise => ?_, fun l count res noise => ?_, fun l noise => ?_, fun l cell h => controlCellRow_unknown h⟩
  · have value := initCell_toNat node seen
    have hseen := seen.toNat_lt
    rw [controlCellRow_init, extract_or_noise (by decide), bit_or_noise (by decide), Instr.initReceived.injEq]
    · exact ⟨rfl, extract_eq_of_toNat (by omega), bit_eq_of_toNat (by omega)⟩
    · rw [controlType, extract_or_noise (by decide)]
      exact extract_eq_of_toNat (by rw [value]; simp; omega)
  · have value := creditCell_toNat count res
    have hreq := res.req.toNat_lt
    have hrpy := res.rpy.toNat_lt
    have hpst := res.pst.toNat_lt
    rw [controlCellRow_credit, extract_or_noise (by decide), bit_or_noise (by decide), bit_or_noise (by decide),
      bit_or_noise (by decide), Instr.creditReceived.injEq, PerClass.mk.injEq]
    · exact ⟨rfl, extract_eq_of_toNat (by omega), bit_eq_of_toNat (by omega), bit_eq_of_toNat (by omega),
        bit_eq_of_toNat (by omega)⟩
    · rw [controlType, extract_or_noise (by decide)]
      exact extract_eq_of_toNat (by rw [value]; simp; omega)
  · refine controlCellRow_teardown ?_
    rw [controlType, extract_or_noise (by decide)]
    decide

end Sys2Proof.Machine
end

section
/-! SUPPORT. The host's writes and the rows that stand for them (R162, R167). -/

namespace Sys2Proof.Machine

/-! ### The rows while RESET is released (R176) -/

section Rows

variable {s : State} (h : s.inReset = false)
include h

theorem exec_nodeWrite (w : Word) : exec (.nodeWrite w) s = .next (s.nodeWrite w) :=
  congrArg _ (State.unlessReset_of_released _ h)

theorem exec_ctrlWrite (w : Word) : exec (.ctrlWrite w) s = .next (s.ctrlWrite w) :=
  congrArg _ (State.unlessReset_of_released _ h)

theorem exec_lctrlWrite (l : LinkId) (w : Word) : exec (.lctrlWrite l w) s = .next (s.lctrlWrite l w) :=
  congrArg _ (State.unlessReset_of_released _ h)

theorem exec_statusWrite (w : Word) : exec (.statusWrite w) s = .next (s.statusWrite w) :=
  congrArg _ (State.unlessReset_of_released _ h)

theorem exec_eventWrite (w : Word) : exec (.eventWrite w) s = .next (s.eventWrite w) :=
  congrArg _ (State.unlessReset_of_released _ h)

theorem exec_eventEnWrite (w : Word) : exec (.eventEnWrite w) s = .next (s.eventEnWrite w) :=
  congrArg _ (State.unlessReset_of_released _ h)

theorem exec_routeWrite (w : Word) : exec (.routeWrite w) s = .next (s.routeWrite w) :=
  congrArg Host.Outcome.next (State.unlessReset_of_released (·.routeWrite w) h)

theorem exec_groupWrite (w : Word) : exec (.groupWrite w) s = .next (s.groupWrite w) :=
  congrArg Host.Outcome.next (State.unlessReset_of_released (·.groupWrite w) h)

theorem exec_registerWrite (a : BitVec 7) (w : Word) : exec (.registerWrite a w) s = .next (hostWrite s a w) :=
  congrArg _ (State.unlessReset_of_released _ h)

theorem exec_badCommand (code : BitVec 4) : exec (.badCommand code) s = .next (s.cmdWrite (code.setWidth 32)) :=
  congrArg _ (State.unlessReset_of_released _ h)

end Rows

/-! ### Commands (R167) -/

theorem cmdRow_unknown {w : Word} (h : isKnownCode (cmdCode w) = false) : cmdRow w = .badCommand (cmdCode w) := by
  revert h
  unfold cmdRow
  generalize cmdCode w = code
  generalize cmdN w = n
  generalize cmdT w = t
  intro h
  have hne : ∀ k : BitVec 4, isKnownCode k = true → code ≠ k := fun k hk e => by subst e; rw [hk] at h; cases h
  rw [if_neg (hne 1 rfl), if_neg (hne 2 rfl), if_neg (hne 3 rfl), if_neg (hne 4 rfl), if_neg (hne 5 rfl), if_neg (hne 6 rfl),
    if_neg (hne 7 rfl), if_neg (hne 8 rfl), if_neg (hne 9 rfl), if_neg (hne 10 rfl), if_neg (hne 11 rfl)]

theorem isKnownCode_cases : ∀ code : BitVec 4, isKnownCode code = true → code = 1 ∨ code = 2 ∨ code = 3 ∨ code = 4 ∨
    code = 5 ∨ code = 6 ∨ code = 7 ∨ code = 8 ∨ code = 9 ∨ code = 10 ∨ code = 11 := by decide

/-- The row of a CMD write is well formed and means the write (R167). -/
theorem cmdRow_meaning {s : State} (h : s.inReset = false) (w : Word) :
    (cmdRow w).wellFormed = true ∧ exec (cmdRow w) s = .next (s.cmdWrite w) := by
  cases hknown : isKnownCode (cmdCode w) with
  | false =>
    rw [cmdRow_unknown hknown, exec_badCommand h, State.cmdWrite_unknown s hknown, State.cmdWrite_unknown, cmdCode_setWidth]
    · exact ⟨by rw [Instr.wellFormed, hknown]; rfl, rfl⟩
    · rwa [cmdCode_setWidth]
  | true =>
    rcases isKnownCode_cases _ hknown with hc | hc | hc | hc | hc | hc | hc | hc | hc | hc | hc <;>
      rw [cmdRow, State.cmdWrite, hc]
    · exact ⟨rfl, exec_submit h⟩
    · exact ⟨rfl, exec_rxPop h⟩
    · exact ⟨rfl, exec_cqRelease h⟩
    · exact ⟨rfl, exec_reqCancel h _⟩
    · exact ⟨rfl, exec_linkReset h _⟩
    · exact ⟨rfl, exec_softReset h⟩
    · exact ⟨rfl, exec_syncArm h _ _⟩
    · exact ⟨rfl, exec_syncTake h _⟩
    · exact ⟨rfl, exec_syncDisarm h _⟩
    · exact ⟨rfl, exec_syncClear h _⟩
    · exact ⟨rfl, exec_dropClear h⟩

/-! ### Words (R162) -/

theorem hasOwnRow_cases : ∀ a : BitVec 7, hasOwnRow a = true → a = 1 ∨ a = 3 ∨ a = 4 ∨ a = 6 ∨ a = 8 ∨ a = 9 ∨ a = 24 ∨
    a = 25 ∨ a = 26 ∨ a = 27 ∨ a = 41 ∨ a = 43 := by decide

theorem hostWriteRow_plain {a : BitVec 7} (w : Word) (h : hasOwnRow a = false) : hostWriteRow a w = .registerWrite a w := by
  have hne : ∀ b : BitVec 7, hasOwnRow b = true → a ≠ b := fun b hb e => by subst e; rw [hb] at h; cases h
  rw [hostWriteRow, if_neg (hne 1 rfl), if_neg (hne 3 rfl), if_neg (hne 4 rfl), if_neg (hne 6 rfl), if_neg (hne 8 rfl),
    if_neg (hne 9 rfl), if_neg (hne 24 rfl), if_neg (hne 25 rfl), if_neg (hne 26 rfl), if_neg (hne 27 rfl),
    if_neg (hne 41 rfl), if_neg (hne 43 rfl)]

end Sys2Proof.Machine
end

section
/-! The statement on the rows of host writes (specs 10 and 11). -/

namespace Sys2Proof.Machine

/-- Settles O6: a word with a row of its own gives that row, CMD the row of its code, and every other REGISTER_WRITE. -/
theorem hostWriteHasItsRow : Obligations.HostWriteHasItsRow := by
  unfold Obligations.HostWriteHasItsRow
  intro a w s h
  cases hrow : hasOwnRow a with
  | false =>
    rw [hostWriteRow_plain w hrow]
    exact ⟨by rw [Instr.wellFormed, hrow]; rfl, exec_registerWrite h a w⟩
  | true =>
    rcases hasOwnRow_cases a hrow with rfl | rfl | rfl | rfl | rfl | rfl | rfl | rfl | rfl | rfl | rfl | rfl
    · exact ⟨rfl, exec_nodeWrite h w⟩
    · exact ⟨rfl, exec_ctrlWrite h w⟩
    · exact ⟨rfl, exec_statusWrite h w⟩
    · exact cmdRow_meaning h w
    · exact ⟨rfl, exec_eventWrite h w⟩
    · exact ⟨rfl, exec_eventEnWrite h w⟩
    · exact ⟨rfl, exec_lctrlWrite h 0 w⟩
    · exact ⟨rfl, exec_lctrlWrite h 1 w⟩
    · exact ⟨rfl, exec_lctrlWrite h 2 w⟩
    · exact ⟨rfl, exec_lctrlWrite h 3 w⟩
    · exact ⟨rfl, exec_routeWrite h w⟩
    · exact ⟨rfl, exec_groupWrite h w⟩

end Sys2Proof.Machine
end

section
/-! SUPPORT. Which words of the window a write changes, and how its word then reads (R161, R162, R165, R169, R170, R177). -/

namespace Sys2Proof.Machine

/-! ### Values of words -/

/-- The lowest `n` bits of a word, read as a word. -/
theorem setWidth_extract (w : Word) (n : Nat) (hn : n < 32) :
    (w.extractLsb' 0 n).setWidth 32 = w &&& BitVec.ofNat 32 (2 ^ n - 1) := by
  have hlt : 2 ^ n < 2 ^ 32 := Nat.pow_lt_pow_right (by decide) hn
  refine BitVec.eq_of_toNat_eq ?_
  rw [BitVec.toNat_setWidth, BitVec.extractLsb'_toNat, BitVec.toNat_and, BitVec.toNat_ofNat,
    Nat.mod_eq_of_lt (a := 2 ^ n - 1) (by omega), Nat.and_two_pow_sub_one_eq_mod, Nat.shiftRight_zero]
  exact Nat.mod_eq_of_lt ((Nat.mod_lt _ (Nat.two_pow_pos n)).trans hlt)

theorem low_flag_cleared (x : BitVec 31) (b : Bool) : x ++ BitVec.ofBool false = (x ++ BitVec.ofBool b) &&& ~~~1 := by
  refine BitVec.eq_of_getLsbD_eq fun i hi => ?_
  rw [BitVec.getLsbD_and, BitVec.getLsbD_not, BitVec.getLsbD_append, BitVec.getLsbD_append]
  by_cases h0 : i = 0
  · simp [h0]
  · simp [h0, hi, show ¬ i < 1 by omega]

theorem low_flag_set (x : BitVec 31) (b : Bool) : x ++ BitVec.ofBool true = (x ++ BitVec.ofBool b) ||| 1 := by
  refine BitVec.eq_of_getLsbD_eq fun i hi => ?_
  rw [BitVec.getLsbD_or, BitVec.getLsbD_append, BitVec.getLsbD_append]
  by_cases h0 : i = 0
  · simp [h0]
  · simp [h0, show ¬ i < 1 by omega]

/-! ### The words a change is read at -/

theorem toNat_ne_of_not_mem {a : BitVec 7} {as : List (BitVec 7)} (ha : a ∉ as) {b : BitVec 7} (hb : b ∈ as) :
    a.toNat ≠ b.toNat := fun e => ha (BitVec.eq_of_toNat_eq e ▸ hb)

section Windows

variable (s : State)

theorem State.node_window (x : NodeId) : SameWindowBut s { s with port := { s.port with node := x } } [1] := by
  intro a ha
  have h1 : a.toNat ≠ 1 := toNat_ne_of_not_mem ha (b := 1) (by decide)
  simp only [readWord, readWordNat, if_neg h1]
  rfl

theorem State.label_window (x : Word) : SameWindowBut s { s with port := { s.port with label := x } } [2] := by
  intro a ha
  have h2 : a.toNat ≠ 2 := toNat_ne_of_not_mem ha (b := 2) (by decide)
  simp only [readWord, readWordNat, if_neg h2]
  rfl

theorem State.cfgReject_window (x : Bool) : SameWindowBut s { s with port := { s.port with cfgReject := x } } [4] := by
  intro a ha
  have h4 : a.toNat ≠ 4 := toNat_ne_of_not_mem ha (b := 4) (by decide)
  simp only [readWord, readWordNat, if_neg h4]
  rfl

theorem State.reqTimeout_window (x : BitVec 16) :
    SameWindowBut s { s with port := { s.port with reqTimeout := x } } [5] := by
  intro a ha
  have h5 : a.toNat ≠ 5 := toNat_ne_of_not_mem ha (b := 5) (by decide)
  simp only [readWord, readWordNat, if_neg h5]
  rfl

theorem State.latch_window (x : BitVec 7) : SameWindowBut s { s with events := { s.events with latch := x } } [8] := by
  intro a ha
  have h8 : a.toNat ≠ 8 := toNat_ne_of_not_mem ha (b := 8) (by decide)
  simp only [readWord, readWordNat, if_neg h8]
  rfl

theorem State.enable_window (x : BitVec 7) : SameWindowBut s { s with events := { s.events with enable := x } } [9] := by
  intro a ha
  have h9 : a.toNat ≠ 9 := toNat_ne_of_not_mem ha (b := 9) (by decide)
  simp only [readWord, readWordNat, if_neg h9]
  rfl

/-- A selector is read at its own word and at the word of the table it selects from. -/
theorem State.routeSel_window (x : BitVec 5) :
    SameWindowBut s { s with route := { s.route with routeSel := x } } [40, 41] := by
  intro a ha
  have h40 : a.toNat ≠ 40 := toNat_ne_of_not_mem ha (b := 40) (by decide)
  have h41 : a.toNat ≠ 41 := toNat_ne_of_not_mem ha (b := 41) (by decide)
  simp only [readWord, readWordNat, if_neg h40, if_neg h41]
  rfl

theorem State.groupSel_window (x : BitVec 3) :
    SameWindowBut s { s with route := { s.route with groupSel := x } } [42, 43] := by
  intro a ha
  have h42 : a.toNat ≠ 42 := toNat_ne_of_not_mem ha (b := 42) (by decide)
  have h43 : a.toNat ≠ 43 := toNat_ne_of_not_mem ha (b := 43) (by decide)
  simp only [readWord, readWordNat, if_neg h42, if_neg h43]
  rfl

theorem readWordNat_compose {n : Nat} (hn : 48 ≤ n ∧ n < 64) : readWordNat s n = s.port.compose[n - 48] := by
  obtain ⟨k, rfl⟩ : ∃ k : Fin 16, n = 48 + k.val := ⟨⟨n - 48, by omega⟩, by simp; omega⟩
  fin_cases k <;> rfl

theorem State.compose_window {a : BitVec 7} (ha : 48 ≤ a.toNat ∧ a.toNat < 64) (w : Word) : SameWindowBut s
    { s with port := { s.port with compose := s.port.compose.set (a.toNat - 48) w (by omega) } } [a] := by
  intro b hb
  have hne : b.toNat ≠ a.toNat := toNat_ne_of_not_mem hb (List.mem_singleton_self a)
  by_cases hn : 48 ≤ b.toNat ∧ b.toNat < 64
  · rw [readWord, readWord, readWordNat_compose _ hn, readWordNat_compose _ hn]
    exact congrArg (ite _ 0) (Vector.getElem_set_ne (by omega) (by omega) (by omega))
  · simp only [readWord, readWordNat, dif_neg hn]
    rfl

end Windows

/-! ### STATUS (R162, R165) -/

/-- CFG_REJECT is the lowest bit of STATUS. -/
theorem State.readStatus_cfgReject (s : State) (x : Bool) : ∃ rest : BitVec 31,
    s.readStatus = rest ++ BitVec.ofBool s.port.cfgReject ∧
    State.readStatus { s with port := { s.port with cfgReject := x } } = rest ++ BitVec.ofBool x := ⟨_, rfl, rfl⟩

theorem readWord_status {s : State} (h : s.inReset = false) : readWord s 4 = s.readStatus := readWord_running s h 4

/-- A refused configuration write sets CFG_REJECT and nothing else (R163, R164, R165). -/
theorem State.rejectConfig_effect {s : State} (h : s.inReset = false) : readWord s.rejectConfig 4 = readWord s 4 ||| 1 ∧
    SameWindowBut s s.rejectConfig [4] ∧ { s.rejectConfig with port := s.port } = s := by
  refine ⟨?_, s.cfgReject_window true, rfl⟩
  obtain ⟨rest, hold, hnew⟩ := s.readStatus_cfgReject true
  rw [readWord_status h, readWord_status (s := s.rejectConfig) h, State.rejectConfig, hnew, hold]
  exact low_flag_set rest _

theorem State.statusWrite_reads {s : State} (h : s.inReset = false) (w : Word) : readWord (s.statusWrite w) 4 =
    if w.getLsbD 0 then readWord s 4 &&& ~~~1 else readWord s 4 := by
  obtain ⟨rest, hold, hnew⟩ := s.readStatus_cfgReject (s.port.cfgReject && !w.getLsbD 0)
  rw [readWord_status h, readWord_status (s := s.statusWrite w) h, State.statusWrite, hnew, hold]
  cases w.getLsbD 0
  · rw [Bool.not_false, Bool.and_true]; rfl
  · rw [Bool.not_true, Bool.and_false]
    exact low_flag_cleared rest _

/-! ### EVENT, EVENT_EN and INT (R169, R170) -/

theorem readWord_latch {s : State} (h : s.inReset = false) : readWord s 8 = s.events.latch.setWidth 32 :=
  readWord_running s h 8

theorem readWord_enable {s : State} (h : s.inReset = false) : readWord s 9 = s.events.enable.setWidth 32 :=
  readWord_running s h 9

theorem State.eventWrite_reads {s : State} (h : s.inReset = false) (w : Word) :
    readWord (s.eventWrite w) 8 = readWord s 8 &&& ~~~w := by
  rw [readWord_latch h, readWord_latch (s := s.eventWrite w) h]
  refine BitVec.eq_of_getLsbD_eq fun i hi => ?_
  rw [State.eventWrite, BitVec.getLsbD_and, BitVec.getLsbD_not, BitVec.getLsbD_setWidth, BitVec.getLsbD_setWidth,
    BitVec.getLsbD_and, BitVec.getLsbD_not, BitVec.getLsbD_extractLsb']
  by_cases h7 : i < 7
  · simp [hi, h7]
  · simp [hi, BitVec.getLsbD_of_ge s.events.latch i (by omega)]

theorem State.intAsserted_iff (s : State) : s.intAsserted = true ↔ readWord s 8 &&& readWord s 9 ≠ 0 := by
  have wide : ∀ x : BitVec 7, x ≠ 0 ↔ x.setWidth 32 ≠ 0 := by decide
  cases h : s.inReset with
  | true => simp [State.intAsserted, readWord, h]
  | false =>
    rw [readWord_latch h, readWord_enable h, ← BitVec.setWidth_and, ← wide]
    simp [State.intAsserted, h]

/-! ### REGISTER_WRITE (R162) -/

theorem storedMask_cases : ∀ a : BitVec 7, storedMask a ≠ 0 → a = 2 ∨ a = 5 ∨ a = 40 ∨ a = 42 ∨ (48 ≤ a ∧ a < 64) := by
  decide

theorem compose_hasOwnRow : ∀ a : BitVec 7, 48 ≤ a ∧ a < 64 → hasOwnRow a = false ∧ storedMask a = 0xFFFFFFFF ∧ a ≠ 40 ∧
    a ≠ 42 ∧ a ≠ 2 ∧ a ≠ 5 := by decide

theorem hostWrite_compose (s : State) {a : BitVec 7} (ha : 48 ≤ a ∧ a < 64) (hn : 48 ≤ a.toNat ∧ a.toNat < 64) (w : Word) :
    hostWrite s a w =
      { s with port := { s.port with compose := s.port.compose.set (a.toNat - 48) w (by omega) } } := by
  obtain ⟨hrow, -, h40, h42, h2, h5⟩ := compose_hasOwnRow a ha
  rw [hostWrite_plain s w hrow, State.plainWrite, if_neg h2, if_neg h5, if_neg h40, if_neg h42, dif_pos hn]

/-- A write of a word that stores nothing is ignored (R162). -/
theorem hostWrite_unstored (s : State) {a : BitVec 7} (w : Word) (hrow : hasOwnRow a = false) (hmask : storedMask a = 0) :
    hostWrite s a w = s := by
  have hne : ∀ b : BitVec 7, storedMask b ≠ 0 → a ≠ b := fun b hb e => hb (e ▸ hmask)
  have hcompose : ¬ (48 ≤ a.toNat ∧ a.toNat < 64) := fun hn => by
    obtain ⟨-, hset, -⟩ := compose_hasOwnRow a hn
    rw [hset] at hmask
    cases hmask
  rw [hostWrite_plain s w hrow, State.plainWrite, if_neg (hne 2 (by decide)), if_neg (hne 5 (by decide)),
    if_neg (hne 40 (by decide)), if_neg (hne 42 (by decide)), dif_neg hcompose]

/-- RESULT of an unknown code: the code and BAD_COMMAND (R168). -/
theorem badCommand_word : ∀ code : BitVec 4,
    0#10 ++ 0#6 ++ 0#4 ++ 0#4 ++ ResultCode.badCommand.code ++ code = code.setWidth 32 ||| 0x10 := by decide

/-- Beyond the last word of the map everything reads 0 (R162). -/
theorem readWordNat_unmapped (s : State) {n : Nat} (hn : 112 ≤ n) : readWordNat s n = 0 := by
  obtain ⟨k, rfl⟩ := Nat.exists_eq_add_of_le hn
  have none_of : ∀ m, m < 112 → ¬ 112 + k = m := fun m hm => by omega
  have none_in : ∀ i j, j ≤ 112 → ¬ (i ≤ 112 + k ∧ 112 + k < j) := fun i j hj => by omega
  simp [readWordNat, none_of, none_in]

end Sys2Proof.Machine
end

section
/-! The statements on register writes and BAD_COMMAND (spec 10). -/

namespace Sys2Proof.Machine

/-- Settles O8: the five kinds of word the host may set, each stored in its own field. -/
theorem registerWrite : Obligations.RegisterWrite := by
  unfold Obligations.RegisterWrite
  refine ⟨fun a w s h hmask => ?_, fun a w s h hwf hmask => ?_, fun a s ha => ?_⟩
  · rcases storedMask_cases a hmask with rfl | rfl | rfl | rfl | ha
    · exact ⟨_, exec_registerWrite h 2 w, (readWord_running (hostWrite s 2 w) h 2).trans (BitVec.and_allOnes (x := w)).symm, s.label_window w,
        fun _ => rfl, fun _ => rfl, rfl, rfl⟩
    · exact ⟨_, exec_registerWrite h 5 w, (readWord_running (hostWrite s 5 w) h 5).trans (setWidth_extract w 16 (by decide)),
        s.reqTimeout_window _, fun _ => rfl, fun _ => rfl, rfl, rfl⟩
    · exact ⟨_, exec_registerWrite h 40 w, (readWord_running (hostWrite s 40 w) h 40).trans (setWidth_extract w 5 (by decide)),
        s.routeSel_window _, fun _ => rfl, fun _ => rfl, rfl, rfl⟩
    · exact ⟨_, exec_registerWrite h 42 w, (readWord_running (hostWrite s 42 w) h 42).trans (setWidth_extract w 3 (by decide)),
        s.groupSel_window _, fun _ => rfl, fun _ => rfl, rfl, rfl⟩
    · have hn : 48 ≤ a.toNat ∧ a.toNat < 64 := ha
      obtain ⟨-, hset, h40, h42, -⟩ := compose_hasOwnRow a ha
      have hwrite := exec_registerWrite h a w
      rw [hostWrite_compose s ha hn] at hwrite
      rw [hset, if_neg h40, if_neg h42]
      refine ⟨_, hwrite, ?_, s.compose_window hn w, fun _ => rfl, fun _ => rfl, rfl, rfl⟩
      rw [readWord_running _ (by exact h), readWordNat_compose _ hn]
      exact (Vector.getElem_set_self _).trans (BitVec.and_allOnes (x := w)).symm
  · have hrow : hasOwnRow a = false := by simpa [Instr.wellFormed] using hwf
    rw [exec_registerWrite h, hostWrite_unstored s w hrow hmask]
  · cases hr : s.inReset with
    | true => exact if_pos hr
    | false =>
      rw [readWord_running s hr]
      rcases ha with rfl | rfl | rfl | ha | ha
      · rfl
      · rfl
      · rfl
      · have hcases : ∀ b : BitVec 7, 44 ≤ b ∧ b ≤ 47 → b = 44 ∨ b = 45 ∨ b = 46 ∨ b = 47 := by decide
        rcases hcases a ha with rfl | rfl | rfl | rfl <;> rfl
      · exact readWordNat_unmapped s ha

/-- Settles O9: each write changes one field, read at one word. -/
theorem statusAndEventWrites : Obligations.StatusAndEventWrites := by
  unfold Obligations.StatusAndEventWrites
  refine ⟨fun w s h => ?_, fun w s h => ?_, fun w s h => ?_, State.intAsserted_iff⟩
  · exact ⟨_, exec_statusWrite h w, State.statusWrite_reads h w, s.cfgReject_window _, rfl⟩
  · exact ⟨_, exec_eventWrite h w, State.eventWrite_reads h w, s.latch_window _, rfl⟩
  · exact ⟨_, exec_eventEnWrite h w, (readWord_enable (s := s.eventEnWrite w) h).trans (setWidth_extract w 7 (by decide)),
      s.enable_window _, rfl⟩

/-- Settles O10: stored with every link in OFF, else refused. -/
theorem nodeWrite : Obligations.NodeWrite := by
  unfold Obligations.NodeWrite
  intro w s h
  refine ⟨fun hoff => ?_, fun ⟨l, hl⟩ => ?_⟩
  · have hstored : s.nodeWrite w = { s with port := { s.port with node := w.extractLsb' 0 5 } } :=
      if_pos (List.all_eq_true.2 fun l _ => decide_eq_true (hoff l))
    rw [exec_nodeWrite h, hstored]
    refine ⟨_, rfl, ?_, s.node_window _, rfl⟩
    rw [readWord_running _ (by exact h)]
    exact setWidth_extract w 5 (by decide)
  · have hrefused : s.nodeWrite w = s.rejectConfig :=
      if_neg fun hall => hl (of_decide_eq_true (List.all_eq_true.1 hall l (mem_linkIds l)))
    rw [exec_nodeWrite h, hrefused]
    exact ⟨_, rfl, State.rejectConfig_effect h⟩

/-- Settles O15: an unknown code writes RESULT alone. -/
theorem badCommand : Obligations.BadCommand := by
  unfold Obligations.BadCommand
  intro code s h hwf
  have hunknown : isKnownCode (cmdCode (code.setWidth 32)) = false := by
    rw [cmdCode_setWidth]
    simpa [Instr.wellFormed] using hwf
  rw [exec_badCommand h, State.cmdWrite_unknown s hunknown, cmdCode_setWidth]
  refine ⟨_, rfl, ?_, s.setResult_window _ _, rfl⟩
  rw [readWord_running _ (by exact h)]
  exact badCommand_word code

end Sys2Proof.Machine
end

section
/-! SUPPORT. Configuration words and power-on reset (R17, R57, R58, R163–R166, R176–R178). -/

namespace Sys2Proof.Machine

/-! ### Power-on values (R176) -/

theorem State.powerOn_window (s : State) (b : Bool) (n : Nat) : readWordNat (s.powerOn b) n = readWordNat State.reset n := rfl

theorem State.reset_window : ∀ a : BitVec 7, readWordNat State.reset a.toNat = powerOnWord a := by decide

theorem State.powerOn_state (s : State) (b : Bool) : (∀ n, (s.powerOn b).routeFor n = ⟨.discard, 0⟩) ∧
    (∀ g, (s.powerOn b).groupFor g = ⟨false, 0, false⟩) ∧ (∀ l, (s.powerOn b).link l = Link.powerOn) ∧
    (∀ i, (s.powerOn b).slot i = none) ∧ (∀ r, (s.powerOn b).entry r = ReqEntry.free 0) ∧
    ∀ k, (s.powerOn b).counter k = SyncCounter.initial := by
  refine ⟨fun n => ?_, fun g => ?_, s.powerOn_link b, State.reset_slot, State.reset_entry, State.reset_counter⟩
  · simp [State.routeFor, State.powerOn, State.reset]
  · simp [State.groupFor, State.powerOn, State.reset]

/-! ### While RESET is asserted (R166, R176) -/

theorem exec_asserted {s : State} (h : s.inReset = true) {c : Instr} (hc : c ≠ .powerOnReset) : exec c s = .next s := by
  cases c with
  | powerOnReset => exact absurd rfl hc
  | _ => exact congrArg Host.Outcome.next (if_pos h)

end Sys2Proof.Machine
end

section
/-! The statement on power-on reset (spec 10). -/

namespace Sys2Proof.Machine

/-- Settles O7: the assertion and the release leave the same power-on state, shown by the window once RESET is released. -/
theorem powerOnResetState : Obligations.PowerOnResetState := by
  unfold Obligations.PowerOnResetState
  refine ⟨fun s => ?_, fun s h => ⟨fun a => if_pos h, ?_, fun c hc => exec_asserted h hc, fun hidle => ?_⟩⟩
  · obtain ⟨hroutes, hgroups, hlinks, hslots, hentries, hcounters⟩ := s.powerOn_state (!s.inReset)
    refine ⟨_, rfl, rfl, fun h a => ?_, State.intAsserted_of_none_latched rfl, hroutes, hgroups, rfl, hlinks, hslots, hentries,
      rfl, rfl, rfl, hcounters, rfl, fun _ => rfl⟩
    rw [State.resetInput, h, readWord_running _ rfl, State.powerOn_window]
    exact State.reset_window a
  · rw [State.intAsserted, h]; rfl
  · rw [step, hidle]
    exact congrArg Host.Outcome.next (if_pos h)

end Sys2Proof.Machine
end

section
/-! SUPPORT. CTRL, LCTRLn and the route and group tables (R17, R57, R58, R164, R178). -/

namespace Sys2Proof.Machine

theorem EndsAs.self (u : State) : EndsAs u u := ⟨.refl u, fun _ => rfl⟩

/-- A command whose event has a rest ends as its own effect leaves the part, but for that rest. -/
theorem exec_endsAs {c : Instr} {s u : State} (h : exec c s = .next (settle u)) : ∃ t, exec c s = .next t ∧ EndsAs u t :=
  ⟨settle u, h, settle_endsAs u⟩

/-! ### CTRL (R164) -/

theorem readWord_ctrl {s : State} (h : s.inReset = false) : readWord s 3 = s.readCtrl := readWord_running s h 3

theorem State.storeCtrl_reads (s : State) (w : Word) : (s.storeCtrl w).readCtrl = w &&& 0x00FF1F01 := by
  refine BitVec.eq_of_getLsbD_eq fun i hi => ?_
  simp only [State.readCtrl, State.storeCtrl, BitVec.getLsbD_append]
  interval_cases i <;> simp

theorem ctrlAccepted_iff {w : Word} : ctrlAccepted w = true ↔ w.extractLsb' 8 5 ≠ 0 ∧ w.extractLsb' 16 8 ≠ 0 := decide_eq_true_iff

/-! ### ROUTE and GROUP (R57, R58) -/

theorem readWord_route {s : State} (h : s.inReset = false) : readWord s 41 = s.readRoute := readWord_running s h 41

theorem readWord_routeSel {s : State} (h : s.inReset = false) : readWord s 40 = s.route.routeSel.setWidth 32 :=
  readWord_running s h 40

theorem readWord_groupSel {s : State} (h : s.inReset = false) : readWord s 42 = s.route.groupSel.setWidth 32 :=
  readWord_running s h 42

theorem readWord_group {s : State} (h : s.inReset = false) : readWord s 43 = s.readGroup := readWord_running s h 43

theorem RouteAction.code_ofCode : ∀ c : BitVec 2, (RouteAction.ofCode c).code = if c = 3 then 0 else c := by decide

/-- The code that names no action is the one whose two bits are set. -/
theorem low_bits_eq_three (w : Word) : w &&& 3 = 3 ↔ w.extractLsb' 0 2 = 3 := by
  have low := setWidth_extract w 2 (by decide)
  have key : ∀ x : BitVec 2, x.setWidth 32 = (3 : Word) ↔ x = 3 := by decide
  exact (iff_of_eq (congrArg (· = (3 : Word)) low)).symm.trans (key _)

theorem RouteEntry.ofWord_reads (w : Word) :
    (0#26 ++ BitVec.ofFin (w := 2) (RouteEntry.ofWord w).link ++ 0#2 ++ (RouteEntry.ofWord w).action.code : Word) =
      if w &&& 3 = 3 then w &&& 0x30 else w &&& 0x33 := by
  have link : BitVec.ofFin (w := 2) (w.extractLsb' 4 2).toFin = w.extractLsb' 4 2 := rfl
  simp only [RouteEntry.ofWord, RouteAction.code_ofCode, low_bits_eq_three, link]
  split
  · refine BitVec.eq_of_getLsbD_eq fun i hi => ?_
    simp only [BitVec.getLsbD_append]
    interval_cases i <;> simp
  · refine BitVec.eq_of_getLsbD_eq fun i hi => ?_
    simp only [BitVec.getLsbD_append]
    interval_cases i <;> simp

theorem GroupEntry.ofWord_reads (w : Word) : (0#24 ++ BitVec.ofBool (GroupEntry.ofWord w).enable ++ 0#2 ++
    BitVec.ofBool (GroupEntry.ofWord w).member ++ (GroupEntry.ofWord w).mask : Word) = w &&& 0x9F := by
  refine BitVec.eq_of_getLsbD_eq fun i hi => ?_
  simp only [GroupEntry.ofWord, BitVec.getLsbD_append]
  interval_cases i <;> simp

/-! ### LCTRLn (R17, R178) -/

theorem readWord_lctrl {s : State} (h : s.inReset = false) (l : LinkId) : readWord s (linkWord 24 l) = (s.link l).ctrl.read := by
  rw [readWord_running s h]
  fin_cases l <;> rfl

theorem ite_select {α : Type} (b : Bool) (x y z : α) :
    (if b then (if b then x else y) else (if b then z else x)) = x := by
  cases b <;> rfl

/-- The quantity the written TSEL selects is the one TIME was stored in. -/
theorem LinkCtrl.written_shown (k : LinkCtrl) (w : Word) :
    (if (k.written w).tsel then (k.written w).crHoldoff else (k.written w).linkHold) = w.extractLsb' 8 8 := by
  exact ite_select (w.getLsbD 7) _ _ _

theorem LinkCtrl.written_reads (k : LinkCtrl) (w : Word) : (k.written w).read = w &&& 0x7FFFFF83 := by
  rw [LinkCtrl.read, LinkCtrl.written_shown]
  refine BitVec.eq_of_getLsbD_eq fun i hi => ?_
  simp only [LinkCtrl.written, lctrlQuantum, lctrlThresh, BitVec.getLsbD_append]
  interval_cases i <;> simp

theorem lctrlAccepted_iff {w : Word} : lctrlAccepted w = true ↔
    8 ≤ w.extractLsb' 16 8 ∧ w.extractLsb' 24 7 ≠ 0 ∧ w.extractLsb' 24 7 ≤ 72 := by
  have one_le : ∀ x : BitVec 7, 1 ≤ x ↔ x ≠ 0 := by decide
  rw [lctrlAccepted, decide_eq_true_iff, lctrlThresh, lctrlQuantum, one_le]

theorem State.setLink_setLink (s : State) (l : LinkId) (j k : Link) : (s.setLink l j).setLink l k = s.setLink l k := by
  simp [State.setLink]

/-- What ENABLE does keeps every link's fields, the port and the RESET level (R17, R21). -/
theorem State.applyEnable_kept (s : State) (l : LinkId) (was : Bool) :
    (∀ m, ((s.applyEnable l was).link m).ctrl = (s.link m).ctrl) ∧ (s.applyEnable l was).port = s.port ∧
      (s.applyEnable l was).inReset = s.inReset := by
  have moved : ∀ f : Link → Link, (∀ n : Link, (f n).ctrl = n.ctrl) →
      (∀ m, ((s.modLink l f).link m).ctrl = (s.link m).ctrl) ∧ (s.modLink l f).port = s.port ∧
        (s.modLink l f).inReset = s.inReset := fun f hf => by
    refine ⟨fun m => ?_, rfl, rfl⟩
    rw [State.link_modLink]
    split
    · subst m; exact hf _
    · rfl
  unfold State.applyEnable
  split
  · split
    · exact moved _ fun _ => rfl
    · exact ⟨fun _ => rfl, rfl, rfl⟩
  · split
    · have T := s.teardown_tornDown l .hostDisable
      refine ⟨fun m => ?_, T.port, T.inReset⟩
      by_cases hm : m = l
      · subst m; exact T.kept.1
      · obtain ⟨-, -, -, -, -, -, hctrl, -⟩ := T.others m hm
        exact hctrl
    · exact moved _ fun _ => rfl

/-- An accepted LCTRLn write up to the rest of its event: its fields stored, then what ENABLE does. -/
def State.lctrlStored (s : State) (l : LinkId) (w : Word) : State :=
  (s.modLink l (fun n => { n with ctrl := n.ctrl.written w })).applyEnable l (s.link l).ctrl.enable

theorem State.lctrlWrite_accepted {s : State} {l : LinkId} {w : Word} (hq : 8 ≤ w.extractLsb' 16 8)
    (h0 : w.extractLsb' 24 7 ≠ 0) (h72 : w.extractLsb' 24 7 ≤ 72) : s.lctrlWrite l w = settle (s.lctrlStored l w) :=
  if_pos (lctrlAccepted_iff.2 ⟨hq, h0, h72⟩)

theorem State.lctrlWrite_refused {s : State} {l : LinkId} {w : Word}
    (h : w.extractLsb' 16 8 < 8 ∨ w.extractLsb' 24 7 = 0 ∨ 72 < w.extractLsb' 24 7) : s.lctrlWrite l w = s.rejectConfig := by
  refine if_neg fun hacc => ?_
  obtain ⟨hq, h0, h72⟩ := lctrlAccepted_iff.1 hacc
  rcases h with h | h | h
  · exact absurd h (BitVec.not_lt.2 hq)
  · exact h0 h
  · exact absurd h (BitVec.not_lt.2 h72)

theorem State.lctrlStored_kept (s : State) (l : LinkId) (w : Word) :
    ((s.lctrlStored l w).link l).ctrl = (s.link l).ctrl.written w ∧
    (∀ m, m ≠ l → ((s.lctrlStored l w).link m).ctrl = (s.link m).ctrl) ∧ (s.lctrlStored l w).port = s.port ∧
    (s.lctrlStored l w).inReset = s.inReset := by
  obtain ⟨hctrl, hfields⟩ := (s.modLink l (fun n => { n with ctrl := n.ctrl.written w })).applyEnable_kept l (s.link l).ctrl.enable
  refine ⟨(hctrl l).trans ?_, fun m hm => (hctrl m).trans ?_, hfields⟩
  · rw [State.link_modLink_self]
  · rw [State.link_modLink_ne _ _ hm]

section Enable

variable {s : State} {l : LinkId} {w : Word} {k : Link} (hk : k = { s.link l with ctrl := (s.link l).ctrl.written w })
include hk

theorem State.lctrlStored_eq : s.lctrlStored l w = (s.setLink l k).applyEnable l (s.link l).ctrl.enable := by
  rw [hk]; rfl

theorem State.lctrlStored_on (hw : w.getLsbD 0 = true) : s.lctrlStored l w =
    if (s.link l).ctrl.enable = false ∧ (s.link l).state = .off then s.setLink l k.enterHold else s.setLink l k := by
  have henable : k.ctrl.enable = true := by rw [hk]; exact hw
  have hstate : k.state = (s.link l).state := by rw [hk]
  rw [State.lctrlStored_eq hk, State.applyEnable, State.link_setLink_self, if_pos henable, State.modLink,
    State.setLink_setLink, State.link_setLink_self, hstate]
  simp

theorem State.lctrlStored_off (hw : w.getLsbD 0 = false) : s.lctrlStored l w =
    if (s.link l).state = .up then (s.setLink l k).teardown l .hostDisable else s.setLink l k.enterOff := by
  have henable : k.ctrl.enable = false := by rw [hk]; exact hw
  have hstate : k.state = (s.link l).state := by rw [hk]
  rw [State.lctrlStored_eq hk, State.applyEnable, State.link_setLink_self, henable, if_neg Bool.false_ne_true, State.modLink,
    State.setLink_setLink, State.link_setLink_self, hstate]

end Enable

end Sys2Proof.Machine
end

section
/-! The statements on configuration writes (specs 02, 04, 10). -/

namespace Sys2Proof.Machine

/-- Settles O11: refused for a zero field, stored otherwise; only a change of RX_ENABLE has a rest. -/
theorem ctrlWrite : Obligations.CtrlWrite := by
  unfold Obligations.CtrlWrite
  intro w s h
  refine ⟨fun hzero => ?_, fun hhops hdiv => ?_⟩
  · have hrefused : s.ctrlWrite w = s.rejectConfig := if_pos (by
      rw [Bool.not_eq_true', Bool.eq_false_iff, ne_eq, ctrlAccepted_iff]
      tauto)
    rw [exec_ctrlWrite h, hrefused]
    exact ⟨_, rfl, State.rejectConfig_effect h⟩
  · have hstored : s.ctrlWrite w = if w.getLsbD 0 = s.port.rxEnable then s.storeCtrl w else settle (s.storeCtrl w) :=
      if_neg (by rw [ctrlAccepted_iff.2 ⟨hhops, hdiv⟩]; decide)
    rw [exec_ctrlWrite h, hstored]
    by_cases hrx : w.getLsbD 0 = s.port.rxEnable
    · rw [if_pos hrx]
      exact ⟨_, rfl, (readWord_ctrl (s := s.storeCtrl w) h).trans (s.storeCtrl_reads w), EndsAs.self _, fun _ => rfl⟩
    · rw [if_neg hrx]
      have rest := settle_aftermath (s.storeCtrl w)
      refine ⟨_, rfl, ?_, settle_endsAs _, fun e => absurd e hrx⟩
      rw [readWord_ctrl (rest.inReset.trans h), State.readCtrl, rest.port]
      exact s.storeCtrl_reads w

/-- Settles O12: the selected entry is set, and the rest of the event keeps the tables. -/
theorem tableWrites : Obligations.TableWrites := by
  unfold Obligations.TableWrites
  refine ⟨fun w s h => ?_, fun w s h => ?_⟩
  · rw [exec_routeWrite h, State.routeWrite]
    generalize hu : ({ s with route := _ } : State) = u
    have rest := settle_aftermath u
    have hroutes : (settle u).route.routes = s.route.routes.set s.route.routeSel.toFin (RouteEntry.ofWord w) := by
      rw [rest.routes, ← hu]
    have hsel : (settle u).route.routeSel = s.route.routeSel := by rw [rest.routeSel, ← hu]
    have hreset : (settle u).inReset = false := by rw [rest.inReset, ← hu]; exact h
    refine ⟨_, rfl, ?_, fun n hn => ?_, ?_, ?_⟩
    · rw [readWord_route hreset, State.readRoute, State.routeFor, hsel, hroutes, ← RouteEntry.ofWord_reads]
      simp
    · rw [State.routeFor, State.routeFor, hroutes]
      exact Vector.getElem_set_ne _ _ fun e => hn (BitVec.toFin_inj.1 (Fin.ext e.symm))
    · rw [readWord_routeSel hreset, readWord_routeSel h, hsel]
    · rw [hroutes, hu]
      exact settle_endsAs u
  · rw [exec_groupWrite h, State.groupWrite]
    generalize hu : ({ s with route := _ } : State) = u
    have rest := settle_aftermath u
    have hgroups : (settle u).route.groups = s.route.groups.set s.route.groupSel.toFin (GroupEntry.ofWord w) := by
      rw [rest.groups, ← hu]
    have hsel : (settle u).route.groupSel = s.route.groupSel := by rw [rest.groupSel, ← hu]
    have hreset : (settle u).inReset = false := by rw [rest.inReset, ← hu]; exact h
    refine ⟨_, rfl, ?_, fun n hn => ?_, ?_, ?_⟩
    · rw [readWord_group hreset, State.readGroup, State.groupFor, hsel, hgroups, ← GroupEntry.ofWord_reads]
      simp
    · rw [State.groupFor, State.groupFor, hgroups]
      exact Vector.getElem_set_ne _ _ fun e => hn (BitVec.toFin_inj.1 (Fin.ext e.symm))
    · rw [readWord_groupSel hreset, readWord_groupSel h, hsel]
    · rw [hgroups, hu]
      exact settle_endsAs u

/-- Settles O13: refused whole, or stored and kept by what ENABLE does and by the rest of the event. -/
theorem linkControlStored : Obligations.LinkControlStored := by
  unfold Obligations.LinkControlStored
  refine ⟨fun l w s h hbad => ?_, fun l w s h hq h0 h72 => ?_⟩
  · rw [exec_lctrlWrite h, State.lctrlWrite_refused hbad]
    exact ⟨_, rfl, State.rejectConfig_effect h⟩
  · rw [exec_lctrlWrite h, State.lctrlWrite_accepted hq h0 h72]
    obtain ⟨hself, hothers, hport, hlevel⟩ := s.lctrlStored_kept l w
    have rest := settle_aftermath (s.lctrlStored l w)
    have hctrl : ((settle (s.lctrlStored l w)).link l).ctrl = (s.link l).ctrl.written w := (rest.ctrl l).trans hself
    have hreset : (settle (s.lctrlStored l w)).inReset = false := rest.inReset.trans (hlevel.trans h)
    refine ⟨_, rfl, ?_, fun htsel => ?_, fun htsel => ?_, fun m hm => (rest.ctrl m).trans (hothers m hm), rest.port.trans hport⟩
    · rw [readWord_lctrl hreset, hctrl, LinkCtrl.written_reads]
    · rw [hctrl, LinkCtrl.written, htsel]; rfl
    · rw [hctrl, LinkCtrl.written, htsel]; rfl

/-- Settles O14: the four cases of ENABLE, each up to the rest of its event. -/
theorem linkControlEnable : Obligations.LinkControlEnable := by
  unfold Obligations.LinkControlEnable
  intro l w s k h hq h0 h72 hk
  have hexec : exec (.lctrlWrite l w) s = .next (settle (s.lctrlStored l w)) := by
    rw [exec_lctrlWrite h, State.lctrlWrite_accepted hq h0 h72]
  refine ⟨fun hw hwas hoff => ?_, fun hw hwas => ?_, fun hw hdown => ?_, fun hw hup => ?_⟩
  · rw [State.lctrlStored_on hk hw, if_pos ⟨hwas, hoff⟩] at hexec
    exact exec_endsAs hexec
  · rw [State.lctrlStored_on hk hw, if_neg fun hboth => Bool.false_ne_true (hboth.1.symm.trans hwas)] at hexec
    exact exec_endsAs hexec
  · rw [State.lctrlStored_off hk hw, if_neg hdown] at hexec
    exact exec_endsAs hexec
  · rw [State.lctrlStored_off hk hw, if_pos hup] at hexec
    obtain ⟨t, ht, hends⟩ := exec_endsAs hexec
    exact ⟨_, t, ht, State.teardown_tornDown _ l _, hends⟩

end Sys2Proof.Machine
end

section
/-! SUPPORT. The plans of the heads that pass their checks, and the room each waits for: a forwarded head, the local heads
and the group heads (R6, R65, R66, R69–R73). -/

namespace Sys2Proof.Machine

/-! ### Room for a plan (R61, R65, R69, R72, R133, R141) -/

theorem State.inboundRoom_iff {s : State} {len : BitVec 3} :
    s.inboundRoom len = true ↔ s.inbound.length < 32 ∧ s.inboundCells + len.toNat ≤ 112 := decide_eq_true_iff

theorem State.planFits_eq_true {s : State} {h : Header} {pl : Plan} : s.planFits h pl = true ↔
    (∀ m ∈ pl.copies, ((s.link m).tx.queue h.queueClass).length < 16) ∧
    (pl.deliver = some .inbound → s.inbound.length < 32 ∧ s.inboundCells + h.len.toNat ≤ 112) ∧
    (pl.job.isSome = true → s.jobs.length < 4) := by
  simp only [State.planFits, Bool.and_eq_true, State.all_hasRoom_iff, Bool.or_eq_true, Bool.not_eq_true',
    ← Bool.not_eq_true, ← imp_iff_not_or, decide_eq_true_eq, State.inboundRoom_iff, State.jobRoom_eq_true, not_exists, not_and,
    not_le, and_assoc]

section Heads

variable {s : State} {l : LinkId} {c : Class} {p : StoredPacket} {pl : Plan}

/-- The head of a class queue is of that class (R43). -/
theorem State.ingressHead_class (hp : s.ingressHead l c = some p) : p.hdr.queueClass = c :=
  (State.ingressHead_queued hp).2.2

/-- A head with room for its plan goes (R60). -/
theorem exec_dispatch_planned (hs : s.inReset = false) (hp : s.ingressHead l c = some p) (hplan : s.plan l p.hdr = pl)
    (hfits : s.planFits p.hdr pl = true) : ∃ t, exec (.dispatch l c) s = .next t ∧
      EndsAs ((s.applyPlan l p pl).setPosition (RouteSource.ingress l c).number) t := by
  subst hplan
  exact exec_dispatch_fits hs hp hfits

/-- A head without a link copy goes with its job, delivery and drop, and is released (R44, R60). -/
theorem exec_dispatch_letGo (hs : s.inReset = false) (hp : s.ingressHead l c = some p) (hplan : s.plan l p.hdr = pl)
    (hnone : pl.copies = []) (hfits : s.planFits p.hdr pl = true) : ∃ t, exec (.dispatch l c) s = .next t ∧
      EndsAs ((((s.createJob p.hdr pl.job).deliver l p pl.deliver).recordDrop l p.hdr pl.drop).letGo l c p) t := by
  rw [← State.applyPlan_letGo s l c p hnone]
  exact exec_dispatch_planned hs hp hplan hfits

theorem exec_dispatch_unplanned (hs : s.inReset = false) (hp : s.ingressHead l c = some p) (hplan : s.plan l p.hdr = pl)
    (hfull : ¬ s.planFits p.hdr pl = true) : exec (.dispatch l c) s = .next s :=
  exec_dispatch_waits hs hp (by rw [hplan]; exact Bool.eq_false_iff.2 hfull)

/-- A head that is dropped goes at once (R68, R75). -/
theorem exec_dispatch_dropped (hs : s.inReset = false) (hp : s.ingressHead l c = some p) {why : DropReason}
    (hplan : s.plan l p.hdr = Plan.dropped why) : ∃ t, exec (.dispatch l c) s = .next t ∧
      EndsAs ((s.drop why (.link l) p.hdr).letGo l c p) t :=
  exec_dispatch_letGo hs hp hplan rfl (s.planFits_dropped p.hdr why)

/-- The copy of a head in its queue's class (R69, R77). -/
theorem copyOf_head (hp : s.ingressHead l c = some p) (hops : BitVec 5) :
    copyOf l p hops = ⟨.store l p.id, c, 1 + p.hdr.len.toNat, hops, p.hdr.grp, false⟩ := by
  rw [copyOf, StoredPacket.cls, State.ingressHead_class hp]
  rfl

/-! ### A forwarded head (R67, R69) -/

theorem State.forwards.plan_eq {m : LinkId} (h : s.forwards l c p m) :
    s.plan l p.hdr = { copies := [m], hopsOut := p.hdr.hops - 1 } := by
  obtain ⟨-, hmal, hgrp, hnode, hroute, hup, hhops⟩ := h
  have hlocal : s.isLocal p.hdr.dest = false := by simp [State.isLocal, hroute, hnode]
  have hfew : ¬ p.hdr.hops ≤ 1#5 := by bv_omega
  have hpass : s.routeFailure p.hdr = none := by simp [State.routeFailure, State.isUp, hroute, hup, hfew]
  simp [State.plan, State.planRemote, hmal, hgrp, hlocal, hpass, hroute]

/-! ### Local heads (R65, R66, R136) -/

theorem State.planLocal_message {h : Header} (hreq : h.cls ≠ 1) (hkind : h.kind = 0) (hrx : s.port.rxEnable = true) :
    s.planLocal h = { deliver := some .inbound } := by
  have hcls : ¬ h.cls = 1#2 := hreq
  simp [State.planLocal, Class.code, hcls, hkind, hrx]

theorem State.planLocal_disabled {h : Header} (hpst : h.cls = 2) (hkind : h.kind = 0) (hrx : s.port.rxEnable = false) :
    s.planLocal h = Plan.dropped .rxDisabled := by
  simp [State.planLocal, Class.code, hpst, hkind, hrx]

theorem State.planLocal_refused {h : Header} (hreq : h.cls = 0) (hkind : h.kind ≠ 1) (hrx : s.port.rxEnable = false) :
    s.planLocal h = { job := some .refused } := by
  have hmsg : ¬ h.kind = 1#3 := hkind
  simp [State.planLocal, Class.code, hreq, hmsg, hrx]

theorem State.planLocal_probe {h : Header} (hreq : h.cls = 0) (hkind : h.kind = 1) :
    s.planLocal h = { job := some .probeReply } := by
  simp [State.planLocal, Class.code, hreq, hkind]

theorem State.planLocal_signal {h : Header} (hpst : h.cls = 2) (hkind : h.kind = 1) :
    s.planLocal h = { deliver := some .signal } := by
  simp [State.planLocal, Class.code, hpst, hkind]

/-- A local REQ that is answered needs a free job (R65, R141). -/
theorem State.planLocal_job {h : Header} (hreq : h.cls = 0) (hanswer : h.kind = 1 ∨ s.port.rxEnable = false) :
    ∃ k, s.planLocal h = { job := some k } := by
  by_cases hkind : h.kind = 1
  · exact ⟨_, State.planLocal_probe hreq hkind⟩
  · exact ⟨_, State.planLocal_refused hreq hkind (hanswer.resolve_left hkind)⟩

/-- A local REQ goes with its job where one is free (R65, R142). -/
theorem exec_dispatch_job (hs : s.inReset = false) (h : s.localHead l c p) {k : JobKind}
    (hplan : s.planLocal p.hdr = { job := some k }) (hjobs : s.jobs.length < 4) : ∃ t, exec (.dispatch l c) s = .next t ∧
      EndsAs ((s.pushJob (s.newJob k p.hdr)).letGo l c p) t :=
  exec_dispatch_letGo hs h.1 (h.plan_eq.trans hplan) rfl
    ((s.planFits_job p.hdr k none).trans (State.jobRoom_eq_true.2 hjobs))

/-! ### Malformed heads (R5, R6) -/

theorem validKind_eq_false : ∀ (cls : BitVec 2) (kind : BitVec 3), (cls = 0 ∧ 2 ≤ kind) ∨ (cls = 1 ∧ 3 ≤ kind) ∨
    (cls = 2 ∧ 2 ≤ kind) → validKind cls kind = false := by decide

theorem Header.malformed_of {h : Header} (bad : h.cls = 3 ∨ (h.cls = 0 ∧ 2 ≤ h.kind) ∨ (h.cls = 1 ∧ 3 ≤ h.kind) ∨
    (h.cls = 2 ∧ 2 ≤ h.kind) ∨ (h.grp = true ∧ (h.cls ≠ 2 ∨ 8 ≤ h.dest))) : h.malformed = true := by
  have invalid : validKind h.cls h.kind = false → h.malformed = true := fun hv => by simp [Header.malformed, hv]
  rcases bad with hcls | hreq | hrpy | hpst | ⟨hgrp, hcls | hdest⟩
  · simp [Header.malformed, hcls]
  · exact invalid (validKind_eq_false _ _ (.inl hreq))
  · exact invalid (validKind_eq_false _ _ (.inr (.inl hrpy)))
  · exact invalid (validKind_eq_false _ _ (.inr (.inr hpst)))
  · have hpst : ¬ h.cls = 2#2 := hcls
    simp [Header.malformed, hgrp, hpst]
  · have hbig : 7#5 < h.dest := by bv_omega
    simp [Header.malformed, hgrp, hbig]

theorem State.plan_malformed {h : Header} (hmal : h.malformed = true) : s.plan l h = Plan.dropped .malformed := if_pos hmal

/-! ### Group heads (R70–R73) -/

theorem State.plan_group {h : Header} (hmal : h.malformed = false) (hgrp : h.grp = true) : s.plan l h = s.planGroup l h := by
  simp [State.plan, hmal, hgrp]

theorem State.plan_badGroup {h : Header} (hmal : h.malformed = false) (hgrp : h.grp = true)
    (hoff : (s.groupOf h).enable = false) : s.plan l h = Plan.dropped .badGroup := by
  rw [State.plan_group hmal hgrp, State.planGroup, hoff]
  rfl

/-- The link copies of a group head (R70, R71). -/
theorem State.plan_enabledGroup {h : Header} (hmal : h.malformed = false) (hgrp : h.grp = true)
    (hon : (s.groupOf h).enable = true) : s.plan l h =
      { copies := if h.hops ≤ 1 then [] else linkIds.filter
          (fun m : LinkId => (s.groupOf h).mask.getLsbD m && s.isUp m && decide (m ≠ l))
        hopsOut := h.hops - 1, deliver := s.groupDelivery h } := by
  have members : (s.upMembers (s.groupOf h)).filter (fun m => m ≠ l) =
      linkIds.filter (fun m : LinkId => (s.groupOf h).mask.getLsbD m && s.isUp m && decide (m ≠ l)) := by
    rw [State.upMembers, List.filter_filter]
    exact List.filter_congr fun m _ => Bool.and_comm _ _
  rw [State.plan_group hmal hgrp, State.planGroup, if_pos hon, members]

/-- A well-formed group head is a PST of kind MSG or SIGNAL (R5, R6). -/
theorem groupKind_cases : ∀ (cls : BitVec 2) (kind : BitVec 3), cls = 2 → validKind cls kind = true → kind = 0 ∨ kind = 1 := by
  decide

theorem Header.group_kind {h : Header} (hmal : h.malformed = false) (hgrp : h.grp = true) : h.kind = 0 ∨ h.kind = 1 := by
  simp only [Header.malformed, Bool.or_eq_false_iff, Bool.not_eq_false', hgrp, Bool.true_and, decide_eq_false_iff_not,
    not_not] at hmal
  obtain ⟨⟨⟨-, hvalid⟩, hpst⟩, -⟩ := hmal
  exact groupKind_cases _ _ hpst hvalid

/-- The local target of a group head: a message, a signal, or none (R70). -/
theorem State.groupDelivery_eq {h : Header} (hkind : h.kind = 0 ∨ h.kind = 1) : s.groupDelivery h =
    if ((s.groupOf h).member && decide (h.kind = 0) && s.port.rxEnable) = true then some .inbound
    else if (s.groupOf h).member = true ∧ h.kind = 1 then some .signal else none := by
  rcases hkind with hkind | hkind <;> cases hm : (s.groupOf h).member <;> simp [State.groupDelivery, hm, hkind]

end Heads

/-! ### The words of a PROBE answer (R147) -/

theorem State.probeWord0_toNat {s : State} (h : s.inbound.length ≤ 32) : s.probeWord0.toNat =
    s.port.node.toNat + 2 ^ 8 + 2 ^ 15 * s.port.rxEnable.toNat + 2 ^ 16 * s.inbound.length := by
  simp only [State.probeWord0, Config.revision, toNat_concat, ofBool_toNat, BitVec.ofNat_eq_ofNat, BitVec.toNat_ofNat]
  omega

theorem State.probeLink_toNat (s : State) (m : LinkId) :
    (s.probeLink m).toNat = (s.link m).state.code.toNat + 2 ^ 2 * (s.link m).peer.toNat := by
  simp only [State.probeLink, toNat_concat, BitVec.toNat_ofNat]
  omega

theorem bytes_extract (a b c d : BitVec 8) (m : Fin 4) :
    (d ++ c ++ b ++ a : Word).extractLsb' (8 * m.val) 8 = [a, b, c, d].getD m.val 0 := by
  refine BitVec.eq_of_getLsbD_eq fun i hi => ?_
  fin_cases m <;> simp only [BitVec.getLsbD_extractLsb', BitVec.getLsbD_append] <;> interval_cases i <;> simp

/-- Byte `m` of word 1 holds link `m`. -/
theorem State.probeWord1_byte (s : State) (m : LinkId) : s.probeWord1.extractLsb' (8 * m.val) 8 = s.probeLink m := by
  rw [State.probeWord1, bytes_extract]
  fin_cases m <;> rfl

theorem State.freeSlots_eq (s : State) : s.freeSlots = (slotIxs.filter (fun i => s.slot i = none)).length :=
  congrArg List.length (List.filter_congr fun i _ => by cases s.slot i <;> rfl)

theorem State.probeWord3_counts (s : State) :
    (s.probeWord3.extractLsb' 0 16).toNat = s.entriesInUse + 2 ^ 8 * s.freeSlots := by
  have hslots := freeSlots_le s
  have hentries := entriesInUse_le s
  simp only [State.probeWord3, BitVec.extractLsb'_toNat, toNat_concat, BitVec.toNat_ofNat, Nat.shiftRight_zero]
  omega

theorem State.probeWord3_fired (s : State) : s.probeWord3.extractLsb' 16 8 = s.firedFlags ∧ s.probeWord3.extractLsb' 24 8 = 0 := by
  constructor <;> refine BitVec.eq_of_getLsbD_eq fun i hi => ?_ <;>
    simp only [State.probeWord3, BitVec.getLsbD_extractLsb', BitVec.getLsbD_append] <;> interval_cases i <;> simp

theorem State.probeWord3_flag (s : State) (k : Fin 8) : s.probeWord3.getLsbD (16 + k.val) = (s.counter k).fired := by
  have hflags := congrArg (·.getLsbD k.val) s.probeWord3_fired.1
  simp only [BitVec.getLsbD_extractLsb', k.isLt, decide_true, Bool.true_and] at hflags
  exact hflags.trans (counterFlags_bit s SyncCounter.fired k)

/-! ### A local SIGNAL (R152, R153) -/

theorem signalCounter_eq {tag : BitVec 6} {k : Fin 8} (hk : k.val = tag.toNat % 8) : (tag.extractLsb' 0 3).toFin = k := by
  refine Fin.ext ?_
  rw [hk]
  simp

theorem SyncCounter.counted_words (c : SyncCounter) : c.counted.count = (if c.count = 255 then 255 else c.count + 1) ∧
    (c.counted.overflow = true ↔ c.overflow = true ∨ c.count = 255) ∧ c.counted.target = c.target ∧
    c.counted.armed = c.armed ∧ c.counted.fired = c.fired := by
  by_cases h : c.count = 255#8 <;> simp [SyncCounter.counted, h]

theorem SyncCounter.check_words (c : SyncCounter) : c.check.count = c.count ∧ c.check.overflow = c.overflow ∧
    c.check.target = c.target := by
  unfold SyncCounter.check
  split <;> exact ⟨rfl, rfl, rfl⟩

theorem SyncCounter.check_fires {c : SyncCounter} (h : c.armed = true ∧ c.target ≤ c.count) :
    c.fires = true ∧ c.check = { c with armed := false, fired := true } := ⟨decide_eq_true h, if_pos h⟩

/-! ### The responder's head (R74) -/

section Responder

variable {s : State} {j : Job}

theorem exec_responderDispatch (hs : s.inReset = false) : exec .responderDispatch s = .next (s.considerSource .responder) :=
  congrArg _ (State.unlessReset_of_released _ hs)

theorem State.ready_responder (hj : s.jobHead = some j) : s.ready .responder = s.jobFits j := by simp [State.ready, hj]

theorem exec_responder_fits (hs : s.inReset = false) (hj : s.jobHead = some j) (hfits : s.jobFits j = true) :
    ∃ t, exec .responderDispatch s = .next t ∧ EndsAs ((s.dispatchJob j).setPosition 12) t := by
  have hgo : s.considerSource .responder = settle ((s.dispatchJob j).setPosition 12) := by
    rw [State.considerSource, if_pos ((State.ready_responder hj).trans hfits)]
    simp [State.dispatchSource, hj, RouteSource.number]
  exact exec_endsAs ((exec_responderDispatch hs).trans (congrArg _ hgo))

theorem exec_responder_waits (hs : s.inReset = false) (hj : s.jobHead = some j) (hfits : s.jobFits j = false) :
    exec .responderDispatch s = .next s := by
  rw [exec_responderDispatch hs, State.considerSource, State.ready_responder hj, hfits]
  rfl

theorem exec_responder_local (hs : s.inReset = false) (hj : s.jobHead = some j) (hlocal : s.isLocal j.requester = true) :
    ∃ t, exec .responderDispatch s = .next t ∧
      EndsAs (((s.takeReply (s.replyHeader j) j.payload .responder).freeJob j.id).setPosition 12) t := by
  have hgo := exec_responder_fits hs hj (by simp [State.jobFits, hlocal])
  rwa [State.dispatchJob, if_pos hlocal] at hgo

theorem exec_responder_dropped (hs : s.inReset = false) (hj : s.jobHead = some j) {why : DropReason}
    (hlocal : s.isLocal j.requester = false) (hfail : s.jobFailure j = some why) :
    ∃ t, exec .responderDispatch s = .next t ∧
      EndsAs (((s.drop why .responder (s.replyHeader j)).freeJob j.id).setPosition 12) t := by
  have hgo := exec_responder_fits hs hj (by simp [State.jobFits, hfail])
  rwa [State.dispatchJob, hlocal, hfail] at hgo

variable (hnode : j.requester ≠ s.port.node) (hact : (s.routeFor j.requester).action = .toLink)
include hnode hact

theorem State.isLocal_of_toLink : s.isLocal j.requester = false := by simp [State.isLocal, hnode, hact]

/-- A reply whose route leads to a link that is UP is sent or waits (R74). -/
theorem State.jobFits_of_up (hup : (s.link (s.routeFor j.requester).link).state = .up) : s.jobFailure j = none ∧
    s.jobFits j = decide (((s.link (s.routeFor j.requester).link).tx.queue .rpy).length < 16) := by
  have hnone : s.jobFailure j = none := by simp [State.jobFailure, State.isUp, hact, hup]
  refine ⟨hnone, ?_⟩
  rw [State.jobFits, State.isLocal_of_toLink hnode hact, hnone]
  rfl

end Responder

end Sys2Proof.Machine
end

section
/-! The statements on the route unit's dispatches and the responder (specs 04, 08, 09). -/

namespace Sys2Proof.Machine

/-- Settles O35: the head's plan is one copy, which fits while its queue holds fewer than 16 entries. -/
theorem dispatchForwards : Obligations.DispatchForwards := by
  unfold Obligations.DispatchForwards
  intro s l m c p hs h
  have hp : s.ingressHead l c = some p := h.1
  have hgrp : p.hdr.grp = false := h.2.2.1
  have hplan := h.plan_eq
  have hcls := State.ingressHead_class hp
  refine ⟨fun hroom => ?_, fun hfull => ?_⟩
  · have hgo := exec_dispatch_planned hs hp hplan (State.planFits_eq_true.2 (by simpa [hcls] using hroom))
    rw [State.applyPlan, copyOf_head hp, hgrp] at hgo
    exact hgo
  · refine exec_dispatch_unplanned hs hp hplan fun hfits => ?_
    have hroom := (State.planFits_eq_true.1 hfits).1 m (List.mem_singleton.2 rfl)
    rw [hcls] at hroom
    omega

/-- Settles O37: the head's plan is its delivery, which fits while the inbound queue has room. -/
theorem dispatchMessage : Obligations.DispatchMessage := by
  unfold Obligations.DispatchMessage
  intro s l c p hs h hreq hkind hrx
  have hplan := h.plan_eq.trans (State.planLocal_message hreq hkind hrx)
  refine ⟨fun hroom => ?_, fun hfull => ?_⟩
  · exact exec_dispatch_letGo hs h.1 hplan rfl (State.planFits_eq_true.2 ⟨nofun, fun _ => hroom, nofun⟩)
  · refine exec_dispatch_unplanned hs h.1 hplan fun hfits => ?_
    obtain ⟨hlength, hcells⟩ := (State.planFits_eq_true.1 hfits).2.1 rfl
    omega

/-- Settles O38: the drop fits always, the job where one is free, and the snapshot's words are read field by field. -/
theorem dispatchAnswers : Obligations.DispatchAnswers := by
  unfold Obligations.DispatchAnswers
  intro s l c p hs h
  refine ⟨fun hpst hkind hrx => ?_, fun hreq hkind hrx hjobs => ?_, fun hreq hkind hjobs hinbound => ?_,
    fun hreq hanswer hjobs => ?_⟩
  · exact exec_dispatch_dropped hs h.1 (h.plan_eq.trans (State.planLocal_disabled hpst hkind hrx))
  · exact exec_dispatch_job hs h (State.planLocal_refused hreq (hkind.trans_ne (by decide)) hrx) hjobs
  · obtain ⟨t, ht, hends⟩ := exec_dispatch_job hs h (State.planLocal_probe hreq hkind) hjobs
    refine ⟨s.probeWord0, s.probeWord1, s.probeWord3, t, ht, State.probeWord0_toNat hinbound, fun m => ?_, ?_,
      s.probeWord3_flag, s.probeWord3_fired.2, hends⟩
    · rw [s.probeWord1_byte, s.probeLink_toNat]
    · rw [s.probeWord3_counts, s.freeSlots_eq]
      rfl
  · obtain ⟨k, hplan⟩ := State.planLocal_job hreq hanswer
    refine exec_dispatch_unplanned hs h.1 (h.plan_eq.trans hplan) fun hfits => ?_
    have hjob := (State.planFits_eq_true.1 hfits).2.2 rfl
    omega

/-- Settles O39: the head's plan is the signal, which always fits; the counter is counted up and then checked. -/
theorem dispatchSignal : Obligations.DispatchSignal := by
  unfold Obligations.DispatchSignal
  intro s l c p k hs h hpst hkind hk
  have hplan := h.plan_eq.trans (State.planLocal_signal hpst hkind)
  obtain ⟨t, ht, hends⟩ := exec_dispatch_letGo hs h.1 hplan rfl (State.planFits_eq_true.2 ⟨nofun, nofun, nofun⟩)
  have hsignal : s.signal p.hdr.tag = { s.setCounter k (s.counter k).counted.check with
      events := if (s.counter k).counted.fires then s.events.latched .sync else s.events } := by
    rw [State.signal, signalCounter_eq hk, State.checkCounter_eq]
  have hcounter (i : Fin 8) : (s.signal p.hdr.tag).counter i =
      if i = k then (s.counter k).counted.check else s.counter i := by
    rw [hsignal]; exact s.counter_setCounter k i _
  obtain ⟨hcount, hoverflow, htarget, harmed, hfired⟩ := (s.counter k).counted_words
  obtain ⟨hcount', hoverflow', htarget'⟩ := (s.counter k).counted.check_words
  refine ⟨s.signal p.hdr.tag, t, ht, hends, ?_⟩
  rw [hcounter k, if_pos rfl, hcount', hoverflow', htarget', ← harmed, ← hfired, ← htarget]
  refine ⟨hcount, hoverflow, rfl, fun hfires => ?_, fun hquiet => ?_, fun i hi => (hcounter i).trans (if_neg hi), ?_⟩
  · obtain ⟨hfires', hcheck⟩ := SyncCounter.check_fires hfires
    rw [hsignal, hcheck, hfires']
    exact ⟨rfl, rfl, rfl⟩
  · have hfires' : (s.counter k).counted.fires = false := decide_eq_false hquiet
    rw [hsignal, SyncCounter.check_of_not_fires hfires', hfires']
    exact ⟨rfl, rfl, rfl⟩
  · rw [hsignal]; rfl

/-- Settles O41: each of the conditions makes the head malformed, and a group entry without ENABLE drops it. -/
theorem dispatchMalformed : Obligations.DispatchMalformed := by
  unfold Obligations.DispatchMalformed
  intro s l c p hs hp
  exact ⟨fun bad => exec_dispatch_dropped hs hp (State.plan_malformed (Header.malformed_of bad)),
    fun hmal hgrp hoff => exec_dispatch_dropped hs hp (State.plan_badGroup hmal hgrp hoff)⟩

/-- Settles O42: the plan is a copy on each member link with the local target; all of it has room, or the head waits. -/
theorem dispatchGroup : Obligations.DispatchGroup := by
  unfold Obligations.DispatchGroup
  intro s l c p ms msg hs hp hmal hgrp hon hms hmsg
  have hplan : s.plan l p.hdr = { copies := ms, hopsOut := p.hdr.hops - 1, deliver := s.groupDelivery p.hdr } := by
    rw [State.plan_enabledGroup hmal hgrp hon, hms]
  have hdeliver := State.groupDelivery_eq (s := s) (Header.group_kind hmal hgrp)
  rw [← hmsg] at hdeliver
  have hinbound : s.groupDelivery p.hdr = some .inbound ↔ msg = true := by
    rw [hdeliver]
    cases msg with
    | true => simp
    | false => rw [if_neg nofun]; split <;> simp
  have hcls := State.ingressHead_class hp
  refine ⟨fun hroom hinroom => ?_, fun hfull => ?_⟩
  · have hgo := exec_dispatch_planned hs hp hplan (State.planFits_eq_true.2
      ⟨by rwa [hcls], fun hmessage => hinroom (hinbound.1 hmessage), nofun⟩)
    obtain ⟨t, ht, hends⟩ := hgo
    rw [State.applyPlan, copyOf_head hp, hgrp] at hends
    refine ⟨s.deliver l p (s.groupDelivery p.hdr), t, ht, ?_, hends⟩
    rw [hdeliver, ← hgrp]
    split
    · rfl
    · split <;> rfl
  · refine exec_dispatch_unplanned hs hp hplan fun hfits => ?_
    obtain ⟨hroom, hinroom, -⟩ := State.planFits_eq_true.1 hfits
    rw [hcls] at hroom
    rcases hfull with ⟨m, hm, hlong⟩ | ⟨hmessage, hlong⟩
    · have := hroom m hm
      omega
    · have := hinroom (hinbound.2 hmessage)
      omega

/-- Settles O43: the job's requester is local, its route fails, or it leads to a link that is UP, where the queue's room
decides. -/
theorem responderDispatch : Obligations.ResponderDispatch := by
  unfold Obligations.ResponderDispatch
  rintro s j e h hs hj rfl rfl
  refine ⟨fun hlocal => ?_, fun hnode hact => ?_, fun hnode hact hdown => ?_, fun hnode hact hup => ?_⟩
  · exact exec_responder_local hs hj (by simpa [State.isLocal] using hlocal)
  · exact exec_responder_dropped hs hj (by simp [State.isLocal, hnode, hact]) (by simp [State.jobFailure, hact])
  · exact exec_responder_dropped hs hj (State.isLocal_of_toLink hnode hact)
      (by simp [State.jobFailure, State.isUp, hact, hdown])
  · have hlocal := State.isLocal_of_toLink hnode hact
    obtain ⟨hfail, hfits⟩ := State.jobFits_of_up hnode hact hup
    refine ⟨fun hroom => ?_, fun hfull => ?_⟩
    · have hgo := exec_responder_fits hs hj (hfits.trans (decide_eq_true hroom))
      rw [State.dispatchJob, hlocal, hfail] at hgo
      exact hgo
    · exact exec_responder_waits hs hj (hfits.trans (decide_eq_false (Nat.not_lt.2 hfull)))

end Sys2Proof.Machine
end

section
/-! SUPPORT. A link in UP: its faults, the CREDIT cells and packet cells it takes, and the release of a stored packet
(R1, R28, R30, R38, R40, R41, R44–R47, R50, R52). -/

namespace Sys2Proof.Machine

/-! ### Packet boundaries (R1) -/

theorem Store.receiving_eq_none {k : Store} : k.receiving = none ↔ ∀ p ∈ k.packets, p.cond ≠ .inReception := by
  simp [Store.receiving]

theorem Store.receiving_eq_some {k : Store} (h : ∃ p ∈ k.packets, p.cond = .inReception) : ∃ p, k.receiving = some p := by
  refine Option.ne_none_iff_exists'.1 fun hnone => ?_
  obtain ⟨p, hp, hcond⟩ := h
  exact Store.receiving_eq_none.1 hnone p hp hcond

/-! ### The cells of a link in UP (R1, R28, R30, R50) -/

section Up

variable {s : State} {l : LinkId}

/-- An event that tears the link down ends as its teardown does (R29). -/
theorem exec_tornDown {c : Instr} {why : Cause} (h : exec c s = .next (settle (s.teardown l why))) :
    ∃ v t, exec c s = .next t ∧ TornDown s l why v ∧ EndsAs v t := by
  obtain ⟨t, ht, hends⟩ := exec_endsAs h
  exact ⟨_, t, ht, s.teardown_tornDown l why, hends⟩

theorem State.controlInUp_of_receiving (h : ∃ p ∈ (s.link l).store.packets, p.cond = .inReception) (t : State) :
    s.controlInUp l t = settle (s.teardown l .controlError) := by
  obtain ⟨p, hp⟩ := Store.receiving_eq_some h
  rw [State.controlInUp, hp]

theorem State.controlInUp_of_boundary (h : ∀ p ∈ (s.link l).store.packets, p.cond ≠ .inReception) (t : State) :
    s.controlInUp l t = t := by
  rw [State.controlInUp, Store.receiving_eq_none.2 h]

section Meaning

variable (hup : (s.link l).state = .up)
include hup

theorem State.badCell_of_up : s.badCell l = settle (s.teardown l .cellError) := by rw [State.badCell, hup]

theorem State.carrierLoss_of_up : s.carrierLoss l = settle (s.teardown l .carrierLoss) := if_pos hup

theorem State.unknownControl_of_up : s.unknownControl l = settle (s.teardown l .controlError) := if_pos hup

theorem State.teardownReceived_of_up :
    s.teardownReceived l = s.controlInUp l (settle (s.teardown l .peerTeardown)) := if_pos hup

theorem State.initReceived_of_up (node : NodeId) (seen : Bool) :
    s.initReceived l node seen = s.controlInUp l (if seen then s else settle (s.teardown l .peerRestart)) := by
  rw [State.initReceived, hup]

theorem State.creditReceived_of_up (count : BitVec 7) (res : PerClass Bool) :
    s.creditReceived l count res = s.controlInUp l (s.creditInUp l count res) := by
  rw [State.creditReceived, hup]

theorem State.packetCell_of_up (c : Cell) : s.packetCell l c = settle (s.framedCell l c) := by
  rw [State.packetCell, hup]

end Meaning

/-! ### CREDIT cells (R38, R50) -/

theorem Transmitter.overfilled_iff {t : Transmitter} {count : BitVec 7} {res : PerClass Bool} :
    t.overfilled count res = true ↔
      72 < t.shared + count.toNat ∨ ∃ c, res.get c = true ∧ t.reserved.get c = true := by
  simp only [Transmitter.overfilled, Bool.or_eq_true, Bool.and_eq_true, decide_eq_true_eq, or_assoc]
  refine or_congr Iff.rfl ⟨?_, ?_⟩
  · rintro (hreq | hrpy | hpst)
    exacts [⟨.req, hreq⟩, ⟨.rpy, hrpy⟩, ⟨.pst, hpst⟩]
  · rintro ⟨_ | _ | _, hboth⟩
    exacts [.inl hboth, .inr (.inl hboth), .inr (.inr hboth)]

theorem Transmitter.credited_reserved (t : Transmitter) (count : BitVec 7) (res : PerClass Bool) (c : Class) :
    (t.credited count res).reserved.get c = (t.reserved.get c || res.get c) := by cases c <;> rfl

theorem State.creditInUp_of_overfilled {count : BitVec 7} {res : PerClass Bool}
    (h : (s.link l).tx.overfilled count res = true) :
    s.creditInUp l count res = settle (s.teardown l .creditReturnError) := by
  rw [State.creditInUp, if_pos h]

theorem State.creditInUp_of_fits {count : BitVec 7} {res : PerClass Bool}
    (h : ¬ (s.link l).tx.overfilled count res = true) :
    s.creditInUp l count res = settle (s.modLink l (fun n => { n with tx := n.tx.credited count res })) := by
  rw [State.creditInUp, if_neg h]

/-! ### Packet cells (R40, R41) -/

theorem Store.regionHeld_iff {k : Store} {c : Class} : k.regionHeld c = false ↔ k.inRegion c = [] := by
  simp [Store.regionHeld, Store.inRegion, List.filter_eq_nil_iff]

/-- The check of R40, whichever space the header names. -/
theorem Store.admits_iff {k : Store} {h : Header} : k.admits h = true ↔
    (h.pool = false → k.held + k.awaitShared + (1 + h.len.toNat) ≤ 72) ∧
    (h.pool = true → k.inRegion h.queueClass = [] ∧ k.awaitRes.get h.queueClass = false) := by
  refine ⟨fun ha => ⟨Store.admits_shared ha, Store.admits_reserved ha⟩, fun ⟨hshared, hreserved⟩ => ?_⟩
  cases hpool : h.pool with
  | false =>
    have hroom : k.held + k.awaitShared + h.cells ≤ 72 := hshared hpool
    have hfree : h.cells ≤ k.free := by
      have hlimit : k.free = 72 - k.held - k.awaitShared := rfl
      omega
    simp [Store.admits, hpool, hfree]
  | true =>
    obtain ⟨hempty, hreturned⟩ := hreserved hpool
    simp [Store.admits, hpool, Store.regionHeld_iff.2 hempty, hreturned]

section Boundary

variable (h : ∀ p ∈ (s.link l).store.packets, p.cond ≠ .inReception) {c : Cell}
include h

theorem State.framedCell_of_admitted (ha : (s.link l).store.admits (Header.ofCell c) = true) :
    s.framedCell l c = s.modLink l (fun n => { n with store := n.store.openPacket (Header.ofCell c) }) := by
  rw [State.framedCell, Store.receiving_eq_none.2 h]
  exact if_pos ha

theorem State.framedCell_of_refused (ha : ¬ (s.link l).store.admits (Header.ofCell c) = true) :
    s.framedCell l c = s.teardown l .creditOverrun := by
  rw [State.framedCell, Store.receiving_eq_none.2 h]
  exact if_neg ha

end Boundary

theorem State.framedCell_of_receiving (h : ∃ p ∈ (s.link l).store.packets, p.cond = .inReception) (c : Cell) :
    s.framedCell l c = s.modLink l (fun n => { n with store := n.store.takeCell c }) := by
  obtain ⟨p, hp⟩ := Store.receiving_eq_some h
  rw [State.framedCell, hp]

/-- A data cell joins the packet in reception, and no other packet is touched (R41). -/
theorem Store.takeCell_packets {k : Store} {before after : List StoredPacket} {p : StoredPacket}
    (hk : k.packets = before ++ p :: after) (hp : p.cond = .inReception)
    (hothers : ∀ q ∈ before ++ after, q.cond ≠ .inReception) (c : Cell) :
    k.takeCell c = { k with packets := before ++ p.withCell c :: after } := by
  have same : ∀ qs : List StoredPacket, (∀ q ∈ qs, q.cond ≠ .inReception) →
      qs.map (fun q => if q.cond = .inReception then q.withCell c else q) = qs := fun qs hqs =>
    (List.map_congr_left fun q hq => if_neg (hqs q hq)).trans qs.map_id
  rw [Store.takeCell, hk, List.map_append, List.map_cons, if_pos hp,
    same before fun q hq => hothers q (List.mem_append_left _ hq),
    same after fun q hq => hothers q (List.mem_append_right _ hq)]

end Up

/-! ### The end of a copy and the release of a stored packet (R44–R47, R52) -/

section Release

variable {n : Link} {id : Nat} {p : StoredPacket} (hp : n.store.packet id = some p)
include hp

theorem Link.endCopy_of_more (h : 1 < p.copies) : n.endCopy id =
    { n with store := n.store.modPacket id (fun q => { q with copies := q.copies - 1 }) } := by
  rw [Link.endCopy, hp]
  exact if_neg (Nat.not_le.2 h)

theorem Link.endCopy_of_last (h : p.copies ≤ 1) : n.endCopy id = n.release id := by
  rw [Link.endCopy, hp]
  exact if_pos h

theorem Link.release_of_not_up (h : n.state ≠ .up) : n.release id = { n with store := n.store.remove id } := by
  rw [Link.release, hp]
  exact if_neg h

theorem Link.release_of_up (h : n.state = .up) :
    n.release id = { n with store := (n.store.remove id).giveBack n.ctrl.crHoldoff p } := by
  rw [Link.release, hp]
  exact if_pos h

end Release

end Sys2Proof.Machine
end

section
/-! The statements on a link in UP and its receive store (specs 01, 02, 03). -/

namespace Sys2Proof.Machine

/-- Settles O30: within a packet and at a boundary the cells that are faults, and what tears a link down anywhere. -/
theorem linkFaults : Obligations.LinkFaults := by
  unfold Obligations.LinkFaults
  intro s l hs hup
  refine ⟨exec_tornDown ((exec_badCell hs l).trans (congrArg _ (State.badCell_of_up hup))),
    exec_tornDown ((exec_carrierLoss hs l).trans (congrArg _ (State.carrierLoss_of_up hup))),
    exec_tornDown ((exec_unknownControlCell hs l).trans (congrArg _ (State.unknownControl_of_up hup))),
    fun hinside => ⟨fun node seen => ?_, fun count res => ?_, ?_⟩,
    fun hboundary => ⟨fun node => ?_, fun node => ?_, ?_, fun count res hover => ?_, ?_⟩⟩
  · refine exec_tornDown ?_
    rw [exec_initReceived hs, State.initReceived_of_up hup, State.controlInUp_of_receiving hinside]
  · refine exec_tornDown ?_
    rw [exec_creditReceived hs, State.creditReceived_of_up hup, State.controlInUp_of_receiving hinside]
  · refine exec_tornDown ?_
    rw [exec_teardownCellReceived hs, State.teardownReceived_of_up hup, State.controlInUp_of_receiving hinside]
  · refine exec_tornDown ?_
    rw [exec_initReceived hs, State.initReceived_of_up hup, State.controlInUp_of_boundary hboundary, if_neg nofun]
  · rw [exec_initReceived hs, State.initReceived_of_up hup, State.controlInUp_of_boundary hboundary, if_pos rfl]
  · refine exec_tornDown ?_
    rw [exec_teardownCellReceived hs, State.teardownReceived_of_up hup, State.controlInUp_of_boundary hboundary]
  · refine exec_tornDown ?_
    rw [exec_creditReceived hs, State.creditReceived_of_up hup, State.controlInUp_of_boundary hboundary,
      State.creditInUp_of_overfilled (Transmitter.overfilled_iff.2 hover)]
  · rintro cell h rfl hfull
    refine exec_tornDown ?_
    rw [exec_headerCellArrival hs, State.packetCell_of_up hup, State.framedCell_of_refused hboundary fun ha => ?_]
    obtain ⟨hshared, hreserved⟩ := Store.admits_iff.1 ha
    rcases hfull with ⟨hpool, hmore⟩ | ⟨hpool, htaken⟩
    · exact absurd (hshared hpool) (Nat.not_le.2 hmore)
    · obtain ⟨hempty, hreturned⟩ := hreserved hpool
      exact htaken.elim (fun hheld => hheld hempty) fun howed => Bool.false_ne_true (hreturned.symm.trans howed)

/-- Settles O31: the cell does not overfill, so its credit is added. -/
theorem creditAccepted : Obligations.CreditAccepted := by
  unfold Obligations.CreditAccepted
  intro s l count res hs hup hboundary hroom hfree
  have hfits : ¬ (s.link l).tx.overfilled count res = true := fun hover => by
    rcases Transmitter.overfilled_iff.1 hover with hmore | ⟨c, hres, hheld⟩
    · exact absurd hroom (Nat.not_le.2 hmore)
    · exact Bool.false_ne_true ((hfree c hres).symm.trans hheld)
  obtain ⟨t, ht, hends⟩ := exec_endsAs (u := s.modLink l (fun n => { n with tx := n.tx.credited count res })) <| by
    rw [exec_creditReceived hs, State.creditReceived_of_up hup, State.controlInUp_of_boundary hboundary,
      State.creditInUp_of_fits hfits]
  refine ⟨_, t, ht, hends, fun m hm => s.link_modLink_ne _ hm, ?_⟩
  rw [State.link_modLink_self]
  exact ⟨rfl, (s.link l).tx.credited_reserved count res, rfl, rfl⟩

/-- Settles O32: an admitted header cell opens a record at the end of the store; a data cell changes the one packet in
reception. -/
theorem headerAdmitted : Obligations.HeaderAdmitted := by
  unfold Obligations.HeaderAdmitted
  refine ⟨fun s l cell h hs hh hup hboundary hshared hreserved => ?_,
    fun s l cell before after p hs hup hpackets hp hothers => ?_⟩
  · subst hh
    have hopens := State.framedCell_of_admitted hboundary (Store.admits_iff.2 ⟨hshared, hreserved⟩)
    exact exec_endsAs ((exec_headerCellArrival hs l cell).trans
      (congrArg _ ((State.packetCell_of_up hup cell).trans (congrArg settle hopens))))
  · have hreceiving : ∃ q ∈ (s.link l).store.packets, q.cond = .inReception :=
      ⟨p, hpackets ▸ List.mem_append_right _ List.mem_cons_self, hp⟩
    have hjoins := State.framedCell_of_receiving hreceiving cell
    rw [State.modLink, Store.takeCell_packets hpackets hp hothers] at hjoins
    exact exec_endsAs ((exec_dataCellArrival hs l cell).trans
      (congrArg _ ((State.packetCell_of_up hup cell).trans (congrArg settle hjoins))))

/-- Settles O48: the dispatch and the end of a copy by their counts, and the release by whether the link is UP. -/
theorem copyEnds : Obligations.CopyEnds := by
  unfold Obligations.CopyEnds
  intro n id p hp
  refine ⟨fun copies => rfl, Link.endCopy_of_more hp, Link.endCopy_of_last hp, Link.release_of_not_up hp, fun hup => ?_⟩
  have hback := (n.store.remove id).giveBack_released n.ctrl.crHoldoff p
  have htimer := hback.timer
  refine ⟨_, Link.release_of_up hp hup, (n.store.remove id).giveBack_packets _ p, hback.nextId, ?_, fun c => ?_,
    fun hshared hres => ?_, fun howes => ?_⟩
  · rw [hback.shared]
    by_cases hr : p.region = .shared <;> simp [Store.remove, hr]
  · rw [hback.reserved c]
    simp [Store.remove, StoredPacket.cls, eq_comm]
  · rw [if_pos ⟨rfl, by simp, hshared, hres⟩] at htimer
    refine ⟨fun hzero => ?_, fun hzero => ?_⟩
    · rw [if_pos hzero] at htimer
      exact htimer.symm
    · rwa [if_neg hzero] at htimer
  · rwa [if_neg fun hnone => howes hnone.2.2] at htimer

end Sys2Proof.Machine
end

section
/-! SUPPORT. A link's lane: the scheduler's decision, a packet's start, a CREDIT cell, a completion; and the packet an
accepted SUBMIT leaves (R39, R49, R79–R87, R105, R107, R114, R144). -/

namespace Sys2Proof.Machine

/-! ### The rotation (R82) -/

theorem rotateClass_cases (c d : Class) : d = c ∨ d = rotateClass c ∨ d = rotateClass (rotateClass c) := by
  cases c <;> cases d <;> decide

theorem rotateClass_ne (c : Class) : rotateClass c ≠ c ∧ rotateClass (rotateClass c) ≠ c ∧
    rotateClass c ≠ rotateClass (rotateClass c) := by
  cases c <;> decide

/-- No head is eligible where none of the three in rotation order is. -/
theorem Transmitter.eligible_none_iff {t : Transmitter} : (∀ c, t.eligible c = false) ↔ t.eligible t.cur = false ∧
    t.eligible (rotateClass t.cur) = false ∧ t.eligible (rotateClass (rotateClass t.cur)) = false := by
  refine ⟨fun h => ⟨h _, h _, h _⟩, fun ⟨hcur, hnext, hlast⟩ c => ?_⟩
  rcases rotateClass_cases t.cur c with rfl | rfl | rfl
  exacts [hcur, hnext, hlast]

/-- The decision goes unmade where no head is eligible (R82). -/
theorem Transmitter.choose_eq_none {t : Transmitter} {q : BitVec 8} : t.choose q = none ↔ ∀ c, t.eligible c = false := by
  rw [Transmitter.eligible_none_iff]
  unfold Transmitter.choose
  split
  · simp [*]
  · split
    · simp [*]
    · split
      · simp [*]
      · split <;> simp [*]

/-- What the decision's class and run count tell (R82). -/
theorem Transmitter.choose_eq_some {t : Transmitter} {q : BitVec 8} {c : Class} {run : Nat}
    (h : t.choose q = some (c, run)) : (c = t.cur ∧ run = t.run ∧ t.run < q.toNat) ∨
      (run = 0 ∧ ¬(t.eligible t.cur = true ∧ t.run < q.toNat) ∧ (c = t.cur → ∀ d, d ≠ t.cur → t.eligible d = false) ∧
        (c = rotateClass (rotateClass t.cur) → t.eligible (rotateClass t.cur) = false)) := by
  obtain ⟨hnext, hlast, hne⟩ := rotateClass_ne t.cur
  unfold Transmitter.choose at h
  split at h
  next hrun =>
    cases h
    exact .inl ⟨rfl, rfl, hrun.2⟩
  next hrun =>
    right
    split at h
    next => cases h; exact ⟨rfl, hrun, fun e => absurd e hnext, fun e => absurd e hne⟩
    next hnot =>
      split at h
      next => cases h; exact ⟨rfl, hrun, fun e => absurd e hlast, fun _ => Bool.eq_false_iff.2 hnot⟩
      next hnot' =>
        split at h
        next =>
          cases h
          refine ⟨rfl, hrun, fun _ d hd => Bool.eq_false_iff.2 ?_, fun e => absurd e.symm hlast⟩
          rcases rotateClass_cases t.cur d with rfl | rfl | rfl
          exacts [absurd rfl hd, hnot, hnot']
        next => cases h

/-! ### Rows (R49, R85, R87) -/

section Rows

variable {s : State} (h : s.inReset = false) (l : LinkId)
include h

theorem exec_transmissionStart : exec (.transmissionStart l) s = .next (s.startWhere l) :=
  congrArg Host.Outcome.next (State.unlessReset_of_released (·.startWhere l) h)

theorem exec_creditCellSend : exec (.creditCellSend l) s = .next (s.creditWhere l) :=
  congrArg Host.Outcome.next (State.unlessReset_of_released (·.creditWhere l) h)

theorem exec_transmissionCompletion : exec (.transmissionCompletion l) s = .next (s.finishWhere l) :=
  congrArg Host.Outcome.next (State.unlessReset_of_released (·.finishWhere l) h)

end Rows

/-! ### A packet's start (R39, R85) -/

section Start

variable {s : State} {l : LinkId} {c : Class} {run : Nat} {e : EgressEntry} {rest : List EgressEntry}

theorem State.decideStart_of_none (hnone : (s.link l).tx.choose (s.link l).ctrl.quantum = none) : s.decideStart l = s := by
  rw [State.decideStart, hnone]

theorem State.decideStart_of_some (hchoose : (s.link l).tx.choose (s.link l).ctrl.quantum = some (c, run))
    (hqueue : (s.link l).tx.queue c = e :: rest) : s.decideStart l =
      (s.send l [s.startCell l e]).modLink l (fun n => { n with tx := n.tx.start c run e rest }) := by
  rw [State.decideStart, hchoose]
  change s.startHead l c run = _
  rw [State.startHead, hqueue]

/-- The class the decision names has a head to start. -/
theorem Transmitter.choose_head {t : Transmitter} {q : BitVec 8} (hchoose : t.choose q = some (c, run)) :
    ∃ e rest, t.queue c = e :: rest := by
  have heligible := Transmitter.choose_eligible hchoose
  cases hqueue : t.queue c with
  | nil => simp [Transmitter.eligible, hqueue] at heligible
  | cons e rest => exact ⟨e, rest, rfl⟩

theorem State.startCell_eq (s : State) (l : LinkId) (e : EgressEntry) {pool : Bool}
    (hpool : pool = decide ((s.link l).tx.shared < e.length)) : s.startCell l e =
      ⟨false, ({ s.sourceHeader e.source with hops := e.hopsOut, pool := pool } : Header).toCell⟩ := by
  rw [hpool]
  rfl

/-- POOL 1 spends the class's reserved credit, POOL 0 the length in shared credit (R39). -/
theorem Transmitter.start_credit (t : Transmitter) (c : Class) (run : Nat) (e : EgressEntry) (rest : List EgressEntry)
    {pool : Bool} (hpool : pool = decide (t.shared < e.length)) :
    (t.start c run e rest).shared = (if pool then t.shared else t.shared - e.length) ∧
    ∀ d, (t.start c run e rest).reserved.get d = (t.reserved.get d && !(pool && decide (d = c))) := by
  have huses : t.usesReserved e.length = pool := hpool.symm
  rw [Transmitter.start, huses]
  refine ⟨rfl, fun d => ?_⟩
  cases pool with
  | false => simp
  | true => by_cases hd : d = c <;> simp [PerClass.get_set, hd]

/-- What a start leaves as it was. -/
theorem State.decideStart_frame (s : State) (l : LinkId) : { s.decideStart l with links := s.links, lane := s.lane } = s ∧
    ((s.decideStart l).link l).store = (s.link l).store ∧ s.sent l <+: (s.decideStart l).sent l ∧
    ∀ m, m ≠ l → (s.decideStart l).link m = s.link m ∧ (s.decideStart l).sent m = s.sent m := by
  cases hchoose : (s.link l).tx.choose (s.link l).ctrl.quantum with
  | none =>
    rw [State.decideStart_of_none hchoose]
    exact ⟨rfl, rfl, List.prefix_rfl, fun _ _ => ⟨rfl, rfl⟩⟩
  | some choice =>
    obtain ⟨e, rest, hqueue⟩ := Transmitter.choose_head hchoose
    rw [State.decideStart_of_some hchoose hqueue]
    refine ⟨rfl, by simp, by simp [State.sent_send], fun m hm => ?_⟩
    simp [State.link_modLink, State.sent_send, hm]

end Start

/-! ### A CREDIT cell (R49, R82, R84) -/

section Credit

variable {s : State} {l : LinkId}

theorem State.boundary_of_due (hdue : (s.link l).creditDue = true) : s.boundary l = (s.sendCredit l).decideStart l := by
  rw [State.boundary, if_pos hdue]

theorem State.boundary_of_not_due (hdue : (s.link l).creditDue = false) : s.boundary l = s.decideStart l := by
  rw [State.boundary, hdue, if_neg nofun]

theorem State.sendCredit_link (s : State) (l : LinkId) :
    (s.sendCredit l).link l = { s.link l with store := (s.link l).store.clearReturn } := State.link_modLink_self _ l _

theorem State.sendCredit_sent (s : State) (l : LinkId) : (s.sendCredit l).sent l = s.sent l ++
    [⟨true, creditCell (BitVec.ofNat 7 (s.link l).store.awaitShared) (s.link l).store.awaitRes⟩] := by
  simp [State.sendCredit, State.sent_send]

theorem State.sendCredit_others (s : State) {l m : LinkId} (hm : m ≠ l) :
    (s.sendCredit l).link m = s.link m ∧ (s.sendCredit l).sent m = s.sent m := by
  simp [State.sendCredit, State.link_modLink, State.sent_send, hm]

/-- The cell returns credit and touches no packet. -/
theorem State.sendCredit_source (s : State) (l : LinkId) (src : Source) : (s.sendCredit l).sourceHeader src = s.sourceHeader src := by
  have same : SameCopies s (s.sendCredit l) := (SameCopies.send s l _).trans (.modLink _ l _ rfl rfl fun _ => rfl)
  rw [State.sourceHeader, State.sourceHeader, same.source]

end Credit

/-! ### A completion (R87, R107, R114, R144) -/

section Completion

variable {s : State} {l : LinkId} {c : Class} {e : EgressEntry} {rest : List EgressEntry}

/-- Under the law of started heads the started head is the packet in transmission (R79, R85). -/
theorem Transmitter.busyClass_eq {t : Transmitter} (h : t.StartedLaw) (hqueue : t.queue c = e :: rest)
    (hstarted : e.started = true) : t.busy = true ∧ t.busyClass = some c := by
  have hhead : (t.startedHead c).isSome = true := by simp [Transmitter.startedHead, hqueue, hstarted]
  have member : ∀ d : Class, d ∈ classes := fun d => by cases d <;> decide
  have only : ∀ d, d ≠ c → ¬ (t.startedHead d).isSome = true := fun d hne hd =>
    hne ((h.2 d (member d) hd).trans (h.2 c (member c) hhead).symm)
  have hentry : e ∈ t.entries := Transmitter.mem_entries.2 ⟨c, hqueue ▸ List.mem_cons_self⟩
  refine ⟨(t.busy_iff h).2 ⟨e, hentry, hstarted⟩, ?_⟩
  unfold Transmitter.busyClass
  cases c with
  | req => rw [if_pos hhead]
  | rpy => rw [if_neg (only .req (by decide)), if_pos hhead]
  | pst => rw [if_neg (only .req (by decide)), if_neg (only .rpy (by decide)), if_pos hhead]

/-- The event of a completion: the entry leaves its queue behind its data cells, then its source hears of it (R87). -/
theorem exec_completes {u : State} (hs : s.inReset = false) (h : (s.link l).tx.StartedLaw)
    (hqueue : (s.link l).tx.queue c = e :: rest) (hstarted : e.started = true)
    (hu : u = (s.send l (packetCells (s.sourceData e.source))).modLink l
      (fun n => { n with tx := { n.tx with queues := n.tx.queues.set c rest } })) :
    ∃ t, exec (.transmissionCompletion l) s = .next t ∧ EndsAs ((u.copySent e.source).endCopy e.source) t := by
  obtain ⟨hbusy, hclass⟩ := Transmitter.busyClass_eq h hqueue hstarted
  have hfinish : s.completeTransmission l = (u.copySent e.source).endCopy e.source := by
    simp only [State.completeTransmission, hclass, hqueue, State.finishHead, State.sendData, hu]
  refine exec_endsAs ((exec_transmissionCompletion hs l).trans (congrArg _ ?_))
  rw [State.finishWhere, if_pos hbusy, hfinish]

/-! #### What the source hears (R107, R114) -/

variable {u : State} {i : SlotIx} {k : Slot}

theorem State.copySent_of_none {src : Source} (h : u.hostReq src = none) : u.copySent src = u := by
  rw [State.copySent, h]

theorem State.hostReq_slot (hk : u.slot i = some k) : u.hostReq (.slot i) = k.req := by
  simp [State.hostReq, hk]

theorem State.copySent_of_req {r : ReqIx} (hk : u.slot i = some k) (hr : k.req = some r) :
    u.copySent (.slot i) = u.reqSent r := by
  rw [State.copySent, State.hostReq_slot hk, hr]

theorem State.endSlotCopy_of_last (hk : u.slot i = some k) (h : k.copies ≤ 1) :
    u.endSlotCopy i = (u.setSlot i none).latch .txSpace := by
  rw [State.endSlotCopy, hk]
  exact if_pos h

theorem State.endSlotCopy_of_more (hk : u.slot i = some k) (h : 1 < k.copies) :
    u.endSlotCopy i = u.setSlot i (some { k with copies := k.copies - 1 }) := by
  rw [State.endSlotCopy, hk]
  exact if_neg (Nat.not_le.2 h)

theorem State.reqSent_of_queued {r : ReqIx} (h : (u.entry r).state = .queued) (hcancel : (u.entry r).cancelPending = false) :
    u.reqSent r = u.setEntry r { u.entry r with
      state := .sent, captured := u.port.reqTimeout, remaining := u.port.reqTimeout, slot := none } := by
  rw [State.reqSent, if_pos h, if_neg (Bool.eq_false_iff.1 hcancel)]

theorem State.reqSent_of_cancelled {r : ReqIx} (h : (u.entry r).state = .queued)
    (hcancel : (u.entry r).cancelPending = true) :
    u.reqSent r = ((u.setEntry r ((u.entry r).completed .cancelled)).pushCq r).latch .completion := by
  rw [State.reqSent, if_pos h, if_pos hcancel]
  exact State.completeAs_active _ (.inl h)

end Completion

/-! ### An accepted SUBMIT of an RPY or PST (R105) -/

theorem State.submitAccepted_plain {s : State} {i : SlotIx} (ms : List LinkId) (hi : s.freeSlot = some i)
    (hcls : s.composed.cls ≠ 0) : s.submitAccepted ms = s.submitPlain i s.composed ms := by
  have hreq : ¬ s.composed.cls = Class.req.code := hcls
  simp only [State.submitAccepted, hi, if_neg hreq]

/-- The slot, the copies and RESULT of an accepted packet (R105). -/
theorem State.submitPlain_eq (s : State) (i : SlotIx) (h : Header) (ms : List LinkId) : s.submitPlain i h ms =
    { (s.setSlot i (some ⟨h, (composedCells s.port.compose).take h.len.toNat, ms.length, none⟩)).appendCopies ms
        ⟨.slot i, h.queueClass, 1 + h.len.toNat, h.hops, h.grp, false⟩ with
      port := { s.port with result := ⟨1, .ok, 0, 0⟩ } } := by
  obtain ⟨-, -, -, -, -, -, -, -, -, hport, -⟩ := State.appendCopies_fields (hostCopy i h) ms
    (s.setSlot i (some ⟨h, (composedCells s.port.compose).take h.len.toNat, ms.length, none⟩))
  rw [State.submitPlain, State.takeSlot, State.setResult, hport]
  rfl

end Sys2Proof.Machine
end

section
/-! The statements on the scheduler, the lanes and SUBMIT (specs 03, 05, 06). -/

namespace Sys2Proof.Machine

/-- Settles O44: the four outcomes of the decision in order. -/
theorem schedulerDecides : Obligations.SchedulerDecides := by
  unfold Obligations.SchedulerDecides
  exact fun t q => ⟨Transmitter.choose_eq_none, fun c run h =>
    ⟨Transmitter.choose_eligible h, Transmitter.choose_eq_some h⟩⟩

/-- Settles O45: no CREDIT cell is due, so the boundary is the chosen head's start. -/
theorem transmissionStart : Obligations.TransmissionStart := by
  unfold Obligations.TransmissionStart
  intro s l c run e rest pool hs hup hidle hdue hchoose hqueue hpool
  have hcan : (s.link l).canStart = true := by simp [Link.canStart, hup, hidle, hchoose]
  have hstart : s.startWhere l = (s.send l [s.startCell l e]).modLink l (fun n => { n with tx := n.tx.start c run e rest }) := by
    rw [State.startWhere, if_pos hcan, State.boundary_of_not_due hdue, State.decideStart_of_some hchoose hqueue]
  obtain ⟨hshared, hreserved⟩ := (s.link l).tx.start_credit c run e rest hpool
  refine ⟨_, (exec_transmissionStart hs l).trans (congrArg _ hstart), ?_, fun m hm => ?_, ?_⟩
  · rw [s.startCell_eq l e hpool, State.modLink_sent, State.sent_send, if_pos rfl]
  · simp [State.link_modLink, State.sent_send, hm]
  · rw [State.link_modLink_self, State.send_link]
    refine ⟨?_, fun d hd => ?_, hshared, hreserved, rfl, rfl, rfl, rfl⟩
    · rw [Transmitter.start_queue, if_pos rfl]
    · rw [Transmitter.start_queue, if_neg hd]

/-- Settles O46: the cell goes out first, and the decision at the same boundary is made on what it leaves. -/
theorem creditCellSent : Obligations.CreditCellSent := by
  unfold Obligations.CreditCellSent
  intro s l hs hup hidle hdue
  have hcan : (s.link l).canCredit = true := by simp [Link.canCredit, hdue, hidle]
  have hsend : s.creditWhere l = (s.sendCredit l).decideStart l := by
    rw [State.creditWhere, if_pos hcan, State.boundary_of_due hdue]
  have hlink := s.sendCredit_link l
  have hsent := s.sendCredit_sent l
  obtain ⟨hframe, hstore, hprefix, hothers⟩ := (s.sendCredit l).decideStart_frame l
  refine ⟨_, (exec_creditCellSend hs l).trans (congrArg _ hsend), hsent ▸ hprefix, ?_, fun hnone => ?_,
    fun c run e rest pool hchoose hqueue hpool => ?_, fun m hm => ?_, ?_⟩
  · rw [hstore, hlink]
    rfl
  · rw [State.decideStart_of_none (by rwa [hlink]), hlink]
    exact ⟨rfl, hsent⟩
  · have hcell := (s.sendCredit l).startCell_eq l e (pool := pool) (by rw [hlink]; exact hpool)
    rw [State.decideStart_of_some (by rwa [hlink]) (by rw [hlink]; exact hqueue), hcell, s.sendCredit_source, State.link_modLink_self,
      State.modLink_sent, State.sent_send, if_pos rfl, hsent, List.append_assoc]
    exact ⟨(Transmitter.start_queue _ c c run e rest).trans (if_pos rfl), rfl⟩
  · obtain ⟨hlink', hsent'⟩ := hothers m hm
    obtain ⟨hcredit, hcredit'⟩ := s.sendCredit_others hm
    exact ⟨hlink'.trans hcredit, hsent'.trans hcredit'⟩
  · exact congrArg (fun v : State => { v with links := s.links, lane := s.lane }) hframe

/-- Settles O47: the entry leaves its queue, then each kind of source hears of its copy's end. -/
theorem transmissionCompletes : Obligations.TransmissionCompletes := by
  unfold Obligations.TransmissionCompletes
  intro s l c e rest u hs hlaw hqueue hstarted hu
  have hgo := exec_completes hs hlaw hqueue hstarted hu
  refine ⟨fun m id hsrc => ?_, fun id hsrc => ?_, fun i k hsrc hslot => ?_⟩
  · rwa [hsrc, State.copySent_of_none rfl] at hgo
  · have hjobs : u.jobs = s.jobs := by rw [hu]; rfl
    rw [hsrc, State.copySent_of_none rfl] at hgo
    rw [← hjobs]
    exact hgo
  · have hk : u.slot i = some k := by rw [hu]; exact hslot
    rw [hsrc] at hgo
    refine ⟨fun hreq hmore => ?_, fun hreq hlast => ?_, fun r hreq hlast hqueued => ?_⟩
    · rw [State.copySent_of_none ((State.hostReq_slot hk).trans hreq)] at hgo
      exact State.endSlotCopy_of_more hk hmore ▸ hgo
    · rw [State.copySent_of_none ((State.hostReq_slot hk).trans hreq)] at hgo
      exact State.endSlotCopy_of_last hk hlast ▸ hgo
    · have hentry : u.entry r = s.entry r := by rw [hu]; rfl
      have hport : u.port = s.port := by rw [hu]; rfl
      rw [State.copySent_of_req hk hreq] at hgo
      refine ⟨fun hcancel => ?_, fun hcancel => ?_⟩
      · rw [State.reqSent_of_queued (hentry ▸ hqueued) (hentry ▸ hcancel), hentry, hport] at hgo
        exact State.endSlotCopy_of_last (u := u.setEntry r _) hk hlast ▸ hgo
      · rw [State.reqSent_of_cancelled (hentry ▸ hqueued) (hentry ▸ hcancel), hentry] at hgo
        exact State.endSlotCopy_of_last (u := ((u.setEntry r _).pushCq r).latch .completion) hk hlast ▸ hgo

/-- Settles O20: the checks passed leave a free slot, of which the lowest is taken, for as many copies as targets. -/
theorem submitPacket : Obligations.SubmitPacket := by
  unfold Obligations.SubmitPacket
  rintro s h hs rfl ha hcls
  obtain ⟨-, hslots, -⟩ := State.accepted_checks ha
  obtain ⟨i, hi⟩ := State.freeSlot_isSome (fun hnone => hslots (.inl hnone))
  rw [exec_submit hs, State.submit_accepted ha, State.submitAccepted_plain _ hi hcls, State.submitPlain_eq]
  exact ⟨_, i, rfl, State.freeSlot_none hi, State.freeSlot_lowest hi, settle_endsAs _⟩

end Sys2Proof.Machine
end

section
/-! SUPPORT. The read-only words of the window as numbers, field by field (R16, R38, R55, R126, R128, R137, R151, R162,
R168, R171, R172, R177, R179). -/

namespace Sys2Proof.Machine

/-! ### The words at their addresses (R161) -/

section Addresses

variable {s : State} (h : s.inReset = false)
include h

theorem readWord_stat (l : LinkId) : readWord s (linkWord 28 l) = (s.link l).readStat := by
  rw [readWord_running s h]
  fin_cases l <;> rfl

theorem readWord_cred (l : LinkId) : readWord s (linkWord 32 l) = (s.link l).readCred := by
  rw [readWord_running s h]
  fin_cases l <;> rfl

theorem readWord_queue (l : LinkId) : readWord s (linkWord 36 l) = (s.link l).readQueue := by
  rw [readWord_running s h]
  fin_cases l <;> rfl

theorem readWord_req (r : ReqIx) : readWord s (BitVec.ofNat 7 (96 + r.val)) = (s.entry r).read := by
  rw [readWord_running s h]
  fin_cases r <;> rfl

theorem readWord_sync (k : Fin 8) : readWord s (BitVec.ofNat 7 (16 + k.val)) = (s.counter k).read := by
  rw [readWord_running s h]
  fin_cases k <;> rfl

theorem readWord_rxHdr : readWord s 64 = s.readRxHdr := readWord_running s h 64

theorem readWord_rxAux : readWord s 65 = s.readRxAux := readWord_running s h 65

theorem readWord_rxData (i : Fin 14) : readWord s (BitVec.ofNat 7 (66 + i.val)) = s.readRxData i.val := by
  rw [readWord_running s h]
  fin_cases i <;> rfl

theorem readWord_cqHdr : readWord s 80 = s.readCqHdr := readWord_running s h 80

theorem readWord_cqAux : readWord s 81 = s.readCqAux := readWord_running s h 81

theorem readWord_cqData (i : Fin 14) : readWord s (BitVec.ofNat 7 (82 + i.val)) = s.readCqData i.val := by
  rw [readWord_running s h]
  fin_cases i <;> rfl

end Addresses

/-- A group of sixteen words is a first word, a second, and fourteen more. -/
theorem window_cases {P : BitVec 7 → Prop} (base : Nat) (hhdr : P (BitVec.ofNat 7 base)) (haux : P (BitVec.ofNat 7 (base + 1)))
    (hdata : ∀ i : Fin 14, P (BitVec.ofNat 7 (base + 2 + i.val))) (i : Fin 16) : P (BitVec.ofNat 7 (base + i.val)) := by
  obtain ⟨i, hi⟩ := i
  match i, hi with
  | 0, _ => exact hhdr
  | 1, _ => exact haux
  | i + 2, hi => simpa [Nat.add_assoc, Nat.add_comm 2] using hdata ⟨i, by omega⟩

/-! ### Data windows (R126, R137) -/

theorem dataWords_cell (cells : List Cell) (j : Nat) :
    dataWord cells (2 * j + 1) ++ dataWord cells (2 * j) = cells.getD j 0 :=
  BitVec.eq_of_toNat_eq (dataWord_pair cells j)

section Queues

variable {s : State} (h : s.inReset = false)
include h

theorem readWord_rx_of_empty (hempty : s.inbound = []) (i : Fin 16) : readWord s (BitVec.ofNat 7 (64 + i.val)) = 0 :=
  window_cases (P := fun a => readWord s a = 0) 64
    ((readWord_rxHdr h).trans (by rw [State.readRxHdr, hempty]))
    ((readWord_rxAux h).trans (by rw [State.readRxAux, hempty]))
    (fun i => (readWord_rxData h i).trans (by rw [State.readRxData, hempty])) i

theorem readWord_cq_of_empty (hempty : s.cq = []) (i : Fin 16) : readWord s (BitVec.ofNat 7 (80 + i.val)) = 0 :=
  window_cases (P := fun a => readWord s a = 0) 80
    ((readWord_cqHdr h).trans (by rw [State.readCqHdr, hempty]))
    ((readWord_cqAux h).trans (by rw [State.readCqAux, hempty]))
    (fun i => (readWord_cqData h i).trans (by rw [State.readCqData, hempty])) i

theorem readWord_rx_cell {e : InboundEntry} {rest : List InboundEntry} (hcons : s.inbound = e :: rest) (j : Fin 7) :
    readWord s (BitVec.ofNat 7 (67 + 2 * j.val)) ++ readWord s (BitVec.ofNat 7 (66 + 2 * j.val)) = e.data.getD j.val 0 := by
  have hodd := readWord_rxData h ⟨2 * j.val + 1, by omega⟩
  have heven := readWord_rxData h ⟨2 * j.val, by omega⟩
  have haddr : 66 + (2 * j.val + 1) = 67 + 2 * j.val := by omega
  rw [haddr] at hodd
  rw [hodd, heven, State.readRxData, State.readRxData, hcons]
  exact dataWords_cell _ _

theorem readWord_cq_cell {r : ReqIx} {rest : List ReqIx} (hcons : s.cq = r :: rest) (j : Fin 7) :
    readWord s (BitVec.ofNat 7 (83 + 2 * j.val)) ++ readWord s (BitVec.ofNat 7 (82 + 2 * j.val)) =
      (s.entry r).replyData[j] := by
  have hodd := readWord_cqData h ⟨2 * j.val + 1, by omega⟩
  have heven := readWord_cqData h ⟨2 * j.val, by omega⟩
  have haddr : 82 + (2 * j.val + 1) = 83 + 2 * j.val := by omega
  rw [haddr] at hodd
  rw [hodd, heven, State.readCqData, State.readCqData, hcons]
  refine (dataWords_cell _ _).trans ?_
  simp

end Queues

/-! ### The host side's fields (R126, R128, R137, R151, R162, R168, R172) -/

theorem State.readRxHdr_toNat {s : State} {e : InboundEntry} {rest : List InboundEntry} (hcons : s.inbound = e :: rest) :
    s.readRxHdr.toNat = e.dest.toNat + 2 ^ 5 * e.src.toNat + 2 ^ 10 * e.cls.toNat + 2 ^ 12 * e.kind.toNat +
        2 ^ 15 * e.grp.toNat + 2 ^ 16 * e.tag.toNat + 2 ^ 22 * e.len.toNat + 2 ^ 26 * e.link.val + 2 ^ 31 := by
  simp only [State.readRxHdr, hcons, toNat_concat, ofBool_toNat, BitVec.toNat_ofNat, BitVec.toNat_ofFin]
  omega

theorem ReqEntry.shownSource_eq (e : ReqEntry) : e.shownSource = if e.replyKind = none then e.dest else e.replySrc := by
  cases hk : e.replyKind <;> simp [ReqEntry.shownSource, hk]

theorem State.readCqHdr_toNat {s : State} {r : ReqIx} {rest : List ReqIx} (hcons : s.cq = r :: rest) :
    s.readCqHdr.toNat = r.val +
      2 ^ 5 * (if (s.entry r).replyKind = none then (s.entry r).dest else (s.entry r).replySrc).toNat +
      2 ^ 12 * ((s.entry r).replyKind.getD 0).toNat + 2 ^ 16 * (r.val + 16 * (s.entry r).gen.toNat) +
      2 ^ 22 * (s.entry r).replyLen.toNat + 2 ^ 27 * (statusCode (s.entry r).status).toNat + 2 ^ 31 := by
  rw [← ReqEntry.shownSource_eq, ← ReqEntry.tag_toNat]
  simp only [State.readCqHdr, hcons, toNat_concat, BitVec.toNat_ofNat, BitVec.toNat_ofFin]
  omega

theorem State.readCqAux_toNat {s : State} {r : ReqIx} {rest : List ReqIx} (hcons : s.cq = r :: rest) :
    s.readCqAux.toNat = (s.entry r).user.toNat + 2 ^ 16 * (s.entry r).replyUser.toNat := by
  simp only [State.readCqAux, hcons, toNat_concat]
  omega

theorem ReqEntry.read_toNat (e : ReqEntry) : e.read.toNat = e.state.code.toNat + 2 ^ 2 * e.gen.toNat +
    2 ^ 4 * e.cancelPending.toNat + 2 ^ 5 * (statusCode e.status).toNat + 2 ^ 8 * e.dest.toNat + 2 ^ 13 * e.egress.val +
    2 ^ 16 * (if e.state = .sent ∧ e.captured ≠ 0 then e.remaining.toNat else 0) := by
  have hshown : (if e.timerRuns then e.remaining else 0).toNat =
      if e.state = .sent ∧ e.captured ≠ 0 then e.remaining.toNat else 0 := by
    simp only [ReqEntry.timerRuns, decide_eq_true_eq]
    split <;> rfl
  simp only [ReqEntry.read, toNat_concat, ofBool_toNat, BitVec.toNat_ofNat, BitVec.toNat_ofFin, hshown]
  omega

theorem SyncCounter.read_toNat (c : SyncCounter) : c.read.toNat = c.count.toNat + 2 ^ 8 * c.target.toNat +
    2 ^ 16 * c.armed.toNat + 2 ^ 17 * c.fired.toNat + 2 ^ 18 * c.overflow.toNat := by
  simp only [SyncCounter.read, toNat_concat, ofBool_toNat, BitVec.toNat_ofNat]
  omega

theorem State.readSyncSummary_bits (s : State) (k : Fin 8) : s.readSyncSummary.getLsbD k.val = (s.counter k).armed ∧
    s.readSyncSummary.getLsbD (8 + k.val) = (s.counter k).fired ∧
    s.readSyncSummary.getLsbD (16 + k.val) = (s.counter k).overflow ∧ s.readSyncSummary.getLsbD (24 + k.val) = false := by
  rw [← counterFlags_bit s SyncCounter.armed, ← counterFlags_bit s SyncCounter.fired,
    ← counterFlags_bit s SyncCounter.overflow]
  refine ⟨?_, ?_, ?_, ?_⟩ <;> simp only [State.readSyncSummary, BitVec.getLsbD_append] <;> fin_cases k <;> simp

theorem State.readDropInfo_of_free {s : State} (h : s.events.capture = none) : s.readDropInfo = 0 := by
  rw [State.readDropInfo, h]

theorem State.readDropHdr_of_free {s : State} (h : s.events.capture = none) : s.readDropHdr = 0 := by
  rw [State.readDropHdr, h]

theorem State.readDropInfo_toNat {s : State} {d : DropRecord} (hd : s.events.capture = some d) :
    s.readDropInfo.toNat = d.reason.code.toNat + 2 ^ 8 * d.origin.code.toNat + 2 ^ 31 := by
  simp only [State.readDropInfo, hd, toNat_concat, BitVec.toNat_ofNat]
  omega

theorem State.readDropHdr_toNat {s : State} {d : DropRecord} (hd : s.events.capture = some d) :
    s.readDropHdr.toNat = d.dest.toNat + 2 ^ 5 * d.src.toNat + 2 ^ 10 * d.cls.toNat + 2 ^ 12 * d.kind.toNat +
      2 ^ 16 * d.tag.toNat := by
  simp only [State.readDropHdr, hd, toNat_concat, BitVec.toNat_ofNat]
  omega

theorem State.readStatus_toNat {s : State} (hinbound : s.InboundLaw) (hjobs : s.JobLaw) : s.readStatus.toNat =
    s.port.cfgReject.toNat + 2 ^ 4 * s.freeSlots + 2 ^ 8 * s.inbound.length + 2 ^ 16 * s.inboundCells +
      2 ^ 24 * s.jobs.length := by
  obtain ⟨hlength, hcells⟩ := hinbound
  have hlimit : s.jobs.length ≤ 4 := hjobs
  have hslots := freeSlots_le s
  simp only [State.readStatus, toNat_concat, ofBool_toNat, BitVec.toNat_ofNat]
  omega

theorem State.readResult_toNat (s : State) : s.readResult.toNat = s.port.result.cmd.toNat +
    2 ^ 4 * s.port.result.res.code.toNat + 2 ^ 8 * s.port.result.index.toNat + 2 ^ 16 * s.port.result.tag.toNat := by
  simp only [State.readResult, toNat_concat, BitVec.toNat_ofNat]
  omega

/-! ### The link words' fields (R16, R38, R55, R179) -/

theorem Link.readStat_toNat (n : Link) : n.readStat.toNat =
    n.state.code.toNat + 2 ^ 2 * n.seen.toNat + 2 ^ 8 * n.peer.toNat + 2 ^ 16 * n.cause.code.toNat := by
  simp only [Link.readStat, toNat_concat, ofBool_toNat, BitVec.toNat_ofNat]
  omega

theorem Store.regionHeld_toNat (k : Store) (c : Class) : (k.regionHeld c).toNat = if k.inRegion c = [] then 0 else 1 := by
  split
  next hempty => rw [Store.regionHeld_iff.2 hempty]; rfl
  next hheld => rw [Bool.eq_true_of_not_eq_false fun hfree => hheld (Store.regionHeld_iff.1 hfree)]; rfl

theorem Link.readCred_toNat {n : Link} (hcredit : n.tx.CreditLaw) (hstore : n.store.SharedLaw) : n.readCred.toNat =
    n.tx.shared + 2 ^ 7 * n.tx.reserved.req.toNat + 2 ^ 8 * n.tx.reserved.rpy.toNat + 2 ^ 9 * n.tx.reserved.pst.toNat +
      2 ^ 10 * n.store.held + 2 ^ 17 * (if n.store.inRegion .req = [] then 0 else 1) +
      2 ^ 18 * (if n.store.inRegion .rpy = [] then 0 else 1) + 2 ^ 19 * (if n.store.inRegion .pst = [] then 0 else 1) +
      2 ^ 20 * n.store.awaitShared + 2 ^ 27 * n.store.awaitRes.req.toNat + 2 ^ 28 * n.store.awaitRes.rpy.toNat +
      2 ^ 29 * n.store.awaitRes.pst.toNat := by
  have hshared : n.tx.shared ≤ 72 := hcredit
  have hheld : n.store.held + n.store.awaitShared ≤ 72 := hstore
  simp only [Link.readCred, toNat_concat, classFlags_toNat, BitVec.toNat_ofNat, ← Store.regionHeld_toNat]
  omega

theorem shownCount_toNat (n : Nat) : (shownCount n).toNat = min 15 n := by
  rw [shownCount, BitVec.toNat_ofNat]
  omega

theorem Transmitter.busy_toNat {t : Transmitter} (h : t.StartedLaw) :
    t.busy.toNat = if ∃ e ∈ t.entries, e.started = true then 1 else 0 := by
  split
  next hstarted => rw [(t.busy_iff h).2 hstarted]; rfl
  next hidle => rw [Bool.eq_false_iff.2 fun hbusy => hidle ((t.busy_iff h).1 hbusy)]; rfl

theorem Link.readQueue_toNat {n : Link} (hqueue : n.tx.QueueLaw) (hstarted : n.tx.StartedLaw) : n.readQueue.toNat =
    (n.tx.queue .req).length + 2 ^ 5 * (n.tx.queue .rpy).length + 2 ^ 10 * (n.tx.queue .pst).length +
      2 ^ 15 * (if ∃ e ∈ n.tx.entries, e.started = true then 1 else 0) + 2 ^ 16 * n.tx.cur.code.toNat +
      2 ^ 20 * min 15 (n.store.queue .req).length + 2 ^ 24 * min 15 (n.store.queue .rpy).length +
      2 ^ 28 * min 15 (n.store.queue .pst).length := by
  obtain ⟨hreq, hrpy, hpst⟩ := hqueue
  simp only [Link.readQueue, toNat_concat, ofBool_toNat, shownCount_toNat, BitVec.toNat_ofNat,
    ← Transmitter.busy_toNat hstarted]
  omega

end Sys2Proof.Machine
end

section
/-! The statements on the read-only words of the window (specs 02, 03, 05, 07, 08, 09, 10, 11). -/

namespace Sys2Proof.Machine

/-- Settles O16: each word at its address, then its fields as a number; the codes one by one. -/
theorem hostWords : Obligations.HostWords := by
  unfold Obligations.HostWords
  refine ⟨fun s hs => ⟨readWord_rx_of_empty hs, fun e rest hcons => ⟨?_, ?_, readWord_rx_cell hs hcons⟩,
    readWord_cq_of_empty hs, fun r rest hcons => ⟨?_, ?_, readWord_cq_cell hs hcons⟩, fun r => ?_, fun r g hr => ?_,
    fun k => ?_, fun k => ?_, fun hnone => ⟨?_, ?_⟩, fun d hd => ⟨?_, ?_⟩, ?_, fun hinbound hjobs => ?_, ?_⟩,
    by decide, by decide, by decide, by decide, by decide⟩
  · rw [readWord_rxHdr hs, State.readRxHdr_toNat hcons]
  · rw [readWord_rxAux hs, State.readRxAux, hcons]
    exact BitVec.toNat_setWidth_of_le (by decide)
  · rw [readWord_cqHdr hs, State.readCqHdr_toNat hcons]
  · rw [readWord_cqAux hs, State.readCqAux_toNat hcons]
  · rw [readWord_req hs, ReqEntry.read_toNat]
  · rw [readWord_req hs, ReqEntry.read_toNat, hr]
    simp [ReqEntry.free, ReqState.code, statusCode]
  · rw [readWord_sync hs, SyncCounter.read_toNat]
  · rw [readWord_running s hs]
    exact s.readSyncSummary_bits k
  · rw [readWord_running s hs]
    exact State.readDropInfo_of_free hnone
  · rw [readWord_running s hs]
    exact State.readDropHdr_of_free hnone
  · rw [readWord_running s hs]
    exact State.readDropInfo_toNat hd
  · rw [readWord_running s hs]
    exact State.readDropHdr_toNat hd
  · rw [readWord_running s hs]
    exact BitVec.toNat_setWidth_of_le (b := s.events.dropCount) (by decide : 16 ≤ 32)
  · rw [readWord_status hs, State.readStatus_toNat hinbound hjobs, s.freeSlots_eq]
    rfl
  · rw [readWord_running s hs]
    exact s.readResult_toNat

/-- Settles O17: the three words of a link as numbers, under the laws of the counts they show. -/
theorem linkWords : Obligations.LinkWords := by
  unfold Obligations.LinkWords
  refine ⟨fun s l hs => ⟨?_, fun hcredit hstore => ?_, fun hqueue hstarted => ?_⟩, by decide, by decide, by decide⟩
  · rw [readWord_stat hs, Link.readStat_toNat]
  · rw [readWord_cred hs, Link.readCred_toNat hcredit hstore]
    rfl
  · rw [readWord_queue hs, Link.readQueue_toNat hqueue hstarted]
    rfl

end Sys2Proof.Machine
end

section
/-! SUPPORT. What the dispatch of a head can do to a link's own words, to its timers, to the lanes and to the request table;
that the rest of an event runs no timer out (R20, R47, R60, R115). -/

namespace Sys2Proof.Machine

/-- What the dispatches of heads leave as it was: a link's own words, and the lanes. A holdoff timer they start has units to
run, and an entry they change is done. -/
structure Routed (s t : State) : Prop where
  words   : ∀ l, (t.link l).state = (s.link l).state ∧ (t.link l).seen = (s.link l).seen ∧
              (t.link l).initTimer = (s.link l).initTimer ∧ (t.link l).holdTimer = (s.link l).holdTimer
  holdoff : ∀ l, (t.link l).store.holdoff = some 0 → (s.link l).store.holdoff = some 0
  lane    : t.lane = s.lane
  entry   : ∀ r, t.entry r = s.entry r ∨ (t.entry r).state = .done

namespace Routed

theorem trans {s t u : State} (h : Routed s t) (k : Routed t u) : Routed s u where
  words l := by
    obtain ⟨hstate, hseen, hinit, hhold⟩ := h.words l
    obtain ⟨kstate, kseen, kinit, khold⟩ := k.words l
    exact ⟨kstate.trans hstate, kseen.trans hseen, kinit.trans hinit, khold.trans hhold⟩
  holdoff l hout := h.holdoff l (k.holdoff l hout)
  lane := k.lane.trans h.lane
  entry r := (k.entry r).elim (fun same => same ▸ h.entry r) .inr

/-- What reads and writes neither the links, the lanes nor the table. -/
theorem of_same {s t : State} (hlinks : t.links = s.links) (hlane : t.lane = s.lane) (hreqs : t.reqs = s.reqs) : Routed s t where
  words l := by simp [State.link, hlinks]
  holdoff l := by simp [State.link, hlinks]
  lane := hlane
  entry r := .inl (by simp [State.entry, hreqs])

theorem refl (s : State) : Routed s s := .of_same rfl rfl rfl

theorem modLink (s : State) (l : LinkId) (f : Link → Link)
    (hwords : (f (s.link l)).state = (s.link l).state ∧ (f (s.link l)).seen = (s.link l).seen ∧
      (f (s.link l)).initTimer = (s.link l).initTimer ∧ (f (s.link l)).holdTimer = (s.link l).holdTimer)
    (hholdoff : (f (s.link l)).store.holdoff = some 0 → (s.link l).store.holdoff = some 0) : Routed s (s.modLink l f) where
  words m := by
    rw [State.link_modLink]
    split
    next hm => subst hm; exact hwords
    next => exact ⟨rfl, rfl, rfl, rfl⟩
  holdoff m := by
    rw [State.link_modLink]
    split
    next hm => subst hm; exact hholdoff
    next => exact id
  lane := rfl
  entry _ := .inl rfl

theorem completeAs (s : State) (r : ReqIx) {e : ReqEntry} (hdone : e.state = .done) : Routed s (s.completeAs r e) := by
  unfold State.completeAs
  split
  · refine ⟨fun _ => ⟨rfl, rfl, rfl, rfl⟩, fun _ => id, rfl, fun q => ?_⟩
    rw [State.latch_entry, State.pushCq_entry, State.entry_setEntry]
    split
    · exact .inr hdone
    · exact .inl rfl
  · exact .refl s

theorem takeReply (s : State) (h : Header) (data : List Cell) (o : Origin) : Routed s (s.takeReply h data o) := by
  unfold State.takeReply
  split
  · exact .completeAs s _ rfl
  · exact .of_same rfl rfl rfl

theorem signal (s : State) (tag : BitVec 6) : Routed s (s.signal tag) := by
  rw [State.signal, State.checkCounter_eq]
  exact .of_same rfl rfl rfl

theorem deliver (s : State) (l : LinkId) (p : StoredPacket) (d : Option Delivery) : Routed s (s.deliver l p d) := by
  rcases d with _ | _ | _ | _
  · exact .refl s
  · exact .of_same rfl rfl rfl
  · exact .signal s _
  · exact .takeReply s _ _ _

theorem createJob (s : State) (h : Header) (k : Option JobKind) : Routed s (s.createJob h k) := by
  cases k <;> exact .of_same rfl rfl rfl

theorem recordDrop (s : State) (l : LinkId) (h : Header) (why : Option DropReason) : Routed s (s.recordDrop l h why) := by
  cases why <;> exact .of_same rfl rfl rfl

theorem appendEntry (s : State) (l : LinkId) (e : EgressEntry) : Routed s (s.appendEntry l e) :=
  .modLink s l _ ⟨rfl, rfl, rfl, rfl⟩ id

theorem appendCopies (e : EgressEntry) : ∀ (ms : List LinkId) (s : State), Routed s (s.appendCopies ms e)
  | [], s => .refl s
  | m :: ms, s => (Routed.appendEntry s m e).trans (appendCopies e ms (s.appendEntry m e))

end Routed

/-- A release starts a holdoff timer only with units to run (R47). -/
theorem Link.release_holdoff {n : Link} {id : Nat} (h : (n.release id).store.holdoff = some 0) : n.store.holdoff = some 0 := by
  cases hp : n.store.packet id with
  | none => rwa [Link.release, hp] at h
  | some p =>
    have htimer := (Link.release_released hp).timer
    split at htimer
    · split at htimer
      · exact htimer.1.symm.trans h
      next hunits =>
        have hzero : n.ctrl.crHoldoff.toNat = 0 := Option.some.inj (htimer.1.symm.trans h)
        exact absurd (BitVec.eq_of_toNat_eq hzero) hunits
    · exact htimer.1.symm.trans h

theorem Link.dispatched_holdoff {n : Link} {id copies : Nat} (h : (n.dispatched id copies).store.holdoff = some 0) :
    n.store.holdoff = some 0 := by
  unfold Link.dispatched at h
  split at h
  · exact Link.release_holdoff h
  · exact h

theorem Routed.dispatched (s : State) (l : LinkId) (id copies : Nat) : Routed s (s.modLink l (fun n => n.dispatched id copies)) := by
  obtain ⟨-, -, -, hstate, -, hseen, hinit, hhold⟩ := (s.link l).dispatched_words id copies
  exact .modLink s l _ ⟨hstate, hseen, hinit, hhold⟩ Link.dispatched_holdoff

theorem Routed.dispatchJob (s : State) (j : Job) : Routed s (s.dispatchJob j) := by
  unfold State.dispatchJob
  split
  · exact (Routed.takeReply s _ _ _).trans (.of_same rfl rfl rfl)
  · split
    · exact .of_same rfl rfl rfl
    · exact (Routed.appendEntry s _ _).trans (.of_same rfl rfl rfl)

theorem Routed.dispatchSource (s : State) (r : RouteSource) : Routed s (s.dispatchSource r) := by
  have positioned (t : State) (p : Fin 13) : Routed t (t.setPosition p) := .of_same rfl rfl rfl
  cases r with
  | ingress l c =>
    cases hp : s.ingressHead l c with
    | none => simpa [State.dispatchSource, hp] using Routed.refl s
    | some p =>
      rw [State.dispatchSource_ingress hp, State.applyPlan]
      exact ((((Routed.createJob s _ _).trans (.deliver _ l p _)).trans (.recordDrop _ l _ _)).trans
        (.appendCopies _ _ _)).trans ((Routed.dispatched _ l p.id _).trans (positioned _ _))
  | responder =>
    cases hj : s.jobHead with
    | none => simpa [State.dispatchSource, hj] using Routed.refl s
    | some j =>
      simp only [State.dispatchSource, hj]
      exact (Routed.dispatchJob s j).trans (positioned _ _)

/-! ### Timers that are out (R166) -/

/-- No timer is out in `t` that was not in `s`. -/
def TimersKept (s t : State) : Prop := ∀ x, t.timerOut x = true → s.timerOut x = true

namespace TimersKept

theorem trans {s t u : State} (h : TimersKept s t) (k : TimersKept t u) : TimersKept s u := fun x hx => h x (k x hx)

theorem of_parts {s t : State} (hhold : ∀ l, (t.link l).holdTimer = some 0 → (s.link l).holdTimer = some 0)
    (hinit : ∀ l, (t.link l).initTimer = some 0 → (s.link l).initTimer = some 0)
    (hholdoff : ∀ l, (t.link l).store.holdoff = some 0 → (s.link l).store.holdoff = some 0)
    (hentry : ∀ r, t.entry r = s.entry r ∨ (t.entry r).state = .done) : TimersKept s t := by
  intro x hx
  cases x with
  | hold l => exact decide_eq_true (hhold l (of_decide_eq_true hx))
  | init l => exact decide_eq_true (hinit l (of_decide_eq_true hx))
  | holdoff l => exact decide_eq_true (hholdoff l (of_decide_eq_true hx))
  | request r =>
    rcases hentry r with same | hdone
    · rw [State.timerOut, same] at hx
      exact hx
    · simp [State.timerOut, ReqEntry.timerRuns, hdone] at hx

theorem modLink (s : State) (l : LinkId) (f : Link → Link)
    (hhold : (f (s.link l)).holdTimer = some 0 → (s.link l).holdTimer = some 0)
    (hinit : (f (s.link l)).initTimer = some 0 → (s.link l).initTimer = some 0)
    (hholdoff : (f (s.link l)).store.holdoff = some 0 → (s.link l).store.holdoff = some 0) : TimersKept s (s.modLink l f) := by
  have kept {α : Type} (g : Link → Option α) (x : Option α) (h : g (f (s.link l)) = x → g (s.link l) = x) (m : LinkId) :
      g ((s.modLink l f).link m) = x → g (s.link m) = x := by
    rw [State.link_modLink]
    split
    next hm => subst hm; exact h
    next => exact id
  exact .of_parts (kept Link.holdTimer _ hhold) (kept Link.initTimer _ hinit) (kept (·.store.holdoff) _ hholdoff)
    fun _ => .inl rfl

theorem of_routed {s t : State} (h : Routed s t) : TimersKept s t :=
  .of_parts (fun l hout => (h.words l).2.2.2 ▸ hout) (fun l hout => (h.words l).2.2.1 ▸ hout) h.holdoff h.entry

theorem of_same {s t : State} (hlinks : t.links = s.links) (hreqs : t.reqs = s.reqs) : TimersKept s t :=
  .of_parts (fun l => by simp [State.link, hlinks]) (fun l => by simp [State.link, hlinks])
    (fun l => by simp [State.link, hlinks]) (fun r => .inl (by simp [State.entry, hreqs]))

theorem send (s : State) (l : LinkId) (cells : List LaneCell) : TimersKept s (s.send l cells) := .of_same rfl rfl

theorem decideStart (s : State) (l : LinkId) : TimersKept s (s.decideStart l) := by
  cases hchoose : (s.link l).tx.choose (s.link l).ctrl.quantum with
  | none => rw [State.decideStart_of_none hchoose]; exact fun _ => id
  | some choice =>
    obtain ⟨e, rest, hqueue⟩ := Transmitter.choose_head hchoose
    rw [State.decideStart_of_some hchoose hqueue]
    exact (TimersKept.send s l _).trans (.modLink _ l _ id id id)

theorem boundary (s : State) (l : LinkId) : TimersKept s (s.boundary l) := by
  cases hdue : (s.link l).creditDue with
  | false => rw [State.boundary_of_not_due hdue]; exact .decideStart s l
  | true =>
    rw [State.boundary_of_due hdue]
    exact ((TimersKept.send s l _).trans (.modLink _ l _ id id fun h => nomatch (h : none = some 0))).trans (.decideStart _ l)

theorem enterWaitPeer (s : State) (l : LinkId) : TimersKept s (s.enterWaitPeer l) :=
  (TimersKept.modLink s l Link.enterWaitPeer id (fun h => by cases h) id).trans (.send _ l _)

/-- The rest of an event runs no timer out. -/
theorem settle (s : State) : TimersKept s (settle s) :=
  settle_induct (P := TimersKept s) (fun t r _ h => h.trans (.of_routed (.dispatchSource t r)))
    (fun t l _ h => h.trans (.boundary t l)) (fun t l _ h => h.trans (.enterWaitPeer t l)) (fun _ h => h.trans (.of_same rfl rfl))
    fun _ => id

end TimersKept

end Sys2Proof.Machine
end

section
/-! SUPPORT. The timers' expiries on a released part, and the end of a unit (R19, R20, R22, R47, R115, R166). -/

namespace Sys2Proof.Machine

/-! ### The rows while RESET is released (R176) -/

section Rows

variable {s : State} (h : s.inReset = false)
include h

theorem exec_waitPeerEntry (l : LinkId) : exec (.waitPeerEntry l) s = .next (s.leaveHold l) :=
  congrArg Host.Outcome.next (State.unlessReset_of_released (·.leaveHold l) h)

theorem exec_holdTimerExpiry (l : LinkId) : exec (.holdTimerExpiry l) s = .next (s.holdExpiry l) :=
  congrArg Host.Outcome.next (State.unlessReset_of_released (·.holdExpiry l) h)

theorem exec_initTimerExpiry (l : LinkId) : exec (.initTimerExpiry l) s = .next (s.initExpiry l) :=
  congrArg Host.Outcome.next (State.unlessReset_of_released (·.initExpiry l) h)

theorem exec_creditHoldoffExpiry (l : LinkId) : exec (.creditHoldoffExpiry l) s = .next (s.holdoffExpiry l) :=
  congrArg Host.Outcome.next (State.unlessReset_of_released (·.holdoffExpiry l) h)

theorem exec_requestTimerExpiry (r : ReqIx) : exec (.requestTimerExpiry r) s = .next (s.requestExpiry r) :=
  congrArg Host.Outcome.next (State.unlessReset_of_released (·.requestExpiry r) h)

end Rows

/-! ### One timer's expiry -/

section Expiry

variable {s : State} {l : LinkId}

theorem State.holdExpiry_of_running (hstate : (s.link l).state = .hold) (hruns : (s.link l).holdTimer ≠ none) :
    s.holdExpiry l = settle (s.modLink l (fun n => { n with holdTimer := none })) :=
  if_pos ⟨hstate, Option.isSome_iff_ne_none.2 hruns⟩

theorem State.holdExpiry_of_stopped (h : (s.link l).state ≠ .hold ∨ (s.link l).holdTimer = none) : s.holdExpiry l = s :=
  if_neg fun ⟨hstate, hruns⟩ => h.elim (· hstate) (Option.isSome_iff_ne_none.1 hruns)

theorem State.initExpiry_of_running (hstate : (s.link l).state = .waitPeer) (hruns : (s.link l).initTimer ≠ none) :
    s.initExpiry l = (s.modLink l (fun n => { n with initTimer := some 128 })).sendInit l (s.link l).seen :=
  if_pos ⟨hstate, Option.isSome_iff_ne_none.2 hruns⟩

theorem State.initExpiry_of_stopped (h : (s.link l).state ≠ .waitPeer ∨ (s.link l).initTimer = none) : s.initExpiry l = s :=
  if_neg fun ⟨hstate, hruns⟩ => h.elim (· hstate) (Option.isSome_iff_ne_none.1 hruns)

theorem State.holdoffExpiry_of_running (hruns : (s.link l).store.holdoff ≠ none) : s.holdoffExpiry l =
    settle (s.modLink l (fun n => { n with store := { n.store with holdoff := none, elapsed := true } })) :=
  if_pos (Option.isSome_iff_ne_none.2 hruns)

theorem State.holdoffExpiry_of_stopped (h : (s.link l).store.holdoff = none) : s.holdoffExpiry l = s :=
  if_neg fun hruns => Option.isSome_iff_ne_none.1 hruns h

theorem State.requestExpiry_of_running {r : ReqIx} (hruns : (s.entry r).timerRuns = true) : s.requestExpiry r =
    ((s.setEntry r ((s.entry r).completed .timeout)).pushCq r).latch .completion := by
  have hsent : (s.entry r).state = .sent := (of_decide_eq_true hruns).1
  exact (if_pos hruns).trans (State.completeAs_active _ (.inr hsent))

theorem State.requestExpiry_of_stopped {r : ReqIx} (h : (s.entry r).timerRuns = false) : s.requestExpiry r = s :=
  if_neg (Bool.eq_false_iff.1 h)

/-! ### The exit from HOLD (R20) -/

theorem State.leaveHold_of_drained (h : (s.link l).drained = true) : s.leaveHold l = s.enterWaitPeer l := if_pos h

theorem State.leaveHold_of_not_drained (h : ¬ (s.link l).drained = true) : s.leaveHold l = s := if_neg h

theorem Link.drained_iff {n : Link} : n.drained = true ↔ n.state = .hold ∧ n.holdTimer = none ∧ n.store.packets = [] := by
  simp [Link.drained, and_assoc]

theorem State.enterWaitPeer_link (s : State) (l m : LinkId) :
    (s.enterWaitPeer l).link m = if m = l then (s.link m).enterWaitPeer else s.link m := by
  rw [State.enterWaitPeer, State.sendInit, State.send_link, State.link_modLink]

theorem State.enterWaitPeer_sent (s : State) (l m : LinkId) : (s.enterWaitPeer l).sent m =
    if m = l then s.sent m ++ [⟨true, initCell s.port.node false⟩] else s.sent m := by
  rw [State.enterWaitPeer, State.sendInit, State.sent_send]
  split
  next hm => subst hm; rfl
  next => rfl

/-- The link that left HOLD keeps its words and its lane through the rest of the event: only a link that is UP or drained
acts in it. -/
structure Waits (l : LinkId) (cells : List LaneCell) (t : State) : Prop where
  state : (t.link l).state = .waitPeer
  words : (t.link l).holdTimer = none ∧ (t.link l).seen = false ∧ (t.link l).initTimer = some 128
  sent  : t.sent l = cells

theorem Waits.of_same {l : LinkId} {cells : List LaneCell} {t u : State} (h : Waits l cells t) (hlink : u.link l = t.link l)
    (hsent : u.sent l = t.sent l) : Waits l cells u := by
  constructor
  · rw [hlink]; exact h.state
  · rw [hlink]; exact h.words
  · rw [hsent]; exact h.sent

theorem Waits.dispatchSource {l : LinkId} {cells : List LaneCell} {t : State} (h : Waits l cells t) (r : RouteSource) :
    Waits l cells (t.dispatchSource r) := by
  have routed := Routed.dispatchSource t r
  obtain ⟨hstate, hseen, hinit, hhold⟩ := routed.words l
  obtain ⟨wstate, ⟨whold, wseen, winit⟩, wsent⟩ := h
  refine ⟨hstate.trans wstate, ⟨hhold.trans whold, hseen.trans wseen, hinit.trans winit⟩, Eq.trans ?_ wsent⟩
  rw [State.sent, State.sent, routed.lane]

theorem State.boundary_sent_ne (s : State) {l m : LinkId} (hm : m ≠ l) : (s.boundary l).sent m = s.sent m := by
  have starts : ∀ t : State, (t.decideStart l).sent m = t.sent m := fun t => ((t.decideStart_frame l).2.2.2 m hm).2
  cases hdue : (s.link l).creditDue with
  | false => rw [State.boundary_of_not_due hdue, starts]
  | true => rw [State.boundary_of_due hdue, starts, (s.sendCredit_others hm).2]

theorem Waits.boundary {l m : LinkId} {cells : List LaneCell} {t : State} (h : Waits l cells t)
    (hm : (t.link m).canAct = true) : Waits l cells (t.boundary m) := by
  have hne : l ≠ m := by
    rintro rfl
    cases h.state.symm.trans (Link.canAct_iff hm).1
  exact h.of_same (t.boundary_link_ne hne) (t.boundary_sent_ne hne)

theorem Waits.enterWaitPeer {l m : LinkId} {cells : List LaneCell} {t : State} (h : Waits l cells t)
    (hm : (t.link m).drained = true) : Waits l cells (t.enterWaitPeer m) := by
  have hne : l ≠ m := by
    rintro rfl
    cases h.state.symm.trans (Link.drained_hold hm)
  exact h.of_same ((t.enterWaitPeer_link m l).trans (if_neg hne)) ((t.enterWaitPeer_sent m l).trans (if_neg hne))

theorem Waits.settle {l : LinkId} {cells : List LaneCell} {t : State} (h : Waits l cells t) : Waits l cells (settle t) :=
  settle_induct (P := Waits l cells) (fun _ r _ h => h.dispatchSource r) (fun _ _ hm h => h.boundary hm)
    (fun _ _ hm h => h.enterWaitPeer hm) (fun _ h => h.of_same rfl rfl) h

theorem settle_leaveHolds (s : State) : Sys2Proof.Machine.settle s.leaveHolds = Sys2Proof.Machine.settle s := by
  rw [Sys2Proof.Machine.settle, Sys2Proof.Machine.settle, State.leaveHolds_of_none_drained s.leaveHolds_drained]

theorem State.leaveHold_sent (s : State) (l m : LinkId) : (s.leaveHold l).sent m =
    if m = l ∧ (s.link m).drained = true then s.sent m ++ [⟨true, initCell s.port.node false⟩] else s.sent m := by
  unfold State.leaveHold
  by_cases hm : m = l
  · subst hm
    split <;> simp_all [State.enterWaitPeer_sent]
  · split <;> simp [State.enterWaitPeer_sent, hm]

theorem State.leaveHold_port (s : State) (l : LinkId) : (s.leaveHold l).port = s.port := by
  unfold State.leaveHold
  split <;> rfl

theorem State.leaveHolds_sent (s : State) (l : LinkId) : s.leaveHolds.sent l =
    if (s.link l).drained = true then s.sent l ++ [⟨true, initCell s.port.node false⟩] else s.sent l := by
  simp only [State.leaveHolds, linkIds, List.foldl_cons, List.foldl_nil, State.leaveHold_sent, State.leaveHold_link,
    State.leaveHold_port]
  fin_cases l <;> simp

/-- A link drained by an event is in WAIT_PEER at its end, with one INIT sent (R20, R22). -/
theorem settle_waits {s : State} {l : LinkId} (h : (s.link l).drained = true) :
    Waits l (s.sent l ++ [⟨true, initCell s.port.node false⟩]) (Sys2Proof.Machine.settle s) := by
  have hlink : s.leaveHolds.link l = (s.link l).enterWaitPeer := (s.leaveHolds_link l).trans (if_pos h)
  obtain ⟨-, hhold, -⟩ := Link.drained_iff.1 h
  rw [← settle_leaveHolds]
  refine Waits.settle ⟨?_, ?_, (s.leaveHolds_sent l).trans (if_pos h)⟩
  · rw [hlink]; rfl
  · rw [hlink]; exact ⟨hhold, rfl, rfl⟩

end Expiry

/-! ### The end of a unit (R166) -/

theorem mem_timerIds (x : TimerId) : x ∈ timerIds := by
  cases x with
  | hold l => simp [timerIds, mem_linkIds]
  | init l => simp [timerIds, mem_linkIds]
  | holdoff l => simp [timerIds, mem_linkIds]
  | request r => simp [timerIds, mem_reqIxs]

/-- A timer that is out runs no more once it has expired, and its expiry runs no other out. -/
theorem State.expire_spends {s : State} (h : ∀ l, (s.link l).TimerLaw) {x : TimerId} (hx : s.timerOut x = true) :
    TimersKept s (s.expire x) ∧ (s.expire x).timerOut x = false := by
  have spent : ∀ u, TimersKept s u → u.timerOut x = false → TimersKept s (settle u) ∧ (settle u).timerOut x = false :=
    fun u hu hout => ⟨hu.trans (.settle u), Bool.eq_false_iff.2 fun hback =>
      Bool.false_ne_true (hout.symm.trans (TimersKept.settle u x hback))⟩
  cases x with
  | hold l =>
    have hzero : (s.link l).holdTimer = some 0 := of_decide_eq_true hx
    have hstate : (s.link l).state = .hold := (h l).2 (by rw [hzero]; rfl)
    rw [State.expire, State.holdExpiry_of_running hstate (by simp [hzero])]
    exact spent _ (.modLink s l _ nofun id id) (by simp [State.timerOut])
  | init l =>
    have hzero : (s.link l).initTimer = some 0 := of_decide_eq_true hx
    have hstate : (s.link l).state = .waitPeer := (h l).1.1 (by rw [hzero]; rfl)
    rw [State.expire, State.initExpiry_of_running hstate (by simp [hzero])]
    exact ⟨(TimersKept.modLink s l _ id (fun e => by cases e) id).trans (.send _ l _), by
      simp [State.timerOut, State.sendInit]⟩
  | holdoff l =>
    have hzero : (s.link l).store.holdoff = some 0 := of_decide_eq_true hx
    rw [State.expire, State.holdoffExpiry_of_running (by simp [hzero])]
    exact spent _ (.modLink s l _ id id nofun) (by simp [State.timerOut])
  | request r =>
    have hruns : (s.entry r).timerRuns = true := (Bool.and_eq_true_iff.1 hx).1
    have routed : Routed s (s.requestExpiry r) := by
      rw [State.requestExpiry, if_pos hruns]
      exact .completeAs s r rfl
    have hentry : (s.requestExpiry r).entry r = (s.entry r).completed .timeout := by
      rw [State.requestExpiry_of_running hruns]
      exact (State.entry_setEntry s r r _).trans (if_pos rfl)
    refine ⟨.of_routed routed, ?_⟩
    rw [State.expire, State.timerOut, hentry]
    rfl

theorem State.expire_timerLaw {s : State} (h : ∀ l, (s.link l).TimerLaw) (x : TimerId) (l : LinkId) :
    ((s.expire x).link l).TimerLaw :=
  kept_of_moves (fun _ _ m hn => m.timerLaw hn) ((Evolves.expire s x).links l) (h l)

/-- The timers that are out. -/
def State.timersOut (s : State) : List TimerId := timerIds.filter (fun x => s.timerOut x)

theorem State.mem_timersOut {s : State} {x : TimerId} : x ∈ s.timersOut ↔ s.timerOut x = true := by
  simp [State.timersOut, mem_timerIds]

/-- Each expiry leaves fewer timers out. -/
theorem State.expire_timersOut {s : State} (h : ∀ l, (s.link l).TimerLaw) {x : TimerId} (hx : s.timerOut x = true) :
    (s.expire x).timersOut.length < s.timersOut.length := by
  obtain ⟨kept, spent⟩ := State.expire_spends h hx
  have nested : (s.expire x).timersOut = s.timersOut.filter (fun y => (s.expire x).timerOut y) := by
    rw [State.timersOut, State.timersOut, List.filter_filter]
    refine List.filter_congr fun y _ => ?_
    cases hy : (s.expire x).timerOut y with
    | false => rfl
    | true => rw [kept y hy]; rfl
  rw [nested, List.length_filter_lt_length_iff_exists]
  exact ⟨x, State.mem_timersOut.2 hx, Bool.eq_false_iff.1 spent⟩

theorem expireAll_of_none_out {s : State} (h : ∀ x, s.timerOut x = false) (n : Nat) : expireAll n s = s := by
  cases n with
  | zero => rfl
  | succ n => simp [expireAll, h]

theorem State.pickTimer_mem (s : State) (x : TimerId) (xs : List TimerId) : s.pickTimer x xs ∈ x :: xs := by
  have hlt : Config.nextExpiry s.choices % (xs.length + 1) < (x :: xs).length := Nat.mod_lt _ (Nat.succ_pos _)
  rw [State.pickTimer, List.getD_eq_getElem _ _ hlt]
  exact List.getElem_mem hlt

/-- As many expiries as there are timers out leave none out (R166). -/
theorem expireAll_spends : ∀ (n : Nat) (s : State), (∀ l, (s.link l).TimerLaw) → s.timersOut.length ≤ n →
    ∀ x, (expireAll n s).timerOut x = false := by
  intro n
  induction n with
  | zero =>
    intro s _ hn x
    have hnone : s.timersOut = [] := List.length_eq_zero_iff.1 (Nat.le_zero.1 hn)
    exact Bool.eq_false_iff.2 fun hx => List.not_mem_nil (hnone ▸ State.mem_timersOut.2 hx)
  | succ n ih =>
    intro s h hn x
    have fewer : ∀ y, s.timerOut y = true → (s.expire y).timersOut.length ≤ n := fun y hy => by
      have := State.expire_timersOut h hy
      omega
    have member : ∀ {y : TimerId} {ys : List TimerId}, y ∈ ys → timerIds.filter (fun t => s.timerOut t) = ys →
        s.timerOut y = true := fun hy hys => State.mem_timersOut.1 (by rwa [State.timersOut, hys])
    unfold expireAll
    split
    next hnone => exact Bool.eq_false_iff.2 fun hx => List.filter_eq_nil_iff.1 hnone x (mem_timerIds x) hx
    next y hone =>
      exact ih _ (State.expire_timerLaw h y) (fewer y (member (List.mem_singleton_self y) hone)) x
    next y z ys hmore =>
      have hpick := member (s.pickTimer_mem y (z :: ys)) hmore
      have hlaw : ∀ l, (s.bumpChoices.link l).TimerLaw := h
      have hout : s.bumpChoices.timerOut (s.pickTimer y (z :: ys)) = true := hpick
      have hless := State.expire_timersOut hlaw hout
      have hsame : s.bumpChoices.timersOut = s.timersOut := rfl
      exact ih _ (State.expire_timerLaw hlaw _) (by rw [hsame] at hless; omega) x

/-! ### An idle step (R166) -/

section Idle

variable {s : State} (hs : s.inReset = false) (hidle : s.pending = [])
include hs hidle

theorem step_of_idle : step s = .next s.period := by
  rw [step, hidle]
  exact congrArg _ (State.unlessReset_of_released State.period hs)

theorem step_within_unit (h : s.divider + 1 < s.port.tbDiv.toNat) : step s = .next { s with divider := s.divider + 1 } := by
  rw [step_of_idle hs hidle, State.period, if_neg (Nat.not_le.2 h)]

theorem step_ends_unit (h : s.port.tbDiv.toNat ≤ s.divider + 1) :
    step s = .next (expireAll timerIds.length { s.countUnit with divider := 0 }) := by
  rw [step_of_idle hs hidle, State.period, if_pos h]

end Idle

/-- A timer with at least two units left is not out at the end of one. -/
theorem timer_left {x : Option Nat} (h : ∀ y, x = some y → 2 ≤ y) : x.map (· - 1) ≠ some 0 := by
  cases x with
  | none => nofun
  | some y =>
    have := h y rfl
    simp only [Option.map_some, ne_eq, Option.some.injEq]
    omega

theorem ReqEntry.unitEnd_not_out {e : ReqEntry} (h : e.timerRuns = true → 2 ≤ e.remaining) :
    (e.unitEnd.timerRuns && decide (e.unitEnd.remaining = 0)) = false := by
  cases hruns : e.timerRuns with
  | false => rw [ReqEntry.unitEnd, hruns, if_neg nofun, hruns]; rfl
  | true =>
    have htwo := h hruns
    have hleft : ¬ e.remaining - 1#16 = 0#16 := by bv_omega
    rw [ReqEntry.unitEnd, hruns, if_pos rfl]
    simp [hleft]

theorem State.countUnit_none_out {s : State}
    (hlinks : ∀ l x, ((s.link l).holdTimer = some x ∨ (s.link l).initTimer = some x ∨ (s.link l).store.holdoff = some x) → 2 ≤ x)
    (hreqs : ∀ r, (s.entry r).timerRuns = true → 2 ≤ (s.entry r).remaining) (x : TimerId) : s.countUnit.timerOut x = false := by
  cases x with
  | hold l =>
    rw [State.timerOut, s.countUnit_link]
    exact decide_eq_false (timer_left fun y hy => hlinks l y (.inl hy))
  | init l =>
    rw [State.timerOut, s.countUnit_link]
    exact decide_eq_false (timer_left fun y hy => hlinks l y (.inr (.inl hy)))
  | holdoff l =>
    rw [State.timerOut, s.countUnit_link]
    exact decide_eq_false (timer_left fun y hy => hlinks l y (.inr (.inr hy)))
  | request r =>
    rw [State.timerOut, s.countUnit_entry]
    exact ReqEntry.unitEnd_not_out (hreqs r)

end Sys2Proof.Machine
end

section
/-! The statements on time and the timers (specs 02, 03, 07, 10). -/

namespace Sys2Proof.Machine

/-- Settles O33: a drained link enters WAIT_PEER at once, whether WAIT_PEER_ENTRY or the hold timer's end drained it. -/
theorem holdEnds : Obligations.HoldEnds := by
  unfold Obligations.HoldEnds
  intro s l hs
  refine ⟨fun hstate hempty => ⟨fun hstopped => ?_, fun hruns => ?_⟩, fun hstate hheld => ⟨?_, fun hruns => ?_⟩,
    fun hstays => ?_, fun hstopped => ?_⟩
  · refine ⟨_, (exec_waitPeerEntry hs l).trans
      (congrArg _ (State.leaveHold_of_drained (Link.drained_iff.2 ⟨hstate, hstopped, hempty⟩))), ?_, fun m hm => ⟨?_, ?_⟩, ?_, rfl⟩
    · exact (s.enterWaitPeer_link l l).trans (if_pos rfl)
    · exact (s.enterWaitPeer_link l m).trans (if_neg hm)
    · exact (s.enterWaitPeer_sent l m).trans (if_neg hm)
    · exact (s.enterWaitPeer_sent l l).trans (if_pos rfl)
  · have hdrained : ((s.modLink l (fun n => { n with holdTimer := none })).link l).drained = true := by
      rw [State.link_modLink_self]
      exact Link.drained_iff.2 ⟨hstate, rfl, hempty⟩
    obtain ⟨hwait, ⟨hhold, hseen, hinit⟩, hsent⟩ := settle_waits hdrained
    exact ⟨_, (exec_holdTimerExpiry hs l).trans (congrArg _ (State.holdExpiry_of_running hstate hruns)),
      hwait, hhold, hseen, hinit, hsent⟩
  · rw [exec_waitPeerEntry hs, State.leaveHold_of_not_drained fun hdrained => hheld (Link.drained_iff.1 hdrained).2.2]
  · exact exec_endsAs ((exec_holdTimerExpiry hs l).trans (congrArg _ (State.holdExpiry_of_running hstate hruns)))
  · rw [exec_waitPeerEntry hs, State.leaveHold_of_not_drained fun hdrained => ?_]
    obtain ⟨hstate, hstopped, -⟩ := Link.drained_iff.1 hdrained
    exact hstays.elim (· hstate) (· hstopped)
  · rw [exec_holdTimerExpiry hs, State.holdExpiry_of_stopped hstopped]

/-- Settles O34: each timer's expiry where it runs, and nothing where it does not. -/
theorem linkTimersExpire : Obligations.LinkTimersExpire := by
  unfold Obligations.LinkTimersExpire
  refine ⟨fun s l hs => ⟨fun hstate hruns => ?_, fun hstopped => ?_⟩,
    fun s l hs => ⟨fun hruns => ?_, fun hstopped => ?_, fun hup helapsed => ?_⟩,
    fun s r hs => ⟨fun hsent hcaptured => ?_, fun hstopped => ?_⟩⟩
  · refine ⟨_, (exec_initTimerExpiry hs l).trans (congrArg _ (State.initExpiry_of_running hstate hruns)), ?_, fun m hm => ?_,
      ?_, fun m hm => ?_, rfl⟩
    · rw [State.sendInit, State.send_link]
      exact State.link_modLink_self s l _
    · rw [State.sendInit, State.send_link]
      exact State.link_modLink_ne s _ hm
    · exact (State.sent_send _ l l _).trans (if_pos rfl)
    · exact (State.sent_send _ l m _).trans (if_neg hm)
  · rw [exec_initTimerExpiry hs, State.initExpiry_of_stopped hstopped]
  · exact exec_endsAs ((exec_creditHoldoffExpiry hs l).trans (congrArg _ (State.holdoffExpiry_of_running hruns)))
  · rw [exec_creditHoldoffExpiry hs, State.holdoffExpiry_of_stopped hstopped]
  · simp [Link.creditDue, hup, helapsed]
  · have hruns : (s.entry r).timerRuns = true := decide_eq_true ⟨hsent, hcaptured⟩
    refine ⟨_, (exec_requestTimerExpiry hs r).trans (congrArg _ (State.requestExpiry_of_running hruns)), ?_, fun q hq => ?_,
      rfl, rfl, rfl⟩
    · exact (State.entry_setEntry s r r _).trans (if_pos rfl)
    · exact (State.entry_setEntry s r q _).trans (if_neg hq)
  · have hstops : (s.entry r).timerRuns = false :=
      decide_eq_false fun ⟨hsent, hcaptured⟩ => hstopped.elim (· hsent) hcaptured
    rw [exec_requestTimerExpiry hs, State.requestExpiry_of_stopped hstops]

/-- Settles O3: within a unit only the divider moves; at its end each timer has one unit less, and expiries follow until none
is left out. -/
theorem idleStepCountsTime : Obligations.IdleStepCountsTime := by
  unfold Obligations.IdleStepCountsTime
  refine fun s hs hidle => ⟨step_within_unit hs hidle, fun hend hlinks hreqs => ?_, fun hend hlaw => ?_⟩
  · have hnone : ∀ x, ({ s.countUnit with divider := 0 } : State).timerOut x = false :=
      fun x => State.countUnit_none_out hlinks hreqs x
    refine ⟨{ s.countUnit with divider := 0 }, ?_, rfl, s.countUnit_link, s.countUnit_entry, rfl⟩
    rw [step_ends_unit hs hidle hend, expireAll_of_none_out hnone]
  · refine ⟨_, step_ends_unit hs hidle hend, expireAll_spends _ _ (fun l => ?_) (List.length_filter_le _ _)⟩
    have hunit := (Link.Move.unit (s.link l)).timerLaw (hlaw l)
    rw [← s.countUnit_link] at hunit
    exact hunit

end Sys2Proof.Machine
end
